-- ==== Sys2Proof/Word.lean ====
section
/-! DEFINITION. The word types of the core (00_scope.md R10, R11). -/

namespace Sys2Proof

/-- A u8: a DATA byte, a wire byte, a CRC-8 value. -/
abbrev Byte := BitVec 8

/-- A u16: a device address as it goes on the wire, a CRC-16 value. -/
abbrev HWord := BitVec 16

/-- A host register or a command word (R10). -/
abbrev Word := BitVec 32

end Sys2Proof
end

