-- ==== Sys2Proof/Machine/Bytes.lean ====
section
/-! DEFINITION. Bytes, byte sequences and byte order (00_scope.md R11, R12; 20_memory.md R80). -/

namespace Sys2Proof.Machine

/-- `lo(v) = v[7:0]` (R11). -/
def lo (v : HWord) : Byte := v.extractLsb' 0 8

/-- `hi(v) = v[15:8]` (R11). -/
def hi (v : HWord) : Byte := v.extractLsb' 8 8

/-- A u16 on the wire: least significant byte first (R12, R80). -/
def wire16 (v : HWord) : List Byte := [lo v, hi v]

/-- The u16 whose wire bytes are `l` then `h` (R80, R87). -/
def ofWire16 (l h : Byte) : HWord := h ++ l

/-- `rep(v, n)` (R12). -/
def rep (v : Byte) (n : Nat) : List Byte := List.replicate n v

/-- `FF*n` (R12). -/
def ff (n : Nat) : List Byte := rep 0xFF n

/-- `s[i..j)` (R12). -/
def slice (s : List Byte) (i j : Nat) : List Byte := (s.drop i).take (j - i)

/-- `s[i]` (R12), 0 past the end: no rule reads past the end. -/
def byteAt (s : List Byte) (i : Nat) : Byte := s.getD i 0

/-- `s` cut or extended to length `n`, the missing element `i` being `pad i`. -/
def fit (n : Nat) (s : List Byte) (pad : Nat → Byte) : List Byte :=
  (s ++ (List.range (n - s.length)).map fun i => pad (s.length + i)).take n

/-- The low `n` bytes of a host word, least significant first (R80). -/
def leBytes (v : Word) (n : Nat) : List Byte := (List.range n).map fun i => v.extractLsb' (8 * i) 8

/-- The word whose bytes are `s`, least significant first, zero-extended (R80). -/
def leWord (s : List Byte) : Word :=
  s.foldr (fun b w => (w <<< 8) ||| b.setWidth 32) 0

/-- The eight ROM id bytes: byte i is `ROM_LO[8i+7:8i]`, then `ROM_HI[8(i-4)+7:8(i-4)]` (10_state.md R38). -/
def romBytes (romLo romHi : Word) : List Byte := leBytes romLo 4 ++ leBytes romHi 4

end Sys2Proof.Machine
end

