-- ==== Sys2Proof/Syntax.lean ====
section
/-! DEFINITION. The 26 commands (30_encoding.md R123), one constructor per row of opcode_table.json.
A bank id and a slot are indices, a CRC seed or byte is a bit vector, a flag is a Bool (R121). -/

namespace Sys2Proof

inductive Instr where
  /-- `CRC8_SEED`: SEED8 = imm[7:0] (41_crc.md R148) -/
  | crc8Seed (seed : Byte)
  /-- `CRC8_BYTE`: BYTE = imm[7:0] (R149) -/
  | crc8Byte (byte : Byte)
  /-- `CRC8_BLOCK` (R150) -/
  | crc8Block
  /-- `CRC8_CHECK` (R151) -/
  | crc8Check
  /-- `CRC16_SEED`: SEED16 = imm[15:0] (R152) -/
  | crc16Seed (seed : HWord)
  /-- `CRC16_BYTE`: BYTE = imm[7:0] (R153) -/
  | crc16Byte (byte : Byte)
  /-- `CRC16_BLOCK` (R154) -/
  | crc16Block
  /-- `CRC16_CHECK` (R155) -/
  | crc16Check
  /-- `READ_PAGE`: C = imm[0], X = imm[1] (42_paged_memory.md R168) -/
  | readPage (bank : Nat) (c x : Bool)
  /-- `READ_BYTES`: C = imm[0] (R169) -/
  | readBytes (bank : Nat) (c : Bool)
  /-- `WRITE` (R175) -/
  | write (bank : Nat)
  /-- `READ_PAGE_PACKET`: C = imm[0] (R177) -/
  | readPagePacket (bank : Nat) (c : Bool)
  /-- `WRITE_PAGE_PACKET` (R178) -/
  | writePagePacket (bank : Nat)
  /-- `SP_STAGE` (43_scratchpad.md R206) -/
  | spStage (bank : Nat)
  /-- `SP_CONFIRM` (R207) -/
  | spConfirm (bank : Nat)
  /-- `SP_COMMIT` (R208) -/
  | spCommit (bank : Nat)
  /-- `LOCK_PAGE` (44_otp.md R234) -/
  | lockPage (bank : Nat)
  /-- `IS_PAGE_LOCKED` (R235) -/
  | isPageLocked (bank : Nat)
  /-- `REDIRECT_PAGE` (R237) -/
  | redirectPage (bank : Nat)
  /-- `GET_REDIRECTED_PAGE` (R238) -/
  | getRedirectedPage (bank : Nat)
  /-- `LOCK_REDIRECT_PAGE` (R239) -/
  | lockRedirectPage (bank : Nat)
  /-- `IS_REDIRECT_PAGE_LOCKED` (R240) -/
  | isRedirectPageLocked (bank : Nat)
  /-- `INSTALL_SECRET`: SLOT = imm[2:0] (45_auth.md R265) -/
  | installSecret (bank slot : Nat)
  /-- `BIND_SECRET`: SLOT = imm[2:0], AF = imm[3] (R266) -/
  | bindSecret (bank slot : Nat) (af : Bool)
  /-- `COMPUTE_NEXT_SECRET` (R267) -/
  | computeNextSecret (bank : Nat)
  /-- `AUTH_READ` (R268) -/
  | authRead (bank : Nat)
  deriving DecidableEq, Repr

end Sys2Proof
end

