-- ==== Sys2Proof/Config.lean ====
section
/-! DEFINITION. The implementation parameters (00_scope.md R7, R8, R18) as plain data, and the free values.

A parameter the spec calls OPEN is a field of `Config`; every definition of the machine takes the configuration
from the state it runs in, where no step changes it (DESIGN CHOICE, log entry 3). A value the spec leaves to an unconstrained
choice is an `opaque` constant without a body, applied to plain data. -/

namespace Sys2Proof

/-- A bank descriptor (R8). `max_packet_payload` is derived. An absent control bank is `none`. -/
structure Bank where
  /-- `page_length`, 1..128 -/
  pageLength : Nat
  /-- `page_count`, 1..255 -/
  pageCount : Nat
  /-- `base_address`, a u16 -/
  base : Nat
  /-- `crc_bytes`: 1 selects CRC-8, 2 selects CRC-16 (41_crc.md R144) -/
  crcBytes : Nat
  /-- `crc_after_address` -/
  crcAfterAddress : Bool
  /-- `general_purpose`; false marks a control bank -/
  generalPurpose : Bool
  /-- `write_once` -/
  writeOnce : Bool
  /-- `read_only` -/
  readOnly : Bool
  /-- `extra_info_length`, 0..16 -/
  extraInfoLength : Nat
  /-- `page_auto_crc` -/
  pageAutoCrc : Bool
  /-- `raw_read` -/
  rawRead : Bool
  /-- `authenticated` -/
  authenticated : Bool
  /-- `sha_capable` -/
  shaCapable : Bool
  /-- `crc_seed`, a u16 -/
  crcSeed : HWord
  /-- `lock_bank`, `lock_offset` (bits) -/
  lockBank : Option Nat
  lockOffset : Nat
  /-- `redir_bank`, `redir_offset` (bytes) -/
  redirBank : Option Nat
  redirOffset : Nat
  /-- `rlock_bank`, `rlock_offset` (bits) -/
  rlockBank : Option Nat
  rlockOffset : Nat
  /-- the seven device command bytes (R8) -/
  opcRead : Byte
  opcReadCrc : Byte
  opcWriteSp : Byte
  opcReadSp : Byte
  opcCopySp : Byte
  opcSha : Byte
  opcReadAuth : Byte
  deriving DecidableEq, Repr

/-- What a bank id that names no descriptor stands for: a bank that allows nothing. Every command checks
`b < NBANKS` first (60_exceptions.md R308), so no rule reads it. -/
def Bank.absent : Bank where
  pageLength := 1
  pageCount := 0
  base := 0
  crcBytes := 1
  crcAfterAddress := false
  generalPurpose := false
  writeOnce := false
  readOnly := true
  extraInfoLength := 0
  pageAutoCrc := false
  rawRead := false
  authenticated := false
  shaCapable := false
  crcSeed := 0
  lockBank := none
  lockOffset := 0
  redirBank := none
  redirOffset := 0
  rlockBank := none
  rlockOffset := 0
  opcRead := 0
  opcReadCrc := 0
  opcWriteSp := 0
  opcReadSp := 0
  opcCopySp := 0
  opcSha := 0
  opcReadAuth := 0

/-- Which functions stand for `SHA1`, `MSG_SECRET`, `MSG_MAC`, `MSG_AUTHREAD`, `EXTRACT_SECRET`, `AUTO_FORMAT` and
`SELECTOR` (R18): the reference defaults of 45_auth.md R262, or functions nothing is known of, one family of them
for each number (DESIGN CHOICE, log entry 10). -/
inductive CryptoSuite where
  | reference
  | uninterpreted (family : Nat)
  deriving DecidableEq, Repr

/-- `HOST_DECODE`: what the platform does with a host access outside 0x000..0x1FF (20_memory.md R71, D2; DESIGN CHOICE, log entry 14). -/
inductive HostDecode where
  /-- the platform drops the upper address bits: the port decodes nine of them -/
  | wrap
  /-- a read answers any value, a write reaches nothing -/
  | openBus
  /-- a read answers 0, a write reaches nothing -/
  | zero
  /-- the platform answers with a bus error -/
  | busError
  deriving DecidableEq, Repr

/-- The device-level parameters (R7). `BUF_LEN`, `FRAG_LEN`, `PAD_BYTE` and `WIPE_BYTE` are fixed and stand below. -/
structure Config where
  /-- `MEM_SIZE`, 1..65536 -/
  memSize : Nat
  /-- `SP_LEN`: 8, 16 or 32 -/
  spLen : Nat
  /-- `BANK[0..NBANKS)`; `NBANKS` is its length -/
  banks : List Bank
  /-- `POLL_MAX`, at least 1 -/
  pollMax : Nat
  /-- `T_COMMIT_MS` -/
  tCommitMs : Nat
  /-- `T_SHA_MS` -/
  tShaMs : Nat
  /-- `COMMIT_POWER` -/
  commitPower : Bool
  /-- `SECRET_BASE` -/
  secretBase : Nat
  /-- `SP_SECRET_OFFSET` -/
  spSecretOffset : Nat
  /-- `CHAL_LEN` -/
  chalLen : Nat
  /-- `CHAL_OFFSET` -/
  chalOffset : Nat
  /-- `FN_FIRST_SECRET` -/
  fnFirstSecret : Byte
  /-- `FN_NEXT_SECRET` -/
  fnNextSecret : Byte
  /-- the functions of R18 -/
  suite : CryptoSuite
  /-- `HOST_DECODE` -/
  hostDecode : HostDecode
  deriving DecidableEq, Repr

/-- `NBANKS` (R7). -/
def Config.nbanks (c : Config) : Nat := c.banks.length

/-- `BANK[b]` (R8). -/
def Config.bank (c : Config) (b : Nat) : Bank := c.banks.getD b Bank.absent

/-- `BUF_LEN` (R7). -/
def bufLen : Nat := 256

/-- `FRAG_LEN` (R7). -/
def fragLen : Nat := 8

/-- `PAD_BYTE` (R7). -/
def padByte : Byte := 0x00

/-- `WIPE_BYTE` (R7). -/
def wipeByte : Byte := 0x00

/-- Free value: what DATA byte `a` holds after power-on (10_state.md R47, I1; DESIGN CHOICE, log entry 7). -/
opaque Config.powerOnByte : Nat → Byte

/-- Free value: the answer to a `T.select` that no list supplies (20_memory.md R96, I7; DESIGN CHOICE, log entry 5). -/
opaque Config.freeSelect : Nat → Bool

/-- Free value: byte `i` of an answer that no list supplies (20_memory.md R96, I7; DESIGN CHOICE, log entry 5). -/
opaque Config.freeByte : Nat → Nat → Byte

/-- Free value: the answer to a host read whose value the spec leaves open (10_state.md R51, I2, I5; DEDUCED and DESIGN CHOICE, log entries 8, 14). -/
opaque Config.freeWord : Nat → Word

/-- Free functions: the open choices of R18, one family for each number (DESIGN CHOICE, log entry 10). -/
opaque Config.openSha1 : Nat → List Byte → List Byte
opaque Config.openMsgSecret : Nat → List Byte → List Byte → List Byte → List Byte
opaque Config.openMsgMac : Nat → List Byte → List Byte → List Byte → List Byte → Byte → List Byte
opaque Config.openMsgAuthRead : Nat → List Byte → List Byte → List Byte → List Byte → List Byte → Byte → List Byte
opaque Config.openExtractSecret : Nat → List Byte → List Byte
opaque Config.openAutoFormat : Nat → List Byte → Nat → List Byte → List Byte
opaque Config.openSelector : Nat → Nat → Nat → Byte

end Sys2Proof
end

