-- ==== Sys2Proof/Machine/ConfigCheck.lean ====
section
/-! DEFINITION. The well-formedness conditions of a configuration (00_scope.md R9), one definition each,
with the ranges of R7 and R8 and the bounds R262 puts on the reference defaults. -/

namespace Sys2Proof.Machine

/-- The bytes of a bank. -/
def bankSize (k : Bank) : Nat := k.pageCount * k.pageLength

/-- The ranges the tables of R7 and R8 give the parameters (DEDUCED, log entry 15). -/
def wfRanges (c : Config) : Bool :=
  decide (1 ≤ c.memSize) && decide (1 ≤ c.nbanks) && decide (c.nbanks ≤ 32) && decide (1 ≤ c.pollMax) &&
  c.banks.all fun k =>
    decide (1 ≤ k.pageLength) && decide (k.pageLength ≤ 128) && decide (1 ≤ k.pageCount) && decide (k.pageCount ≤ 255) &&
    decide (k.base < 65536) && decide (k.extraInfoLength ≤ 16)

/-- WF1: every bank lies inside the device's memory, which 16 bits address. -/
def wf1 (c : Config) : Bool :=
  decide (c.memSize ≤ 65536) && c.banks.all fun k => decide (k.base + bankSize k ≤ c.memSize)

/-- WF2: `crc_bytes` is 1 or 2. -/
def wf2 (c : Config) : Bool := c.banks.all fun k => k.crcBytes == 1 || k.crcBytes == 2

/-- WF3: `base_address mod page_length = 0`. -/
def wf3 (c : Config) : Bool := c.banks.all fun k => k.base % k.pageLength == 0

/-- The conditions WF4 puts on a lock or redirect-lock bank `link` of bank `i`, with its bit offset. -/
def lockLinkOk (c : Config) (i pageCount : Nat) (link : Option Nat) (offset : Nat) : Bool :=
  match link with
  | none => true
  | some l =>
    let k := c.bank l
    decide (l < c.nbanks) && l != i && !k.generalPurpose && k.writeOnce && !k.readOnly && k.pageAutoCrc &&
    offset % 8 == 0 && decide (offset + pageCount ≤ 8 * k.pageLength * k.pageCount)

/-- The condition WF5 puts on the redirect bank of bank `i`. -/
def redirLinkOk (c : Config) (i pageCount : Nat) (link : Option Nat) (offset : Nat) : Bool :=
  match link with
  | none => true
  | some d =>
    let k := c.bank d
    decide (d < c.nbanks) && d != i && !k.generalPurpose && !k.readOnly && k.pageAutoCrc &&
    decide (offset + pageCount ≤ k.pageLength * k.pageCount)

/-- WF4: lock links, redirect-lock links, and what a control bank may not have. -/
def wf4 (c : Config) : Bool :=
  c.banks.zipIdx.all fun (k, i) =>
    lockLinkOk c i k.pageCount k.lockBank k.lockOffset && lockLinkOk c i k.pageCount k.rlockBank k.rlockOffset &&
    (k.generalPurpose ||
      (k.lockBank.isNone && k.redirBank.isNone && k.rlockBank.isNone && !k.authenticated && !k.shaCapable))

/-- WF5: redirect links. -/
def wf5 (c : Config) : Bool :=
  c.banks.zipIdx.all fun (k, i) => redirLinkOk c i k.pageCount k.redirBank k.redirOffset

/-- WF6: what a `sha_capable` bank is; an `authenticated` bank is `sha_capable`. -/
def wf6 (c : Config) : Bool :=
  c.banks.all fun k =>
    (!k.shaCapable ||
      (k.pageLength == 32 && k.crcBytes == 2 && k.pageAutoCrc && k.generalPurpose && !k.writeOnce && !k.readOnly)) &&
    (!k.authenticated || k.shaCapable)

/-- WF7: an unreadable bank is `read_only`. -/
def wf7 (c : Config) : Bool := c.banks.all fun k => k.pageAutoCrc || k.rawRead || k.readOnly

/-- Whether any bank is `sha_capable`. -/
def anySha (c : Config) : Bool := c.banks.any fun k => k.shaCapable

/-- WF8: the scratchpad's length and the areas inside it. No rule bounds `CHAL_LEN` from below, and 0 is accepted (DESIGN
CHOICE, log entry 30). -/
def wf8 (c : Config) : Bool :=
  (c.spLen == 8 || c.spLen == 16 || c.spLen == 32) &&
  (!anySha c || (decide (c.spSecretOffset + 15 ≤ c.spLen) && decide (c.chalOffset + c.chalLen ≤ c.spLen)))

/-- WF9: a page, its ExtraInfo and a MAC fit in DATA. -/
def wf9 (c : Config) : Bool := c.banks.all fun k => decide (k.pageLength + k.extraInfoLength + 20 ≤ bufLen)

/-- The seven device command bytes of a bank (R8). -/
def deviceOpcodes (k : Bank) : List Byte :=
  [k.opcRead, k.opcReadCrc, k.opcWriteSp, k.opcReadSp, k.opcCopySp, k.opcSha, k.opcReadAuth]

/-- WF10: they are pairwise distinct, except that `OPC_READ_AUTH` may equal `OPC_READ_CRC`. -/
def wf10 (c : Config) : Bool :=
  c.banks.all fun k =>
    decide ((deviceOpcodes k).Nodup) ||
    (k.opcReadAuth == k.opcReadCrc && decide ((deviceOpcodes k).dropLast.Nodup))

/-- WF11: the secret memory is aligned, addressable and overlaps no bank. -/
def wf11 (c : Config) : Bool :=
  !anySha c ||
  (c.secretBase % 8 == 0 && decide (c.secretBase + 64 ≤ 65536) &&
    c.banks.all fun k => decide (c.secretBase + 64 ≤ k.base) || decide (k.base + bankSize k ≤ c.secretBase))

/-- The bounds R262 puts on a configuration that uses the reference defaults (DEDUCED, log entry 16). -/
def wfDefaults (c : Config) : Bool :=
  match c.suite with
  | .uninterpreted _ => true
  | .reference =>
    (!anySha c || decide (c.chalLen ≤ 3)) && c.banks.all fun k => !k.shaCapable || decide (k.extraInfoLength ≤ 4)

/-- The bits of WVERIFY that banks implement: bit b for b < NBANKS (10_state.md R37). -/
def wverifyMask (c : Config) : Word := BitVec.ofNat 32 (2 ^ c.nbanks - 1)

end Sys2Proof.Machine
end

