-- ==== Sys2Proof/WellFormed.lean ====
section
/-! DEFINITION. What a well-formed command is (its fields fit the word of 30_encoding.md R120, R121) and what a
well-formed configuration is (00_scope.md R9). -/

namespace Sys2Proof

/-- A bank id fits `CMD[23:16]` (R120). Whether the bank exists is checked at execution (R124). -/
def bankFits (b : Nat) : Bool := decide (b < 256)

/-- A slot fits `imm[2:0]` (R121). -/
def slotFits (s : Nat) : Bool := decide (s < 8)

def Instr.wf : Instr → Bool
  | .crc8Seed _ => true
  | .crc8Byte _ => true
  | .crc8Block => true
  | .crc8Check => true
  | .crc16Seed _ => true
  | .crc16Byte _ => true
  | .crc16Block => true
  | .crc16Check => true
  | .readPage b _ _ => bankFits b
  | .readBytes b _ => bankFits b
  | .write b => bankFits b
  | .readPagePacket b _ => bankFits b
  | .writePagePacket b => bankFits b
  | .spStage b => bankFits b
  | .spConfirm b => bankFits b
  | .spCommit b => bankFits b
  | .lockPage b => bankFits b
  | .isPageLocked b => bankFits b
  | .redirectPage b => bankFits b
  | .getRedirectedPage b => bankFits b
  | .lockRedirectPage b => bankFits b
  | .isRedirectPageLocked b => bankFits b
  | .installSecret b s => bankFits b && slotFits s
  | .bindSecret b s _ => bankFits b && slotFits s
  | .computeNextSecret b => bankFits b
  | .authRead b => bankFits b

/-- A well-formed configuration (R9): every condition holds. The machine refuses to run any other (DEDUCED, log entry 17). -/
def Config.wf (c : Config) : Bool :=
  Machine.wfRanges c && (Machine.wf1 c && (Machine.wf2 c && (Machine.wf3 c && (Machine.wf4 c && (Machine.wf5 c &&
  (Machine.wf6 c && (Machine.wf7 c && (Machine.wf8 c && (Machine.wf9 c && (Machine.wf10 c && (Machine.wf11 c &&
  Machine.wfDefaults c)))))))))))

end Sys2Proof
end

