-- ==== Sys2Proof/Decode.lean ====
section
/-! DEFINITION. The command decoder (30_encoding.md R120 to R127), total on any word and on any bytes, rejecting by
name; after it the encoder, written from the same tables, and the opcode table's match and mask rows (R124). -/

namespace Sys2Proof

open Machine (leWord)

/-- Why a word is ILLEGAL (R125). -/
inductive DecodeError where
  /-- its OPC is not in the map -/
  | unassignedOpcode (opc : Byte)
  /-- a must-be-zero IMM bit is 1 -/
  | reservedBits (imm : HWord)
  /-- a CRC command with BANK != 0 -/
  | crcBank (bank : Byte)
  /-- fewer than four bytes: no command word -/
  | truncated
  deriving DecidableEq, Repr

/-- `opc := CMD[31:24]` (R121). -/
def fieldOpc (w : Word) : Byte := w.extractLsb' 24 8

/-- `b := CMD[23:16]` (R121). -/
def fieldBank (w : Word) : Byte := w.extractLsb' 16 8

/-- `imm := CMD[15:0]` (R121). -/
def fieldImm (w : Word) : HWord := w.extractLsb' 0 16

/-- `SEED8`, `BYTE` = imm[7:0] (R121). -/
def immByte (imm : HWord) : Byte := imm.extractLsb' 0 8

/-- `C` = imm[0] (R121). -/
def immC (imm : HWord) : Bool := imm.getLsbD 0

/-- `X` = imm[1] (R121). -/
def immX (imm : HWord) : Bool := imm.getLsbD 1

/-- `SLOT` = imm[2:0] (R121). -/
def immSlot (imm : HWord) : Nat := (imm.extractLsb' 0 3).toNat

/-- `AF` = imm[3] (R121). -/
def immAf (imm : HWord) : Bool := imm.getLsbD 3

/-- A bank command whose used IMM bits are `used`: every other IMM bit must be 0 (R123, R124). -/
def bankForm (imm used : HWord) (i : Instr) : Except DecodeError Instr :=
  if imm &&& ~~~used = 0 then .ok i else .error (.reservedBits imm)

/-- A CRC command: as `bankForm`, and BANK must be 0 (R123, R125). -/
def crcForm (bank : Byte) (imm used : HWord) (i : Instr) : Except DecodeError Instr :=
  if bank = 0 then bankForm imm used i else .error (.crcBank bank)

/-- The command of opcode `opc` (R123). -/
def decodeFields (opc bank : Byte) (imm : HWord) : Except DecodeError Instr :=
  let b := bank.toNat
  match opc.toNat with
  | 0x01 => crcForm bank imm 0x00FF (.crc8Seed (immByte imm))
  | 0x02 => crcForm bank imm 0x00FF (.crc8Byte (immByte imm))
  | 0x03 => crcForm bank imm 0x0000 .crc8Block
  | 0x04 => crcForm bank imm 0x0000 .crc8Check
  | 0x05 => crcForm bank imm 0xFFFF (.crc16Seed imm)
  | 0x06 => crcForm bank imm 0x00FF (.crc16Byte (immByte imm))
  | 0x07 => crcForm bank imm 0x0000 .crc16Block
  | 0x08 => crcForm bank imm 0x0000 .crc16Check
  | 0x10 => bankForm imm 0x0003 (.readPage b (immC imm) (immX imm))
  | 0x11 => bankForm imm 0x0001 (.readBytes b (immC imm))
  | 0x12 => bankForm imm 0x0000 (.write b)
  | 0x13 => bankForm imm 0x0001 (.readPagePacket b (immC imm))
  | 0x14 => bankForm imm 0x0000 (.writePagePacket b)
  | 0x20 => bankForm imm 0x0000 (.spStage b)
  | 0x21 => bankForm imm 0x0000 (.spConfirm b)
  | 0x22 => bankForm imm 0x0000 (.spCommit b)
  | 0x30 => bankForm imm 0x0000 (.lockPage b)
  | 0x31 => bankForm imm 0x0000 (.isPageLocked b)
  | 0x32 => bankForm imm 0x0000 (.redirectPage b)
  | 0x33 => bankForm imm 0x0000 (.getRedirectedPage b)
  | 0x34 => bankForm imm 0x0000 (.lockRedirectPage b)
  | 0x35 => bankForm imm 0x0000 (.isRedirectPageLocked b)
  | 0x40 => bankForm imm 0x0007 (.installSecret b (immSlot imm))
  | 0x41 => bankForm imm 0x000F (.bindSecret b (immSlot imm) (immAf imm))
  | 0x42 => bankForm imm 0x0000 (.computeNextSecret b)
  | 0x43 => bankForm imm 0x0000 (.authRead b)
  | _ => .error (.unassignedOpcode opc)

/-- The command a word written to `CMD` encodes, or why it is ILLEGAL (R123 to R125). -/
def decode (w : Word) : Except DecodeError Instr := decodeFields (fieldOpc w) (fieldBank w) (fieldImm w)

/-- Decoding any bytes: the first four, least significant first (20_memory.md R80), and the rest. -/
def decodeBytes (bytes : List Byte) : Except DecodeError (Instr × List Byte) :=
  match bytes with
  | b0 :: b1 :: b2 :: b3 :: rest =>
    match decode (leWord [b0, b1, b2, b3]) with
    | .ok i => .ok (i, rest)
    | .error e => .error e
  | _ => .error .truncated

/-- The bytes the host writes to `CMD` for the table word `w` of `nbits` bits, the bits above being 0. -/
def tableWordBytes (nbits w : Nat) : List Byte := Machine.leBytes (BitVec.ofNat 32 (w % 2 ^ nbits)) 4

/-- The instruction this decoder reads from the table word `w`. -/
def decodeTableWord (nbits w : Nat) : Option Instr :=
  match decodeBytes (tableWordBytes nbits w) with
  | .ok (i, _) => some i
  | .error _ => none

/-- `w = OPC << 24 | b << 16 | imm` (R128). -/
def word (opc : Byte) (bank : Nat) (imm : HWord) : Word := opc ++ BitVec.ofNat 8 bank ++ imm

/-- An IMM whose low byte is `v` (R121). -/
def byteImm (v : Byte) : HWord := v.setWidth 16

/-- An IMM with one flag at bit `k` (R121). -/
def flagImm (f : Bool) (k : Nat) : HWord := (BitVec.ofBool f).setWidth 16 <<< k

/-- An IMM with a slot in bits [2:0] (R121). -/
def slotImm (s : Nat) : HWord := (BitVec.ofNat 3 s).setWidth 16

/-- The word of a command (R123, R128). -/
def encode : Instr → Word
  | .crc8Seed v => word 0x01 0 (byteImm v)
  | .crc8Byte v => word 0x02 0 (byteImm v)
  | .crc8Block => word 0x03 0 0
  | .crc8Check => word 0x04 0 0
  | .crc16Seed v => word 0x05 0 v
  | .crc16Byte v => word 0x06 0 (byteImm v)
  | .crc16Block => word 0x07 0 0
  | .crc16Check => word 0x08 0 0
  | .readPage b c x => word 0x10 b (flagImm c 0 ||| flagImm x 1)
  | .readBytes b c => word 0x11 b (flagImm c 0)
  | .write b => word 0x12 b 0
  | .readPagePacket b c => word 0x13 b (flagImm c 0)
  | .writePagePacket b => word 0x14 b 0
  | .spStage b => word 0x20 b 0
  | .spConfirm b => word 0x21 b 0
  | .spCommit b => word 0x22 b 0
  | .lockPage b => word 0x30 b 0
  | .isPageLocked b => word 0x31 b 0
  | .redirectPage b => word 0x32 b 0
  | .getRedirectedPage b => word 0x33 b 0
  | .lockRedirectPage b => word 0x34 b 0
  | .isRedirectPageLocked b => word 0x35 b 0
  | .installSecret b s => word 0x40 b (slotImm s)
  | .bindSecret b s af => word 0x41 b (slotImm s ||| flagImm af 3)
  | .computeNextSecret b => word 0x42 b 0
  | .authRead b => word 0x43 b 0

/-- A row of the opcode table: a word `w` is the row's iff `w & mask = match` (R124). -/
structure OpcodeRow where
  mnemonic : String
  pattern : Word
  mask : Word
  deriving DecidableEq, Repr

/-- The rows of opcode_table.json (R123, R124). -/
def opcodeTable : List OpcodeRow :=
  [⟨"CRC8_SEED", 0x01000000, 0xFFFFFF00⟩, ⟨"CRC8_BYTE", 0x02000000, 0xFFFFFF00⟩,
   ⟨"CRC8_BLOCK", 0x03000000, 0xFFFFFFFF⟩, ⟨"CRC8_CHECK", 0x04000000, 0xFFFFFFFF⟩,
   ⟨"CRC16_SEED", 0x05000000, 0xFFFF0000⟩, ⟨"CRC16_BYTE", 0x06000000, 0xFFFFFF00⟩,
   ⟨"CRC16_BLOCK", 0x07000000, 0xFFFFFFFF⟩, ⟨"CRC16_CHECK", 0x08000000, 0xFFFFFFFF⟩] ++
  [⟨"READ_PAGE", 0x10000000, 0xFF00FFFC⟩, ⟨"READ_BYTES", 0x11000000, 0xFF00FFFE⟩,
   ⟨"WRITE", 0x12000000, 0xFF00FFFF⟩, ⟨"READ_PAGE_PACKET", 0x13000000, 0xFF00FFFE⟩,
   ⟨"WRITE_PAGE_PACKET", 0x14000000, 0xFF00FFFF⟩] ++
  [⟨"SP_STAGE", 0x20000000, 0xFF00FFFF⟩, ⟨"SP_CONFIRM", 0x21000000, 0xFF00FFFF⟩,
   ⟨"SP_COMMIT", 0x22000000, 0xFF00FFFF⟩] ++
  [⟨"LOCK_PAGE", 0x30000000, 0xFF00FFFF⟩, ⟨"IS_PAGE_LOCKED", 0x31000000, 0xFF00FFFF⟩,
   ⟨"REDIRECT_PAGE", 0x32000000, 0xFF00FFFF⟩, ⟨"GET_REDIRECTED_PAGE", 0x33000000, 0xFF00FFFF⟩,
   ⟨"LOCK_REDIRECT_PAGE", 0x34000000, 0xFF00FFFF⟩, ⟨"IS_REDIRECT_PAGE_LOCKED", 0x35000000, 0xFF00FFFF⟩] ++
  [⟨"INSTALL_SECRET", 0x40000000, 0xFF00FFF8⟩, ⟨"BIND_SECRET", 0x41000000, 0xFF00FFF0⟩,
   ⟨"COMPUTE_NEXT_SECRET", 0x42000000, 0xFF00FFFF⟩, ⟨"AUTH_READ", 0x43000000, 0xFF00FFFF⟩]

/-- The mnemonic of a command (R123). -/
def Instr.mnemonic : Instr → String
  | .crc8Seed _ => "CRC8_SEED"
  | .crc8Byte _ => "CRC8_BYTE"
  | .crc8Block => "CRC8_BLOCK"
  | .crc8Check => "CRC8_CHECK"
  | .crc16Seed _ => "CRC16_SEED"
  | .crc16Byte _ => "CRC16_BYTE"
  | .crc16Block => "CRC16_BLOCK"
  | .crc16Check => "CRC16_CHECK"
  | .readPage _ _ _ => "READ_PAGE"
  | .readBytes _ _ => "READ_BYTES"
  | .write _ => "WRITE"
  | .readPagePacket _ _ => "READ_PAGE_PACKET"
  | .writePagePacket _ => "WRITE_PAGE_PACKET"
  | .spStage _ => "SP_STAGE"
  | .spConfirm _ => "SP_CONFIRM"
  | .spCommit _ => "SP_COMMIT"
  | .lockPage _ => "LOCK_PAGE"
  | .isPageLocked _ => "IS_PAGE_LOCKED"
  | .redirectPage _ => "REDIRECT_PAGE"
  | .getRedirectedPage _ => "GET_REDIRECTED_PAGE"
  | .lockRedirectPage _ => "LOCK_REDIRECT_PAGE"
  | .isRedirectPageLocked _ => "IS_REDIRECT_PAGE_LOCKED"
  | .installSecret _ _ => "INSTALL_SECRET"
  | .bindSecret _ _ _ => "BIND_SECRET"
  | .computeNextSecret _ => "COMPUTE_NEXT_SECRET"
  | .authRead _ => "AUTH_READ"

end Sys2Proof
end

