-- ==== Sys2Proof/Machine/Crc.lean ====
section
/-! DEFINITION. The pure integrity functions (41_crc.md section 1) and the packet of 42_paged_memory.md R176. -/

namespace Sys2Proof.Machine

/-- One bit of the CRC-8 generator (41_crc.md R140). -/
def crc8Bit (c : Byte) : Byte := if c.getLsbD 0 then (c >>> 1) ^^^ 0x8C else c >>> 1

/-- `crc8_step` (R140). -/
def crc8Step (c d : Byte) : Byte := Nat.repeat crc8Bit 8 (c ^^^ d)

/-- One bit of the CRC-16 generator (R141). -/
def crc16Bit (c : HWord) : HWord := if c.getLsbD 0 then (c >>> 1) ^^^ 0xA001 else c >>> 1

/-- `crc16_step` (R141). -/
def crc16Step (c : HWord) (d : Byte) : HWord := Nat.repeat crc16Bit 8 (c ^^^ d.setWidth 16)

/-- `CRC8(seed, s)` (R142). -/
def crc8 (seed : Byte) (s : List Byte) : Byte := s.foldl crc8Step seed

/-- `CRC16(seed, s)` (R143). -/
def crc16 (seed : HWord) (s : List Byte) : HWord := s.foldl crc16Step seed

/-- `CRCk(k, seed, s)` (R144). -/
def crcK (k : Nat) (seed : HWord) (s : List Byte) : HWord :=
  if k = 1 then (crc8 (lo seed) s).setWidth 16 else crc16 seed s

/-- `RESIDUAL(k)` (R145). -/
def crcResidual (k : Nat) : HWord := if k = 1 then 0x0000 else 0xB001

/-- A frame is accepted iff its CRC is the residual (R145). -/
def crcOk (k : Nat) (seed : HWord) (frame : List Byte) : Bool := crcK k seed frame == crcResidual k

/-- `seal8(seed, s)` (R146). -/
def seal8 (seed : Byte) (s : List Byte) : List Byte := [crc8 seed s]

/-- `seal16(seed, s)` (R146): the complement, least significant byte first. -/
def seal16 (seed : HWord) (s : List Byte) : List Byte := wire16 (~~~ crc16 seed s)

/-- The seal of width `k` (20_memory.md R107). -/
def sealK (k : Nat) (seed : HWord) (s : List Byte) : List Byte := if k = 1 then seal8 (lo seed) s else seal16 seed s

/-- `Pkt(p, payload)` (42_paged_memory.md R176, 20_memory.md R89). -/
def packet (p : Nat) (payload : List Byte) : List Byte :=
  let body := BitVec.ofNat 8 payload.length :: payload
  body ++ seal16 (BitVec.ofNat 16 p) body

end Sys2Proof.Machine
end

