-- ==== Sys2Proof/Machine/Memory.lean ====
section
/-! DEFINITION. Byte memories as lists of (address, byte) pairs in one canonical form: addresses strictly rising, and no
entry equal to what an unlisted address reads as.

`dflt` is what an unlisted address reads as. DATA takes `none`: a byte nothing has written since power-on has no value
of its own, and reading it draws the free value of 10_state.md R47 (DESIGN CHOICE, log entry 7). The memories of the reference device
model take `some` byte (20_memory.md R104; DESIGN CHOICE, log entry 18). -/

namespace Sys2Proof.Machine

abbrev Memory := List Host.Cell

/-- The byte listed at `a`, if one is. -/
def Memory.read? : Memory → Nat → Option Byte
  | [], _ => none
  | (k, v) :: m, a => if k = a then some v else Memory.read? m a

/-- The byte at `a` of a memory whose unlisted bytes are `d`. -/
def Memory.read (d : Byte) (m : Memory) (a : Nat) : Byte := (Memory.read? m a).getD d

/-- List byte `v` at `a`, in order. -/
def Memory.put : Memory → Nat → Byte → Memory
  | [], a, v => [(a, v)]
  | (k, w) :: m, a, v =>
    if a < k then (a, v) :: (k, w) :: m
    else if a = k then (a, v) :: m
    else (k, w) :: Memory.put m a v

/-- List nothing at `a`. -/
def Memory.erase : Memory → Nat → Memory
  | [], _ => []
  | (k, w) :: m, a => if k = a then m else (k, w) :: Memory.erase m a

/-- Write byte `v` at `a`. -/
def Memory.write (dflt : Option Byte) (m : Memory) (a : Nat) (v : Byte) : Memory :=
  if dflt = some v then Memory.erase m a else Memory.put m a v

/-- Write the bytes `s` from `a` on. -/
def Memory.writeRun (dflt : Option Byte) : Memory → Nat → List Byte → Memory
  | m, _, [] => m
  | m, a, v :: s => Memory.writeRun dflt (Memory.write dflt m a v) (a + 1) s

/-- The `n` bytes from `a` on of a memory whose unlisted bytes are `d`. -/
def Memory.readRun (d : Byte) (m : Memory) (a n : Nat) : List Byte := (List.range n).map fun i => Memory.read d m (a + i)

/-- Addresses strictly rise from above `low`, which is `none` for any. -/
def Memory.rising : Option Nat → Memory → Bool
  | _, [] => true
  | low, (k, _) :: m => (match low with | none => true | some l => decide (l < k)) && Memory.rising (some k) m

/-- The canonical form. -/
def Memory.wf (dflt : Option Byte) (m : Memory) : Bool :=
  Memory.rising none m && m.all fun c => dflt != some c.2

end Sys2Proof.Machine
end

