-- ==== Sys2Proof/Machine/Reference.lean ====
section
/-! DEFINITION. The reference configuration of 95_test_vectors.md section 1. `State.reset` takes it, because the spec
leaves the parameters OPEN (DESIGN CHOICE, log entries 3 and 4); no statement about every state depends on it. -/

namespace Sys2Proof.Machine

/-- The values every bank of the reference configuration shares (95_test_vectors.md sections 1.2, 1.3). -/
def refBank : Bank :=
  { Bank.absent with
    opcRead := 0xF0
    opcReadCrc := 0xA5
    opcWriteSp := 0x0F
    opcReadSp := 0xAA
    opcCopySp := 0x55
    opcSha := 0x33
    opcReadAuth := 0xA6
    readOnly := false }

/-- Bank 0: main data. -/
def refBank0 : Bank :=
  { refBank with
    pageLength := 32, pageCount := 8, base := 0x0000, crcBytes := 2
    pageAutoCrc := true, rawRead := true, generalPurpose := true }

/-- Bank 1: OTP data. -/
def refBank1 : Bank :=
  { refBank with
    pageLength := 32, pageCount := 8, base := 0x0100, crcBytes := 1
    pageAutoCrc := true, rawRead := true, writeOnce := true, generalPurpose := true, extraInfoLength := 1
    lockBank := some 2, redirBank := some 3, rlockBank := some 4 }

/-- Banks 2, 3 and 4: the control banks. -/
def refControl (base : Nat) : Bank :=
  { refBank with
    pageLength := 8, pageCount := 1, base := base, crcBytes := 1, pageAutoCrc := true, writeOnce := true }

/-- Bank 5: SHA staging. -/
def refBank5 : Bank :=
  { refBank with
    pageLength := 32, pageCount := 4, base := 0x0300, crcBytes := 2
    pageAutoCrc := true, generalPurpose := true, extraInfoLength := 4, shaCapable := true }

/-- Bank 6: authenticated data. -/
def refBank6 : Bank :=
  { refBank with
    pageLength := 32, pageCount := 2, base := 0x0380, crcBytes := 2
    pageAutoCrc := true, generalPurpose := true, shaCapable := true, authenticated := true }

/-- Bank 7: ROM image. -/
def refBank7 : Bank :=
  { refBank with
    pageLength := 32, pageCount := 1, base := 0x0440, crcBytes := 1
    rawRead := true, readOnly := true, generalPurpose := true }

/-- The reference configuration (95_test_vectors.md sections 1.1 to 1.3). `T_COMMIT_MS` and `T_SHA_MS` are symbolic
there and `HOST_DECODE` is not named: the numbers and the choice here are the model's (DESIGN CHOICE, log entry 4). -/
def refConfig : Config where
  memSize := 0x0500
  spLen := 32
  banks := [refBank0, refBank1, refControl 0x0200, refControl 0x0208, refControl 0x0210, refBank5, refBank6, refBank7]
  pollMax := 16
  tCommitMs := 10
  tShaMs := 2
  commitPower := false
  secretBase := 0x0400
  spSecretOffset := 8
  chalLen := 3
  chalOffset := 20
  fnFirstSecret := 0x0F
  fnNextSecret := 0xF0
  suite := .reference
  hostDecode := .openBus

end Sys2Proof.Machine
end

