-- ==== Sys2Proof/Machine/State.lean ====
section
/-! DEFINITION. The state, as plain data: the core's registers and hidden state (10_state.md), the configuration
(R48), the transport with its device (20_memory.md R96, R104), the event history (00_scope.md R16), and the host's
accesses. INVENTORY.md lists every field with its rule and its reset value. -/

namespace Sys2Proof.Machine

/-- The error kinds (60_exceptions.md R301). Code 7 is reserved and has no constructor. -/
inductive ErrKind where
  | none
  | integrity
  | policy
  | presence
  | timeout
  | authentication
  | illegal
  deriving DecidableEq, Repr

/-- `cont.kind` (10_state.md R41). -/
inductive ReadKind where
  | page
  | raw
  deriving DecidableEq, Repr

/-- The continuity record (10_state.md R41). -/
structure Cont where
  valid : Bool
  bank : Nat
  kind : ReadKind
  next : Nat
  deriving DecidableEq, Repr

/-- `sp.phase` (10_state.md R42). -/
inductive SpPhase where
  | idle
  | staged
  | confirmed
  | unknown
  deriving DecidableEq, Repr

/-- The scratchpad record (10_state.md R42). -/
structure Scratch where
  phase : SpPhase
  bank : Nat
  ta : HWord
  es : Byte
  data : List Byte
  deriving DecidableEq, Repr

/-- `sp.n` (10_state.md R42; DEDUCED, log entry 19). -/
def Scratch.n (p : Scratch) : Nat := p.data.length

/-- `auth_state` (10_state.md R44). -/
inductive AuthState where
  | noSecret
  | secretInstalling
  | secretBound
  | secretActive
  deriving DecidableEq, Repr

/-- The trigger of `T.set_power_mode` (00_scope.md R16). -/
inductive Trigger where
  | afterNextByte
  deriving DecidableEq, Repr

/-- A transport event with the answer it got (00_scope.md R16). -/
inductive Event where
  | reset
  | select (rom : List Byte) (resume answer : Bool)
  | exchange (out answer : List Byte)
  | putByte (b : Byte)
  | getByte (answer : Byte)
  | setPowerMode (ms : Nat) (trigger : Trigger)
  | startPowerDelivery
  | sleep (ms : Nat)
  deriving DecidableEq, Repr

/-- The answers an oracle will give (20_memory.md R96): one list for each kind of question, used in order. Past the end
of a list an answer is a free value (DESIGN CHOICE, log entry 5). -/
structure Oracle where
  selects : List Bool
  exchanges : List (List Byte)
  gets : List Byte
  deriving DecidableEq, Repr

/-- `mode` of the reference device model (20_memory.md R104). -/
inductive RdmMode where
  | busy
  | alt
  | reject
  | idle
  deriving DecidableEq, Repr

/-- The stream a further exchange continues (20_memory.md R105, R107, R108, R114; DESIGN CHOICE, log entry 18). -/
inductive RdmStream where
  | none
  | page (bank : Nat)
  | raw
  | mac (mac : List Byte)
  /-- after a frame that reads a page with CRC and with a signature alike: 22 bytes more ask for the MAC, others for a page -/
  | pageOrMac (bank : Nat) (mac : List Byte)
  deriving DecidableEq, Repr

/-- The reference device model's state (20_memory.md R104; DESIGN CHOICE, log entry 18). -/
structure Rdm where
  /-- `M`; an unlisted byte is 0xFF -/
  mem : Memory
  /-- `SPD.buf`, by scratchpad offset; an unlisted byte is 0x00 -/
  spBuf : Memory
  /-- `SPD.ta` -/
  spTa : HWord
  /-- `SPD.es` -/
  spEs : Byte
  /-- `SPD.valid` -/
  spValid : Bool
  /-- the bank by whose command bytes the scratchpad was last written (R105, R109; log entry 35) -/
  spBank : Nat
  /-- `SEC`, byte j of slot s at 8 s + j; an unlisted byte is 0x00 -/
  sec : Memory
  /-- `dsec` -/
  dsec : List Byte
  /-- `X`, byte i of page p of bank b at (256 b + p) * 16 + i; an unlisted byte is 0xFF -/
  extra : Memory
  /-- `present` -/
  present : Bool
  /-- `ptr` -/
  ptr : Option Nat
  /-- `mode` -/
  mode : RdmMode
  /-- a select has answered true and no exchange has followed it (R105) -/
  selected : Bool
  /-- the stream in progress -/
  stream : RdmStream
  /-- a commit frame whose last byte is still to come by `T.put_byte` (R112) -/
  pending : List Byte
  /-- the ROM id of the last select (R111, R114) -/
  rom : List Byte
  /-- a test's `script` (95_test_vectors.md section 1.5) -/
  script : List Byte
  /-- a test's `flip` (95_test_vectors.md section 1.5, R115) -/
  flip : Option (Nat × Byte)
  deriving DecidableEq, Repr

/-- The transport and the device behind it (20_memory.md R96, R104). -/
inductive Device where
  | oracle (o : Oracle)
  | reference (r : Rdm)
  deriving DecidableEq, Repr

/-- The width of a host access (20_memory.md R73). -/
inductive Width where
  | b8
  | b16
  | b32
  deriving DecidableEq, Repr

/-- An access of the host to the core's port (20_memory.md R71, R73). -/
inductive HostAccess where
  | read (off : Nat) (width : Width)
  | write (off : Nat) (width : Width) (value : Word)
  deriving DecidableEq, Repr

/-- An access the host will make. `early = none`: it waits until the core is idle. `early = some k`: if a command runs,
it lands as soon as that command has issued `k` transport events (10_state.md R51; DESIGN CHOICE, log entry 2). -/
structure HostOp where
  access : HostAccess
  early : Option Nat
  deriving DecidableEq, Repr

/-- The state of the core and of what stands beside it. -/
structure State where
  /-- the configuration (R48): no step changes it -/
  cfg : Config
  /-- `STATUS.BUSY` (R31, R34) -/
  busy : Bool
  /-- `STATUS.DONE` (R34) -/
  done : Bool
  /-- `STATUS.ERR` (R34) -/
  err : ErrKind
  /-- `RESULT` = x[4] (R32) -/
  result : Word
  /-- `ARG0..ARG3` = x[0..3] (R32) -/
  arg0 : Word
  arg1 : Word
  arg2 : Word
  arg3 : Word
  /-- `crc8_acc` (R35) -/
  crc8 : Byte
  /-- `crc16_acc` (R36) -/
  crc16 : HWord
  /-- `WVERIFY` (R37) -/
  wverify : Word
  /-- `ROM_LO`, `ROM_HI`, `rom_valid` (R38) -/
  romLo : Word
  romHi : Word
  romValid : Bool
  /-- `speed_verified`, `resume_eligible` (R40) -/
  speedVerified : Bool
  resumeEligible : Bool
  /-- `cont` (R41) -/
  cont : Cont
  /-- `sp` (R42) -/
  sp : Scratch
  /-- `auth_state` (R44) -/
  auth : AuthState
  /-- `host_secret` (R45) -/
  hostSecret : List Byte
  /-- `DATA` by buffer offset (R47) -/
  data : Memory
  /-- how many transport events the running command has issued (R31) -/
  issued : Nat
  /-- the transport and the device (R49) -/
  dev : Device
  /-- every transport event so far, oldest first (00_scope.md R16) -/
  events : List Event
  /-- the accesses the host will make, in order -/
  host : List HostOp
  /-- what the port has answered to host reads, oldest first -/
  answers : List Word
  /-- how many free values have been drawn -/
  draws : Nat
  deriving DecidableEq, Repr

/-- Why the machine stops with a fault. -/
inductive Fault where
  /-- raised by the host port on an access at `off` outside 0x000..0x1FF when `HOST_DECODE` is a bus error
  (20_memory.md R71, 93_implementation_defined.md I5; DESIGN CHOICE, log entry 14); safe -/
  | hostBusError (off : Nat)
  deriving DecidableEq, Repr

/-- Why the machine has no next state. -/
inductive Refusal where
  /-- raised by an arm of `exec` whose instruction has no meaning yet; safe -/
  | notModelled (mnemonic : String)
  /-- raised by the host port on a narrow or misaligned access to a register or a misaligned access to DATA, which
  20_memory.md R73 says a model refuses (I4); safe -/
  | undefinedHostAccess (off : Nat)
  /-- raised by `step` when the configuration is not well-formed, which 00_scope.md R9 says a model refuses (I16); safe -/
  | illFormedConfig
  deriving DecidableEq, Repr

/-- The core after a power-on reset (70_reset_and_hazards.md R331), for any configuration and device, with an empty
event history and no host access pending. -/
def State.powerOn (c : Config) (d : Device) : State where
  cfg := c
  busy := false
  done := false
  err := .none
  result := 0
  arg0 := 0
  arg1 := 0
  arg2 := 0
  arg3 := 0
  crc8 := 0x00
  crc16 := 0x0000
  wverify := wverifyMask c
  romLo := 0
  romHi := 0
  romValid := false
  speedVerified := false
  resumeEligible := false
  cont := ⟨false, 0, .page, 0⟩
  sp := ⟨.idle, 0, 0, 0, []⟩
  auth := .noSecret
  hostSecret := rep 0x00 8
  data := []
  issued := 0
  dev := d
  events := []
  host := []
  answers := []
  draws := 0

/-- The machine right after a power-on reset, with the reference configuration and an oracle none of whose answers is
listed (DESIGN CHOICE, log entries 3 to 6, 9 and 20). -/
def State.reset : State := State.powerOn refConfig (.oracle ⟨[], [], []⟩)

end Sys2Proof.Machine
end

