-- ==== Sys2Proof/Machine/Flags.lean ====
section
/-! DEFINITION. The flags: the fields of STATUS (10_state.md R34), the error kinds and cause codes
(60_exceptions.md R301, R305), the session flags (10_state.md R40) and WVERIFY (R37). The core has no arithmetic
condition flags (00_scope.md R19). -/

namespace Sys2Proof.Machine

/-- The code of an error kind in `STATUS.ERR` (60_exceptions.md R301). -/
def ErrKind.code : ErrKind → BitVec 3
  | .none => 0
  | .integrity => 1
  | .policy => 2
  | .presence => 3
  | .timeout => 4
  | .authentication => 5
  | .illegal => 6

/-- The code of `auth_state` in `STATUS.AUTH` (10_state.md R44). -/
def AuthState.code : AuthState → BitVec 2
  | .noSecret => 0
  | .secretInstalling => 1
  | .secretBound => 2
  | .secretActive => 3

/-- The code of `sp.phase` in `STATUS.SP_PHASE` (10_state.md R42). -/
def SpPhase.code : SpPhase → BitVec 2
  | .idle => 0
  | .staged => 1
  | .confirmed => 2
  | .unknown => 3

/-- The word `STATUS` reads as (10_state.md R34). -/
def statusWord (s : State) : Word :=
  (0#19) ++ BitVec.ofBool s.cont.valid ++ s.sp.phase.code ++ s.auth.code ++ BitVec.ofBool s.romValid ++
    BitVec.ofBool s.resumeEligible ++ BitVec.ofBool s.speedVerified ++ s.err.code ++ BitVec.ofBool s.done ++
    BitVec.ofBool s.busy

/-- The tags of R305. `pktlen` is an Integrity cause on a read and a Policy cause on a write, so it stands twice. -/
inductive Cause where
  | select
  | frame
  | address
  | stage
  | confirm
  | commit
  | poll
  | sha
  | authPage
  | authMac
  | verify
  | lockbit
  | pktlenRead
  | pktlenWrite
  | pktcrc
  | bank
  | control
  | capability
  | range
  | buffer
  | rom
  | readonly
  | locked
  | redirlocked
  | sequence
  | target
  | length
  | nosecret
  | rejected
  | macmismatch
  | illegal
  deriving DecidableEq, Repr

/-- The kind of a cause (60_exceptions.md R305). -/
def Cause.kind : Cause → ErrKind
  | .select => .presence
  | .frame => .integrity
  | .address => .integrity
  | .stage => .integrity
  | .confirm => .integrity
  | .commit => .integrity
  | .poll => .timeout
  | .sha => .integrity
  | .authPage => .integrity
  | .authMac => .integrity
  | .verify => .integrity
  | .lockbit => .integrity
  | .pktlenRead => .integrity
  | .pktlenWrite => .policy
  | .pktcrc => .integrity
  | .bank => .policy
  | .control => .policy
  | .capability => .policy
  | .range => .policy
  | .buffer => .policy
  | .rom => .policy
  | .readonly => .policy
  | .locked => .policy
  | .redirlocked => .policy
  | .sequence => .policy
  | .target => .policy
  | .length => .policy
  | .nosecret => .authentication
  | .rejected => .authentication
  | .macmismatch => .authentication
  | .illegal => .illegal

/-- `info(tag)` (60_exceptions.md R305). -/
def Cause.info : Cause → Word
  | .select => 1
  | .frame => 2
  | .address => 3
  | .stage => 4
  | .confirm => 5
  | .commit => 6
  | .poll => 7
  | .sha => 8
  | .authPage => 9
  | .authMac => 10
  | .verify => 11
  | .lockbit => 12
  | .pktlenRead => 13
  | .pktlenWrite => 13
  | .pktcrc => 14
  | .bank => 20
  | .control => 21
  | .capability => 22
  | .range => 23
  | .buffer => 24
  | .rom => 25
  | .readonly => 26
  | .locked => 27
  | .redirlocked => 28
  | .sequence => 29
  | .target => 30
  | .length => 31
  | .nosecret => 32
  | .rejected => 33
  | .macmismatch => 34
  | .illegal => 35

/-- Whether a bus-phase error of this kind marks the session unverified (60_exceptions.md R304, step 5). -/
def ErrKind.unverifies : ErrKind → Bool
  | .none => false
  | .integrity => true
  | .policy => false
  | .presence => true
  | .timeout => true
  | .authentication => true
  | .illegal => false

/-- `write_verify[b]` (10_state.md R37): bit b of WVERIFY, 0 for a bank that does not exist. -/
def writeVerify (s : State) (b : Nat) : Bool := (s.wverify &&& wverifyMask s.cfg).getLsbD b

end Sys2Proof.Machine
end

