-- ==== Sys2Proof/Machine/HostPort.lean ====
section
/-! DEFINITION. The host port: the address map (20_memory.md R71), access widths and alignment (R73), the effect of each
register access (10_state.md R30 to R39), idle and while a command runs (R51), reset and device change
(70_reset_and_hazards.md R331, R333). -/

namespace Sys2Proof.Machine

/-- The value of DATA byte `i`: what is listed, else the free value of power-on (10_state.md R47; DESIGN CHOICE, log entry 7). -/
def dataByte (s : State) (i : Nat) : Byte := (Memory.read? s.data i).getD (Config.powerOnByte i)

/-- `MemRead(a, n)` (00_scope.md R14). -/
def dataRun (s : State) (a n : Nat) : List Byte := (List.range n).map fun i => dataByte s (a + i)

/-- `MemWrite(a, n, bytes)` (00_scope.md R14). -/
def State.putData (s : State) (a : Nat) (bytes : List Byte) : State :=
  { s with data := Memory.writeRun none s.data a bytes }

/-- The ROM id the core selects (10_state.md R38). -/
def State.rom (s : State) : List Byte := romBytes s.romLo s.romHi

/-- A soft reset (70_reset_and_hazards.md R331): every core state element takes its reset value, DATA is unchanged, no
transport event is issued, and the configuration, the device and what the host does are untouched. -/
def softReset (s : State) : State :=
  { State.powerOn s.cfg s.dev with
    data := s.data
    events := s.events
    host := s.host
    answers := s.answers
    draws := s.draws }

/-- The device-change effect of a ROM write (70_reset_and_hazards.md R333). -/
def deviceChange (s : State) : State :=
  { s with
    cont := { s.cont with valid := false }
    speedVerified := false
    resumeEligible := false
    sp := { s.sp with phase := .idle }
    auth := .noSecret }

/-- What an access does, apart from running a command. -/
inductive PortEffect where
  /-- the access is done -/
  | done (s : State)
  /-- a command word was written while idle (10_state.md R33) -/
  | start (w : Word) (s : State)
  /-- CTRL.SRST was written (10_state.md R39) -/
  | reset (s : State)
  /-- the access stops the machine -/
  | fault (f : Fault)
  | refuse (r : Refusal)
  deriving DecidableEq, Repr

/-- The width of an access in bytes. -/
def Width.bytes : Width → Nat
  | .b8 => 1
  | .b16 => 2
  | .b32 => 4

/-- The answer to a host read (the port's own record). -/
def State.answer (s : State) (v : Word) : State := { s with answers := s.answers ++ [v] }

/-- A free value for a read the spec leaves open, cut to the access's width. -/
def State.answerFree (s : State) (w : Width) : State :=
  { (s.answer (leWord (leBytes (Config.freeWord s.draws) w.bytes))) with draws := s.draws + 1 }

/-- What a register reads as (20_memory.md R71; 10_state.md R30). `CMD`, `CTRL` and the reserved offsets read 0. -/
def regRead (s : State) (off : Nat) : Word :=
  match off with
  | 0x004 => statusWord s
  | 0x008 => s.result
  | 0x00C => s.arg0
  | 0x010 => s.arg1
  | 0x014 => s.arg2
  | 0x018 => s.arg3
  | 0x01C => s.crc8.setWidth 32
  | 0x020 => s.crc16.setWidth 32
  | 0x024 => s.wverify &&& wverifyMask s.cfg
  | 0x028 => s.romLo
  | 0x02C => s.romHi
  | _ => 0

/-- A write of `v` to the register at `off` (20_memory.md R71; 10_state.md R30 to R39): while a command runs every write
but CTRL.SRST is ignored (R33, R51). -/
def regWrite (s : State) (off : Nat) (v : Word) : PortEffect :=
  if off = 0x030 then if v.getLsbD 0 then .reset s else .done s
  else if s.busy then .done s
  else
    match off with
    | 0x000 => .start v s
    | 0x00C => .done { s with arg0 := v }
    | 0x010 => .done { s with arg1 := v }
    | 0x014 => .done { s with arg2 := v }
    | 0x018 => .done { s with arg3 := v }
    | 0x024 => .done { s with wverify := v &&& wverifyMask s.cfg }
    | 0x028 => .done { deviceChange s with romLo := v, romValid := false }
    | 0x02C => .done { deviceChange s with romHi := v, romValid := true }
    | _ => .done s

/-- An access to a register (R73): 32 bits wide and aligned, else refused. -/
def regAccess (a : HostAccess) (off : Nat) (s : State) : PortEffect :=
  match a with
  | .read _ w => if w = .b32 ∧ off % 4 = 0 then .done (s.answer (regRead s off)) else .refuse (.undefinedHostAccess off)
  | .write _ w v => if w = .b32 ∧ off % 4 = 0 then regWrite s off v else .refuse (.undefinedHostAccess off)

/-- An access to DATA at buffer offset `i` (R72, R73): aligned to its width, else refused. While a command runs a read
answers any value (10_state.md R51; DEDUCED, log entry 8) and a write is ignored. -/
def dataAccess (a : HostAccess) (i : Nat) (s : State) : PortEffect :=
  match a with
  | .read _ w =>
    if i % w.bytes = 0 then
      if s.busy then .done (s.answerFree w) else .done (s.answer (leWord (dataRun s i w.bytes)))
    else .refuse (.undefinedHostAccess (0x100 + i))
  | .write _ w v =>
    if i % w.bytes = 0 then
      if s.busy then .done s else .done (s.putData i (leBytes v w.bytes))
    else .refuse (.undefinedHostAccess (0x100 + i))

/-- An access inside 0x000..0x1FF (R71). -/
def portAccess (a : HostAccess) (off : Nat) (s : State) : PortEffect :=
  if off < 0x100 then regAccess a off s else dataAccess a (off - 0x100) s

/-- The offset of an access. -/
def HostAccess.off : HostAccess → Nat
  | .read off _ => off
  | .write off _ _ => off

/-- An access outside 0x000..0x1FF, by `HOST_DECODE` (R71, I5; DESIGN CHOICE, log entry 14). -/
def outsideAccess (a : HostAccess) (s : State) : PortEffect :=
  match s.cfg.hostDecode with
  | .wrap => portAccess a (a.off % 0x200) s
  | .busError => .fault (.hostBusError a.off)
  | .zero =>
    match a with
    | .read _ _ => .done (s.answer 0)
    | .write _ _ _ => .done s
  | .openBus =>
    match a with
    | .read _ w => .done (s.answerFree w)
    | .write _ _ _ => .done s

/-- The effect of a host access (R71, R73). -/
def hostPort (a : HostAccess) (s : State) : PortEffect :=
  if a.off < 0x200 then portAccess a a.off s else outsideAccess a s

end Sys2Proof.Machine
end

