-- ==== Sys2Proof/Machine/Sha1.lean ====
section
/-! DEFINITION. The reference default of the SHA-1 primitive: the compression of one 64-byte block from the standard
initial value, with the final addition (45_auth.md R262, 93_implementation_defined.md G10). -/

namespace Sys2Proof.Machine

/-- A big-endian word of the block. -/
def beWord (s : List Byte) : Word := s.foldl (fun w b => (w <<< 8) ||| b.setWidth 32) 0

/-- The bytes of a word, most significant first. -/
def beBytes (w : Word) : List Byte := (leBytes w 4).reverse

/-- The sixteen words of a block, LAST first. -/
def sha1BlockWords (m : List Byte) : List Word :=
  ((List.range 16).map fun i => beWord (slice m (4 * i) (4 * i + 4))).reverse

/-- One more word of the message schedule, on the list that holds them last first. -/
def sha1Extend (ws : List Word) : List Word :=
  ((ws.getD 2 0 ^^^ ws.getD 7 0 ^^^ ws.getD 13 0 ^^^ ws.getD 15 0).rotateLeft 1) :: ws

/-- The eighty words of the message schedule, first first. -/
def sha1Schedule (m : List Byte) : List Word := (Nat.repeat sha1Extend 64 (sha1BlockWords m)).reverse

/-- The five chaining words. -/
structure Sha1State where
  a : Word
  b : Word
  c : Word
  d : Word
  e : Word
  deriving DecidableEq, Repr

/-- H0..H4 of FIPS 180. -/
def sha1Init : Sha1State := ⟨0x67452301, 0xEFCDAB89, 0x98BADCFE, 0x10325476, 0xC3D2E1F0⟩

/-- The round function of round `t`. -/
def sha1F (t : Nat) (b c d : Word) : Word :=
  if t < 20 then (b &&& c) ||| (~~~b &&& d)
  else if t < 40 then b ^^^ c ^^^ d
  else if t < 60 then (b &&& c) ||| (b &&& d) ||| (c &&& d)
  else b ^^^ c ^^^ d

/-- The constant of round `t`. -/
def sha1K (t : Nat) : Word :=
  if t < 20 then 0x5A827999 else if t < 40 then 0x6ED9EBA1 else if t < 60 then 0x8F1BBCDC else 0xCA62C1D6

/-- One round. -/
def sha1Round (s : Sha1State) (t : Nat) (w : Word) : Sha1State :=
  ⟨s.a.rotateLeft 5 + sha1F t s.b s.c s.d + s.e + w + sha1K t, s.a, s.b.rotateLeft 30, s.c, s.d⟩

/-- The rounds from round `t` on, one for each word left of the schedule. -/
def sha1Rounds : List Word → Nat → Sha1State → Sha1State
  | [], _, s => s
  | w :: ws, t, s => sha1Rounds ws (t + 1) (sha1Round s t w)

/-- `SHA1(block)`: 20 bytes, H0..H4 each big-endian (R262). -/
def sha1Block (m : List Byte) : List Byte :=
  let r := sha1Rounds (sha1Schedule m) 0 sha1Init
  beBytes (r.a + sha1Init.a) ++ beBytes (r.b + sha1Init.b) ++ beBytes (r.c + sha1Init.c) ++
    beBytes (r.d + sha1Init.d) ++ beBytes (r.e + sha1Init.e)

end Sys2Proof.Machine
end

