-- ==== Sys2Proof/Machine/Crypto.lean ====
section
/-! DEFINITION. The cryptographic functions of 00_scope.md R18: for the suite `reference` the defaults of
45_auth.md R262, for the others uninterpreted functions cut to the length R18 gives. -/

namespace Sys2Proof.Machine

/-- `P(m)`: the standard padding of a 55-byte message to one block (R262). -/
def sha1Pad (m : List Byte) : List Byte := m ++ [0x80, 0x00, 0x00, 0x00, 0x00, 0x00, 0x00, 0x01, 0xB8]

/-- Exactly `n` bytes of `s` (R18 gives each function's result a length). -/
def exactly (n : Nat) (s : List Byte) : List Byte := fit n s fun _ => 0

/-- `SHA1` (R18): 20 bytes. -/
def Crypto.sha1 (c : Config) (m : List Byte) : List Byte :=
  match c.suite with
  | .reference => sha1Block m
  | .uninterpreted k => exactly 20 (Config.openSha1 k m)

/-- `MSG_SECRET(secret8, page32, sp15)` (R18): 64 bytes. -/
def Crypto.msgSecret (c : Config) (secret page sp15 : List Byte) : List Byte :=
  match c.suite with
  | .reference => sha1Pad (secret.take 4 ++ page ++ ff 4 ++ sp15)
  | .uninterpreted k => exactly 64 (Config.openMsgSecret k secret page sp15)

/-- `MSG_MAC(secret8, page32, sp, rom8, sel)` (R18): 64 bytes. -/
def Crypto.msgMac (c : Config) (secret page sp rom : List Byte) (sel : Byte) : List Byte :=
  match c.suite with
  | .reference => sha1Pad (secret ++ page ++ sp ++ ff (8 - sp.length) ++ rom.take 6 ++ [sel])
  | .uninterpreted k => exactly 64 (Config.openMsgMac k secret page sp rom sel)

/-- `MSG_AUTHREAD(secret8, page32, extra, chal, rom8, sel)` (R18): 64 bytes. -/
def Crypto.msgAuthRead (c : Config) (secret page extra chal rom : List Byte) (sel : Byte) : List Byte :=
  match c.suite with
  | .reference =>
    sha1Pad (secret ++ page ++ extra ++ ff (4 - extra.length) ++ chal ++ rep 0x00 (3 - chal.length) ++ rom.take 7 ++ [sel])
  | .uninterpreted k => exactly 64 (Config.openMsgAuthRead k secret page extra chal rom sel)

/-- `EXTRACT_SECRET(d20)` (R18): 8 bytes. -/
def Crypto.extractSecret (c : Config) (d : List Byte) : List Byte :=
  match c.suite with
  | .reference => d.take 8
  | .uninterpreted k => exactly 8 (Config.openExtractSecret k d)

/-- `AUTO_FORMAT(code7, page, rom8)` (R18): 15 bytes. -/
def Crypto.autoFormat (c : Config) (code : List Byte) (page : Nat) (rom : List Byte) : List Byte :=
  match c.suite with
  | .reference => slice code 0 4 ++ [BitVec.ofNat 8 page] ++ rom.take 7 ++ slice code 4 7
  | .uninterpreted k => exactly 15 (Config.openAutoFormat k code page rom)

/-- `SELECTOR(ta, b)` (R18): for the reference suite the device's 32-byte page number. -/
def Crypto.selector (c : Config) (ta b : Nat) : Byte :=
  match c.suite with
  | .reference => BitVec.ofNat 8 (ta >>> 5)
  | .uninterpreted k => Config.openSelector k ta b

/-- `DevSecret(prev, page32, sp15)` (45_auth.md R263). -/
def devSecret (c : Config) (prev page sp15 : List Byte) : List Byte :=
  Crypto.extractSecret c (Crypto.sha1 c (Crypto.msgSecret c prev page sp15))

end Sys2Proof.Machine
end

