-- ==== Sys2Proof/Machine/Rdm.lean ====
section
/-! DEFINITION. The reference device model (20_memory.md R104 to R115): one deterministic device, which the spec's
own properties and vectors take as a premise. It is no claim about any real device (R96). Log entries 18, 31, 32, 34, 35 and 36
(DESIGN CHOICE) name what R104 to R115 leave open and this file fixes. -/

namespace Sys2Proof.Machine

/-- `M` as R104 starts it, everything else at R104's initial values. -/
def Rdm.initial : Rdm where
  mem := []
  spBuf := []
  spTa := 0
  spEs := 0
  spValid := false
  spBank := 0
  sec := []
  dsec := rep 0x00 8
  extra := []
  present := true
  ptr := none
  mode := .idle
  selected := false
  stream := .none
  pending := []
  rom := rep 0x00 8
  script := []
  flip := none

/-- The first bank whose range holds device address `a`. -/
def bankAt (c : Config) (a : Nat) : Option Nat :=
  c.banks.findIdx? fun k => decide (k.base ≤ a) && decide (a < k.base + k.pageCount * k.pageLength)

/-- The address bytes of a frame `[cmd, lo, hi] ++ …`. -/
def frameAddr (out : List Byte) : Nat := (ofWire16 (byteAt out 1) (byteAt out 2)).toNat

/-- The bank of a frame `[cmd, lo, hi] ++ …`: the first bank that holds its address and has its command byte among its own seven
(R105, 00_scope.md R8; where banks overlap, DESIGN CHOICE, log entry 35). -/
def frameBank (c : Config) (out : List Byte) : Option Nat :=
  c.banks.findIdx? fun k =>
    decide (k.base ≤ frameAddr out) && decide (frameAddr out < k.base + k.pageCount * k.pageLength) &&
      (deviceOpcodes k).contains (byteAt out 0)

/-- Whether `a` lies in secret memory (R111). -/
def inSecret (c : Config) (a : Nat) : Bool := decide (c.secretBase ≤ a) && decide (a < c.secretBase + 64)

/-- The seal width the device uses for a scratchpad exchange at `a` by bank `b`'s command bytes: its `crc_bytes`, and 2 outside
the banks, as in secret memory (95_test_vectors.md section 1.2). -/
def spCrcBytes (c : Config) (b a : Nat) : Nat :=
  match bankAt c a with
  | some _ => (c.bank b).crcBytes
  | none => 2

/-- `M[a..a+n)`. -/
def Rdm.memRun (r : Rdm) (a n : Nat) : List Byte := Memory.readRun 0xFF r.mem a n

/-- `X[b][p]`. -/
def Rdm.extraInfo (r : Rdm) (c : Config) (b p : Nat) : List Byte :=
  Memory.readRun 0xFF r.extra ((256 * b + p) * 16) (c.bank b).extraInfoLength

/-- `SPD.buf[o..o+n)`, 0xFF past `SP_LEN` (R110). -/
def Rdm.spRun (r : Rdm) (c : Config) (o n : Nat) : List Byte :=
  (List.range n).map fun i => if o + i < c.spLen then Memory.read 0x00 r.spBuf (o + i) else 0xFF

/-- A page with its ExtraInfo and its seal over `head` and them (R107). -/
def Rdm.pageFrame (r : Rdm) (c : Config) (b a : Nat) (head : List Byte) (seed : HWord) : List Byte :=
  let k := c.bank b
  let body := r.memRun a k.pageLength ++ r.extraInfo c b ((a - k.base) / k.pageLength)
  body ++ sealK k.crcBytes seed (head ++ body)

/-- Read-with-CRC (R107). -/
def Rdm.readCrc (r : Rdm) (c : Config) (out : List Byte) : List Byte × Rdm :=
  let a := frameAddr out
  let head := out.take 3
  match frameBank c out with
  | none => (ff out.length, r)
  | some b =>
    let k := c.bank b
    if k.crcAfterAddress then
      (head ++ sealK k.crcBytes k.crcSeed head, { r with ptr := some a, stream := .page b })
    else
      (head ++ r.pageFrame c b a head k.crcSeed, { r with ptr := some (a + k.pageLength), stream := .page b })

/-- Raw read (R108). -/
def Rdm.readRaw (r : Rdm) (out : List Byte) : List Byte × Rdm :=
  let a := frameAddr out
  let n := out.length - 3
  (out.take 3 ++ r.memRun a n, { r with ptr := some (a + n), stream := .raw })

/-- Write-scratchpad (R109). -/
def Rdm.writeSp (r : Rdm) (c : Config) (out : List Byte) : List Byte × Rdm :=
  let ta := frameAddr out
  let b := (frameBank c out).getD r.spBank
  let k := spCrcBytes c b ta
  let body := out.take (out.length - k)
  let d := body.drop 3
  let o := ta % c.spLen
  (body ++ sealK k 0 body,
    { r with
      spBuf := Memory.writeRun (some 0x00) r.spBuf o d
      spTa := BitVec.ofNat 16 ta
      spEs := BitVec.ofNat 8 (o + d.length - 1) &&& 0x1F
      spValid := true
      spBank := b })

/-- Read-scratchpad (R110). -/
def Rdm.readSp (r : Rdm) (c : Config) (out : List Byte) : List Byte × Rdm :=
  if r.spValid then
    let ta := r.spTa.toNat
    let k := spCrcBytes c r.spBank ta
    let n := out.length - (4 + k)
    let h := [byteAt out 0, lo r.spTa, hi r.spTa, r.spEs] ++ r.spRun c (ta % c.spLen) n
    (h ++ sealK k 0 h, r)
  else (ff out.length, r)

/-- The MAC the device expects of a copy into bank `b` (R111). -/
def Rdm.expectedMac (r : Rdm) (c : Config) (b ta o n : Nat) : List Byte :=
  let k := c.bank b
  let pa := k.base + (ta - k.base) / k.pageLength * k.pageLength
  Crypto.sha1 c
    (Crypto.msgMac c r.dsec (r.memRun pa 32) (r.spRun c o n) r.rom (Crypto.selector c ta b))

/-- Store `d` at `a` in device memory: `old AND new` on a write-once bank (R111, R102). -/
def Rdm.store (r : Rdm) (writeOnce : Bool) (a : Nat) (d : List Byte) : Rdm :=
  let new := if writeOnce then List.zipWith (· &&& ·) (r.memRun a d.length) d else d
  { r with mem := Memory.writeRun (some 0xFF) r.mem a new }

/-- Store `d` at `a` in secret memory; eight bytes that fill slot s also become `dsec` (R111, R113). R111 speaks of one slot
that receives the bytes: a run that is not one whole slot is stored byte by byte from its address on (DESIGN CHOICE, log
entry 31). -/
def Rdm.storeSecret (r : Rdm) (c : Config) (a : Nat) (d : List Byte) : Rdm :=
  { r with
    sec := Memory.writeRun (some 0x00) r.sec (a - c.secretBase) d
    dsec := if d.length = 8 ∧ (a - c.secretBase) % 8 = 0 then d else r.dsec }

/-- Copy-scratchpad, the whole frame `[OPC_COPY_SP, t1, t2, e] ++ mac` (R111). A frame that fails on `SPD.valid`, TA or ES gives
BUSY whatever its MAC is, and so does one whose address lies in no bank and not in secret memory (DESIGN CHOICE, log entry
31). -/
def Rdm.copySp (r : Rdm) (c : Config) (frame : List Byte) : Rdm :=
  let ta := frameAddr frame
  let e := byteAt frame 3
  let mac := frame.drop 4
  let o := ta % c.spLen
  let n := (e &&& 0x1F).toNat + 1 - o
  let d := r.spRun c o n
  if r.spValid ∧ ta = r.spTa.toNat ∧ e = r.spEs then
    if inSecret c ta then { (r.storeSecret c ta d) with spValid := false, mode := .alt }
    else
      match frameBank c frame with
      | none => { r with mode := .busy }
      | some b =>
        if (c.bank b).authenticated ∧ mac ≠ r.expectedMac c b ta o n then { r with mode := .reject }
        else { (r.store (c.bank b).writeOnce ta d) with spValid := false, mode := .alt }
  else { r with mode := .busy }

/-- Whether a copy-scratchpad frame is still open for `T.put_byte`: its last byte can only be missing where it lacks ES or, on
an authenticated bank, the last byte of a MAC (R88, R112; 43_scratchpad.md R204). Any other frame is whole: without a MAC, and
with one of a wrong length, it is a MAC mismatch on an authenticated bank (R111). That 23 bytes stay open, which one exchange
could also mean as a whole frame with a MAC of 19 bytes, is DESIGN CHOICE, log entry 31. -/
def copyOpen (c : Config) (frame : List Byte) : Bool :=
  decide (frame.length < 4) ||
  (frame.length == 23 &&
    match frameBank c frame with
    | some b => (c.bank b).authenticated
    | none => false)

/-- Copy-scratchpad bytes as they arrive: acted on when the frame is whole, else kept open for `T.put_byte` (R112). -/
def Rdm.copyBytes (r : Rdm) (c : Config) (bytes : List Byte) : Rdm :=
  if copyOpen c bytes then { r with pending := bytes } else ({ r with pending := [] } : Rdm).copySp c bytes

/-- Compute-SHA (R113). Function codes that are equal, which R7 leaves OPEN and R9 does not rule out, name the next secret, so that
the device's secret is the host's after every command that completes (45_auth.md R270; DESIGN CHOICE, log entry 34). -/
def Rdm.sha (r : Rdm) (c : Config) (out : List Byte) : Rdm :=
  let page := r.memRun (frameAddr out) 32
  let fn := byteAt out 3
  let s15 := r.spRun c c.spSecretOffset 15
  if r.spValid then
    { r with
      dsec :=
        if fn = c.fnNextSecret then devSecret c r.dsec page s15
        else if fn = c.fnFirstSecret then devSecret c (rep 0x00 8) page s15
        else r.dsec
      mode := .alt }
  else { r with mode := .idle }

/-- The MAC of a signed read of the page at `a` of bank `b` (R114). -/
def Rdm.authMac (r : Rdm) (c : Config) (b a : Nat) : List Byte :=
  let k := c.bank b
  Crypto.sha1 c
    (Crypto.msgAuthRead c r.dsec (r.memRun a 32) (r.extraInfo c b ((a - k.base) / k.pageLength))
      (r.spRun c c.chalOffset c.chalLen) r.rom (Crypto.selector c a b))

/-- Read-authenticated, first exchange (R114). -/
def Rdm.readAuth (r : Rdm) (c : Config) (out : List Byte) : List Byte × Rdm :=
  let a := frameAddr out
  match frameBank c out with
  | none => (ff out.length, r)
  | some b =>
    let k := c.bank b
    let body := out.take 3 ++ r.memRun a 32 ++ r.extraInfo c b ((a - k.base) / k.pageLength)
    (body ++ seal16 0 body, { r with stream := .mac (r.authMac c b a) })

/-- The first exchange where `OPC_READ_AUTH` equals `OPC_READ_CRC`, which WF10 allows (00_scope.md R9). A bank that answers a
CRC after the address takes frames of two lengths, so the length tells the command. On any other `sha_capable` bank the two
frames are the same bytes: the page is answered, sealed with `crc_seed` as R107 says, and the length of the next exchange tells
the command (DESIGN CHOICE, log entry 32: with a `crc_seed` of 0 both R107 and R114 hold; with another, R107). -/
def Rdm.readEither (r : Rdm) (c : Config) (out : List Byte) : List Byte × Rdm :=
  let a := frameAddr out
  match frameBank c out with
  | none => r.readCrc c out
  | some b =>
    let k := c.bank b
    if k.shaCapable ∧ out.length = 37 + k.extraInfoLength then
      if k.crcAfterAddress then r.readAuth c out
      else ((r.readCrc c out).1, { (r.readCrc c out).2 with stream := .pageOrMac b (r.authMac c b a) })
    else r.readCrc c out

/-- Whether `out` is `[OPC_READ_SP] ++ FF*m` (R110) of the bank whose run is in the scratchpad. -/
def Rdm.readsBack (r : Rdm) (c : Config) (out : List Byte) : Bool :=
  r.spValid && byteAt out 0 == (c.bank r.spBank).opcReadSp && out.drop 1 == ff (out.length - 1)

/-- The bank whose command bytes a first exchange is read by (R105, 00_scope.md R8): a read-scratchpad, which carries no address,
belongs to the bank that staged the run; any other frame to the bank of its address; and one whose address lies in no bank, as in
secret memory, to the bank that staged last (DESIGN CHOICE, log entry 35). -/
def Rdm.commandBank (r : Rdm) (c : Config) (out : List Byte) : Option Nat :=
  if r.readsBack c out then some r.spBank
  else if (bankAt c (frameAddr out)).isNone then some r.spBank
  else frameBank c out

/-- The first exchange after a select: its first byte is a device command by the values of its bank, and one that bank does not
have is answered 0xFF in every position (R105). -/
def Rdm.command (r : Rdm) (c : Config) (out : List Byte) : List Byte × Rdm :=
  match r.commandBank c out with
  | none => (ff out.length, r)
  | some b =>
    let k := c.bank b
    let op := byteAt out 0
    if op = k.opcReadCrc then if k.opcReadAuth = k.opcReadCrc then r.readEither c out else r.readCrc c out
    else if op = k.opcRead then r.readRaw out
    else if op = k.opcWriteSp then r.writeSp c out
    else if op = k.opcReadSp then r.readSp c out
    else if op = k.opcCopySp then (out, r.copyBytes c out)
    else if op = k.opcSha then (out, r.sha c out)
    else if op = k.opcReadAuth then r.readAuth c out
    else (ff out.length, r)

/-- A further exchange: the stream in progress, or the bytes sent (R105, R107, R108, R114). -/
def Rdm.continue (r : Rdm) (c : Config) (out : List Byte) : List Byte × Rdm :=
  match r.stream, r.ptr with
  | .page b, some a => (r.pageFrame c b a [] 0, { r with ptr := some (a + (c.bank b).pageLength) })
  | .raw, some a => (r.memRun a out.length, { r with ptr := some (a + out.length) })
  | .mac m, _ => (m ++ seal16 0 m, { r with stream := .none })
  | .pageOrMac b m, some a =>
    if out.length = 22 then (m ++ seal16 0 m, { r with stream := .none })
    else (r.pageFrame c b a [] 0, { r with ptr := some (a + (c.bank b).pageLength), stream := .page b })
  | _, _ => (out, r)

/-- A test's `flip`: byte i of the next exchange's answer XORed with m (95_test_vectors.md section 1.5). -/
def flipByte (f : Option (Nat × Byte)) (s : List Byte) : List Byte :=
  match f with
  | none => s
  | some (i, m) => s.set i (byteAt s i ^^^ m)

/-- `T.exchange(out)` of the reference device model. An answer of another length than the exchange, as to a frame of a length that
R107 to R114 do not give, is cut or filled with 0xFF (DESIGN CHOICE, log entry 36). -/
def Rdm.exchange (r : Rdm) (c : Config) (out : List Byte) : List Byte × Rdm :=
  let (ans, r1) := if r.selected then ({ r with selected := false } : Rdm).command c out else r.continue c out
  (flipByte r.flip (fit out.length ans fun _ => 0xFF), { r1 with flip := none })

/-- What `T.reset()` does to the reference device model (R106). -/
def Rdm.busReset (r : Rdm) : Rdm :=
  { r with ptr := none, mode := .idle, selected := false, stream := .none, pending := [] }

/-- `T.select(rom', resume)` of the reference device model (R106). -/
def Rdm.select (r : Rdm) (rom : List Byte) : Bool × Rdm :=
  (r.present, { r.busReset with selected := r.present, rom := rom })

/-- The byte `T.get_byte()` answers by `mode` (R112). -/
def RdmMode.answer : RdmMode → Byte
  | .alt => 0xAA
  | .reject => 0x00
  | .busy => 0xFF
  | .idle => 0xFF

/-- `T.get_byte()` of the reference device model: the script first (R112, 95_test_vectors.md section 1.5). -/
def Rdm.getByte (r : Rdm) : Byte × Rdm :=
  match r.script with
  | v :: rest => (v, { r with script := rest })
  | [] => (r.mode.answer, r)

/-- `T.put_byte(b)` of the reference device model: the next byte of the exchange in progress (R112). -/
def Rdm.putByte (r : Rdm) (c : Config) (b : Byte) : Rdm :=
  match r.pending with
  | [] => r
  | open_ => r.copyBytes c (open_ ++ [b])

end Sys2Proof.Machine
end

