-- ==== Sys2Proof/Machine/Ops.lean ====
section
/-! DEFINITION. The shared operations: a command as a procedure over the state, the transport primitives
(00_scope.md R16), the command lifecycle (60_exceptions.md R300, R303, R304) and the accesses to registers and DATA.

`completeError` is the one operation that "takes an exception": an error completion (R304) saves the cause in RESULT and
the kind in STATUS.ERR, changes no mode and goes to no handler (R312). Nothing returns from it (R313). -/

namespace Sys2Proof.Machine

/-- The two phases of a command (42_paged_memory.md R160): they decide what an error changes (60_exceptions.md R304). -/
inductive Phase where
  | check
  | bus
  deriving DecidableEq, Repr

/-- Why a procedure ends early. -/
inductive Stop where
  /-- `raise E(tag)` (60_exceptions.md R302) -/
  | raised (p : Phase) (c : Cause)
  /-- a soft reset landed: the command is abandoned (70_reset_and_hazards.md R332) -/
  | abandoned
  /-- a host access that landed stops the machine -/
  | fault (f : Fault)
  | refused (r : Refusal)
  deriving DecidableEq, Repr

/-- A procedure of the spec's pseudocode (00_scope.md R13 to R15): it reads and writes the state and may end early. -/
abbrev Proc (α : Type) := EStateM Stop State α

/-- `raise E(tag)` in the bus phase. -/
def fail {α : Type} (c : Cause) : Proc α := throw (.raised .bus c)

/-- `if not ok: raise E(tag)` in the bus phase. -/
def ensure (ok : Bool) (c : Cause) : Proc Unit := if ok then pure () else fail c

/-- The first check of a list that fails (60_exceptions.md R308). -/
def firstFailing : List (Bool × Cause) → Option Cause
  | [] => none
  | (ok, c) :: rest => if ok then firstFailing rest else some c

/-- The check phase: the checks in order, the first that fails being raised (42_paged_memory.md R160, R308). -/
def require (checks : List (Bool × Cause)) : Proc Unit :=
  match firstFailing checks with
  | none => pure ()
  | some c => throw (.raised .check c)

/-- What an error of the bus phase of `p` changes besides the completion: `f` (45_auth.md R260). -/
def onBusError {α : Type} (f : State → State) (p : Proc α) : Proc α := fun s =>
  match p s with
  | .error (.raised .bus c) s' => .error (.raised .bus c) (f s')
  | r => r

/-- The host's accesses that land now: those at the head of its list that are due after at most `issued` events of the
running command (10_state.md R51; DESIGN CHOICE, log entry 2). A soft reset among them abandons the command at this transport-event
boundary (70_reset_and_hazards.md R332), and it takes effect at the access itself: the host's next access finds the core reset
and idle (DESIGN CHOICE, log entry 33). -/
def landFrom : List HostOp → Proc Unit
  | [] => pure ()
  | op :: rest => fun s =>
    match op.early with
    | none => .ok () s
    | some k =>
      if k ≤ s.issued then
        match hostPort op.access { s with host := rest } with
        | .done s' => landFrom rest s'
        | .start _ s' => landFrom rest s'
        | .reset s' => .error .abandoned s'
        | .fault f => .error (.fault f) s
        | .refuse r => .error (.refused r) s
      else .ok () s

/-- The host's accesses that land at this point of the running command. -/
def land : Proc Unit := fun s => landFrom s.host s

/-- A transport event, with the device after it: it is recorded (00_scope.md R16), it ends any read stream
(42_paged_memory.md R165), and host accesses may land at the boundary after it. -/
def event (e : Event) (d : Device) (draws : Nat) : Proc Unit := fun s =>
  land { s with
    dev := d
    draws := draws
    events := s.events ++ [e]
    issued := s.issued + 1
    cont := { s.cont with valid := false } }

/-- `T.reset()` (R16). -/
def tReset : Proc Unit := fun s =>
  match s.dev with
  | .oracle _ => event .reset s.dev s.draws s
  | .reference r => event .reset (.reference r.busReset) s.draws s

/-- The answer of a device to `T.select`, the device after it and the number of draws after it (R16, R96, R106). -/
def selectAnswer (s : State) : Bool × Device × Nat :=
  match s.dev with
  | .oracle o =>
    match o.selects with
    | a :: rest => (a, .oracle { o with selects := rest }, s.draws)
    | [] => (Config.freeSelect s.draws, s.dev, s.draws + 1)
  | .reference r => ((r.select s.rom).1, .reference (r.select s.rom).2, s.draws)

/-- `T.select(rom, resume)` (R16). -/
def tSelect (resume : Bool) : Proc Bool := fun s =>
  let a := selectAnswer s
  match event (.select s.rom resume a.1) a.2.1 a.2.2 s with
  | .ok _ s' => .ok a.1 s'
  | .error e s' => .error e s'

/-- The answer of a device to `T.exchange(out)`: as many bytes as were sent, whatever the device (R16, R96; DESIGN CHOICE, log entry
5). The one draw serves the bytes a list does not supply. -/
def exchangeAnswer (s : State) (out : List Byte) : List Byte × Device × Nat :=
  match s.dev with
  | .oracle o =>
    let pad := Config.freeByte s.draws
    match o.exchanges with
    | a :: rest =>
      (fit out.length a pad, .oracle { o with exchanges := rest }, if a.length < out.length then s.draws + 1 else s.draws)
    | [] => (fit out.length [] pad, s.dev, s.draws + 1)
  | .reference r => ((r.exchange s.cfg out).1, .reference (r.exchange s.cfg out).2, s.draws)

/-- `T.exchange(out)` (R16). -/
def tExchange (out : List Byte) : Proc (List Byte) := fun s =>
  let a := exchangeAnswer s out
  match event (.exchange out a.1) a.2.1 a.2.2 s with
  | .ok _ s' => .ok a.1 s'
  | .error e s' => .error e s'

/-- `T.put_byte(b)` (R16). -/
def tPutByte (b : Byte) : Proc Unit := fun s =>
  match s.dev with
  | .oracle _ => event (.putByte b) s.dev s.draws s
  | .reference r => event (.putByte b) (.reference (r.putByte s.cfg b)) s.draws s

/-- The answer of a device to `T.get_byte` (R16, R96, R112). -/
def getByteAnswer (s : State) : Byte × Device × Nat :=
  match s.dev with
  | .oracle o =>
    match o.gets with
    | v :: rest => (v, .oracle { o with gets := rest }, s.draws)
    | [] => (Config.freeByte s.draws 0, s.dev, s.draws + 1)
  | .reference r => (r.getByte.1, .reference r.getByte.2, s.draws)

/-- `T.get_byte()` (R16). -/
def tGetByte : Proc Byte := fun s =>
  let a := getByteAnswer s
  match event (.getByte a.1) a.2.1 a.2.2 s with
  | .ok _ s' => .ok a.1 s'
  | .error e s' => .error e s'

/-- `T.set_power_mode(ms, AFTER_NEXT_BYTE)` (R16). -/
def tSetPowerMode (ms : Nat) : Proc Unit := fun s => event (.setPowerMode ms .afterNextByte) s.dev s.draws s

/-- `T.start_power_delivery()` (R16). -/
def tStartPowerDelivery : Proc Unit := fun s => event .startPowerDelivery s.dev s.draws s

/-- `T.sleep(ms)` (R16, 70_reset_and_hazards.md R340): an event and nothing else. -/
def tSleep (ms : Nat) : Proc Unit := fun s => event (.sleep ms) s.dev s.draws s

/-- `x[4] <- v` (00_scope.md R13). -/
def setResult (v : Word) : Proc Unit := modify fun s => { s with result := v }

/-- `MemWrite(o, len(bytes), bytes)` (00_scope.md R14). -/
def memWrite (o : Nat) (bytes : List Byte) : Proc Unit := modify fun s => s.putData o bytes

/-- `sp.phase <- p`. -/
def setPhase (p : SpPhase) : Proc Unit := modify fun s => { s with sp := { s.sp with phase := p } }

/-- `sp <- {…}`. -/
def setScratch (p : Scratch) : Proc Unit := modify fun s => { s with sp := p }

/-- `cont <- {…}`. -/
def setCont (c : Cont) : Proc Unit := modify fun s => { s with cont := c }

/-- `auth_state <- a`. -/
def setAuth (a : AuthState) : Proc Unit := modify fun s => { s with auth := a }

/-- `host_secret <- v`. -/
def setHostSecret (v : List Byte) : Proc Unit := modify fun s => { s with hostSecret := v }

/-- `Start(w)`: BUSY is taken, DONE and ERR are cleared (60_exceptions.md R300). -/
def start (s : State) : State := { s with busy := true, done := false, err := .none, issued := 0 }

/-- Normal completion (60_exceptions.md R303). -/
def completeOk (s : State) : State := { s with busy := false, done := true, err := .none }

/-- Clearing the session to "unverified" (60_exceptions.md R304, step 5). -/
def forceVerify (s : State) : State := { s with speedVerified := false, resumeEligible := false }

/-- Error completion (60_exceptions.md R304): in the check phase only STATUS and RESULT change; in the bus phase an
Integrity, Presence, Timeout or Authentication error also marks the session unverified. -/
def completeError (p : Phase) (c : Cause) (s : State) : State :=
  let s1 := if p = .bus ∧ c.kind.unverifies then forceVerify s else s
  { s1 with busy := false, done := true, err := c.kind, result := c.info }

/-- How a command ends (60_exceptions.md R300). -/
def conclude : EStateM.Result Stop State Unit → Host.Outcome State Fault Refusal
  | .ok _ s => .next (completeOk s)
  | .error (.raised p c) s => .next (completeError p c s)
  | .error .abandoned s => .next (softReset s)
  | .error (.fault f) _ => .fault f
  | .error (.refused r) _ => .refused r

/-- A command from its start to its completion (60_exceptions.md R300): one step (20_memory.md R97). -/
def runCommand (p : Proc Unit) (s : State) : Host.Outcome State Fault Refusal :=
  conclude ((land >>= fun _ => p) (start s))

/-- An ILLEGAL word (60_exceptions.md R310): it completes at once. -/
def execIllegal (s : State) : Host.Outcome State Fault Refusal := runCommand (require [(false, .illegal)]) s

end Sys2Proof.Machine
end

