-- ==== Sys2Proof/Machine/Operands.lean ====
section
/-! DEFINITION. Operands and checks: the ARG registers as naturals (30_encoding.md R122, 60_exceptions.md R309), the bank a
command names, the addresses of 20_memory.md R75 to R78, and the common checks in the order of 60_exceptions.md R308. -/

namespace Sys2Proof.Machine

/-- `x[0]`, `x[1]`, `x[2]` as naturals (R122, R309). -/
def State.x0 (s : State) : Nat := s.arg0.toNat
def State.x1 (s : State) : Nat := s.arg1.toNat
def State.x2 (s : State) : Nat := s.arg2.toNat

/-- `BANK[b]` (00_scope.md R8). -/
def State.bank (s : State) (b : Nat) : Bank := s.cfg.bank b

/-- `dev_addr(b, r)` (20_memory.md R75). -/
def devAddr (k : Bank) (r : Nat) : Nat := k.base + r

/-- `page_addr(b, p)` (20_memory.md R75). -/
def pageAddr (k : Bank) (p : Nat) : Nat := k.base + p * k.pageLength

/-- `slot_addr(s)` (20_memory.md R77). -/
def slotAddr (c : Config) (slot : Nat) : Nat := c.secretBase + 8 * slot

/-- A device address as it goes on the wire: 16 bits (20_memory.md R74, R80). -/
def wireAddr (a : Nat) : List Byte := wire16 (BitVec.ofNat 16 a)

/-- The checks bank id and control (42_paged_memory.md R167). -/
def bankChecks (s : State) (b : Nat) : List (Bool × Cause) :=
  [(decide (b < s.cfg.nbanks), .bank), ((s.bank b).generalPurpose, .control)]

/-- `o + n <= BUF_LEN` (60_exceptions.md R309). -/
def bufferCheck (o n : Nat) : Bool × Cause := (decide (o + n ≤ bufLen), .buffer)

/-- A page index inside the bank. -/
def pageCheck (k : Bank) (p : Nat) : Bool × Cause := (decide (p < k.pageCount), .range)

/-- A byte range inside the bank. -/
def rangeCheck (k : Bank) (r n : Nat) : Bool × Cause := (decide (r + n ≤ k.pageCount * k.pageLength), .range)

/-- A bank some read works on (42_paged_memory.md R166). -/
def readableCheck (k : Bank) : Bool × Cause := (k.pageAutoCrc || k.rawRead, .capability)

/-- `rom_valid` (42_paged_memory.md R167). -/
def romCheck (s : State) : Bool × Cause := (s.romValid, .rom)

/-- A secret is held: SecretBound or SecretActive (45_auth.md R260). -/
def AuthState.holdsSecret : AuthState → Bool
  | .noSecret => false
  | .secretInstalling => false
  | .secretBound => true
  | .secretActive => true

/-- The authentication precondition of a commit to bank `k` (45_auth.md R269). -/
def commitAuthCheck (s : State) (k : Bank) : Bool × Cause := (!k.authenticated || s.auth.holdsSecret, .nosecret)

end Sys2Proof.Machine
end

