-- ==== Sys2Proof/Machine/CrcGen.lean ====
section
/-! DEFINITION. The eight CRC-generator commands (41_crc.md R148 to R155). None touches the transport (R156). -/

namespace Sys2Proof.Machine

/-- `crc8_acc <- v`, and `x[4]` receives it zero-extended. -/
def loadCrc8 (v : Byte) : Proc Unit := modify fun s => { s with crc8 := v, result := v.setWidth 32 }

/-- `crc16_acc <- v`, and `x[4]` receives it zero-extended. -/
def loadCrc16 (v : HWord) : Proc Unit := modify fun s => { s with crc16 := v, result := v.setWidth 32 }

/-- `CRC8_SEED` (R148). -/
def execCrc8Seed (seed : Byte) (s : State) : Host.Outcome State Fault Refusal := runCommand (loadCrc8 seed) s

/-- `CRC8_BYTE` (R149). -/
def execCrc8Byte (byte : Byte) (s : State) : Host.Outcome State Fault Refusal :=
  runCommand (do
    let s ← get
    loadCrc8 (crc8Step s.crc8 byte)) s

/-- `CRC8_BLOCK` (R150): o = x[0], n = x[1]. -/
def execCrc8Block (s : State) : Host.Outcome State Fault Refusal :=
  runCommand (do
    let s ← get
    require [bufferCheck s.x0 s.x1]
    loadCrc8 (crc8 s.crc8 (dataRun s s.x0 s.x1))) s

/-- `CRC8_CHECK` (R151). -/
def execCrc8Check (s : State) : Host.Outcome State Fault Refusal :=
  runCommand (do
    let s ← get
    setResult (if s.crc8.setWidth 16 = crcResidual 1 then 1 else 0)) s

/-- `CRC16_SEED` (R152). -/
def execCrc16Seed (seed : HWord) (s : State) : Host.Outcome State Fault Refusal := runCommand (loadCrc16 seed) s

/-- `CRC16_BYTE` (R153). -/
def execCrc16Byte (byte : Byte) (s : State) : Host.Outcome State Fault Refusal :=
  runCommand (do
    let s ← get
    loadCrc16 (crc16Step s.crc16 byte)) s

/-- `CRC16_BLOCK` (R154): o = x[0], n = x[1]. -/
def execCrc16Block (s : State) : Host.Outcome State Fault Refusal :=
  runCommand (do
    let s ← get
    require [bufferCheck s.x0 s.x1]
    loadCrc16 (crc16 s.crc16 (dataRun s s.x0 s.x1))) s

/-- `CRC16_CHECK` (R155). -/
def execCrc16Check (s : State) : Host.Outcome State Fault Refusal :=
  runCommand (do
    let s ← get
    setResult (if s.crc16 = crcResidual 2 then 1 else 0)) s

end Sys2Proof.Machine
end

