-- ==== Sys2Proof/Machine/Frames.lean ====
section
/-! DEFINITION. The session prologue (42_paged_memory.md R161), the wire frames (20_memory.md R82 to R93) and the page
and raw reads built from them (42_paged_memory.md R162 to R164). A frame does not select the device. -/

namespace Sys2Proof.Machine

/-- `Select()` (42_paged_memory.md R161). -/
def selectDevice : Proc Unit := do
  let s ← get
  if s.speedVerified then pure () else tReset
  let ok ← tSelect (s.speedVerified && s.resumeEligible)
  ensure ok .select
  modify fun s => { s with speedVerified := true, resumeEligible := true }

/-- The bytes of a page frame after command and address: page, ExtraInfo and CRC. -/
def pageFrameLength (k : Bank) : Nat := k.pageLength + k.extraInfoLength + k.crcBytes

/-- Payload and ExtraInfo of an answer, from byte `i` on. -/
def splitPage (k : Bank) (i : Nat) (answer : List Byte) : List Byte × List Byte :=
  (slice answer i (i + k.pageLength), slice answer (i + k.pageLength) (i + k.pageLength + k.extraInfoLength))

/-- `Frame_ReadCRC(b, a)` (20_memory.md R82). -/
def frameReadCrc (k : Bank) (a : Nat) : Proc (List Byte × List Byte) := do
  let answer ← tExchange ([k.opcReadCrc] ++ wireAddr a ++ ff (pageFrameLength k))
  ensure (crcOk k.crcBytes k.crcSeed answer) .frame
  pure (splitPage k 3 answer)

/-- `Frame_ReadCRC_cont(b)` (R83), which is also the second exchange of `Frame_ReadCRC_aa` (R84). -/
def frameReadCrcCont (k : Bank) : Proc (List Byte × List Byte) := do
  let answer ← tExchange (ff (pageFrameLength k))
  ensure (crcOk k.crcBytes 0 answer) .frame
  pure (splitPage k 0 answer)

/-- `Frame_ReadCRC_aa(b, a)` (R84). -/
def frameReadCrcAa (k : Bank) (a : Nat) : Proc (List Byte × List Byte) := do
  let answer ← tExchange ([k.opcReadCrc] ++ wireAddr a ++ ff k.crcBytes)
  ensure (crcOk k.crcBytes k.crcSeed answer) .address
  frameReadCrcCont k

/-- `Frame_ReadRaw(b, a, n)` (R85). -/
def frameReadRaw (k : Bank) (a n : Nat) : Proc (List Byte) := do
  let answer ← tExchange ([k.opcRead] ++ wireAddr a ++ ff n)
  pure (slice answer 3 (3 + n))

/-- `Frame_ReadRaw_cont(b, n)` (R85). -/
def frameReadRawCont (n : Nat) : Proc (List Byte) := tExchange (ff n)

/-- `Frame_WriteSP(b, ta, d)` (R86). -/
def frameWriteSp (k : Bank) (ta : Nat) (d : List Byte) : Proc Unit := do
  let answer ← tExchange ([k.opcWriteSp] ++ wireAddr ta ++ d ++ ff k.crcBytes)
  ensure (crcOk k.crcBytes 0 answer) .stage

/-- What `Frame_ReadSP` reads back: TA, ES and the payload (R87). -/
structure SpReadback where
  ta : HWord
  es : Byte
  payload : List Byte
  deriving DecidableEq, Repr

/-- `Frame_ReadSP(b, n)` (R87). -/
def frameReadSp (k : Bank) (n : Nat) : Proc SpReadback := do
  let answer ← tExchange ([k.opcReadSp] ++ ff (3 + n + k.crcBytes))
  ensure (crcOk k.crcBytes 0 answer) .confirm
  pure ⟨ofWire16 (byteAt answer 1) (byteAt answer 2), byteAt answer 3, slice answer 4 (4 + n)⟩

/-- `Frame_CopySP(b, ta, es, mac)`: the bytes of the commit command (R88). -/
def frameCopySp (k : Bank) (ta : HWord) (es : Byte) (mac : List Byte) : List Byte :=
  [k.opcCopySp, lo ta, hi ta, es] ++ mac

/-- The alternating pattern (43_scratchpad.md R205, 20_memory.md R92). -/
def isAlternating (v : Byte) : Bool := v == 0xAA || v == 0x55

/-- `Frame_Sha(b, a, fn)` (R92). -/
def frameSha (k : Bank) (a : Nat) (fn : Byte) : Proc Unit := do
  let s ← get
  let _ ← tExchange ([k.opcSha] ++ wireAddr a ++ [fn])
  tSleep s.cfg.tShaMs
  let v ← tGetByte
  ensure (isAlternating v) .sha

/-- What `Frame_ReadAuth` reads: the page, its ExtraInfo and the MAC (R93). -/
structure AuthPage where
  page : List Byte
  extra : List Byte
  mac : List Byte
  deriving DecidableEq, Repr

/-- `Frame_ReadAuth(b, a)` (R93). -/
def frameReadAuth (k : Bank) (a : Nat) : Proc AuthPage := do
  let s ← get
  let eil := k.extraInfoLength
  let in1 ← tExchange ([k.opcReadAuth] ++ wireAddr a ++ ff (32 + eil + 2))
  ensure (crcOk 2 0 in1) .authPage
  tSleep s.cfg.tShaMs
  let in2 ← tExchange (ff 22)
  ensure (crcOk 2 0 in2) .authMac
  pure ⟨slice in1 3 35, slice in1 35 (35 + eil), slice in2 0 20⟩

/-- `ContOK(b, kind, r)` (42_paged_memory.md R162). -/
def contOk (s : State) (b : Nat) (kind : ReadKind) (r : Nat) : Bool :=
  s.cont.valid && s.cont.bank == b && s.cont.kind == kind && s.cont.next == r

/-- `PageRead(b, p, cok)` (42_paged_memory.md R163): payload and ExtraInfo. -/
def pageRead (b p : Nat) (cok : Bool) : Proc (List Byte × List Byte) := do
  let s ← get
  let k := s.bank b
  if cok then frameReadCrcCont k
  else do
    selectDevice
    if k.crcAfterAddress then frameReadCrcAa k (pageAddr k p) else frameReadCrc k (pageAddr k p)

/-- `RawRead(b, r, n, cok)` (42_paged_memory.md R164). -/
def rawRead (b r n : Nat) (cok : Bool) : Proc (List Byte) := do
  let s ← get
  let k := s.bank b
  if cok then frameReadRawCont n
  else do
    selectDevice
    frameReadRaw k (devAddr k r) n

end Sys2Proof.Machine
end

