-- ==== Sys2Proof/Machine/WritePath.lean ====
section
/-! DEFINITION. The write path every device write uses: the scratchpad procedures (43_scratchpad.md R201 to R205), the
commit MAC (45_auth.md R269), control-bank bits (44_otp.md R230, R231, R233), the lock check, the chunks and the whole
range (42_paged_memory.md R170 to R174). -/

namespace Sys2Proof.Machine

/-- `ExpE(ta, n)` (43_scratchpad.md R201), on naturals. Only a challenge of length 0 stages no byte (DESIGN CHOICE, log entry
30): at scratchpad offset 0 the subtraction then gives 0. -/
def expE (c : Config) (ta n : Nat) : Byte := BitVec.ofNat 8 (ta % c.spLen + n - 1) &&& 0x1F

/-- `Stage(b, ta, d)` (43_scratchpad.md R202). -/
def stage (b ta : Nat) (d : List Byte) : Proc Unit := do
  setPhase .unknown
  selectDevice
  let s ← get
  frameWriteSp (s.bank b) ta d
  setScratch ⟨.staged, b, BitVec.ofNat 16 ta, expE s.cfg ta d.length, d⟩

/-- Whether a read-back agrees with the record (43_scratchpad.md R203): TA, the ending offset, the partial flag clear, and
the payload. -/
def confirms (c : Config) (p : Scratch) (r : SpReadback) : Bool :=
  r.ta == p.ta && (r.es &&& 0x1F) == expE c p.ta.toNat p.n && !r.es.getLsbD 5 && r.payload == p.data

/-- `Confirm()` (43_scratchpad.md R203). -/
def confirm : Proc Unit := do
  let s ← get
  setPhase .unknown
  selectDevice
  let r ← frameReadSp (s.bank s.sp.bank) s.sp.n
  ensure (confirms s.cfg s.sp r) .confirm
  setScratch { s.sp with phase := .confirmed, es := r.es }

/-- `Poll(b)` (43_scratchpad.md R205) with `n` reads left. -/
def poll (k : Bank) : Nat → Proc Unit
  | 0 => fail .poll
  | n + 1 => do
    let v ← tGetByte
    if isAlternating v then pure ()
    else if v = 0xFF then poll k n
    else fail (if k.authenticated then .rejected else .commit)

/-- How the commit frame goes out (43_scratchpad.md R204): with `COMMIT_POWER` its last byte follows the arming of power
delivery. -/
def sendCommit (c : Config) (out : List Byte) : Proc Unit :=
  if c.commitPower then do
    let _ ← tExchange out.dropLast
    tSetPowerMode c.tCommitMs
    tStartPowerDelivery
    tPutByte (out.getLastD 0)
  else do
    let _ ← tExchange out
    pure ()

/-- `Commit(mac)` (43_scratchpad.md R204). -/
def commit (mac : List Byte) : Proc Unit := do
  let s ← get
  let k := s.bank s.sp.bank
  setPhase .unknown
  selectDevice
  sendCommit s.cfg (frameCopySp k s.sp.ta s.sp.es mac)
  tSleep s.cfg.tCommitMs
  poll k s.cfg.pollMax
  setPhase .idle

/-- `MacFor(b, ta, d)` (45_auth.md R269). -/
def macFor (b ta : Nat) (d : List Byte) : Proc (List Byte) := do
  let s ← get
  let pg ← pageRead b ((ta - (s.bank b).base) / 32) false
  pure (Crypto.sha1 s.cfg
    (Crypto.msgMac s.cfg s.hostSecret pg.1 d s.rom (Crypto.selector s.cfg ta b)))

/-- `Verify(b, ta, d)` (42_paged_memory.md R173). -/
def verify (b ta : Nat) (d : List Byte) : Proc Unit := do
  let s ← get
  let k := s.bank b
  let m := d.length
  let r := ta - k.base
  if k.pageAutoCrc then do
    let pg ← pageRead b (r / k.pageLength) false
    ensure (slice pg.1 (r % k.pageLength) (r % k.pageLength + m) == d) .verify
  else do
    let got ← rawRead b r m false
    ensure (got == d) .verify

/-- `WriteChunk(b, ta, d, verify)` (42_paged_memory.md R172). -/
def writeChunk (b ta : Nat) (d : List Byte) (check : Bool) : Proc Unit := do
  let s ← get
  let mac ← if (s.bank b).authenticated then macFor b ta d else pure []
  stage b ta d
  confirm
  commit mac
  if check then verify b ta d else pure ()

/-- `byte_index(q)` (44_otp.md R230). -/
def byteIndex (q : Nat) : Nat := q >>> 3

/-- `bit_mask(q)` (44_otp.md R230). -/
def bitMask (q : Nat) : Byte := 1#8 <<< (q % 8)

/-- `ctl_page(L, q)` (44_otp.md R230). -/
def ctlPage (l : Bank) (q : Nat) : Nat := byteIndex q / l.pageLength

/-- `ctl_byte(L, q)` (44_otp.md R230). -/
def ctlByte (l : Bank) (q : Nat) : Nat := byteIndex q % l.pageLength

/-- `ReadCtl(L, cp)` (44_otp.md R231). -/
def readCtl (l cp : Nat) : Proc (List Byte) := do
  let pg ← pageRead l cp false
  pure pg.1

/-- `TestBit(L, q)` (44_otp.md R233): a cleared bit means locked. -/
def testBit (l q : Nat) : Proc Bool := do
  let s ← get
  let pay ← readCtl l (ctlPage (s.bank l) q)
  pure (byteAt pay (ctlByte (s.bank l) q) &&& bitMask q == 0)

/-- `LockCheck(b, p)` (42_paged_memory.md R170). -/
def lockCheck (b p : Nat) : Proc Unit := do
  let s ← get
  match (s.bank b).lockBank with
  | none => pure ()
  | some l => do
    let locked ← testBit l ((s.bank b).lockOffset + p)
    ensure (!locked) .locked

/-- `LockCheck` of the `n` pages from page `p` on. -/
def lockCheckPages (b : Nat) : Nat → Nat → Proc Unit
  | _, 0 => pure ()
  | p, n + 1 => do
    lockCheck b p
    lockCheckPages b (p + 1) n

/-- A scratchpad chunk `(ta, i, m)` of a write (42_paged_memory.md R171). -/
structure Chunk where
  ta : Nat
  i : Nat
  m : Nat
  deriving DecidableEq, Repr

/-- The length of the chunk at bank-relative byte `r` when `n` bytes are left (42_paged_memory.md R171). -/
def chunkLength (c : Config) (k : Bank) (r n : Nat) : Nat :=
  let ta := devAddr k r
  let m := min n (min (k.pageLength - r % k.pageLength) (c.spLen - ta % c.spLen))
  if k.authenticated then min m (8 - ta % 8) else m

/-- The chunks from byte `i` of a write of `n` bytes at `r`, at most `fuel` of them. -/
def chunksFrom (c : Config) (k : Bank) (r n : Nat) : Nat → Nat → List Chunk
  | 0, _ => []
  | fuel + 1, i =>
    if i < n then
      let m := chunkLength c k (r + i) (n - i)
      ⟨devAddr k (r + i), i, m⟩ :: chunksFrom c k r n fuel (i + m)
    else []

/-- `Chunks(b, r, n)` (42_paged_memory.md R171): the loop ends after at most n iterations, since every chunk has a byte. -/
def chunks (c : Config) (k : Bank) (r n : Nat) : List Chunk := chunksFrom c k r n n 0

/-- `WriteChunk` of each chunk of `d`, in order. -/
def writeChunks (b : Nat) (d : List Byte) (check : Bool) : List Chunk → Proc Unit
  | [] => pure ()
  | ch :: rest => do
    writeChunk b ch.ta (slice d ch.i (ch.i + ch.m)) check
    writeChunks b d check rest

/-- `WriteRange(b, r, d, verify)` (42_paged_memory.md R174): every lock check before any commit. -/
def writeRange (b r : Nat) (d : List Byte) (check : Bool) : Proc Unit := do
  let s ← get
  let k := s.bank b
  let n := d.length
  lockCheckPages b (r / k.pageLength) ((r + n - 1) / k.pageLength + 1 - r / k.pageLength)
  writeChunks b d check (chunks s.cfg k r n)

end Sys2Proof.Machine
end

