-- ==== Sys2Proof/Machine/Otp.lean ====
section
/-! DEFINITION. The OTP lock and redirection commands (44_otp.md R232 to R240). None reads or writes DATA. -/

namespace Sys2Proof.Machine

/-- `BitClear(L, q)` (R232): the write runs with verification off, then the one bit is tested. -/
def bitClear (l q : Nat) : Proc Unit := do
  let s ← get
  writeChunk l (devAddr (s.bank l) (byteIndex q)) [0xFF ^^^ bitMask q] false
  let pay ← readCtl l (ctlPage (s.bank l) q)
  ensure (byteAt pay (ctlByte (s.bank l) q) &&& bitMask q == 0) .lockbit

/-- The checks of a command on page x[0] of bank `b` that needs the control bank `link` (R234, R238, R239). -/
def controlChecks (s : State) (b : Nat) (link : Option Nat) : List (Bool × Cause) :=
  bankChecks s b ++ [(link.isSome, .capability), pageCheck (s.bank b) s.x0, romCheck s]

/-- `LOCK_PAGE` (R234): p = x[0]. -/
def execLockPage (b : Nat) (s : State) : Host.Outcome State Fault Refusal :=
  runCommand (do
    let s ← get
    let k := s.bank b
    require (controlChecks s b k.lockBank)
    bitClear (k.lockBank.getD 0) (k.lockOffset + s.x0)
    setResult 1) s

/-- `IS_PAGE_LOCKED` (R235): p = x[0]. -/
def execIsPageLocked (b : Nat) (s : State) : Host.Outcome State Fault Refusal :=
  runCommand (do
    let s ← get
    let k := s.bank b
    require (controlChecks s b k.lockBank)
    let locked ← testBit (k.lockBank.getD 0) (k.lockOffset + s.x0)
    setResult (if locked then 1 else 0)) s

/-- `RedirEnc(q)` (R236). -/
def redirEnc (q : Nat) : Byte := ~~~ BitVec.ofNat 8 q

/-- `RedirDec(v)` as RESULT holds it (R236): NONE is 0xFFFFFFFF. -/
def redirDec (v : Byte) : Word := if v = 0xFF then 0xFFFFFFFF else (~~~ v).setWidth 32

/-- The checks of REDIRECT_PAGE (R237). -/
def redirectChecks (s : State) (b : Nat) : List (Bool × Cause) :=
  let k := s.bank b
  bankChecks s b ++
  [(k.redirBank.isSome, .capability), pageCheck k s.x0, (decide (1 ≤ s.x1 ∧ s.x1 < k.pageCount), .target), romCheck s]

/-- The test of the redirect-lock bit of page `p` (R237). -/
def redirectLockCheck (k : Bank) (p : Nat) : Proc Unit :=
  match k.rlockBank with
  | none => pure ()
  | some l => do
    let frozen ← testBit l (k.rlockOffset + p)
    ensure (!frozen) .redirlocked

/-- `REDIRECT_PAGE` (R237): p = x[0], q = x[1]; the write runs with verification on. -/
def execRedirectPage (b : Nat) (s : State) : Host.Outcome State Fault Refusal :=
  runCommand (do
    let s ← get
    let k := s.bank b
    require (redirectChecks s b)
    redirectLockCheck k s.x0
    let d := k.redirBank.getD 0
    writeChunk d (devAddr (s.bank d) (k.redirOffset + s.x0)) [redirEnc s.x1] true
    setResult (BitVec.ofNat 32 s.x1)) s

/-- `GET_REDIRECTED_PAGE` (R238): p = x[0]. -/
def execGetRedirectedPage (b : Nat) (s : State) : Host.Outcome State Fault Refusal :=
  runCommand (do
    let s ← get
    let k := s.bank b
    require (controlChecks s b k.redirBank)
    let d := k.redirBank.getD 0
    let i := k.redirOffset + s.x0
    let pay ← readCtl d (i / (s.bank d).pageLength)
    setResult (redirDec (byteAt pay (i % (s.bank d).pageLength)))) s

/-- `LOCK_REDIRECT_PAGE` (R239): p = x[0]. -/
def execLockRedirectPage (b : Nat) (s : State) : Host.Outcome State Fault Refusal :=
  runCommand (do
    let s ← get
    let k := s.bank b
    require (controlChecks s b k.rlockBank)
    bitClear (k.rlockBank.getD 0) (k.rlockOffset + s.x0)
    setResult 1) s

/-- `IS_REDIRECT_PAGE_LOCKED` (R240): p = x[0]. -/
def execIsRedirectPageLocked (b : Nat) (s : State) : Host.Outcome State Fault Refusal :=
  runCommand (do
    let s ← get
    let k := s.bank b
    require (controlChecks s b k.rlockBank)
    let locked ← testBit (k.rlockBank.getD 0) (k.rlockOffset + s.x0)
    setResult (if locked then 1 else 0)) s

end Sys2Proof.Machine
end

