-- ==== Sys2Proof/Machine/PagedMemory.lean ====
section
/-! DEFINITION. The paged-memory commands (42_paged_memory.md R168, R169, R175 to R178, R190). -/

namespace Sys2Proof.Machine

/-- The page a read command wants (R166): by `PageRead` where the bank has device CRC, else by a raw read, with the kind
of stream it leaves. -/
def readWholePage (b p : Nat) (c : Bool) : Proc (List Byte × List Byte × ReadKind) := do
  let s ← get
  let k := s.bank b
  if k.pageAutoCrc then do
    let pg ← pageRead b p (c && contOk s b .page (p * k.pageLength))
    pure (pg.1, pg.2, .page)
  else do
    let payload ← rawRead b (p * k.pageLength) k.pageLength (c && contOk s b .raw (p * k.pageLength))
    pure (payload, [], .raw)

/-- The checks of READ_PAGE (R168). -/
def readPageChecks (s : State) (b : Nat) (x : Bool) : List (Bool × Cause) :=
  let k := s.bank b
  bankChecks s b ++
  [readableCheck k, (!(x && !k.pageAutoCrc && decide (0 < k.extraInfoLength)), .capability), pageCheck k s.x0,
   bufferCheck s.x1 (k.pageLength + if x then k.extraInfoLength else 0), romCheck s]

/-- `READ_PAGE` (R168): p = x[0], o = x[1]. -/
def execReadPage (b : Nat) (c x : Bool) (s : State) : Host.Outcome State Fault Refusal :=
  runCommand (do
    let s ← get
    require (readPageChecks s b x)
    let pg ← readWholePage b s.x0 c
    let out := pg.1 ++ if x then pg.2.1 else []
    memWrite s.x1 out
    setCont ⟨true, b, pg.2.2, (s.x0 + 1) * (s.bank b).pageLength⟩
    setResult (BitVec.ofNat 32 out.length)) s

/-- The checks of READ_BYTES (R169). -/
def readBytesChecks (s : State) (b : Nat) : List (Bool × Cause) :=
  let k := s.bank b
  bankChecks s b ++ [readableCheck k, rangeCheck k s.x0 s.x1, bufferCheck s.x2 s.x1, romCheck s]

/-- The `n` pages from page `p` on as continuation frames of one command, concatenated (R169). -/
def readMorePages (b : Nat) : Nat → Nat → Proc (List Byte)
  | _, 0 => pure []
  | p, n + 1 => do
    let pg ← pageRead b p true
    let rest ← readMorePages b (p + 1) n
    pure (pg.1 ++ rest)

/-- Reading `n` bytes from byte `r` of a CRC-only bank: every covered page (R169). -/
def readCovered (b r n : Nat) (c : Bool) : Proc (List Byte) := do
  let s ← get
  let pl := (s.bank b).pageLength
  let p0 := r / pl
  let p1 := (r + n - 1) / pl
  let pg ← pageRead b p0 (c && contOk s b .page (p0 * pl))
  let rest ← readMorePages b (p0 + 1) (p1 - p0)
  setCont ⟨true, b, .page, (p1 + 1) * pl⟩
  pure (slice (pg.1 ++ rest) (r - p0 * pl) (r - p0 * pl + n))

/-- Reading `n` bytes from byte `r` of a bank with raw reads (R169). -/
def readRawRange (b r n : Nat) (c : Bool) : Proc (List Byte) := do
  let s ← get
  let data ← rawRead b r n (c && contOk s b .raw r)
  setCont ⟨true, b, .raw, r + n⟩
  pure data

/-- `READ_BYTES` (R169): r = x[0], n = x[1], o = x[2]; n = 0 has no bus phase (R190). -/
def execReadBytes (b : Nat) (c : Bool) (s : State) : Host.Outcome State Fault Refusal :=
  runCommand (do
    let s ← get
    require (readBytesChecks s b)
    if s.x1 = 0 then setResult 0
    else do
      let data ← if (s.bank b).rawRead then readRawRange b s.x0 s.x1 c else readCovered b s.x0 s.x1 c
      memWrite s.x2 data
      setResult (BitVec.ofNat 32 s.x1)) s

/-- The checks of WRITE (R175). -/
def writeChecks (s : State) (b : Nat) : List (Bool × Cause) :=
  let k := s.bank b
  bankChecks s b ++
  [(!k.readOnly, .readonly), rangeCheck k s.x0 s.x1, bufferCheck s.x2 s.x1, romCheck s, commitAuthCheck s k]

/-- `WRITE` (R175): r = x[0], n = x[1], o = x[2]; n = 0 has no bus phase (R190). -/
def execWrite (b : Nat) (s : State) : Host.Outcome State Fault Refusal :=
  runCommand (do
    let s ← get
    require (writeChecks s b)
    if s.x1 = 0 then setResult 0
    else do
      writeRange b s.x0 (dataRun s s.x2 s.x1) (writeVerify s b)
      setResult (BitVec.ofNat 32 s.x1)) s

/-- The checks of READ_PAGE_PACKET (R177). -/
def readPacketChecks (s : State) (b : Nat) : List (Bool × Cause) :=
  let k := s.bank b
  bankChecks s b ++
  [readableCheck k, (decide (3 ≤ k.pageLength), .capability), pageCheck k s.x0,
   bufferCheck s.x1 (k.pageLength - 3), romCheck s]

/-- `READ_PAGE_PACKET` (R177): p = x[0], o = x[1]. -/
def execReadPagePacket (b : Nat) (c : Bool) (s : State) : Host.Outcome State Fault Refusal :=
  runCommand (do
    let s ← get
    require (readPacketChecks s b)
    let pg ← readWholePage b s.x0 c
    let pl := (s.bank b).pageLength
    let n := (byteAt pg.1 0).toNat
    ensure (decide (n + 3 ≤ pl)) .pktlenRead
    ensure (crc16 (BitVec.ofNat 16 s.x0) (slice pg.1 0 (n + 3)) == 0xB001) .pktcrc
    memWrite s.x1 (slice pg.1 1 (1 + n))
    setCont ⟨true, b, pg.2.2, (s.x0 + 1) * pl⟩
    setResult (BitVec.ofNat 32 n)) s

/-- The checks of WRITE_PAGE_PACKET (R178). -/
def writePacketChecks (s : State) (b : Nat) : List (Bool × Cause) :=
  let k := s.bank b
  bankChecks s b ++
  [(!k.readOnly, .readonly), pageCheck k s.x0, (decide (s.x1 + 3 ≤ k.pageLength), .pktlenWrite),
   bufferCheck s.x2 s.x1, romCheck s, commitAuthCheck s k]

/-- `WRITE_PAGE_PACKET` (R178): p = x[0], n = x[1], o = x[2]. -/
def execWritePagePacket (b : Nat) (s : State) : Host.Outcome State Fault Refusal :=
  runCommand (do
    let s ← get
    require (writePacketChecks s b)
    writeRange b (s.x0 * (s.bank b).pageLength) (packet s.x0 (dataRun s s.x2 s.x1)) (writeVerify s b)
    setResult (BitVec.ofNat 32 s.x1)) s

end Sys2Proof.Machine
end

