-- ==== Sys2Proof/Machine/Scratchpad.lean ====
section
/-! DEFINITION. The step-by-step scratchpad commands (43_scratchpad.md R206 to R208). -/

namespace Sys2Proof.Machine

/-- The checks of SP_STAGE (R206). -/
def spStageChecks (s : State) (b : Nat) : List (Bool × Cause) :=
  let k := s.bank b
  bankChecks s b ++
  [(!k.readOnly, .readonly), (decide (1 ≤ s.x1), .length), rangeCheck k s.x0 s.x1, bufferCheck s.x2 s.x1, romCheck s]

/-- `SP_STAGE` (R206): r = x[0], n = x[1], o = x[2]; the first chunk of the range is staged. -/
def execSpStage (b : Nat) (s : State) : Host.Outcome State Fault Refusal :=
  runCommand (do
    let s ← get
    require (spStageChecks s b)
    let k := s.bank b
    let m := chunkLength s.cfg k s.x0 s.x1
    lockCheck b (s.x0 / k.pageLength)
    stage b (devAddr k s.x0) (dataRun s s.x2 m)
    setResult (BitVec.ofNat 32 m)) s

/-- The checks of SP_CONFIRM (R207). -/
def spConfirmChecks (s : State) (b : Nat) : List (Bool × Cause) :=
  bankChecks s b ++
  [bufferCheck s.x0 (3 + s.cfg.spLen), romCheck s,
   (decide ((s.sp.phase = .staged ∨ s.sp.phase = .confirmed) ∧ s.sp.bank = b), .sequence)]

/-- `SP_CONFIRM` (R207): o = x[0]. -/
def execSpConfirm (b : Nat) (s : State) : Host.Outcome State Fault Refusal :=
  runCommand (do
    let s ← get
    require (spConfirmChecks s b)
    confirm
    let t ← get
    memWrite s.x0 (wire16 t.sp.ta ++ [t.sp.es] ++ t.sp.data)
    setResult (t.sp.es.setWidth 32)) s

/-- The checks of SP_COMMIT (R208). -/
def spCommitChecks (s : State) (b : Nat) : List (Bool × Cause) :=
  bankChecks s b ++
  [romCheck s, commitAuthCheck s (s.bank b), (decide (s.sp.phase = .confirmed ∧ s.sp.bank = b), .sequence)]

/-- `SP_COMMIT` (R208). -/
def execSpCommit (b : Nat) (s : State) : Host.Outcome State Fault Refusal :=
  runCommand (do
    let s ← get
    require (spCommitChecks s b)
    let mac ← if (s.bank b).authenticated then macFor b s.sp.ta.toNat s.sp.data else pure []
    commit mac
    setResult (BitVec.ofNat 32 s.sp.n)) s

end Sys2Proof.Machine
end

