-- ==== Sys2Proof/Machine/SecretEngine.lean ====
section
/-! DEFINITION. The secret engine (45_auth.md R260 to R268). The MAC-gated commit (R269) stands in WritePath.lean. -/

namespace Sys2Proof.Machine

/-- `auth_state <- NoSecret` (R260). -/
def dropSecret (s : State) : State := { s with auth := .noSecret }

/-- `ShaRound` up to its device SHA step (R261): stage, confirm, and the select before `Frame_Sha`. -/
def shaStage (b p : Nat) (sp15 : List Byte) : Proc Unit := do
  let s ← get
  stage b (pageAddr (s.bank b) p + s.cfg.spSecretOffset) sp15
  confirm
  setPhase .unknown
  selectDevice

/-- The device SHA step of `ShaRound` (R261). -/
def shaStep (b p : Nat) (fn : Byte) : Proc Unit := do
  let s ← get
  frameSha (s.bank b) (pageAddr (s.bank b) p) fn
  setPhase .idle

/-- `ShaRound(b, p, sp15, fn)` (R261). -/
def shaRound (b p : Nat) (sp15 : List Byte) (fn : Byte) : Proc Unit := do
  shaStage b p sp15
  shaStep b p fn

/-- `SlotCopy(b, s)` (R264). -/
def slotCopy (b slot : Nat) : Proc Unit := do
  let s ← get
  stage b (slotAddr s.cfg slot) s.hostSecret
  confirm
  commit []

/-- The number of 47-byte install chunks of a secret of `n` bytes (R265). -/
def installCount (n : Nat) : Nat := (n + 46) / 47

/-- `n` install chunks of the padded secret `S` from chunk `j` on, from the secret `sec` so far (R265). -/
def installChunks (b p : Nat) (S : List Byte) : Nat → Nat → List Byte → Proc (List Byte)
  | 0, _, sec => pure sec
  | n + 1, j, sec => do
    let s ← get
    let c := slice S (47 * j) (47 * j + 47)
    writeRange b (p * 32) (slice c 0 32) (writeVerify s b)
    shaRound b p (slice c 32 47) (if j = 0 then s.cfg.fnFirstSecret else s.cfg.fnNextSecret)
    installChunks b p S n (j + 1) (devSecret s.cfg sec (slice c 0 32) (slice c 32 47))

/-- The checks of INSTALL_SECRET (R265). -/
def installChecks (s : State) (b : Nat) : List (Bool × Cause) :=
  let k := s.bank b
  bankChecks s b ++
  [(k.shaCapable && !k.authenticated, .capability), pageCheck k s.x0, (decide (1 ≤ s.x1), .length),
   bufferCheck s.x2 s.x1, romCheck s]

/-- The bus phase of INSTALL_SECRET (R265) after `auth_state <- SecretInstalling`. -/
def installBus (b slot p : Nat) (secret : List Byte) : Proc Unit := do
  let s ← get
  let J := installCount secret.length
  let S := secret ++ rep padByte (47 * J - secret.length)
  let sec ← installChunks b p S J 0 (rep 0x00 8)
  writeRange b (p * 32) (rep wipeByte 32) (writeVerify s b)
  setHostSecret sec
  slotCopy b slot
  setAuth .secretBound
  setResult (BitVec.ofNat 32 J)

/-- `INSTALL_SECRET` (R265): p = x[0], n = x[1], o = x[2]. A bus-phase error ends in NoSecret (R260). -/
def execInstallSecret (b slot : Nat) (s : State) : Host.Outcome State Fault Refusal :=
  runCommand (do
    let s ← get
    require (installChecks s b)
    setAuth .secretInstalling
    onBusError dropSecret (installBus b slot s.x0 (dataRun s s.x2 s.x1))) s

/-- The binding code's length (R266). -/
def bindCodeLength (af : Bool) : Nat := if af then 7 else 15

/-- The checks of BIND_SECRET (R266). -/
def bindChecks (s : State) (b : Nat) (af : Bool) : List (Bool × Cause) :=
  let k := s.bank b
  bankChecks s b ++
  [(k.shaCapable, .capability), pageCheck k s.x0, bufferCheck s.x1 (32 + bindCodeLength af), romCheck s,
   (s.auth.holdsSecret, .nosecret)]

/-- `BIND_SECRET` (R266): p = x[0], o = x[1]. An error at or after the first event of `Frame_Sha` ends in NoSecret
(R260; DEDUCED, log entry 26). -/
def execBindSecret (b slot : Nat) (af : Bool) (s : State) : Host.Outcome State Fault Refusal :=
  runCommand (do
    let s ← get
    require (bindChecks s b af)
    let p := s.x0
    let bd := dataRun s s.x1 32
    let code := dataRun s (s.x1 + 32) (bindCodeLength af)
    let sp15 := if af then Crypto.autoFormat s.cfg code p s.rom else code
    writeRange b (p * 32) bd (writeVerify s b)
    shaStage b p sp15
    onBusError dropSecret (do
      shaStep b p s.cfg.fnNextSecret
      setHostSecret (devSecret s.cfg s.hostSecret bd sp15)
      slotCopy b slot)
    setAuth .secretActive
    setResult 0) s

/-- The checks of COMPUTE_NEXT_SECRET (R267). -/
def nextSecretChecks (s : State) (b : Nat) : List (Bool × Cause) :=
  let k := s.bank b
  bankChecks s b ++
  [(k.shaCapable, .capability), pageCheck k s.x0, bufferCheck s.x1 fragLen, romCheck s, (s.auth.holdsSecret, .nosecret)]

/-- `COMPUTE_NEXT_SECRET` (R267): p = x[0], o = x[1]. -/
def execComputeNextSecret (b : Nat) (s : State) : Host.Outcome State Fault Refusal :=
  runCommand (do
    let s ← get
    require (nextSecretChecks s b)
    let p := s.x0
    let pg ← pageRead b p false
    let sp15 := dataRun s s.x1 fragLen ++ s.rom.take 7
    shaStage b p sp15
    onBusError dropSecret (shaStep b p s.cfg.fnNextSecret)
    setHostSecret (devSecret s.cfg s.hostSecret pg.1 sp15)
    setAuth .secretActive
    setResult 0) s

/-- The checks of AUTH_READ (R268). -/
def authReadChecks (s : State) (b : Nat) : List (Bool × Cause) :=
  let k := s.bank b
  bankChecks s b ++
  [(k.shaCapable, .capability), pageCheck k s.x0, bufferCheck s.x1 (52 + k.extraInfoLength), romCheck s,
   (decide (s.auth = .secretActive), .nosecret)]

/-- `AUTH_READ` (R268): p = x[0], o = x[1]. With a `CHAL_LEN` of 0 it stages an empty run, which 43_scratchpad.md R202 does not
provide for (DESIGN CHOICE, log entry 30). -/
def execAuthRead (b : Nat) (s : State) : Host.Outcome State Fault Refusal :=
  runCommand (do
    let s ← get
    require (authReadChecks s b)
    let k := s.bank b
    let a := pageAddr k s.x0
    let chal := dataRun s s.x1 s.cfg.chalLen
    stage b (a + s.cfg.chalOffset) chal
    confirm
    setPhase .unknown
    selectDevice
    let r ← frameReadAuth k a
    setPhase .idle
    ensure
      (r.mac == Crypto.sha1 s.cfg
        (Crypto.msgAuthRead s.cfg s.hostSecret r.page r.extra chal s.rom (Crypto.selector s.cfg a b)))
      .macmismatch
    memWrite s.x1 (r.page ++ r.extra ++ r.mac)
    setResult (BitVec.ofNat 32 (52 + k.extraInfoLength))) s

end Sys2Proof.Machine
end

