-- ==== Sys2Proof/Machine/Dispatch.lean ====
section
/-! DEFINITION. One arm per command: its meaning. -/

namespace Sys2Proof.Machine

def exec (i : Instr) (s : State) : Host.Outcome State Fault Refusal :=
  match i with
  -- CRC generators (41_crc.md)
  | .crc8Seed seed => Sys2Proof.Machine.execCrc8Seed seed s
  | .crc8Byte byte => Sys2Proof.Machine.execCrc8Byte byte s
  | .crc8Block => Sys2Proof.Machine.execCrc8Block s
  | .crc8Check => Sys2Proof.Machine.execCrc8Check s
  | .crc16Seed seed => Sys2Proof.Machine.execCrc16Seed seed s
  | .crc16Byte byte => Sys2Proof.Machine.execCrc16Byte byte s
  | .crc16Block => Sys2Proof.Machine.execCrc16Block s
  | .crc16Check => Sys2Proof.Machine.execCrc16Check s
  -- paged memory (42_paged_memory.md)
  | .readPage bank c x => Sys2Proof.Machine.execReadPage bank c x s
  | .readBytes bank c => Sys2Proof.Machine.execReadBytes bank c s
  | .write bank => Sys2Proof.Machine.execWrite bank s
  | .readPagePacket bank c => Sys2Proof.Machine.execReadPagePacket bank c s
  | .writePagePacket bank => Sys2Proof.Machine.execWritePagePacket bank s
  -- scratchpad (43_scratchpad.md)
  | .spStage bank => Sys2Proof.Machine.execSpStage bank s
  | .spConfirm bank => Sys2Proof.Machine.execSpConfirm bank s
  | .spCommit bank => Sys2Proof.Machine.execSpCommit bank s
  -- OTP (44_otp.md)
  | .lockPage bank => Sys2Proof.Machine.execLockPage bank s
  | .isPageLocked bank => Sys2Proof.Machine.execIsPageLocked bank s
  | .redirectPage bank => Sys2Proof.Machine.execRedirectPage bank s
  | .getRedirectedPage bank => Sys2Proof.Machine.execGetRedirectedPage bank s
  | .lockRedirectPage bank => Sys2Proof.Machine.execLockRedirectPage bank s
  | .isRedirectPageLocked bank => Sys2Proof.Machine.execIsRedirectPageLocked bank s
  -- secret engine (45_auth.md)
  | .installSecret bank slot => Sys2Proof.Machine.execInstallSecret bank slot s
  | .bindSecret bank slot af => Sys2Proof.Machine.execBindSecret bank slot af s
  | .computeNextSecret bank => Sys2Proof.Machine.execComputeNextSecret bank s
  | .authRead bank => Sys2Proof.Machine.execAuthRead bank s

end Sys2Proof.Machine
end

