-- ==== Sys2Proof/Machine/Step.lean ====
section
/-! DEFINITION. One step: the next host access, and the whole command if it is an accepted command word
(60_exceptions.md R300, 20_memory.md R97; DESIGN CHOICE, log entries 2 and 20, DEDUCED, log entries 1, 17 and 25). -/

namespace Sys2Proof.Machine

/-- The command a word written to `CMD` starts: its meaning, or ILLEGAL (60_exceptions.md R300, R310). -/
def startWord (w : Word) (s : State) : Host.Outcome State Fault Refusal :=
  match decode w with
  | .ok i => exec i s
  | .error _ => execIllegal s

/-- What follows from the effect of a host access at the port. -/
def afterPort : PortEffect → Host.Outcome State Fault Refusal
  | .done s => .next s
  | .start w s => startWord w s
  | .reset s => .next (softReset s)
  | .fault f => .fault f
  | .refuse r => .refused r

/-- One step. An ill-formed configuration has no run (00_scope.md R9). Without a host access the core stays as it is
(60_exceptions.md R315). -/
def step (s : State) : Host.Outcome State Fault Refusal :=
  if s.cfg.wf then
    match s.host with
    | [] => .next s
    | op :: rest => afterPort (hostPort op.access { s with host := rest })
  else .refused .illFormedConfig

/-- `s` with the write of the table word `w` to `CMD` as the host's next access, and the core idle so that it is
accepted (10_state.md R33; DESIGN CHOICE, log entry 20). -/
def State.withFetchWord (s : State) (nbits w : Nat) : State :=
  { s with
    busy := false
    host := ⟨.write 0x000 .b32 (leWord (tableWordBytes nbits w)), none⟩ :: s.host }

end Sys2Proof.Machine
end

