-- ==== Sys2Proof/Safety.lean ====
section
/-! DEFINITION. The terms claims use: when no host access lands inside a command, which host accesses have an effect, the
invariant of the state between two steps, what a bus procedure may not change, and which events serve a procedure: what
goes out, and what the device must answer (an oracle is under no law but length, 20_memory.md R96, so "the device goes
along" is a condition on its answers). -/

namespace Sys2Proof.Machine

/-- No host access is due while the next command runs. -/
def State.quiet (s : State) : Bool :=
  match s.host with
  | [] => true
  | op :: _ => op.early.isNone

/-- An offset inside 0x000..0x1FF fits the width of the access (20_memory.md R73). -/
def offsetFits (off : Nat) (w : Width) : Bool :=
  if off < 0x100 then w == .b32 && off % 4 == 0 else (off - 0x100) % w.bytes == 0

/-- The width of an access. -/
def HostAccess.width : HostAccess → Width
  | .read _ w => w
  | .write _ w _ => w

/-- A host access that has an effect under configuration `c` (20_memory.md R71, R73). -/
def HostAccess.legal (c : Config) (a : HostAccess) : Bool :=
  if a.off < 0x200 then offsetFits a.off a.width
  else
    match c.hostDecode with
    | .wrap => offsetFits (a.off % 0x200) a.width
    | .openBus => true
    | .zero => true
    | .busError => false

/-- Every host access still to come has an effect. -/
def State.hostLegal (s : State) : Bool := s.host.all fun op => op.access.legal s.cfg

/-- The bank a command names, if it names one (30_encoding.md R120). -/
def bankOf : Instr → Option Nat
  | .crc8Seed _ => none
  | .crc8Byte _ => none
  | .crc8Block => none
  | .crc8Check => none
  | .crc16Seed _ => none
  | .crc16Byte _ => none
  | .crc16Block => none
  | .crc16Check => none
  | .readPage b _ _ => some b
  | .readBytes b _ => some b
  | .write b => some b
  | .readPagePacket b _ => some b
  | .writePagePacket b => some b
  | .spStage b => some b
  | .spConfirm b => some b
  | .spCommit b => some b
  | .lockPage b => some b
  | .isPageLocked b => some b
  | .redirectPage b => some b
  | .getRedirectedPage b => some b
  | .lockRedirectPage b => some b
  | .isRedirectPageLocked b => some b
  | .installSecret b _ => some b
  | .bindSecret b _ _ => some b
  | .computeNextSecret b => some b
  | .authRead b => some b

/-- The three commands that may set `cont.valid` (42_paged_memory.md R165). -/
def opensStream : Instr → Bool
  | .crc8Seed _ => false
  | .crc8Byte _ => false
  | .crc8Block => false
  | .crc8Check => false
  | .crc16Seed _ => false
  | .crc16Byte _ => false
  | .crc16Block => false
  | .crc16Check => false
  | .readPage _ _ _ => true
  | .readBytes _ _ => true
  | .write _ => false
  | .readPagePacket _ _ => true
  | .writePagePacket _ => false
  | .spStage _ => false
  | .spConfirm _ => false
  | .spCommit _ => false
  | .lockPage _ => false
  | .isPageLocked _ => false
  | .redirectPage _ => false
  | .getRedirectedPage _ => false
  | .lockRedirectPage _ => false
  | .isRedirectPageLocked _ => false
  | .installSecret _ _ => false
  | .bindSecret _ _ _ => false
  | .computeNextSecret _ => false
  | .authRead _ => false

/-- The commands that write DATA (the Writes lines of 42_paged_memory.md R168, R169, R177, 43_scratchpad.md R207,
45_auth.md R268). -/
def writesData : Instr → Bool
  | .crc8Seed _ => false
  | .crc8Byte _ => false
  | .crc8Block => false
  | .crc8Check => false
  | .crc16Seed _ => false
  | .crc16Byte _ => false
  | .crc16Block => false
  | .crc16Check => false
  | .readPage _ _ _ => true
  | .readBytes _ _ => true
  | .write _ => false
  | .readPagePacket _ _ => true
  | .writePagePacket _ => false
  | .spStage _ => false
  | .spConfirm _ => true
  | .spCommit _ => false
  | .lockPage _ => false
  | .isPageLocked _ => false
  | .redirectPage _ => false
  | .getRedirectedPage _ => false
  | .lockRedirectPage _ => false
  | .isRedirectPageLocked _ => false
  | .installSecret _ _ => false
  | .bindSecret _ _ _ => false
  | .computeNextSecret _ => false
  | .authRead _ => true

/-- The commands that write `host_secret` (10_state.md R45) and, with it, `auth_state` (45_auth.md R260). -/
def movesSecret : Instr → Bool
  | .crc8Seed _ => false
  | .crc8Byte _ => false
  | .crc8Block => false
  | .crc8Check => false
  | .crc16Seed _ => false
  | .crc16Byte _ => false
  | .crc16Block => false
  | .crc16Check => false
  | .readPage _ _ _ => false
  | .readBytes _ _ => false
  | .write _ => false
  | .readPagePacket _ _ => false
  | .writePagePacket _ => false
  | .spStage _ => false
  | .spConfirm _ => false
  | .spCommit _ => false
  | .lockPage _ => false
  | .isPageLocked _ => false
  | .redirectPage _ => false
  | .getRedirectedPage _ => false
  | .lockRedirectPage _ => false
  | .isRedirectPageLocked _ => false
  | .installSecret _ _ => true
  | .bindSecret _ _ _ => true
  | .computeNextSecret _ => true
  | .authRead _ => false

/-- The commands that go through the scratchpad (43_scratchpad.md R200, R210). -/
def movesScratch : Instr → Bool
  | .crc8Seed _ => false
  | .crc8Byte _ => false
  | .crc8Block => false
  | .crc8Check => false
  | .crc16Seed _ => false
  | .crc16Byte _ => false
  | .crc16Block => false
  | .crc16Check => false
  | .readPage _ _ _ => false
  | .readBytes _ _ => false
  | .write _ => true
  | .readPagePacket _ _ => false
  | .writePagePacket _ => true
  | .spStage _ => true
  | .spConfirm _ => true
  | .spCommit _ => true
  | .lockPage _ => true
  | .isPageLocked _ => false
  | .redirectPage _ => true
  | .getRedirectedPage _ => false
  | .lockRedirectPage _ => true
  | .isRedirectPageLocked _ => false
  | .installSecret _ _ => true
  | .bindSecret _ _ _ => true
  | .computeNextSecret _ => true
  | .authRead _ => true

/-- The memories of the reference device model are in canonical form. -/
def Rdm.canonical (r : Rdm) : Bool :=
  Memory.wf (some 0xFF) r.mem && Memory.wf (some 0x00) r.spBuf && Memory.wf (some 0x00) r.sec &&
  Memory.wf (some 0xFF) r.extra

/-- A staged or confirmed record describes a run inside one scratchpad (20_memory.md R78, 43_scratchpad.md R201, R202). -/
def Scratch.sound (c : Config) (p : Scratch) : Prop :=
  p.phase = .staged ∨ p.phase = .confirmed →
    p.bank < c.nbanks ∧ 1 ≤ p.n ∧ p.ta.toNat % c.spLen + p.n ≤ c.spLen ∧ p.es &&& 0x1F = expE c p.ta.toNat p.n

/-- The invariant of the state between two steps. -/
structure State.Inv (s : State) : Prop where
  /-- the configuration is well-formed (00_scope.md R9) -/
  cfg : s.cfg.wf = true
  /-- the core is idle: a command is one step (20_memory.md R97, R98) -/
  idle : s.busy = false
  /-- DATA is in canonical form -/
  dataWf : Memory.wf none s.data = true
  /-- DATA has BUF_LEN bytes (20_memory.md R72) -/
  dataRange : ∀ cell ∈ s.data, cell.1 < bufLen
  /-- WVERIFY bits of banks that do not exist are 0 (10_state.md R37) -/
  wverify : s.wverify &&& wverifyMask s.cfg = s.wverify
  /-- a secret is 8 bytes (00_scope.md R10) -/
  secret : s.hostSecret.length = 8
  /-- no install is in progress (45_auth.md R260) -/
  auth : s.auth ≠ .secretInstalling
  /-- the session flags are set and cleared together (42_paged_memory.md R161, 60_exceptions.md R304) -/
  session : s.speedVerified = s.resumeEligible
  /-- the scratchpad record (43_scratchpad.md R200 to R203) -/
  scratch : s.sp.sound s.cfg
  /-- a read stream is of an existing bank (42_paged_memory.md R165) -/
  cont : s.cont.valid = true → s.cont.bank < s.cfg.nbanks
  /-- the device model's memories are in canonical form -/
  device : ∀ r, s.dev = .reference r → r.canonical = true

/-- What no transport procedure changes from `s` to `t`: every host register, the CRC accumulators, DATA, the secret state,
the configuration; and the event history only grows. -/
structure BusFrame (s t : State) : Prop where
  cfg : t.cfg = s.cfg
  busy : t.busy = s.busy
  done : t.done = s.done
  err : t.err = s.err
  result : t.result = s.result
  arg0 : t.arg0 = s.arg0
  arg1 : t.arg1 = s.arg1
  arg2 : t.arg2 = s.arg2
  arg3 : t.arg3 = s.arg3
  crc8 : t.crc8 = s.crc8
  crc16 : t.crc16 = s.crc16
  wverify : t.wverify = s.wverify
  romLo : t.romLo = s.romLo
  romHi : t.romHi = s.romHi
  romValid : t.romValid = s.romValid
  auth : t.auth = s.auth
  hostSecret : t.hostSecret = s.hostSecret
  data : t.data = s.data
  events : s.events <+: t.events

/-- The host's side is untouched as well: no access has landed. -/
structure QuietFrame (s t : State) : Prop extends BusFrame s t where
  host : t.host = s.host
  answers : t.answers = s.answers

/-- From `s` to `t` the events `es` were issued, in this order and no other, and nothing changed but the transport and the read
stream, which ends (42_paged_memory.md R165). -/
structure Issued (s t : State) (es : List Event) : Prop extends QuietFrame s t where
  exactly : t.events = s.events ++ es
  sp : t.sp = s.sp
  speed : t.speedVerified = s.speedVerified
  resume : t.resumeEligible = s.resumeEligible
  cont : t.cont.valid = false

/-- The first three bytes of a frame: command, address low, address high (20_memory.md R82). -/
def frameHead (op : Byte) (a : Nat) : List Byte := [op, BitVec.ofNat 8 a, BitVec.ofNat 8 (a / 256)]

/-- The session is verified and no read stream is open: how every successful select leaves it. -/
def State.selected (s : State) : Prop :=
  s.speedVerified = true ∧ s.resumeEligible = true ∧ s.cont.valid = false

/-! The events of a run. A claim about a run gives them in order, as a list `es`: the oracle answers what the list says, and
the history grows by the list. -/

/-- The oracle that gives the answer event `e` carries and goes on as `o`. -/
def Event.before (e : Event) (o : Oracle) : Oracle :=
  match e with
  | .reset => o
  | .select _ _ a => { o with selects := a :: o.selects }
  | .exchange _ a => { o with exchanges := a :: o.exchanges }
  | .putByte _ => o
  | .getByte a => { o with gets := a :: o.gets }
  | .setPowerMode _ _ => o
  | .startPowerDelivery => o
  | .sleep _ => o

/-- The oracle that gives the answers of `es`, in order, and goes on as `rest`. -/
def answering (es : List Event) (rest : Oracle) : Oracle := es.foldr Event.before rest

/-- Whether an event is a selection the device answered: it leaves the session verified and resumable. -/
def Event.selects : Event → Bool
  | .reset => false
  | .select _ _ a => a
  | .exchange _ _ => false
  | .putByte _ => false
  | .getByte _ => false
  | .setPowerMode _ _ => false
  | .startPowerDelivery => false
  | .sleep _ => false

/-- An event as it goes out in a session with these flags: a selection follows a bus reset unless the session is verified, and
carries the resume hint of a verified and resumable session (42_paged_memory.md R161). -/
def Event.inSession (verified resumable : Bool) : Event → List Event
  | .reset => [.reset]
  | .select rom _ a => (if verified then [] else [.reset]) ++ [.select rom (verified && resumable) a]
  | .exchange out a => [.exchange out a]
  | .putByte b => [.putByte b]
  | .getByte a => [.getByte a]
  | .setPowerMode ms t => [.setPowerMode ms t]
  | .startPowerDelivery => [.startPowerDelivery]
  | .sleep ms => [.sleep ms]

/-- The events `es` as they go out from a session with these flags, an answered selection setting both. -/
def wire (verified resumable : Bool) : List Event → List Event
  | [] => []
  | e :: es => e.inSession verified resumable ++ wire (verified || e.selects) (resumable || e.selects) es

/-- The events `es` as they go out from `s`. -/
def State.wire (s : State) (es : List Event) : List Event := Machine.wire s.speedVerified s.resumeEligible es

/-- What the events of a command depend on besides its operands: the configuration, the ROM id and the secret. -/
structure Link where
  cfg : Config
  rom : List Byte
  secret : List Byte
  deriving DecidableEq, Repr

/-- The link of a state. -/
def State.link (s : State) : Link := ⟨s.cfg, s.rom, s.hostSecret⟩

/-- `BANK[b]`. -/
def Link.bank (w : Link) (b : Nat) : Bank := w.cfg.bank b

/-- A selection the device answers. -/
def Link.select (w : Link) : Event := .select w.rom true true

/-! Which events serve a procedure: what goes out, at which address, and what the device must answer. -/

/-- `es` is a framed read of page `p` of bank `b` with payload and ExtraInfo `pg` (20_memory.md R75, R82, R84;
42_paged_memory.md R163): every frame has the right length and reaches its residual. -/
def PageServed (w : Link) (b p : Nat) (pg : List Byte × List Byte) (es : List Event) : Prop :=
  let k := w.bank b
  let head := frameHead k.opcReadCrc (k.base + p * k.pageLength)
  if k.crcAfterAddress then
    ∃ a1 a2, es = [w.select, .exchange (head ++ List.replicate k.crcBytes 0xFF) a1,
        .exchange (List.replicate (pageFrameLength k) 0xFF) a2] ∧
      a1.length = 3 + k.crcBytes ∧ crcOk k.crcBytes k.crcSeed a1 = true ∧
      a2.length = pageFrameLength k ∧ crcOk k.crcBytes 0 a2 = true ∧ pg = splitPage k 0 a2
  else
    ∃ a, es = [w.select, .exchange (head ++ List.replicate (pageFrameLength k) 0xFF) a] ∧
      a.length = 3 + pageFrameLength k ∧ crcOk k.crcBytes k.crcSeed a = true ∧ pg = splitPage k 3 a

/-- `es` is a continuation frame of bank `b` (20_memory.md R83). -/
def PageContServed (w : Link) (b : Nat) (pg : List Byte × List Byte) (es : List Event) : Prop :=
  let k := w.bank b
  ∃ a, es = [.exchange (List.replicate (pageFrameLength k) 0xFF) a] ∧ a.length = pageFrameLength k ∧
    crcOk k.crcBytes 0 a = true ∧ pg = splitPage k 0 a

/-- `es` is a page read that continues or not (42_paged_memory.md R163). -/
def PageReadServed (w : Link) (b p : Nat) (cok : Bool) (pg : List Byte × List Byte) (es : List Event) : Prop :=
  if cok then PageContServed w b pg es else PageServed w b p pg es

/-- `es` is a raw read of `n` bytes from byte `r` of bank `b` that continues or not (20_memory.md R75, R85; 42_paged_memory.md
R164). -/
def RawReadServed (w : Link) (b r n : Nat) (cok : Bool) (data : List Byte) (es : List Event) : Prop :=
  let k := w.bank b
  if cok then ∃ a, es = [.exchange (List.replicate n 0xFF) a] ∧ a.length = n ∧ data = a
  else ∃ a, es = [w.select, .exchange (frameHead k.opcRead (k.base + r) ++ List.replicate n 0xFF) a] ∧ a.length = 3 + n ∧
    data = slice a 3 (3 + n)

/-- `es` is `Stage` of `d` at `ta` on bank `b` (43_scratchpad.md R202, 20_memory.md R86). -/
def StageServed (w : Link) (b ta : Nat) (d : List Byte) (es : List Event) : Prop :=
  let k := w.bank b
  ∃ a, es = [w.select, .exchange (frameHead k.opcWriteSp ta ++ d ++ List.replicate k.crcBytes 0xFF) a] ∧
    a.length = 3 + d.length + k.crcBytes ∧ crcOk k.crcBytes 0 a = true

/-- `es` is the read-back of the record `p`, answered with `a` (43_scratchpad.md R203, 20_memory.md R87). -/
def ReadbackSent (w : Link) (p : Scratch) (a : List Byte) (es : List Event) : Prop :=
  let k := w.bank p.bank
  es = [w.select, .exchange (k.opcReadSp :: List.replicate (3 + p.data.length + k.crcBytes) 0xFF) a] ∧
    a.length = 4 + p.data.length + k.crcBytes

/-- The read-back `a` agrees with the record `p`: its CRC, TA, ending offset, a clear partial flag and the bytes
(43_scratchpad.md R201, R203). -/
def ReadsBack (w : Link) (p : Scratch) (a : List Byte) : Prop :=
  crcOk (w.bank p.bank).crcBytes 0 a = true ∧ byteAt a 2 ++ byteAt a 1 = p.ta ∧
    byteAt a 3 &&& 0x1F = BitVec.ofNat 8 (p.ta.toNat % w.cfg.spLen + p.data.length - 1) &&& 0x1F ∧
    (byteAt a 3).getLsbD 5 = false ∧ slice a 4 (4 + p.data.length) = p.data

/-- `es` is `Confirm` of the record `p`, the device's ending status being `e` (43_scratchpad.md R203). -/
def ConfirmServed (w : Link) (p : Scratch) (e : Byte) (es : List Event) : Prop :=
  ∃ a, ReadbackSent w p a es ∧ ReadsBack w p a ∧ byteAt a 3 = e

/-- `es` is `Confirm` of the record `p` with a read-back that does not agree. -/
def ConfirmFails (w : Link) (p : Scratch) (es : List Event) : Prop := ∃ a, ReadbackSent w p a es ∧ ¬ ReadsBack w p a

/-- `es` is `Commit` on bank `b` with TA `ta`, ES `e` and MAC `mac`, the completion poll reading `polls` (43_scratchpad.md R204,
R205; 20_memory.md R88): the copy frame, whole or with its last byte behind the arming of power delivery, the wait, the reads. -/
def CommitSent (w : Link) (b ta : Nat) (e : Byte) (mac polls : List Byte) (es : List Event) : Prop :=
  let out := frameHead (w.bank b).opcCopySp ta ++ e :: mac
  (if w.cfg.commitPower then
      ∃ a, a.length + 1 = out.length ∧ es = [w.select, .exchange out.dropLast a, .setPowerMode w.cfg.tCommitMs .afterNextByte,
        .startPowerDelivery, .putByte (out.getLastD 0), .sleep w.cfg.tCommitMs] ++ polls.map .getByte
    else ∃ a, a.length = out.length ∧ es = [w.select, .exchange out a, .sleep w.cfg.tCommitMs] ++ polls.map .getByte)

/-- `es` is a `Commit` that the device completes: fewer than POLL_MAX busy bytes, then the alternating pattern. -/
def CommitServed (w : Link) (b ta : Nat) (e : Byte) (mac : List Byte) (es : List Event) : Prop :=
  ∃ n v, n < w.cfg.pollMax ∧ (v = 0xAA ∨ v = 0x55) ∧ CommitSent w b ta e mac (List.replicate n 0xFF ++ [v]) es

/-- `es` is the page read of `MacFor` of `d` at `ta` of bank `b`, and `mac` the MAC of the page it answers; a bank that is not
authenticated needs neither (45_auth.md R269). -/
def MacServed (w : Link) (b ta : Nat) (d mac : List Byte) (es : List Event) : Prop :=
  if (w.bank b).authenticated then
    ∃ pg, PageServed w b ((ta - (w.bank b).base) / 32) pg es ∧
      mac = Crypto.sha1 w.cfg (Crypto.msgMac w.cfg w.secret pg.1 d w.rom (Crypto.selector w.cfg ta b))
  else es = [] ∧ mac = []

/-- The record `Stage` of `d` at `ta` on bank `b` leaves (43_scratchpad.md R201, R202). -/
def stagedRecord (w : Link) (b ta : Nat) (d : List Byte) : Scratch :=
  ⟨.staged, b, BitVec.ofNat 16 ta, BitVec.ofNat 8 (ta % w.cfg.spLen + d.length - 1) &&& 0x1F, d⟩

/-- `es` is `Stage` and `Confirm` of `d` at `ta` on bank `b`, the device's ending status being `e`. -/
def StagedServed (w : Link) (b ta : Nat) (d : List Byte) (e : Byte) (es : List Event) : Prop :=
  ∃ e1 e2, es = e1 ++ e2 ∧ StageServed w b ta d e1 ∧ ConfirmServed w (stagedRecord w b ta d) e e2

/-- `es` is `Stage`, `Confirm` and `Commit` of `d` at `ta` on bank `b` with MAC `mac`. -/
def TransferServed (w : Link) (b ta : Nat) (d mac : List Byte) (es : List Event) : Prop :=
  ∃ e1 e2 e, es = e1 ++ e2 ∧ StagedServed w b ta d e e1 ∧ CommitServed w b ta e mac e2

/-- `es` is the read-back of `n` bytes at `ta` of bank `b` by `Verify`, which finds `got` (42_paged_memory.md R173). -/
def VerifySent (w : Link) (b ta n : Nat) (got : List Byte) (es : List Event) : Prop :=
  let k := w.bank b
  let r := ta - k.base
  if k.pageAutoCrc then
    ∃ pg, PageServed w b (r / k.pageLength) pg es ∧ got = slice pg.1 (r % k.pageLength) (r % k.pageLength + n)
  else RawReadServed w b r n false got es

/-- `es` is `WriteChunk` of `d` at `ta` of bank `b` whose read-back, if it is verified, finds `got` (42_paged_memory.md R172). -/
def ChunkSent (w : Link) (b ta : Nat) (d : List Byte) (check : Bool) (got : List Byte) (es : List Event) : Prop :=
  ∃ e1 e2 e3 mac, es = e1 ++ (e2 ++ e3) ∧ MacServed w b ta d mac e1 ∧ TransferServed w b ta d mac e2 ∧
    if check then VerifySent w b ta d.length got e3 else e3 = []

/-- `es` is a `WriteChunk` that finds what it wrote. -/
def ChunkServed (w : Link) (b ta : Nat) (d : List Byte) (check : Bool) (es : List Event) : Prop :=
  ChunkSent w b ta d check d es

/-- `es` is the read of bit `q` of control bank `l`; `cleared` says whether it is 0 (44_otp.md R230, R231, R233). -/
def BitRead (w : Link) (l q : Nat) (cleared : Bool) (es : List Event) : Prop :=
  ∃ pg, PageServed w l (q / 8 / (w.bank l).pageLength) pg es ∧
    cleared = !(byteAt pg.1 (q / 8 % (w.bank l).pageLength)).getLsbD (q % 8)

/-- `es` is the test of bit `q` of the control bank `link`, if there is one; `cleared` is its answer (42_paged_memory.md R170,
44_otp.md R237). -/
def LinkTested (w : Link) (link : Option Nat) (q : Nat) (cleared : Bool) (es : List Event) : Prop :=
  match link with
  | none => es = [] ∧ cleared = false
  | some l => BitRead w l q cleared es

/-- `es` is `BitClear` of bit `q` of control bank `l`: the byte with every bit 1 but that one is written unverified, and the bit
is read; `cleared` says whether it is then 0 (44_otp.md R230, R232). -/
def BitClearSent (w : Link) (l q : Nat) (cleared : Bool) (es : List Event) : Prop :=
  ∃ e1 e2, es = e1 ++ e2 ∧ ChunkServed w l ((w.bank l).base + q / 8) [0xFF ^^^ (1#8 <<< (q % 8))] false e1 ∧
    BitRead w l q cleared e2

/-- `es` is `LockCheck` of page `p` of bank `b`; `locked` is what it finds (42_paged_memory.md R170). -/
def LockTested (w : Link) (b p : Nat) (locked : Bool) (es : List Event) : Prop :=
  LinkTested w (w.bank b).lockBank ((w.bank b).lockOffset + p) locked es

/-- `es` is `LockCheck` of the `n` pages from page `p` on of bank `b`: no page is locked. -/
def LocksServed (w : Link) (b : Nat) : Nat → Nat → List Event → Prop
  | _, 0, es => es = []
  | p, n + 1, es => ∃ e1 e2, es = e1 ++ e2 ∧ LockTested w b p false e1 ∧ LocksServed w b (p + 1) n e2

/-- `es` is `LockCheck` of pages of bank `b` from page `p` on: fewer than `n` that are not locked, then one that is. -/
def LockFound (w : Link) (b p n : Nat) (es : List Event) : Prop :=
  ∃ j e1 e2, j < n ∧ es = e1 ++ e2 ∧ LocksServed w b p j e1 ∧ LockTested w b (p + j) true e2

/-- `es` is `WriteChunk` of the chunks `cs` of `d`, in order. -/
def ChunksServed (w : Link) (b : Nat) (d : List Byte) (check : Bool) : List Chunk → List Event → Prop
  | [], es => es = []
  | ch :: rest, es =>
    ∃ e1 e2, es = e1 ++ e2 ∧ ChunkServed w b ch.ta (slice d ch.i (ch.i + ch.m)) check e1 ∧ ChunksServed w b d check rest e2

/-- How many pages of bank `k` the `n` bytes from byte `r` on touch. -/
def pagesTouched (k : Bank) (r n : Nat) : Nat := (r + n - 1) / k.pageLength + 1 - r / k.pageLength

/-- `es` is `WriteRange` of `d` at byte `r` of bank `b`: every lock check, then every chunk (42_paged_memory.md R174). -/
def WriteServed (w : Link) (b r : Nat) (d : List Byte) (check : Bool) (es : List Event) : Prop :=
  let k := w.bank b
  ∃ e1 e2, es = e1 ++ e2 ∧ LocksServed w b (r / k.pageLength) (pagesTouched k r d.length) e1 ∧
    ChunksServed w b d check (chunks w.cfg k r d.length) e2

/-- `es` is a verified `WriteRange` of `d` at byte `r` of bank `b` up to a chunk whose read-back differs (42_paged_memory.md
R173, R174). -/
def WriteDiffers (w : Link) (b r : Nat) (d : List Byte) (es : List Event) : Prop :=
  let k := w.bank b
  ∃ pre ch post e1 e2 e3 got, chunks w.cfg k r d.length = pre ++ ch :: post ∧ es = e1 ++ (e2 ++ e3) ∧
    LocksServed w b (r / k.pageLength) (pagesTouched k r d.length) e1 ∧ ChunksServed w b d true pre e2 ∧
    ChunkSent w b ch.ta (slice d ch.i (ch.i + ch.m)) true got e3 ∧ got ≠ slice d ch.i (ch.i + ch.m)

/-- `es` is the page reads that continue on bank `b`, `n` of them, with concatenated payloads `data` (42_paged_memory.md R169). -/
def MorePagesServed (w : Link) (b : Nat) : Nat → List Byte → List Event → Prop
  | 0, data, es => es = [] ∧ data = []
  | n + 1, data, es =>
    ∃ pg rest e1 e2, es = e1 ++ e2 ∧ data = pg.1 ++ rest ∧ PageContServed w b pg e1 ∧ MorePagesServed w b n rest e2

/-- `es` is `ShaRound` of page `p` of bank `b` with secret input `sp15` and function byte `fn`: stage, confirm, select, the SHA
frame with any answer, the wait, and a byte that confirms (45_auth.md R261; 20_memory.md R92). -/
def ShaServed (w : Link) (b p : Nat) (sp15 : List Byte) (fn : Byte) (es : List Event) : Prop :=
  let a := (w.bank b).base + p * (w.bank b).pageLength
  ∃ e1 e x v, es = e1 ++ [w.select, .exchange (frameHead (w.bank b).opcSha a ++ [fn]) x, .sleep w.cfg.tShaMs, .getByte v] ∧
    StagedServed w b (a + w.cfg.spSecretOffset) sp15 e e1 ∧ x.length = 4 ∧ (v = 0xAA ∨ v = 0x55)

/-- `es` is `SlotCopy` of `secret` into `slot` (20_memory.md R77; 45_auth.md R264). -/
def SlotServed (w : Link) (b slot : Nat) (secret : List Byte) (es : List Event) : Prop :=
  TransferServed w b (w.cfg.secretBase + 8 * slot) secret [] es

/-- `es` is `n` install chunks of the padded secret `S` from chunk `j` on (45_auth.md R265). -/
def InstallServed (w : Link) (b p : Nat) (S : List Byte) (check : Bool) : Nat → Nat → List Event → Prop
  | 0, _, es => es = []
  | n + 1, j, es =>
    let ch := slice S (47 * j) (47 * j + 47)
    ∃ e1 e2 e3, es = e1 ++ (e2 ++ e3) ∧ WriteServed w b (p * 32) (slice ch 0 32) check e1 ∧
      ShaServed w b p (slice ch 32 47) (if j = 0 then w.cfg.fnFirstSecret else w.cfg.fnNextSecret) e2 ∧
      InstallServed w b p S check n (j + 1) e3

/-- The secret `n` install chunks of `S` from chunk `j` on make of `sec` (45_auth.md R263, R265). -/
def installedSecret (c : Config) (S : List Byte) : Nat → Nat → List Byte → List Byte
  | 0, _, sec => sec
  | n + 1, j, sec =>
    let ch := slice S (47 * j) (47 * j + 47)
    installedSecret c S n (j + 1) (devSecret c sec (slice ch 0 32) (slice ch 32 47))

/-- `es` is `INSTALL_SECRET` of the padded secret `S` of `n` chunks into `slot`: every chunk, the wipe and the slot copy
(45_auth.md R265). -/
def InstallSecretServed (w : Link) (b slot p : Nat) (S : List Byte) (n : Nat) (check : Bool) (es : List Event) : Prop :=
  ∃ e1 e2 e3, es = e1 ++ (e2 ++ e3) ∧ InstallServed w b p S check n 0 e1 ∧
    WriteServed w b (p * 32) (List.replicate 32 0x00) check e2 ∧
    SlotServed w b slot (installedSecret w.cfg S n 0 (List.replicate 8 0x00)) e3

/-- `es` is `BIND_SECRET` of binding data `bd` and secret input `sp15`, the new secret being `sec` (45_auth.md R266). -/
def BindSecretServed (w : Link) (b slot p : Nat) (bd sp15 sec : List Byte) (check : Bool) (es : List Event) : Prop :=
  ∃ e1 e2 e3, es = e1 ++ (e2 ++ e3) ∧ WriteServed w b (p * 32) bd check e1 ∧
    ShaServed w b p sp15 w.cfg.fnNextSecret e2 ∧ SlotServed w b slot sec e3

/-- `es` is `COMPUTE_NEXT_SECRET` with page `pg` and secret input `sp15` (45_auth.md R267). -/
def NextSecretServed (w : Link) (b p : Nat) (pg : List Byte × List Byte) (sp15 : List Byte) (es : List Event) : Prop :=
  ∃ e1 e2, es = e1 ++ e2 ∧ PageServed w b p pg e1 ∧ ShaServed w b p sp15 w.cfg.fnNextSecret e2

/-- `es` is `AUTH_READ` of page `p` of bank `b` with challenge `chal`: the device answers page, ExtraInfo and MAC `r` in two
frames that reach their residual (20_memory.md R93, 45_auth.md R268). -/
def AuthReadServed (w : Link) (b p : Nat) (chal : List Byte) (r : AuthPage) (es : List Event) : Prop :=
  let k := w.bank b
  let a := k.base + p * k.pageLength
  ∃ e1 e a1 a2, es = e1 ++ [w.select,
      .exchange (frameHead k.opcReadAuth a ++ List.replicate (32 + k.extraInfoLength + 2) 0xFF) a1, .sleep w.cfg.tShaMs,
      .exchange (List.replicate 22 0xFF) a2] ∧
    StagedServed w b (a + w.cfg.chalOffset) chal e e1 ∧
    a1.length = 37 + k.extraInfoLength ∧ crcOk 2 0 a1 = true ∧ a2.length = 22 ∧ crcOk 2 0 a2 = true ∧
    r = ⟨slice a1 3 35, slice a1 35 (35 + k.extraInfoLength), slice a2 0 20⟩

/-- Between `s` and `t` the device SHA step of page `p` of bank `b` with function byte `fn` began: its frame went out, and the wait
behind it (45_auth.md R260, R261; 20_memory.md R92). -/
def ShaBegan (s t : State) (b p : Nat) (fn : Byte) : Prop :=
  let k := s.cfg.bank b
  ∃ before after a, t.events = s.events ++ before ++
    [.exchange (frameHead k.opcSha (k.base + p * k.pageLength) ++ [fn]) a, .sleep s.cfg.tShaMs] ++ after

/-- The length of the chunk at byte `r` of bank `k` when `n` bytes are left: as far as page, scratchpad and, on an authenticated
bank, 8-byte group reach (42_paged_memory.md R171). -/
def chunkSize (c : Config) (k : Bank) (r n : Nat) : Nat :=
  let m := min n (min (k.pageLength - r % k.pageLength) (c.spLen - (k.base + r) % c.spLen))
  if k.authenticated then min m (8 - (k.base + r) % 8) else m

/-- A read of this kind from byte `r` of bank `b` would continue the open stream (42_paged_memory.md R162). -/
def continues (s : State) (b : Nat) (kind : ReadKind) (r : Nat) : Bool := decide (s.cont = ⟨true, b, kind, r⟩)

/-- The kind of the page read of READ_PAGE and READ_PAGE_PACKET (42_paged_memory.md R166). -/
def pageReadKind (k : Bank) : ReadKind := if k.pageAutoCrc then .page else .raw

/-- Whether that read continues the stream, `c` being the command's C flag (42_paged_memory.md R162). -/
def wholePageContinues (s : State) (b p : Nat) (c : Bool) : Bool :=
  c && continues s b (pageReadKind (s.bank b)) (p * (s.bank b).pageLength)

/-- `es` is the page read of READ_PAGE and READ_PAGE_PACKET: by a CRC frame where the bank has device CRC, else raw
(42_paged_memory.md R166, R168, R177). -/
def WholePageServed (s : State) (b p : Nat) (c : Bool) (pg : List Byte × List Byte) (es : List Event) : Prop :=
  let k := s.bank b
  if k.pageAutoCrc then PageReadServed s.link b p (wholePageContinues s b p c) pg es
  else RawReadServed s.link b (p * k.pageLength) k.pageLength (wholePageContinues s b p c) pg.1 es ∧ pg.2 = []

/-- The bank exists, is no control bank, and the ROM id is set (42_paged_memory.md R167). -/
def BankOk (s : State) (b : Nat) : Prop :=
  b < s.cfg.nbanks ∧ (s.bank b).generalPurpose = true ∧ s.romValid = true

/-- The bank can be read at all (42_paged_memory.md R166). -/
def Readable (k : Bank) : Prop := k.pageAutoCrc = true ∨ k.rawRead = true

/-- A commit to the bank is allowed as far as the secret goes (45_auth.md R269). -/
def CommitOk (s : State) (k : Bank) : Prop :=
  k.authenticated = true → s.auth = .secretBound ∨ s.auth = .secretActive

/-- A secret is held (45_auth.md R260). -/
def SecretHeld (s : State) : Prop := s.auth = .secretBound ∨ s.auth = .secretActive

/-- The conditions under which the spec lets a command past its check phase, from the Checks line of its rule
(41_crc.md R148 to R155; 42_paged_memory.md R168, R169, R175, R177, R178; 43_scratchpad.md R206 to R208; 44_otp.md R234
to R240; 45_auth.md R265 to R268). -/
def Allowed : Instr → State → Prop
  | .crc8Seed _, _ => True
  | .crc8Byte _, _ => True
  | .crc8Block, s => s.x0 + s.x1 ≤ bufLen
  | .crc8Check, _ => True
  | .crc16Seed _, _ => True
  | .crc16Byte _, _ => True
  | .crc16Block, s => s.x0 + s.x1 ≤ bufLen
  | .crc16Check, _ => True
  | .readPage b _ x, s =>
    let k := s.bank b
    BankOk s b ∧ Readable k ∧ ¬(x = true ∧ k.pageAutoCrc = false ∧ 0 < k.extraInfoLength) ∧ s.x0 < k.pageCount ∧
      s.x1 + k.pageLength + (if x then k.extraInfoLength else 0) ≤ bufLen
  | .readBytes b _, s =>
    let k := s.bank b
    BankOk s b ∧ Readable k ∧ s.x0 + s.x1 ≤ k.pageCount * k.pageLength ∧ s.x2 + s.x1 ≤ bufLen
  | .write b, s =>
    let k := s.bank b
    BankOk s b ∧ k.readOnly = false ∧ s.x0 + s.x1 ≤ k.pageCount * k.pageLength ∧ s.x2 + s.x1 ≤ bufLen ∧ CommitOk s k
  | .readPagePacket b _, s =>
    let k := s.bank b
    BankOk s b ∧ Readable k ∧ 3 ≤ k.pageLength ∧ s.x0 < k.pageCount ∧ s.x1 + (k.pageLength - 3) ≤ bufLen
  | .writePagePacket b, s =>
    let k := s.bank b
    BankOk s b ∧ k.readOnly = false ∧ s.x0 < k.pageCount ∧ s.x1 + 3 ≤ k.pageLength ∧ s.x2 + s.x1 ≤ bufLen ∧ CommitOk s k
  | .spStage b, s =>
    let k := s.bank b
    BankOk s b ∧ k.readOnly = false ∧ 1 ≤ s.x1 ∧ s.x0 + s.x1 ≤ k.pageCount * k.pageLength ∧ s.x2 + s.x1 ≤ bufLen
  | .spConfirm b, s =>
    BankOk s b ∧ s.x0 + 3 + s.cfg.spLen ≤ bufLen ∧ (s.sp.phase = .staged ∨ s.sp.phase = .confirmed) ∧ s.sp.bank = b
  | .spCommit b, s => BankOk s b ∧ CommitOk s (s.bank b) ∧ s.sp.phase = .confirmed ∧ s.sp.bank = b
  | .lockPage b, s => BankOk s b ∧ (s.bank b).lockBank ≠ none ∧ s.x0 < (s.bank b).pageCount
  | .isPageLocked b, s => BankOk s b ∧ (s.bank b).lockBank ≠ none ∧ s.x0 < (s.bank b).pageCount
  | .redirectPage b, s =>
    BankOk s b ∧ (s.bank b).redirBank ≠ none ∧ s.x0 < (s.bank b).pageCount ∧ 1 ≤ s.x1 ∧ s.x1 < (s.bank b).pageCount
  | .getRedirectedPage b, s => BankOk s b ∧ (s.bank b).redirBank ≠ none ∧ s.x0 < (s.bank b).pageCount
  | .lockRedirectPage b, s => BankOk s b ∧ (s.bank b).rlockBank ≠ none ∧ s.x0 < (s.bank b).pageCount
  | .isRedirectPageLocked b, s => BankOk s b ∧ (s.bank b).rlockBank ≠ none ∧ s.x0 < (s.bank b).pageCount
  | .installSecret b _, s =>
    let k := s.bank b
    BankOk s b ∧ k.shaCapable = true ∧ k.authenticated = false ∧ s.x0 < k.pageCount ∧ 1 ≤ s.x1 ∧ s.x2 + s.x1 ≤ bufLen
  | .bindSecret b _ af, s =>
    let k := s.bank b
    BankOk s b ∧ k.shaCapable = true ∧ s.x0 < k.pageCount ∧ s.x1 + 32 + (if af then 7 else 15) ≤ bufLen ∧ SecretHeld s
  | .computeNextSecret b, s =>
    let k := s.bank b
    BankOk s b ∧ k.shaCapable = true ∧ s.x0 < k.pageCount ∧ s.x1 + 8 ≤ bufLen ∧ SecretHeld s
  | .authRead b, s =>
    let k := s.bank b
    BankOk s b ∧ k.shaCapable = true ∧ s.x0 < k.pageCount ∧ s.x1 + 52 + k.extraInfoLength ≤ bufLen ∧ s.auth = .secretActive

/-- What no command but a CRC command changes when it completes, normally or with an error: BUSY ends 0 and DONE 1; the
configuration, ARG0 to ARG3, both CRC accumulators, WVERIFY, the ROM id and the host's side are as before. -/
structure CommandFrame (s t : State) : Prop where
  busy : t.busy = false
  done : t.done = true
  cfg : t.cfg = s.cfg
  arg0 : t.arg0 = s.arg0
  arg1 : t.arg1 = s.arg1
  arg2 : t.arg2 = s.arg2
  arg3 : t.arg3 = s.arg3
  crc8 : t.crc8 = s.crc8
  crc16 : t.crc16 = s.crc16
  wverify : t.wverify = s.wverify
  romLo : t.romLo = s.romLo
  romHi : t.romHi = s.romHi
  romValid : t.romValid = s.romValid
  host : t.host = s.host
  answers : t.answers = s.answers

/-- A command completed normally from `s` to `t` (60_exceptions.md R303), having issued the events `es` and no other; the oracle
goes on as `rest`. -/
structure Completed (s t : State) (es : List Event) (rest : Oracle) : Prop extends CommandFrame s t where
  err : t.err = .none
  trace : t.events = s.events ++ s.wire es
  dev : t.dev = .oracle rest

/-- A command ended from `s` to `t` with an error of its bus phase, of this kind and number, after the events `es` and no other
(60_exceptions.md R304): DATA is as before, no read stream is open, and the session is unverified unless it is a PolicyError. -/
structure Failed (s t : State) (kind : ErrKind) (number : Word) (es : List Event) (rest : Oracle) : Prop
    extends CommandFrame s t where
  err : t.err = kind
  result : t.result = number
  trace : t.events = s.events ++ s.wire es
  dev : t.dev = .oracle rest
  data : ∀ a, dataByte t a = dataByte s a
  cont : t.cont.valid = false
  speed : t.speedVerified = (decide (kind = .policy) && (s.speedVerified || es.any Event.selects))
  resume : t.resumeEligible = (decide (kind = .policy) && (s.resumeEligible || es.any Event.selects))

/-- No secret moved. -/
def SameSecret (s t : State) : Prop := t.auth = s.auth ∧ t.hostSecret = s.hostSecret

/-- Every DATA byte is as before. -/
def SameData (s t : State) : Prop := ∀ a, dataByte t a = dataByte s a

/-- DATA holds `bytes` from `o` on and is as before everywhere else. -/
def DataWritten (s t : State) (o : Nat) (bytes : List Byte) : Prop :=
  ∀ a, dataByte t a = if o ≤ a ∧ a < o + bytes.length then byteAt bytes (a - o) else dataByte s a

/-- `s` with bit `j` of byte `i` flipped. -/
def flipBit (s : List Byte) (i j : Nat) : List Byte := s.set i (byteAt s i ^^^ (1#8 <<< j))

/-- `es` is a read of page `p` of bank `b` whose page frame is a sealed one of the right length with exactly one bit flipped
(42_paged_memory.md R181). -/
def PageCorrupted (w : Link) (b p : Nat) (cok : Bool) (es : List Event) : Prop :=
  let k := w.bank b
  let head := frameHead k.opcReadCrc (k.base + p * k.pageLength)
  let fill := List.replicate (pageFrameLength k) 0xFF
  ∃ f i j, i < f.length ∧ j < 8 ∧
    if cok then
      es = [.exchange fill (flipBit f i j)] ∧ f.length = pageFrameLength k ∧ crcOk k.crcBytes 0 f = true
    else if k.crcAfterAddress then
      ∃ a, es = [w.select, .exchange (head ++ List.replicate k.crcBytes 0xFF) a, .exchange fill (flipBit f i j)] ∧
        a.length = 3 + k.crcBytes ∧ crcOk k.crcBytes k.crcSeed a = true ∧ f.length = pageFrameLength k ∧
        crcOk k.crcBytes 0 f = true
    else
      es = [w.select, .exchange (head ++ fill) (flipBit f i j)] ∧ f.length = 3 + pageFrameLength k ∧
        crcOk k.crcBytes k.crcSeed f = true

/-! The causes and the checks, with the numbers of the spec's own table. -/

/-- The rows of the table of 60_exceptions.md R305: tag, kind and number. -/
def causeTable : List (Cause × ErrKind × Word) :=
  [(.select, .presence, 1), (.frame, .integrity, 2), (.address, .integrity, 3), (.stage, .integrity, 4),
   (.confirm, .integrity, 5), (.commit, .integrity, 6), (.poll, .timeout, 7), (.sha, .integrity, 8),
   (.authPage, .integrity, 9), (.authMac, .integrity, 10), (.verify, .integrity, 11), (.lockbit, .integrity, 12),
   (.pktlenRead, .integrity, 13), (.pktlenWrite, .policy, 13), (.pktcrc, .integrity, 14)] ++
  [(.bank, .policy, 20), (.control, .policy, 21), (.capability, .policy, 22), (.range, .policy, 23), (.buffer, .policy, 24),
   (.rom, .policy, 25), (.readonly, .policy, 26), (.locked, .policy, 27), (.redirlocked, .policy, 28),
   (.sequence, .policy, 29), (.target, .policy, 30), (.length, .policy, 31), (.nosecret, .authentication, 32),
   (.rejected, .authentication, 33), (.macmismatch, .authentication, 34), (.illegal, .illegal, 35)]

/-- A check: its condition, and the kind and number of the error when it does not hold. -/
abbrev SpecCheck := Prop × ErrKind × Word

/-- The checks every bank command begins with (42_paged_memory.md R167). -/
def bankSpecChecks (s : State) (b : Nat) : List SpecCheck :=
  [(b < s.cfg.nbanks, .policy, 20), ((s.bank b).generalPurpose = true, .policy, 21)]

/-- The check of a page number. -/
def pageSpecCheck (s : State) (b : Nat) : SpecCheck := (s.arg0.toNat < (s.bank b).pageCount, .policy, 23)

/-- The check that ARG1 bytes from byte ARG0 on stand in the bank. -/
def rangeSpecCheck (s : State) (b : Nat) : SpecCheck :=
  (s.arg0.toNat + s.arg1.toNat ≤ (s.bank b).pageCount * (s.bank b).pageLength, .policy, 23)

/-- The check that a region ends inside DATA. -/
def bufferSpecCheck (stop : Nat) : SpecCheck := (stop ≤ 256, .policy, 24)

/-- The check of `rom_valid`. -/
def romSpecCheck (s : State) : SpecCheck := (s.romValid = true, .policy, 25)

/-- The check that the bank can be read at all (42_paged_memory.md R166). -/
def readableSpecCheck (s : State) (b : Nat) : SpecCheck := (Readable (s.bank b), .policy, 22)

/-- The check that the bank may be written. -/
def writableSpecCheck (s : State) (b : Nat) : SpecCheck := ((s.bank b).readOnly = false, .policy, 26)

/-- The check of a commit's secret (45_auth.md R269). -/
def commitSpecCheck (s : State) (b : Nat) : SpecCheck := (CommitOk s (s.bank b), .authentication, 32)

/-- The checks of a command in their order, with the cause each reports: the Checks line of its rule (41_crc.md R148 to R155;
42_paged_memory.md R168, R169, R175, R177, R178; 43_scratchpad.md R206 to R208; 44_otp.md R234 to R240; 45_auth.md R265 to
R268) and the order of 60_exceptions.md R308. -/
def specChecks : Instr → State → List SpecCheck
  | .crc8Seed _, _ => []
  | .crc8Byte _, _ => []
  | .crc8Block, s => [bufferSpecCheck (s.arg0.toNat + s.arg1.toNat)]
  | .crc8Check, _ => []
  | .crc16Seed _, _ => []
  | .crc16Byte _, _ => []
  | .crc16Block, s => [bufferSpecCheck (s.arg0.toNat + s.arg1.toNat)]
  | .crc16Check, _ => []
  | .readPage b _ x, s =>
    let k := s.bank b
    bankSpecChecks s b ++ [readableSpecCheck s b,
      (¬(x = true ∧ k.pageAutoCrc = false ∧ 0 < k.extraInfoLength), .policy, 22), pageSpecCheck s b,
      bufferSpecCheck (s.arg1.toNat + k.pageLength + if x then k.extraInfoLength else 0), romSpecCheck s]
  | .readBytes b _, s =>
    bankSpecChecks s b ++ [readableSpecCheck s b, rangeSpecCheck s b, bufferSpecCheck (s.arg2.toNat + s.arg1.toNat),
      romSpecCheck s]
  | .write b, s =>
    bankSpecChecks s b ++ [writableSpecCheck s b, rangeSpecCheck s b, bufferSpecCheck (s.arg2.toNat + s.arg1.toNat),
      romSpecCheck s, commitSpecCheck s b]
  | .readPagePacket b _, s =>
    let k := s.bank b
    bankSpecChecks s b ++ [readableSpecCheck s b, (3 ≤ k.pageLength, .policy, 22), pageSpecCheck s b,
      bufferSpecCheck (s.arg1.toNat + (k.pageLength - 3)), romSpecCheck s]
  | .writePagePacket b, s =>
    bankSpecChecks s b ++ [writableSpecCheck s b, pageSpecCheck s b,
      (s.arg1.toNat + 3 ≤ (s.bank b).pageLength, .policy, 13), bufferSpecCheck (s.arg2.toNat + s.arg1.toNat), romSpecCheck s,
      commitSpecCheck s b]
  | .spStage b, s =>
    bankSpecChecks s b ++ [writableSpecCheck s b, (1 ≤ s.arg1.toNat, .policy, 31), rangeSpecCheck s b,
      bufferSpecCheck (s.arg2.toNat + s.arg1.toNat), romSpecCheck s]
  | .spConfirm b, s =>
    bankSpecChecks s b ++ [bufferSpecCheck (s.arg0.toNat + 3 + s.cfg.spLen), romSpecCheck s,
      ((s.sp.phase = .staged ∨ s.sp.phase = .confirmed) ∧ s.sp.bank = b, .policy, 29)]
  | .spCommit b, s =>
    bankSpecChecks s b ++ [romSpecCheck s, commitSpecCheck s b, (s.sp.phase = .confirmed ∧ s.sp.bank = b, .policy, 29)]
  | .lockPage b, s =>
    bankSpecChecks s b ++ [((s.bank b).lockBank ≠ none, .policy, 22), pageSpecCheck s b, romSpecCheck s]
  | .isPageLocked b, s =>
    bankSpecChecks s b ++ [((s.bank b).lockBank ≠ none, .policy, 22), pageSpecCheck s b, romSpecCheck s]
  | .redirectPage b, s =>
    bankSpecChecks s b ++ [((s.bank b).redirBank ≠ none, .policy, 22), pageSpecCheck s b,
      (1 ≤ s.arg1.toNat ∧ s.arg1.toNat < (s.bank b).pageCount, .policy, 30), romSpecCheck s]
  | .getRedirectedPage b, s =>
    bankSpecChecks s b ++ [((s.bank b).redirBank ≠ none, .policy, 22), pageSpecCheck s b, romSpecCheck s]
  | .lockRedirectPage b, s =>
    bankSpecChecks s b ++ [((s.bank b).rlockBank ≠ none, .policy, 22), pageSpecCheck s b, romSpecCheck s]
  | .isRedirectPageLocked b, s =>
    bankSpecChecks s b ++ [((s.bank b).rlockBank ≠ none, .policy, 22), pageSpecCheck s b, romSpecCheck s]
  | .installSecret b _, s =>
    bankSpecChecks s b ++ [((s.bank b).shaCapable = true ∧ (s.bank b).authenticated = false, .policy, 22), pageSpecCheck s b,
      (1 ≤ s.arg1.toNat, .policy, 31), bufferSpecCheck (s.arg2.toNat + s.arg1.toNat), romSpecCheck s]
  | .bindSecret b _ af, s =>
    bankSpecChecks s b ++ [((s.bank b).shaCapable = true, .policy, 22), pageSpecCheck s b,
      bufferSpecCheck (s.arg1.toNat + 32 + if af then 7 else 15), romSpecCheck s, (SecretHeld s, .authentication, 32)]
  | .computeNextSecret b, s =>
    bankSpecChecks s b ++ [((s.bank b).shaCapable = true, .policy, 22), pageSpecCheck s b, bufferSpecCheck (s.arg1.toNat + 8),
      romSpecCheck s, (SecretHeld s, .authentication, 32)]
  | .authRead b, s =>
    bankSpecChecks s b ++ [((s.bank b).shaCapable = true, .policy, 22), pageSpecCheck s b,
      bufferSpecCheck (s.arg1.toNat + 52 + (s.bank b).extraInfoLength), romSpecCheck s,
      (s.auth = .secretActive, .authentication, 32)]

end Sys2Proof.Machine
end

