-- ==== Sys2Proof/Certificates/Slice0/Obligations.lean ====
section
/-! DEFINITION. The statements for the provers. Those about a run of a command take a quiet state (no host access is due
while the command runs); those about a bus command give the events it issues, whose answers the oracle gives. -/

open Sys2Proof Sys2Proof.Machine

/-! Encoding (30_encoding.md). -/

/-- Decoding the word of any well-formed command gives the command back, with every operand (R120, R121, R123, R128). -/
def Obligations.DecodeOfEncodeIsTheCommand : Prop :=
  ∀ i : Instr, i.wf = true → decode (encode i) = .ok i

/-- A word that decodes is the word of the command it decodes to, and that command is well-formed (R121, R123, R124). -/
def Obligations.EncodeOfDecodeIsTheWord : Prop :=
  ∀ (w : Word) (i : Instr), decode w = .ok i → i.wf = true ∧ encode i = w

/-- The decoder follows the match and mask of every row of the opcode table; one row at most matches a word; a word is
ILLEGAL iff no row matches it (R124, R125). -/
def Obligations.DecodeFollowsMatchAndMask : Prop :=
  ∀ w : Word,
    (∀ row ∈ opcodeTable, w &&& row.mask = row.pattern ↔ ∃ i, decode w = .ok i ∧ i.mnemonic = row.mnemonic) ∧
    (∀ row ∈ opcodeTable, ∀ row' ∈ opcodeTable,
      w &&& row.mask = row.pattern → w &&& row'.mask = row'.pattern → row = row') ∧
    ((∃ e, decode w = .error e) ↔ ∀ row ∈ opcodeTable, w &&& row.mask ≠ row.pattern)

/-- Words of the spec's own examples decode to the commands it gives them (R128; 42_paged_memory.md R168; 45_auth.md R265,
R266; 43_scratchpad.md R208; 41_crc.md R148). -/
def Obligations.SpecExampleWordsDecode : Prop :=
  decode 0x10010001 = .ok (.readPage 1 true false) ∧ decode 0x05000002 = .ok (.crc16Seed 0x0002) ∧
  decode 0x41050009 = .ok (.bindSecret 5 1 true) ∧ decode 0x10000000 = .ok (.readPage 0 false false) ∧
  decode 0x40050000 = .ok (.installSecret 5 0) ∧ decode 0x22000000 = .ok (.spCommit 0) ∧
  decode 0x0100005A = .ok (.crc8Seed 0x5A) ∧ decode 0x00000000 = .error (.unassignedOpcode 0x00)

/-! Steps (60_exceptions.md R300, R310; 00_scope.md R9). -/

/-- A step whose host access writes a command word while the core is idle runs the decoded command, on the state without
that access; a word that decodes to nothing runs ILLEGAL; without an access a step changes nothing. The model's choices in this:
that an idle core takes the access whatever its `early` says (log entry 2), how `withFetchWord` places a word (log entry 20), and
that a machine without an access steps at all (log entry 25); that an idle core keeps its state is R315. -/
def Obligations.StepRunsTheDecodedCommand : Prop :=
  (∀ (s : State) (w : Word) (early : Option Nat) (rest : List HostOp), s.cfg.wf = true → s.busy = false →
    s.host = ⟨.write 0x000 .b32 w, early⟩ :: rest →
      (∀ i, decode w = .ok i → step s = exec i { s with host := rest }) ∧
      (∀ e, decode w = .error e → step s = execIllegal { s with host := rest })) ∧
  (∀ (s : State) (n : Nat) (i : Instr), s.cfg.wf = true → n < 2 ^ 32 → decode (BitVec.ofNat 32 n) = .ok i →
    step (s.withFetchWord 32 n) = exec i { s with busy := false }) ∧
  (∀ s : State, s.cfg.wf = true → s.host = [] → step s = .next s)

/-- An illegal word completes at once with ERR 6 and RESULT 35, BUSY 0 and DONE 1, and changes nothing else (R310). -/
def Obligations.IllegalWordCompletesAtOnce : Prop :=
  ∀ (s : State) (w : Word) (e : DecodeError), s.quiet = true → decode w = .error e →
    startWord w s = .next { s with busy := false, done := true, err := .illegal, result := 35, issued := 0 }

/-- A step refuses exactly the ill-formed configurations (00_scope.md R9) as long as every host access still to come is
legal; otherwise it answers a next state, of which the same holds. The model's choices in this: that the refusal stands at the
step (log entry 17), that an access outside the port has a next state unless HOST_DECODE is a bus error (log entry 14), and the
step without an access (log entry 25). -/
def Obligations.StepAnswersUnlessIllFormed : Prop :=
  ∀ s : State,
    (s.cfg.wf = false → step s = .refused .illFormedConfig) ∧
    (s.cfg.wf = true → s.hostLegal = true → ∃ t, step s = .next t ∧ t.hostLegal = true ∧ t.cfg = s.cfg)

/-- Every command completes in one step whatever the device answers: no command faults or is refused
(70_reset_and_hazards.md R341). -/
def Obligations.EveryCommandAnswersNext : Prop :=
  ∀ (i : Instr) (s : State), i.wf = true → s.cfg.wf = true → s.hostLegal = true → ∃ t, exec i s = .next t

/-! The host port (10_state.md R30 to R39, R51; 20_memory.md R71 to R73, R80; 70_reset_and_hazards.md R330 to R333). -/

/-- What each register reads as, idle or busy, STATUS field by field with the codes of the error kinds, `auth_state` and `sp.phase`
(10_state.md R34, R42, R44; 60_exceptions.md R301); a read changes nothing but the port's own record. -/
def Obligations.RegistersReadTheirState : Prop :=
  ∀ s : State,
    hostPort (.read 0x000 .b32) s = .done (s.answer 0) ∧
    hostPort (.read 0x008 .b32) s = .done (s.answer s.result) ∧
    hostPort (.read 0x00C .b32) s = .done (s.answer s.arg0) ∧
    hostPort (.read 0x010 .b32) s = .done (s.answer s.arg1) ∧
    hostPort (.read 0x014 .b32) s = .done (s.answer s.arg2) ∧
    hostPort (.read 0x018 .b32) s = .done (s.answer s.arg3) ∧
    hostPort (.read 0x01C .b32) s = .done (s.answer (s.crc8.setWidth 32)) ∧
    hostPort (.read 0x020 .b32) s = .done (s.answer (s.crc16.setWidth 32)) ∧
    hostPort (.read 0x028 .b32) s = .done (s.answer s.romLo) ∧
    hostPort (.read 0x02C .b32) s = .done (s.answer s.romHi) ∧
    hostPort (.read 0x030 .b32) s = .done (s.answer 0) ∧
    (∀ k, k < 51 → hostPort (.read (0x034 + 4 * k) .b32) s = .done (s.answer 0)) ∧
    ∃ w : Word, hostPort (.read 0x004 .b32) s = .done (s.answer w) ∧
      w.getLsbD 0 = s.busy ∧ w.getLsbD 1 = s.done ∧
      w.extractLsb' 2 3 = (match s.err with
        | .none => 0 | .integrity => 1 | .policy => 2 | .presence => 3 | .timeout => 4 | .authentication => 5
        | .illegal => 6) ∧
      w.getLsbD 5 = s.speedVerified ∧ w.getLsbD 6 = s.resumeEligible ∧ w.getLsbD 7 = s.romValid ∧
      w.extractLsb' 8 2 = (match s.auth with
        | .noSecret => 0 | .secretInstalling => 1 | .secretBound => 2 | .secretActive => 3) ∧
      w.extractLsb' 10 2 = (match s.sp.phase with | .idle => 0 | .staged => 1 | .confirmed => 2 | .unknown => 3) ∧
      w.getLsbD 12 = s.cont.valid ∧
      w.extractLsb' 13 19 = 0

/-- WVERIFY bits of banks that do not exist are hardwired to 0: a write ignores them and a read shows 0; the other bits
read as written (10_state.md R37). -/
def Obligations.WverifyHoldsOneBitPerBank : Prop :=
  ∀ (s : State) (v : Word), s.cfg.wf = true → s.busy = false →
    ∃ t, hostPort (.write 0x024 .b32 v) s = .done t ∧ t = { s with wverify := t.wverify } ∧
      ∃ r : Word, hostPort (.read 0x024 .b32) t = .done (t.answer r) ∧
        ∀ b, b < 32 → r.getLsbD b = (decide (b < s.cfg.nbanks) && v.getLsbD b)

/-- An idle write to ARG0 to ARG3 sets that register and nothing else; a write to a read-only register or a reserved offset
changes nothing (10_state.md R30, R32; 20_memory.md R71). -/
def Obligations.RegisterWritesSetOnlyTheirRegister : Prop :=
  ∀ (s : State) (v : Word), s.busy = false →
    hostPort (.write 0x00C .b32 v) s = .done { s with arg0 := v } ∧
    hostPort (.write 0x010 .b32 v) s = .done { s with arg1 := v } ∧
    hostPort (.write 0x014 .b32 v) s = .done { s with arg2 := v } ∧
    hostPort (.write 0x018 .b32 v) s = .done { s with arg3 := v } ∧
    hostPort (.write 0x004 .b32 v) s = .done s ∧ hostPort (.write 0x008 .b32 v) s = .done s ∧
    hostPort (.write 0x01C .b32 v) s = .done s ∧ hostPort (.write 0x020 .b32 v) s = .done s ∧
    (∀ k, k < 51 → hostPort (.write (0x034 + 4 * k) .b32 v) s = .done s)

/-- While a command runs every write but one to CTRL is ignored: to a register, to CMD, to DATA (10_state.md R33, R51). -/
def Obligations.BusyWritesAreIgnored : Prop :=
  ∀ (s : State) (off : Nat) (w : Width) (v : Word), s.busy = true → off < 0x200 → off ≠ 0x030 →
    offsetFits off w = true → hostPort (.write off w v) s = .done s

/-- A write to ROM_LO or ROM_HI while idle is a device change: it also ends the read stream, the session, the scratchpad
record and the secret state (70_reset_and_hazards.md R333), and it clears or sets `rom_valid` (10_state.md R38); while a command
runs it has no effect. The model's choices in this: that `host_secret` keeps its bytes (log entry 27) and that the other fields of
`cont` and `sp` stay (log entry 9). -/
def Obligations.RomWriteIsADeviceChange : Prop :=
  ∀ (s : State) (v : Word),
    (s.busy = false →
      hostPort (.write 0x028 .b32 v) s = .done { s with
        romLo := v, romValid := false, cont := { s.cont with valid := false }, speedVerified := false,
        resumeEligible := false, sp := { s.sp with phase := .idle }, auth := .noSecret } ∧
      hostPort (.write 0x02C .b32 v) s = .done { s with
        romHi := v, romValid := true, cont := { s.cont with valid := false }, speedVerified := false,
        resumeEligible := false, sp := { s.sp with phase := .idle }, auth := .noSecret }) ∧
    (s.busy = true → hostPort (.write 0x028 .b32 v) s = .done s ∧ hostPort (.write 0x02C .b32 v) s = .done s)

/-- A write to CTRL with bit 0 set resets the core, busy or idle: every core state element takes its reset value, DATA,
the history, the device and the configuration stay; a write with bit 0 clear changes nothing (10_state.md R39;
70_reset_and_hazards.md R330, R331). -/
def Obligations.SoftResetGivesTheResetValues : Prop :=
  ∀ (s : State) (v : Word) (early : Option Nat) (rest : List HostOp), s.cfg.wf = true →
    s.host = ⟨.write 0x030 .b32 v, early⟩ :: rest →
    (v.getLsbD 0 = false → step s = .next { s with host := rest }) ∧
    (v.getLsbD 0 = true → ∃ t, step s = .next t ∧
      t.busy = false ∧ t.done = false ∧ t.err = .none ∧ t.result = 0 ∧ t.arg0 = 0 ∧ t.arg1 = 0 ∧ t.arg2 = 0 ∧ t.arg3 = 0 ∧
      t.crc8 = 0x00 ∧ t.crc16 = 0x0000 ∧ (∀ b, b < 32 → t.wverify.getLsbD b = decide (b < s.cfg.nbanks)) ∧
      t.romLo = 0 ∧ t.romHi = 0 ∧ t.romValid = false ∧ t.speedVerified = false ∧ t.resumeEligible = false ∧
      t.cont.valid = false ∧ t.sp.phase = .idle ∧ t.auth = .noSecret ∧ t.hostSecret = List.replicate 8 0x00 ∧
      SameData s t ∧ t.events = s.events ∧ t.dev = s.dev ∧ t.cfg = s.cfg ∧ t.host = rest ∧ t.answers = s.answers)

/-- A narrow or misaligned access to a register and a misaligned access to DATA are refused, read or write
(20_memory.md R73). That an access at a reserved offset, and one whose last byte lies outside the port, are refused by the same
rule is the model's reading (log entry 13). -/
def Obligations.MisalignedAccessesAreRefused : Prop :=
  ∀ (s : State) (off : Nat) (w : Width) (v : Word), off < 0x200 → offsetFits off w = false →
    (off < 0x100 → ¬(w = .b32 ∧ off % 4 = 0)) ∧ (0x100 ≤ off → (off - 0x100) % w.bytes ≠ 0) ∧
    hostPort (.read off w) s = .refuse (.undefinedHostAccess off) ∧
    hostPort (.write off w v) s = .refuse (.undefinedHostAccess off)

/-- An aligned write to DATA stores the value's bytes, least significant first, and leaves every other byte; an aligned read
answers the bytes at its offset, least significant first, and 0 above its width (20_memory.md R72, R73, R80). -/
def Obligations.DataAccessIsLittleEndian : Prop :=
  ∀ (s : State) (i : Nat) (w : Width) (v : Word), s.busy = false → i < bufLen → i % w.bytes = 0 →
    (∃ t, hostPort (.write (0x100 + i) w v) s = .done t ∧ t = { s with data := t.data } ∧
      ∀ a, dataByte t a = if i ≤ a ∧ a < i + w.bytes then v.extractLsb' (8 * (a - i)) 8 else dataByte s a) ∧
    (∃ r : Word, hostPort (.read (0x100 + i) w) s = .done (s.answer r) ∧
      ∀ j, j < 4 → r.extractLsb' (8 * j) 8 = if j < w.bytes then dataByte s (i + j) else 0)

/-- A soft reset that lands while a command runs abandons it: DONE and ERR are not set, RESULT and DATA are not written,
every core element has its reset value; and a command ends without DONE in this way only. A reset due before the first event
lets no event be issued (70_reset_and_hazards.md R332). The model's choices in this: where accesses land (log entries 2, 11 and 12),
and that the reset takes effect at the access, so that the host's next access finds the core reset and idle (log entry 33). -/
def Obligations.SoftResetAbandonsTheCommand : Prop :=
  (∀ (i : Instr) (s t : State), i.wf = true → s.cfg.wf = true → exec i s = .next t → t.done = false →
    s.quiet = false ∧ s.events <+: t.events ∧
      t = softReset { s with dev := t.dev, events := t.events, host := t.host, answers := t.answers, draws := t.draws }) ∧
  (∀ (i : Instr) (s : State) (v : Word) (rest : List HostOp), s.host = ⟨.write 0x030 .b32 v, some 0⟩ :: rest →
    v.getLsbD 0 = true → exec i s = .next (softReset { s with host := rest }))

/-! CRC generators (41_crc.md). -/

/-- The seed and byte commands: the accumulator and RESULT receive the same value, and nothing else changes but STATUS
(R148, R149, R152, R153, R156). A byte enters by eight shifts to the right, with 0x8C or 0xA001 for every 1 shifted out (R140,
R141). -/
def Obligations.CrcSeedAndByteLoadTheAccumulator : Prop :=
  (∀ c d : Byte, crc8Step c d =
    (List.range 8).foldl (fun x _ => if x.getLsbD 0 then (x >>> 1) ^^^ 0x8C else x >>> 1) (c ^^^ d)) ∧
  (∀ (c : HWord) (d : Byte), crc16Step c d =
    (List.range 8).foldl (fun x _ => if x.getLsbD 0 then (x >>> 1) ^^^ 0xA001 else x >>> 1) (c ^^^ d.setWidth 16)) ∧
  ∀ s : State, s.quiet = true →
    (∀ v, exec (.crc8Seed v) s = .next { s with
      crc8 := v, result := v.setWidth 32, busy := false, done := true, err := .none, issued := 0 }) ∧
    (∀ v, exec (.crc8Byte v) s = .next { s with
      crc8 := crc8Step s.crc8 v, result := (crc8Step s.crc8 v).setWidth 32,
      busy := false, done := true, err := .none, issued := 0 }) ∧
    (∀ v, exec (.crc16Seed v) s = .next { s with
      crc16 := v, result := v.setWidth 32, busy := false, done := true, err := .none, issued := 0 }) ∧
    (∀ v, exec (.crc16Byte v) s = .next { s with
      crc16 := crc16Step s.crc16 v, result := (crc16Step s.crc16 v).setWidth 32,
      busy := false, done := true, err := .none, issued := 0 })

/-- The block commands over a region inside DATA feed its bytes in order, by the step of the byte commands, and are
PolicyError(buffer) with nothing else changed over any other region; the bound is on naturals (R142, R143, R150, R154;
60_exceptions.md R309). -/
def Obligations.CrcBlocksFoldTheRegion : Prop :=
  ∀ s : State, s.quiet = true →
    let run := (List.range s.arg1.toNat).map fun i => dataByte s (s.arg0.toNat + i)
    (s.arg0.toNat + s.arg1.toNat ≤ 256 →
      exec .crc8Block s = .next { s with
        crc8 := run.foldl crc8Step s.crc8, result := (run.foldl crc8Step s.crc8).setWidth 32,
        busy := false, done := true, err := .none, issued := 0 } ∧
      exec .crc16Block s = .next { s with
        crc16 := run.foldl crc16Step s.crc16, result := (run.foldl crc16Step s.crc16).setWidth 32,
        busy := false, done := true, err := .none, issued := 0 }) ∧
    (256 < s.arg0.toNat + s.arg1.toNat → ∀ i, i = .crc8Block ∨ i = .crc16Block →
      exec i s = .next { s with busy := false, done := true, err := .policy, result := 24, issued := 0 })

/-- The check commands answer whether the accumulator is the residual and change nothing but RESULT and STATUS (R151,
R155). -/
def Obligations.CrcChecksTestTheResidual : Prop :=
  ∀ s : State, s.quiet = true →
    exec .crc8Check s = .next { s with
      result := if s.crc8 = 0x00 then 1 else 0, busy := false, done := true, err := .none, issued := 0 } ∧
    exec .crc16Check s = .next { s with
      result := if s.crc16 = 0xB001 then 1 else 0, busy := false, done := true, err := .none, issued := 0 }

/-- The residual property: a sealed sequence reaches the residual, for every seed; and flipping any single bit of any sequence
changes its CRC, so that a sealed frame with one flipped bit does not reach the residual (R147). -/
def Obligations.SealedFramesReachTheResidual : Prop :=
  (∀ (seed : Byte) (s : List Byte), crc8 seed (s ++ seal8 seed s) = 0x00) ∧
  (∀ (seed : HWord) (s : List Byte), crc16 seed (s ++ seal16 seed s) = 0xB001) ∧
  (∀ (seed : Byte) (f : List Byte) (i j : Nat), i < f.length → j < 8 →
    crc8 seed (flipBit f i j) ≠ crc8 seed f ∧ (crc8 seed f = 0x00 → crc8 seed (flipBit f i j) ≠ 0x00)) ∧
  (∀ (seed : HWord) (f : List Byte) (i j : Nat), i < f.length → j < 8 →
    crc16 seed (flipBit f i j) ≠ crc16 seed f ∧ (crc16 seed f = 0xB001 → crc16 seed (flipBit f i j) ≠ 0xB001))

/-- A sealed packet carries its payload and is bound to its page: it has the length byte, the payload and a seal that reaches
the residual from the page's index, and from no other 16-bit seed (42_paged_memory.md R176, R177; 20_memory.md R89). -/
def Obligations.PacketsAreBoundToTheirPage : Prop :=
  ∀ (p : Nat) (payload : List Byte), payload.length < 256 →
    (packet p payload).length = payload.length + 3 ∧ (byteAt (packet p payload) 0).toNat = payload.length ∧
      slice (packet p payload) 1 (1 + payload.length) = payload ∧
      ∀ q : HWord, crc16 q (packet p payload) = 0xB001 ↔ q = BitVec.ofNat 16 p

/-! Addresses: the chunks of a write, the bits of a control bank. -/

/-- The chunks of a write cover its bytes, in order and once; none is empty, none crosses a page, a scratchpad or, on an
authenticated bank, an 8-byte group, each is as long as these and the bytes left allow, and each goes to the device address of its
bytes (42_paged_memory.md R171). -/
def Obligations.ChunksCoverTheWrite : Prop :=
  ∀ (c : Config) (b r : Nat) (d : List Byte), c.wf = true → b < c.nbanks →
    ((chunks c (c.bank b) r d.length).map fun ch => slice d ch.i (ch.i + ch.m)).flatten = d ∧
    ∀ ch ∈ chunks c (c.bank b) r d.length,
      1 ≤ ch.m ∧ ch.i + ch.m ≤ d.length ∧ ch.m = chunkSize c (c.bank b) (r + ch.i) (d.length - ch.i) ∧
        ch.ta = (c.bank b).base + (r + ch.i) ∧
        (r + ch.i) % (c.bank b).pageLength + ch.m ≤ (c.bank b).pageLength ∧ ch.ta % c.spLen + ch.m ≤ c.spLen ∧
        ((c.bank b).authenticated = true → ch.ta % 8 + ch.m ≤ 8)

/-- Two bits of a control bank share no place: the page, the byte in it and the mask tell the bit; and the byte a lock
writes has every bit 1 but that one (44_otp.md R230, R232; 20_memory.md R90). -/
def Obligations.ControlBitsHaveTheirOwnPlace : Prop :=
  (∀ (k : Bank) (q q' : Nat), 1 ≤ k.pageLength → ctlPage k q = ctlPage k q' → ctlByte k q = ctlByte k q' →
    bitMask q = bitMask q' → q = q') ∧
  (∀ (k : Bank) (q : Nat), 1 ≤ k.pageLength → ctlPage k q = q / (8 * k.pageLength) ∧ ctlByte k q < k.pageLength ∧
    ctlPage k q * k.pageLength + ctlByte k q = q / 8) ∧
  (∀ (q j : Nat), j < 8 → (0xFF ^^^ bitMask q).getLsbD j = decide (j ≠ q % 8))

/-! What commands change (60_exceptions.md R303, R304; the Writes lines of every command rule). -/

/-- Whatever a command does, BUSY ends 0 and DONE 1; the configuration, ARG0 to ARG3, WVERIFY, the ROM registers and
`rom_valid` are as before; the history only grows (10_state.md R32, R37, R38, R48; 20_memory.md R98). -/
def Obligations.CommandsLeaveTheHostRegisters : Prop :=
  ∀ (i : Instr) (s t : State), i.wf = true → s.cfg.wf = true → s.quiet = true → exec i s = .next t →
    t.busy = false ∧ t.done = true ∧ t.cfg = s.cfg ∧ t.arg0 = s.arg0 ∧ t.arg1 = s.arg1 ∧ t.arg2 = s.arg2 ∧
      t.arg3 = s.arg3 ∧ t.wverify = s.wverify ∧ t.romLo = s.romLo ∧ t.romHi = s.romHi ∧ t.romValid = s.romValid ∧
      t.host = s.host ∧ t.answers = s.answers ∧ s.events <+: t.events

/-- The accumulators are written by the CRC commands of their own width only, and the CRC commands touch neither the
transport nor the session, `cont`, `sp`, the secret state or DATA (10_state.md R35, R36; 41_crc.md R156, R159). -/
def Obligations.CrcCommandsAndAccumulatorsAreIsolated : Prop :=
  ∀ (i : Instr) (s t : State), i.wf = true → s.cfg.wf = true → s.quiet = true → exec i s = .next t →
    (bankOf i ≠ none → t.crc8 = s.crc8 ∧ t.crc16 = s.crc16) ∧
    (bankOf i = none → t = { s with
      crc8 := t.crc8, crc16 := t.crc16, result := t.result, busy := t.busy, done := t.done, err := t.err, issued := 0 }) ∧
    ((∀ v, i ≠ .crc8Seed v) → (∀ v, i ≠ .crc8Byte v) → i ≠ .crc8Block → t.crc8 = s.crc8) ∧
    ((∀ v, i ≠ .crc16Seed v) → (∀ v, i ≠ .crc16Byte v) → i ≠ .crc16Block → t.crc16 = s.crc16)

/-- DATA is written only by the completed reads, SP_CONFIRM and AUTH_READ: after an error, and after any other command, every
byte is as before (60_exceptions.md R304.3; 42_paged_memory.md R160). -/
def Obligations.DataIsWrittenOnlyOnCompletion : Prop :=
  ∀ (i : Instr) (s t : State), i.wf = true → s.cfg.wf = true → s.quiet = true → exec i s = .next t →
    t.err ≠ .none ∨ writesData i = false → SameData s t

/-- An error reports a cause of rule R305 by its kind in STATUS.ERR and its number in RESULT; the table's numbers are the causes'.
With no transport event behind it, it changes nothing else; after a transport event it leaves no read stream and, unless it is a
PolicyError, which is then `locked` or `redirlocked`, an unverified session. The scratchpad record is as before, IDLE or UNKNOWN:
UNKNOWN after an error inside `Stage`, `Confirm`, `Commit` or a secret-engine step, as after every bus-phase error of SP_CONFIRM,
of SP_STAGE without a lock bank and of SP_COMMIT without a MAC (60_exceptions.md R301, R304 to R306; 43_scratchpad.md R200). -/
def Obligations.ErrorsReportTheirCauseAndFollowTheirPhase : Prop :=
  (∀ c : Cause, (c, c.kind, c.info) ∈ causeTable) ∧
  ∀ (i : Instr) (s t : State), i.wf = true → s.cfg.wf = true → s.quiet = true → exec i s = .next t → t.err ≠ .none →
    (∃ row ∈ causeTable, t.err = row.2.1 ∧ t.result = row.2.2) ∧ t.err.code ≠ 7 ∧
    (t.events = s.events →
      t = { s with busy := false, done := true, err := t.err, result := t.result, issued := 0 }) ∧
    (t.events ≠ s.events →
      t.cont.valid = false ∧ (t.err ≠ .policy → t.speedVerified = false ∧ t.resumeEligible = false) ∧
      (t.err = .policy → t.result = 27 ∨ t.result = 28) ∧
      (t.sp = s.sp ∨ t.sp.phase = .idle ∨ t.sp.phase = .unknown) ∧
      (t.result.toNat ∈ [4, 5, 6, 7, 8, 9, 10, 33] → t.sp.phase = .unknown) ∧
      (∀ b, (i = .spConfirm b ∨ i = .spStage b ∧ (s.cfg.bank b).lockBank = none ∨
        i = .spCommit b ∧ (s.cfg.bank b).authenticated = false) → t.sp.phase = .unknown))

/-- Only a completed READ_PAGE, READ_BYTES or READ_PAGE_PACKET opens a read stream, of its own bank; a stream that is open
after any other command was open before it, and that command issued no event (42_paged_memory.md R165). -/
def Obligations.OnlyReadsOpenAStream : Prop :=
  ∀ (i : Instr) (s t : State), i.wf = true → s.cfg.wf = true → s.quiet = true → exec i s = .next t →
    t.cont.valid = true →
      (t.cont = s.cont ∧ t.events = s.events) ∨ (opensStream i = true ∧ t.err = .none ∧ bankOf i = some t.cont.bank)

/-- Only INSTALL_SECRET, BIND_SECRET and COMPUTE_NEXT_SECRET write `host_secret` or move `auth_state` (10_state.md R45;
45_auth.md R260); a command that does not go through the scratchpad leaves its record as it is: the reads, the lock and
redirect queries and the CRC commands (43_scratchpad.md R200). -/
def Obligations.OnlyTheirCommandsMoveSecretAndRecord : Prop :=
  ∀ (i : Instr) (s t : State), i.wf = true → s.cfg.wf = true → s.quiet = true → exec i s = .next t →
    (movesSecret i = false → SameSecret s t) ∧ (movesScratch i = false → t.sp = s.sp)

/-- `auth_state` after the three commands that move it: a completed install is SecretBound, a completed bind or
compute-next is SecretActive; an install that fails in its bus phase ends in NoSecret; a bind or compute-next that fails at or
after its device SHA step ends in NoSecret, and one that fails before it leaves the secret state; a check-phase failure leaves it
(45_auth.md R260). That the device SHA step begins with its frame and not with the select before it is log entry 26. -/
def Obligations.SecretStateMachine : Prop :=
  ∀ (i : Instr) (s t : State), i.wf = true → s.cfg.wf = true → s.quiet = true → exec i s = .next t →
    movesSecret i = true →
      (t.err = .none → ∀ b slot, i = .installSecret b slot → t.auth = .secretBound) ∧
      (t.err = .none → (∀ b slot, i ≠ .installSecret b slot) → t.auth = .secretActive) ∧
      (t.err ≠ .none → t.events = s.events → t.auth = s.auth ∧ t.hostSecret = s.hostSecret) ∧
      (t.err ≠ .none → t.events ≠ s.events → ∀ b slot, i = .installSecret b slot → t.auth = .noSecret) ∧
      (t.err ≠ .none → t.result = 8 → t.auth = .noSecret) ∧
      (t.err ≠ .none → ∀ b, (∃ slot af, i = .bindSecret b slot af) ∨ i = .computeNextSecret b →
        (ShaBegan s t b s.arg0.toNat s.cfg.fnNextSecret → t.auth = .noSecret) ∧
        (¬ ShaBegan s t b s.arg0.toNat s.cfg.fnNextSecret → t.auth = s.auth ∧ t.hostSecret = s.hostSecret))

/-! Checks (60_exceptions.md R308; 42_paged_memory.md R167). -/

/-- Every bank command on a bank that does not exist is PolicyError(bank), and on a control bank PolicyError(control), with
nothing else changed (42_paged_memory.md R167, 44_otp.md R241). -/
def Obligations.AbsentAndControlBanksAreRefused : Prop :=
  ∀ (i : Instr) (s : State) (b : Nat), s.quiet = true → bankOf i = some b →
    (s.cfg.nbanks ≤ b →
      exec i s = .next { s with busy := false, done := true, err := .policy, result := 20, issued := 0 }) ∧
    (b < s.cfg.nbanks → (s.cfg.bank b).generalPurpose = false →
      exec i s = .next { s with busy := false, done := true, err := .policy, result := 21, issued := 0 })

/-- Without a ROM id every bank command is a PolicyError before any event; it is PolicyError(rom) where every check holds but this
one and those below it, of the secret and of the scratchpad sequence (10_state.md R38; 42_paged_memory.md R167; 60_exceptions.md
R308). -/
def Obligations.BankCommandsNeedARomId : Prop :=
  ∀ (i : Instr) (s : State) (b : Nat), s.quiet = true → bankOf i = some b → s.romValid = false →
    (∃ c : Cause, c.kind = .policy ∧
      exec i s = .next { s with busy := false, done := true, err := .policy, result := c.info, issued := 0 }) ∧
    (Allowed i { s with romValid := true, auth := .secretActive, sp := { s.sp with phase := .confirmed, bank := b } } →
      exec i s = .next { s with busy := false, done := true, err := .policy, result := 25, issued := 0 })

/-- A command whose conditions do not hold is refused by a check, with nothing but STATUS and RESULT changed. -/
def Obligations.CommandsNotAllowedAreRefusedByACheck : Prop :=
  ∀ (i : Instr) (s : State), s.quiet = true → ¬ Allowed i s →
    ∃ c : Cause, (c.kind = .policy ∨ c.kind = .authentication) ∧
      exec i s = .next { s with busy := false, done := true, err := c.kind, result := c.info, issued := 0 }

/-- Every command reports the first of its checks that fails, in the order of R308, with the kind and number of its cause, and
changes nothing else; a command all of whose checks hold is past its check phase. For WRITE the order is written out (42_paged_memory.md
R175; 60_exceptions.md R308, R309). -/
def Obligations.CommandsReportTheirFirstFailingCheck : Prop :=
  (∀ (i : Instr) (s : State), Allowed i s ↔ ∀ c ∈ specChecks i s, c.1) ∧
  (∀ (i : Instr) (s : State) (before after : List SpecCheck) (holds : Prop) (kind : ErrKind) (number : Word),
    s.quiet = true → specChecks i s = before ++ (holds, kind, number) :: after → (∀ c ∈ before, c.1) → ¬ holds →
    exec i s = .next { s with busy := false, done := true, err := kind, result := number, issued := 0 }) ∧
  ∀ (s : State) (b : Nat), s.quiet = true → ¬ Allowed (.write b) s →
    let k := s.cfg.bank b
    exec (.write b) s = .next { s with
      busy := false, done := true, issued := 0
      err :=
        if s.cfg.nbanks ≤ b ∨ k.generalPurpose = false ∨ k.readOnly = true ∨
            k.pageCount * k.pageLength < s.arg0.toNat + s.arg1.toNat ∨ 256 < s.arg2.toNat + s.arg1.toNat ∨
            s.romValid = false then .policy else .authentication
      result :=
        if s.cfg.nbanks ≤ b then 20
        else if k.generalPurpose = false then 21
        else if k.readOnly = true then 26
        else if k.pageCount * k.pageLength < s.arg0.toNat + s.arg1.toNat then 23
        else if 256 < s.arg2.toNat + s.arg1.toNat then 24
        else if s.romValid = false then 25
        else 32 }

/-! The session and the bus (42_paged_memory.md R161; 43_scratchpad.md R205). -/

/-- The session prologue: a bus reset unless the session is verified, then one selection with the resume hint; a device that
answers leaves the session verified and resumable, one that does not is PresenceError(select) (42_paged_memory.md R161). -/
def Obligations.SelectFollowsTheSessionPrologue : Prop :=
  ∀ s : State, s.quiet = true → ∃ (ok : Bool) (t : State), QuietFrame s t ∧ t.sp = s.sp ∧ t.cont.valid = false ∧
    t.events = s.events ++ (if s.speedVerified then [] else [.reset]) ++
      [.select s.rom (s.speedVerified && s.resumeEligible) ok] ∧
    (ok = true → selectDevice s = .ok () t ∧ t.speedVerified = true ∧ t.resumeEligible = true) ∧
    (ok = false → selectDevice s = .error (.raised .bus .select) t ∧
      t.speedVerified = s.speedVerified ∧ t.resumeEligible = s.resumeEligible)

/-- The completion poll: it ends at the first byte that is not 0xFF, normally on the alternating pattern and otherwise with
AuthenticationError(rejected) on an authenticated bank and IntegrityError(commit) on any other; POLL_MAX busy bytes are
TimeoutError(poll); it reads no byte more (43_scratchpad.md R205). -/
def Obligations.PollEndsAtTheFirstAnswer : Prop :=
  ∀ (k : Bank) (N n : Nat) (v : Byte) (s : State) (rest : Oracle), s.quiet = true →
    (n < N → v ≠ 0xFF → s.dev = .oracle ⟨rest.selects, rest.exchanges, List.replicate n 0xFF ++ v :: rest.gets⟩ →
      ∃ t, QuietFrame s t ∧ t.dev = .oracle rest ∧ t.sp = s.sp ∧
        t.events = s.events ++ List.replicate n (.getByte 0xFF) ++ [.getByte v] ∧
        (v = 0xAA ∨ v = 0x55 → poll k N s = .ok () t) ∧
        (v ≠ 0xAA → v ≠ 0x55 → k.authenticated = true → poll k N s = .error (.raised .bus .rejected) t) ∧
        (v ≠ 0xAA → v ≠ 0x55 → k.authenticated = false → poll k N s = .error (.raised .bus .commit) t)) ∧
    (s.dev = .oracle ⟨rest.selects, rest.exchanges, List.replicate N 0xFF ++ rest.gets⟩ →
      ∃ t, QuietFrame s t ∧ t.dev = .oracle rest ∧ t.sp = s.sp ∧
        t.events = s.events ++ List.replicate N (.getByte 0xFF) ∧ poll k N s = .error (.raised .bus .poll) t)

/-- The read frames: the bytes each sends, whatever the device answers; the CRC each checks and over which bytes; the error of
a failed check; and where payload and ExtraInfo stand in the answer (20_memory.md R82 to R85). -/
def Obligations.ReadFramesAreBitExact : Prop :=
  ∀ (k : Bank) (a n : Nat) (s : State), s.quiet = true →
    let pl := k.pageLength
    let eil := k.extraInfoLength
    let fill := List.replicate (pl + eil + k.crcBytes) 0xFF
    (∃ ans t, ans.length = 3 + (pl + eil + k.crcBytes) ∧
      Issued s t [.exchange (frameHead k.opcReadCrc a ++ fill) ans] ∧
      frameReadCrc k a s =
        if crcK k.crcBytes k.crcSeed ans = crcResidual k.crcBytes then
          .ok (slice ans 3 (3 + pl), slice ans (3 + pl) (3 + pl + eil)) t
        else .error (.raised .bus .frame) t) ∧
    (∃ ans t, ans.length = pl + eil + k.crcBytes ∧ Issued s t [.exchange fill ans] ∧
      frameReadCrcCont k s =
        if crcK k.crcBytes 0 ans = crcResidual k.crcBytes then .ok (slice ans 0 pl, slice ans pl (pl + eil)) t
        else .error (.raised .bus .frame) t) ∧
    (∃ head t, head.length = 3 + k.crcBytes ∧
      Issued s t [.exchange (frameHead k.opcReadCrc a ++ List.replicate k.crcBytes 0xFF) head] ∧
      (crcK k.crcBytes k.crcSeed head ≠ crcResidual k.crcBytes →
        frameReadCrcAa k a s = .error (.raised .bus .address) t) ∧
      (crcK k.crcBytes k.crcSeed head = crcResidual k.crcBytes → ∃ ans u, ans.length = pl + eil + k.crcBytes ∧
        Issued t u [.exchange fill ans] ∧
        frameReadCrcAa k a s =
          if crcK k.crcBytes 0 ans = crcResidual k.crcBytes then .ok (slice ans 0 pl, slice ans pl (pl + eil)) u
          else .error (.raised .bus .frame) u)) ∧
    (∃ ans t, ans.length = 3 + n ∧ Issued s t [.exchange (frameHead k.opcRead a ++ List.replicate n 0xFF) ans] ∧
      frameReadRaw k a n s = .ok (slice ans 3 (3 + n)) t) ∧
    (∃ ans t, ans.length = n ∧ Issued s t [.exchange (List.replicate n 0xFF) ans] ∧ frameReadRawCont n s = .ok ans t)

/-- The scratchpad, commit, SHA and signed-read frames: the bytes each sends, whatever the device answers, the CRC or the
confirmation each checks, and what it takes from the answer. The commit's bytes go out whole or, with `COMMIT_POWER`, the last
of them after power delivery is armed (20_memory.md R86, R87, R88, R92, R93; 43_scratchpad.md R204). -/
def Obligations.WriteAndShaFramesAreBitExact : Prop :=
  ∀ (k : Bank) (s : State), s.quiet = true →
    (∀ (ta : Nat) (d : List Byte), ∃ ans t, ans.length = 3 + d.length + k.crcBytes ∧
      Issued s t [.exchange (frameHead k.opcWriteSp ta ++ d ++ List.replicate k.crcBytes 0xFF) ans] ∧
      frameWriteSp k ta d s =
        if crcK k.crcBytes 0 ans = crcResidual k.crcBytes then .ok () t else .error (.raised .bus .stage) t) ∧
    (∀ n : Nat, ∃ ans t, ans.length = 4 + n + k.crcBytes ∧
      Issued s t [.exchange (k.opcReadSp :: List.replicate (3 + n + k.crcBytes) 0xFF) ans] ∧
      frameReadSp k n s =
        if crcK k.crcBytes 0 ans = crcResidual k.crcBytes then
          .ok ⟨byteAt ans 2 ++ byteAt ans 1, byteAt ans 3, slice ans 4 (4 + n)⟩ t
        else .error (.raised .bus .confirm) t) ∧
    (∀ (ta : HWord) (es : Byte) (mac : List Byte),
      frameCopySp k ta es mac = frameHead k.opcCopySp ta.toNat ++ es :: mac) ∧
    (∀ (c : Config) (out : List Byte) (v : Byte), ∃ ans t, sendCommit c (out ++ [v]) s = .ok () t ∧
      if c.commitPower then
        ans.length = out.length ∧
          Issued s t [.exchange out ans, .setPowerMode c.tCommitMs .afterNextByte, .startPowerDelivery, .putByte v]
      else ans.length = out.length + 1 ∧ Issued s t [.exchange (out ++ [v]) ans]) ∧
    (∀ (a : Nat) (fn : Byte), ∃ ans v t, ans.length = 4 ∧
      Issued s t [.exchange (frameHead k.opcSha a ++ [fn]) ans, .sleep s.cfg.tShaMs, .getByte v] ∧
      frameSha k a fn s = if v = 0xAA ∨ v = 0x55 then .ok () t else .error (.raised .bus .sha) t) ∧
    (∀ a : Nat, ∃ in1 t, in1.length = 37 + k.extraInfoLength ∧
      Issued s t [.exchange (frameHead k.opcReadAuth a ++ List.replicate (32 + k.extraInfoLength + 2) 0xFF) in1] ∧
      (crc16 0 in1 ≠ 0xB001 → frameReadAuth k a s = .error (.raised .bus .authPage) t) ∧
      (crc16 0 in1 = 0xB001 → ∃ in2 u, in2.length = 22 ∧
        Issued t u [.sleep s.cfg.tShaMs, .exchange (List.replicate 22 0xFF) in2] ∧
        frameReadAuth k a s =
          if crc16 0 in2 = 0xB001 then
            .ok ⟨slice in1 3 35, slice in1 35 (35 + k.extraInfoLength), slice in2 0 20⟩ u
          else .error (.raised .bus .authMac) u))

/-! Where each bus command completes, what goes out on the bus, and what it leaves (42_paged_memory.md, 43_scratchpad.md, 44_otp.md,
45_auth.md). `es` is the events the command issues; the oracle gives the answers in them. -/

/-- READ_PAGE, framed or continued, with or without ExtraInfo, on a bank with device CRC or without: it reads the page it names,
with no other event (42_paged_memory.md R163 to R168). -/
def Obligations.ReadPageCompletes : Prop :=
  ∀ (b : Nat) (c x : Bool) (s : State) (pg : List Byte × List Byte) (es : List Event) (rest : Oracle), s.quiet = true →
    Allowed (.readPage b c x) s → WholePageServed s b s.arg0.toNat c pg es → s.dev = .oracle (answering es rest) →
    ∃ t, exec (.readPage b c x) s = .next t ∧ Completed s t es rest ∧ SameSecret s t ∧ t.sp = s.sp ∧
      DataWritten s t s.arg1.toNat (pg.1 ++ if x then pg.2 else []) ∧
      t.result = BitVec.ofNat 32 (pg.1 ++ if x then pg.2 else []).length ∧
      t.cont = ⟨true, b, pageReadKind (s.cfg.bank b), (s.arg0.toNat + 1) * (s.cfg.bank b).pageLength⟩ ∧
      t.speedVerified = (!wholePageContinues s b s.arg0.toNat c || s.speedVerified) ∧
      t.resumeEligible = (!wholePageContinues s b s.arg0.toNat c || s.resumeEligible)

/-- READ_BYTES on a bank with raw reads, framed or continued; on a CRC-only bank over any number of pages; and of no byte,
which does nothing (42_paged_memory.md R169, R190). -/
def Obligations.ReadBytesCompletes : Prop :=
  ∀ (b : Nat) (c : Bool) (s : State), s.quiet = true → Allowed (.readBytes b c) s →
    let k := s.cfg.bank b
    let r := s.arg0.toNat
    let n := s.arg1.toNat
    let p0 := r / k.pageLength
    let p1 := (r + n - 1) / k.pageLength
    let rawOn := c && continues s b .raw r
    let pageOn := c && continues s b .page (p0 * k.pageLength)
    (n = 0 → exec (.readBytes b c) s = .next { s with
      result := 0, busy := false, done := true, err := .none, issued := 0 }) ∧
    (∀ (data : List Byte) (es : List Event) (rest : Oracle), 1 ≤ n → k.rawRead = true →
      RawReadServed s.link b r n rawOn data es → s.dev = .oracle (answering es rest) →
      ∃ t, exec (.readBytes b c) s = .next t ∧ Completed s t es rest ∧ SameSecret s t ∧ t.sp = s.sp ∧
        DataWritten s t s.arg2.toNat data ∧ t.result = s.arg1 ∧ t.cont = ⟨true, b, .raw, r + n⟩ ∧
        t.speedVerified = (!rawOn || s.speedVerified) ∧ t.resumeEligible = (!rawOn || s.resumeEligible)) ∧
    (∀ (pg : List Byte × List Byte) (more : List Byte) (e1 e2 : List Event) (rest : Oracle), 1 ≤ n → k.rawRead = false →
      PageReadServed s.link b p0 pageOn pg e1 → MorePagesServed s.link b (p1 - p0) more e2 →
      s.dev = .oracle (answering (e1 ++ e2) rest) →
      ∃ t, exec (.readBytes b c) s = .next t ∧ Completed s t (e1 ++ e2) rest ∧ SameSecret s t ∧ t.sp = s.sp ∧
        DataWritten s t s.arg2.toNat (slice (pg.1 ++ more) (r - p0 * k.pageLength) (r - p0 * k.pageLength + n)) ∧
        t.result = s.arg1 ∧ t.cont = ⟨true, b, .page, (p1 + 1) * k.pageLength⟩ ∧
        t.speedVerified = (!pageOn || s.speedVerified) ∧ t.resumeEligible = (!pageOn || s.resumeEligible))

/-- WRITE, verified or not, with or without a MAC, over any number of chunks; of no byte, which does nothing; and a verified write
whose read-back of a chunk differs, which is IntegrityError(verify) (42_paged_memory.md R170 to R175, R190; 45_auth.md R269). -/
def Obligations.WriteCompletes : Prop :=
  ∀ (b : Nat) (s : State), s.quiet = true → Allowed (.write b) s →
    let d := dataRun s s.arg2.toNat s.arg1.toNat
    (s.arg1.toNat = 0 → exec (.write b) s = .next { s with
      result := 0, busy := false, done := true, err := .none, issued := 0 }) ∧
    (∀ (es : List Event) (rest : Oracle), 1 ≤ s.arg1.toNat → s.dev = .oracle (answering es rest) →
      (WriteServed s.link b s.arg0.toNat d (s.wverify.getLsbD b) es →
        ∃ t, exec (.write b) s = .next t ∧ Completed s t es rest ∧ SameSecret s t ∧ SameData s t ∧ t.selected ∧
          t.sp.phase = .idle ∧ t.result = s.arg1) ∧
      (WriteDiffers s.link b s.arg0.toNat d es → s.wverify.getLsbD b = true →
        ∃ t, exec (.write b) s = .next t ∧ Failed s t .integrity 11 es rest ∧ SameSecret s t ∧ t.sp.phase = .idle))

/-- READ_PAGE_PACKET of a page that holds a packet sealed with the page's index; of a page whose length byte is above
`page_length - 3`, which is IntegrityError(pktlen); and of one whose packet does not reach the residual from that index, which is
IntegrityError(pktcrc) (42_paged_memory.md R176, R177). -/
def Obligations.ReadPagePacketCompletes : Prop :=
  ∀ (b : Nat) (c : Bool) (s : State) (pg : List Byte × List Byte) (es : List Event) (rest : Oracle), s.quiet = true →
    Allowed (.readPagePacket b c) s → WholePageServed s b s.arg0.toNat c pg es → s.dev = .oracle (answering es rest) →
    let n := (byteAt pg.1 0).toNat
    let crc := (slice pg.1 0 (n + 3)).foldl crc16Step (BitVec.ofNat 16 s.arg0.toNat)
    (n + 3 ≤ (s.cfg.bank b).pageLength → crc = 0xB001 →
      ∃ t, exec (.readPagePacket b c) s = .next t ∧ Completed s t es rest ∧ SameSecret s t ∧ t.sp = s.sp ∧
        DataWritten s t s.arg1.toNat (slice pg.1 1 (1 + n)) ∧ t.result = BitVec.ofNat 32 n ∧
        t.cont = ⟨true, b, pageReadKind (s.cfg.bank b), (s.arg0.toNat + 1) * (s.cfg.bank b).pageLength⟩ ∧
        t.speedVerified = (!wholePageContinues s b s.arg0.toNat c || s.speedVerified) ∧
        t.resumeEligible = (!wholePageContinues s b s.arg0.toNat c || s.resumeEligible)) ∧
    ((s.cfg.bank b).pageLength < n + 3 →
      ∃ t, exec (.readPagePacket b c) s = .next t ∧ Failed s t .integrity 13 es rest ∧ SameSecret s t ∧ t.sp = s.sp) ∧
    (n + 3 ≤ (s.cfg.bank b).pageLength → crc ≠ 0xB001 →
      ∃ t, exec (.readPagePacket b c) s = .next t ∧ Failed s t .integrity 14 es rest ∧ SameSecret s t ∧ t.sp = s.sp)

/-- WRITE_PAGE_PACKET: the page's first bytes are written with the packet of the payload; a read-back that differs is
IntegrityError(verify) (42_paged_memory.md R173, R176, R178). -/
def Obligations.WritePagePacketCompletes : Prop :=
  ∀ (b : Nat) (s : State) (es : List Event) (rest : Oracle), s.quiet = true → Allowed (.writePagePacket b) s →
    s.dev = .oracle (answering es rest) →
    let r := s.arg0.toNat * (s.cfg.bank b).pageLength
    let d := packet s.arg0.toNat (dataRun s s.arg2.toNat s.arg1.toNat)
    (WriteServed s.link b r d (s.wverify.getLsbD b) es →
      ∃ t, exec (.writePagePacket b) s = .next t ∧ Completed s t es rest ∧ SameSecret s t ∧ SameData s t ∧ t.selected ∧
        t.sp.phase = .idle ∧ t.result = s.arg1) ∧
    (WriteDiffers s.link b r d es → s.wverify.getLsbD b = true →
      ∃ t, exec (.writePagePacket b) s = .next t ∧ Failed s t .integrity 11 es rest ∧ SameSecret s t ∧ t.sp.phase = .idle)

/-- SP_STAGE checks the lock of its page and stages the first chunk of the range: the record is STAGED with the chunk's address,
expected ES and bytes (42_paged_memory.md R170, R171; 43_scratchpad.md R201, R202, R206). -/
def Obligations.SpStageCompletes : Prop :=
  ∀ (b : Nat) (s : State) (e1 e2 : List Event) (rest : Oracle), s.quiet = true → Allowed (.spStage b) s →
    let k := s.cfg.bank b
    let m := chunkSize s.cfg k s.arg0.toNat s.arg1.toNat
    let ta := k.base + s.arg0.toNat
    LockTested s.link b (s.arg0.toNat / k.pageLength) false e1 → StageServed s.link b ta (dataRun s s.arg2.toNat m) e2 →
    s.dev = .oracle (answering (e1 ++ e2) rest) →
    ∃ t, exec (.spStage b) s = .next t ∧ Completed s t (e1 ++ e2) rest ∧ SameSecret s t ∧ SameData s t ∧ t.selected ∧
      t.result = BitVec.ofNat 32 m ∧ t.sp = stagedRecord s.link b ta (dataRun s s.arg2.toNat m)

/-- SP_CONFIRM of a staged or confirmed record: with a read-back that agrees the record is CONFIRMED with the device's ES, and DATA
receives TA, ES and the staged bytes; with one that does not it is IntegrityError(confirm), and the record is UNKNOWN
(43_scratchpad.md R200, R203, R207). -/
def Obligations.SpConfirmCompletes : Prop :=
  ∀ (b : Nat) (s : State) (e : Byte) (es : List Event) (rest : Oracle), s.quiet = true → Allowed (.spConfirm b) s →
    s.dev = .oracle (answering es rest) →
    (ConfirmServed s.link s.sp e es →
      ∃ t, exec (.spConfirm b) s = .next t ∧ Completed s t es rest ∧ SameSecret s t ∧ t.selected ∧
        t.sp = { s.sp with phase := .confirmed, es := e } ∧ t.result = e.setWidth 32 ∧
        DataWritten s t s.arg0.toNat ([s.sp.ta.extractLsb' 0 8, s.sp.ta.extractLsb' 8 8, e] ++ s.sp.data)) ∧
    (ConfirmFails s.link s.sp es →
      ∃ t, exec (.spConfirm b) s = .next t ∧ Failed s t .integrity 5 es rest ∧ SameSecret s t ∧
        t.sp = { s.sp with phase := .unknown })

/-- SP_COMMIT of a confirmed record sends the record's TA and ES in the copy frame, on an authenticated bank with the MAC of the
secret, the page, the bytes and the ROM id. Fewer than POLL_MAX busy bytes and the alternating pattern complete it; POLL_MAX busy
bytes are TimeoutError(poll); another byte is AuthenticationError(rejected) on an authenticated bank and IntegrityError(commit) on
any other; these leave the record UNKNOWN (43_scratchpad.md R200, R204, R205, R208; 45_auth.md R269). -/
def Obligations.SpCommitCompletes : Prop :=
  ∀ (b : Nat) (s : State) (mac : List Byte) (e1 e2 : List Event) (rest : Oracle), s.quiet = true → Allowed (.spCommit b) s →
    MacServed s.link b s.sp.ta.toNat s.sp.data mac e1 → s.dev = .oracle (answering (e1 ++ e2) rest) →
    (CommitServed s.link b s.sp.ta.toNat s.sp.es mac e2 →
      ∃ t, exec (.spCommit b) s = .next t ∧ Completed s t (e1 ++ e2) rest ∧ SameSecret s t ∧ SameData s t ∧ t.selected ∧
        t.sp = { s.sp with phase := .idle } ∧ t.result = BitVec.ofNat 32 s.sp.data.length) ∧
    (CommitSent s.link b s.sp.ta.toNat s.sp.es mac (List.replicate s.cfg.pollMax 0xFF) e2 →
      ∃ t, exec (.spCommit b) s = .next t ∧ Failed s t .timeout 7 (e1 ++ e2) rest ∧ SameSecret s t ∧
        t.sp = { s.sp with phase := .unknown }) ∧
    (∀ n v, n < s.cfg.pollMax → v ≠ 0xFF → v ≠ 0xAA → v ≠ 0x55 →
      CommitSent s.link b s.sp.ta.toNat s.sp.es mac (List.replicate n 0xFF ++ [v]) e2 →
      ∃ t, exec (.spCommit b) s = .next t ∧ SameSecret s t ∧ t.sp = { s.sp with phase := .unknown } ∧
        if (s.cfg.bank b).authenticated then Failed s t .authentication 33 (e1 ++ e2) rest
        else Failed s t .integrity 6 (e1 ++ e2) rest)

/-- LOCK_PAGE and LOCK_REDIRECT_PAGE write the byte that clears the page's bit in the control bank the data bank names, and read the
bit: cleared, they complete; still set, they are IntegrityError(lockbit) (44_otp.md R230 to R234, R239). -/
def Obligations.LockCommandsComplete : Prop :=
  ∀ (b l : Nat) (s : State) (es : List Event) (rest : Oracle), s.quiet = true → s.dev = .oracle (answering es rest) →
    ∀ (i : Instr) (q : Nat), Allowed i s →
      (i = .lockPage b ∧ (s.cfg.bank b).lockBank = some l ∧ q = (s.cfg.bank b).lockOffset + s.arg0.toNat ∨
        i = .lockRedirectPage b ∧ (s.cfg.bank b).rlockBank = some l ∧ q = (s.cfg.bank b).rlockOffset + s.arg0.toNat) →
      (BitClearSent s.link l q true es →
        ∃ t, exec i s = .next t ∧ Completed s t es rest ∧ SameSecret s t ∧ SameData s t ∧ t.selected ∧ t.sp.phase = .idle ∧
          t.result = 1) ∧
      (BitClearSent s.link l q false es →
        ∃ t, exec i s = .next t ∧ Failed s t .integrity 12 es rest ∧ SameSecret s t ∧ t.sp.phase = .idle)

/-- IS_PAGE_LOCKED and IS_REDIRECT_PAGE_LOCKED read the control page that holds the page's bit and answer 1 iff the bit is 0
(44_otp.md R230, R231, R233, R235, R240). -/
def Obligations.LockQueriesComplete : Prop :=
  ∀ (b l : Nat) (s : State) (pg : List Byte × List Byte) (es : List Event) (rest : Oracle), s.quiet = true →
    s.dev = .oracle (answering es rest) →
    ∀ (i : Instr) (q : Nat), Allowed i s →
      (i = .isPageLocked b ∧ (s.cfg.bank b).lockBank = some l ∧ q = (s.cfg.bank b).lockOffset + s.arg0.toNat ∨
        i = .isRedirectPageLocked b ∧ (s.cfg.bank b).rlockBank = some l ∧
          q = (s.cfg.bank b).rlockOffset + s.arg0.toNat) →
      PageServed s.link l (q / 8 / (s.cfg.bank l).pageLength) pg es →
      ∃ t, exec i s = .next t ∧ Completed s t es rest ∧ SameSecret s t ∧ SameData s t ∧ t.sp = s.sp ∧ t.selected ∧
        t.result = if (byteAt pg.1 (q / 8 % (s.cfg.bank l).pageLength)).getLsbD (q % 8) = false then 1 else 0

/-- REDIRECT_PAGE of a page whose redirect byte is not frozen writes the complement of the new page, verified, into the
redirect bank; a frozen one is PolicyError(redirlocked) with nothing staged (44_otp.md R236, R237). -/
def Obligations.RedirectPageCompletes : Prop :=
  ∀ (b d : Nat) (s : State) (e1 e2 : List Event) (rest : Oracle), s.quiet = true → Allowed (.redirectPage b) s →
    let k := s.cfg.bank b
    k.redirBank = some d →
    (LinkTested s.link k.rlockBank (k.rlockOffset + s.arg0.toNat) false e1 →
      ChunkServed s.link d ((s.cfg.bank d).base + (k.redirOffset + s.arg0.toNat)) [~~~ BitVec.ofNat 8 s.arg1.toNat] true e2 →
      s.dev = .oracle (answering (e1 ++ e2) rest) →
      ∃ t, exec (.redirectPage b) s = .next t ∧ Completed s t (e1 ++ e2) rest ∧ SameSecret s t ∧ SameData s t ∧ t.selected ∧
        t.sp.phase = .idle ∧ t.result = s.arg1) ∧
    (LinkTested s.link k.rlockBank (k.rlockOffset + s.arg0.toNat) true e1 → s.dev = .oracle (answering e1 rest) →
      ∃ t, exec (.redirectPage b) s = .next t ∧ Failed s t .policy 28 e1 rest ∧ t.sp = s.sp ∧ SameSecret s t ∧ t.selected)

/-- GET_REDIRECTED_PAGE reads the page of the redirect bank that holds the page's redirect byte and answers its complement, and
0xFFFFFFFF for the erased byte (44_otp.md R231, R236, R238). -/
def Obligations.GetRedirectedPageCompletes : Prop :=
  ∀ (b d : Nat) (s : State) (pg : List Byte × List Byte) (es : List Event) (rest : Oracle), s.quiet = true →
    Allowed (.getRedirectedPage b) s → (s.cfg.bank b).redirBank = some d →
    let i := (s.cfg.bank b).redirOffset + s.arg0.toNat
    PageServed s.link d (i / (s.cfg.bank d).pageLength) pg es → s.dev = .oracle (answering es rest) →
    let v := byteAt pg.1 (i % (s.cfg.bank d).pageLength)
    ∃ t, exec (.getRedirectedPage b) s = .next t ∧ Completed s t es rest ∧ SameSecret s t ∧ SameData s t ∧ t.sp = s.sp ∧
      t.selected ∧ t.result = if v = 0xFF then 0xFFFFFFFF else (~~~ v).setWidth 32

/-- INSTALL_SECRET: the secret of all its chunks is installed and bound (45_auth.md R260, R263 to R265). -/
def Obligations.InstallSecretCompletes : Prop :=
  ∀ (b slot : Nat) (s : State) (es : List Event) (rest : Oracle), s.quiet = true → Allowed (.installSecret b slot) s →
    let n := s.arg1.toNat
    let J := (n + 46) / 47
    let S := dataRun s s.arg2.toNat n ++ List.replicate (47 * J - n) 0x00
    InstallSecretServed s.link b slot s.arg0.toNat S J (s.wverify.getLsbD b) es → s.dev = .oracle (answering es rest) →
    ∃ t, exec (.installSecret b slot) s = .next t ∧ Completed s t es rest ∧ SameData s t ∧ t.selected ∧
      t.sp.phase = .idle ∧ t.auth = .secretBound ∧
      t.hostSecret = installedSecret s.cfg S J 0 (List.replicate 8 0x00) ∧ t.result = BitVec.ofNat 32 J

/-- BIND_SECRET, with a plain or an auto-formatted binding code: the new secret is the host's own computation of it
(45_auth.md R260, R263, R266). -/
def Obligations.BindSecretCompletes : Prop :=
  ∀ (b slot : Nat) (af : Bool) (s : State) (es : List Event) (rest : Oracle), s.quiet = true →
    Allowed (.bindSecret b slot af) s →
    let bd := dataRun s s.arg1.toNat 32
    let code := dataRun s (s.arg1.toNat + 32) (if af then 7 else 15)
    let sp15 := if af then Crypto.autoFormat s.cfg code s.arg0.toNat s.rom else code
    let sec := devSecret s.cfg s.hostSecret bd sp15
    BindSecretServed s.link b slot s.arg0.toNat bd sp15 sec (s.wverify.getLsbD b) es → s.dev = .oracle (answering es rest) →
    ∃ t, exec (.bindSecret b slot af) s = .next t ∧ Completed s t es rest ∧ SameData s t ∧ t.selected ∧
      t.sp.phase = .idle ∧ t.auth = .secretActive ∧ t.hostSecret = sec ∧ t.result = 0

/-- COMPUTE_NEXT_SECRET: the new secret is a function of the old one, the page read, the fragment and the ROM id
(45_auth.md R260, R263, R267, R270). -/
def Obligations.ComputeNextSecretCompletes : Prop :=
  ∀ (b : Nat) (s : State) (pg : List Byte × List Byte) (es : List Event) (rest : Oracle), s.quiet = true →
    Allowed (.computeNextSecret b) s →
    let sp15 := dataRun s s.arg1.toNat 8 ++ s.rom.take 7
    NextSecretServed s.link b s.arg0.toNat pg sp15 es → s.dev = .oracle (answering es rest) →
    ∃ t, exec (.computeNextSecret b) s = .next t ∧ Completed s t es rest ∧ SameData s t ∧ t.selected ∧
      t.sp.phase = .idle ∧ t.auth = .secretActive ∧ t.hostSecret = devSecret s.cfg s.hostSecret pg.1 sp15 ∧ t.result = 0

/-- AUTH_READ: the page, its ExtraInfo and the MAC are delivered if the MAC is the host's own computation of it; a MAC that
is not is AuthenticationError(macmismatch), with DATA and the secret state as before (45_auth.md R260, R268). That it also runs
with an empty challenge, under a CHAL_LEN of 0, is the model's choice (log entry 30). -/
def Obligations.AuthReadCompletesOrRejects : Prop :=
  ∀ (b : Nat) (s : State) (r : AuthPage) (es : List Event) (rest : Oracle), s.quiet = true → Allowed (.authRead b) s →
    let k := s.cfg.bank b
    let a := k.base + s.arg0.toNat * k.pageLength
    let chal := dataRun s s.arg1.toNat s.cfg.chalLen
    let want := Crypto.sha1 s.cfg
      (Crypto.msgAuthRead s.cfg s.hostSecret r.page r.extra chal s.rom (Crypto.selector s.cfg a b))
    AuthReadServed s.link b s.arg0.toNat chal r es → s.dev = .oracle (answering es rest) →
    (r.mac = want → ∃ t, exec (.authRead b) s = .next t ∧ Completed s t es rest ∧ SameSecret s t ∧
      t.selected ∧ t.sp.phase = .idle ∧ DataWritten s t s.arg1.toNat (r.page ++ r.extra ++ r.mac) ∧
      t.result = BitVec.ofNat 32 (52 + k.extraInfoLength)) ∧
    (r.mac ≠ want → ∃ t, exec (.authRead b) s = .next t ∧ Failed s t .authentication 34 es rest ∧ SameSecret s t ∧
      t.sp.phase = .idle)

/-! Refusals of the bus phase, and corrupted frames (42_paged_memory.md R170, R174, R181). -/

/-- A write that touches a locked page is PolicyError(locked), whichever of its pages is locked: the pages are tested in order, the
first whose lock bit reads 0 ends the command, nothing is staged, and the session stays verified. So it is for WRITE,
WRITE_PAGE_PACKET and SP_STAGE, and for the page writes of INSTALL_SECRET and BIND_SECRET (42_paged_memory.md R170, R174;
43_scratchpad.md R206; 44_otp.md R243; 60_exceptions.md R304.5). -/
def Obligations.LockedPagesAreNotWritten : Prop :=
  ∀ (b : Nat) (s : State) (es : List Event) (rest : Oracle), s.quiet = true → s.dev = .oracle (answering es rest) →
    let k := s.cfg.bank b
    let refused := fun (i : Instr) (p n : Nat) (a : AuthState) => LockFound s.link b p n es →
      ∃ t, exec i s = .next t ∧ Failed s t .policy 27 es rest ∧ t.sp = s.sp ∧ t.hostSecret = s.hostSecret ∧ t.auth = a ∧
        t.selected
    (Allowed (.write b) s → 1 ≤ s.arg1.toNat →
      refused (.write b) (s.arg0.toNat / k.pageLength) (pagesTouched k s.arg0.toNat s.arg1.toNat) s.auth) ∧
    (Allowed (.writePagePacket b) s → refused (.writePagePacket b) s.arg0.toNat 1 s.auth) ∧
    (Allowed (.spStage b) s → refused (.spStage b) (s.arg0.toNat / k.pageLength) 1 s.auth) ∧
    (∀ slot, Allowed (.installSecret b slot) s → s.cfg.wf = true →
      refused (.installSecret b slot) s.arg0.toNat 1 .noSecret) ∧
    (∀ slot af, Allowed (.bindSecret b slot af) s → s.cfg.wf = true →
      refused (.bindSecret b slot af) s.arg0.toNat 1 s.auth)

/-- A page frame that differs from a sealed one in exactly one bit is IntegrityError(frame): the page read raises it, and
READ_PAGE reports it with DATA as before and the session unverified (42_paged_memory.md R181; 41_crc.md R147). -/
def Obligations.CorruptedPageFramesAreRejected : Prop :=
  (∀ (b p : Nat) (cok : Bool) (s : State) (es : List Event) (rest : Oracle), s.quiet = true → s.cfg.wf = true →
    b < s.cfg.nbanks → PageCorrupted s.link b p cok es → s.dev = .oracle (answering es rest) →
    ∃ t, pageRead b p cok s = .error (.raised .bus .frame) t ∧ QuietFrame s t ∧ t.events = s.events ++ s.wire es) ∧
  (∀ (b : Nat) (c x : Bool) (s : State) (es : List Event) (rest : Oracle), s.quiet = true → s.cfg.wf = true →
    Allowed (.readPage b c x) s → (s.cfg.bank b).pageAutoCrc = true →
    PageCorrupted s.link b s.arg0.toNat (wholePageContinues s b s.arg0.toNat c) es →
    s.dev = .oracle (answering es rest) →
    ∃ t, exec (.readPage b c x) s = .next t ∧ Failed s t .integrity 2 es rest ∧ t.sp = s.sp ∧ SameSecret s t)

/-! The invariant. -/

/-- Every step keeps the invariant: the configuration well-formed, the core idle between steps, DATA in canonical form and
inside its 256 bytes, WVERIFY's hardwired bits 0, a secret of eight bytes and no half-installed one, the session flags equal,
a sound scratchpad record, a read stream of an existing bank, the device model canonical. -/
def Obligations.StepKeepsTheInvariant : Prop :=
  ∀ s t : State, s.Inv → step s = .next t → t.Inv

/-- The invariant holds at reset. -/
def Obligations.ResetHasTheInvariant : Prop := State.reset.Inv

/-! The reference device model (20_memory.md R104 to R115): a premise of claims about it, no claim about a real device. -/

/-- A copy-scratchpad of the reference device model is all-or-nothing: it stores the whole staged run, as old AND new on a
write-once bank, or changes no byte of device or secret memory; on a write-once bank no bit goes from 0 to 1 (20_memory.md
R95, R102, R103, R111; 43_scratchpad.md R209). The bank is the frame's, which is the model's choice where banks overlap (log entry
35). -/
def Obligations.RdmCopyIsAllOrNothing : Prop :=
  ∀ (r : Rdm) (c : Config) (frame : List Byte) (b : Nat), r.canonical = true →
    let ta := frameAddr frame
    let o := ta % c.spLen
    let n := (byteAt frame 3 &&& 0x1F).toNat + 1 - o
    let accepted := r.spValid = true ∧ ta = r.spTa.toNat ∧ byteAt frame 3 = r.spEs ∧
      ((c.bank b).authenticated = true → frame.drop 4 = r.expectedMac c b ta o n)
    inSecret c ta = false → frameBank c frame = some b →
      (accepted → (r.copySp c frame).sec = r.sec ∧ (r.copySp c frame).spValid = false ∧ (r.copySp c frame).mode = .alt ∧
        ∀ a, Memory.read 0xFF (r.copySp c frame).mem a =
          if ta ≤ a ∧ a < ta + n then
            if (c.bank b).writeOnce then Memory.read 0xFF r.mem a &&& byteAt (r.spRun c o n) (a - ta)
            else byteAt (r.spRun c o n) (a - ta)
          else Memory.read 0xFF r.mem a) ∧
      (¬ accepted → (r.copySp c frame).mem = r.mem ∧ (r.copySp c frame).sec = r.sec ∧ (r.copySp c frame).dsec = r.dsec) ∧
      ((c.bank b).writeOnce = true → ∀ a, Memory.read 0xFF (r.copySp c frame).mem a &&& Memory.read 0xFF r.mem a =
        Memory.read 0xFF (r.copySp c frame).mem a)
end

