-- ==== Sys2Proof/Laws/Bytes.lean ====
section
/-! SUPPORT. Little-endian words and bytes, bit by bit, and the bits of WVERIFY's mask. -/

namespace Sys2Proof.Machine

theorem leWord_cons_bit (b : Byte) (l : List Byte) (i : Nat) (hi : i < 32) :
    (leWord (b :: l)).getLsbD i = if i < 8 then b.getLsbD i else (leWord l).getLsbD (i - 8) := by
  show ((leWord l <<< 8) ||| b.setWidth 32).getLsbD i = _
  rw [BitVec.getLsbD_or, BitVec.getLsbD_shiftLeft, BitVec.getLsbD_setWidth]
  by_cases h : i < 8
  · simp [h, hi]
  · simp [h, hi, BitVec.getLsbD_of_ge b i (by omega)]

/-- Bit `i` of a little-endian word is bit `i mod 8` of byte `i / 8` (20_memory.md R80). -/
theorem leWord_bit (l : List Byte) (i : Nat) (hi : i < 32) : (leWord l).getLsbD i = (l.getD (i / 8) 0).getLsbD (i % 8) := by
  induction l generalizing i with
  | nil => simp [leWord]
  | cons b l ih =>
    rw [leWord_cons_bit b l i hi]
    split
    · rename_i h
      rw [Nat.div_eq_of_lt h, Nat.mod_eq_of_lt h]; rfl
    · rename_i h
      rw [ih _ (by omega), show i / 8 = (i - 8) / 8 + 1 by omega, show i % 8 = (i - 8) % 8 by omega]; rfl

/-- Byte `j` of a little-endian word. -/
theorem leWord_byte (l : List Byte) (j : Nat) (hj : j < 4) : (leWord l).extractLsb' (8 * j) 8 = l.getD j 0 := by
  apply BitVec.eq_of_getLsbD_eq
  intro i hi
  rw [BitVec.getLsbD_extractLsb', leWord_bit l _ (by omega), show (8 * j + i) / 8 = j by omega,
    show (8 * j + i) % 8 = i by omega]
  simp [hi]

theorem leBytes_getD (v : Word) (n i : Nat) (h : i < n) : (leBytes v n).getD i 0 = v.extractLsb' (8 * i) 8 := by
  unfold leBytes
  rw [List.getD_eq_getElem?_getD, List.getElem?_map, List.getElem?_range h]; rfl

@[simp] theorem leBytes_length (v : Word) (n : Nat) : (leBytes v n).length = n := by simp [leBytes]

theorem leWord_leBytes (v : Word) : leWord (leBytes v 4) = v := by
  apply BitVec.eq_of_getLsbD_eq
  intro i hi
  rw [leWord_bit _ i hi, leBytes_getD _ _ _ (by omega), BitVec.getLsbD_extractLsb',
    show 8 * (i / 8) + i % 8 = i by omega]
  simp [Nat.mod_lt i (show 0 < 8 by omega)]

/-- The word the host writes for a 32-bit table word. -/
theorem leWord_tableWord (n : Nat) (h : n < 2 ^ 32) : leWord (tableWordBytes 32 n) = BitVec.ofNat 32 n := by
  unfold tableWordBytes
  rw [Nat.mod_eq_of_lt h, leWord_leBytes]

theorem wverifyMask_bit (c : Config) (b : Nat) (hb : b < 32) : (wverifyMask c).getLsbD b = decide (b < c.nbanks) := by
  unfold wverifyMask
  rw [BitVec.getLsbD_ofNat]; simp [hb, Nat.testBit_two_pow_sub_one]

end Sys2Proof.Machine
end

