-- ==== Sys2Proof/Laws/Memory.lean ====
section
/-! SUPPORT. The laws of a byte memory: read after write, and every write keeps the canonical form. -/

namespace Sys2Proof.Machine

open Memory

theorem Memory.read?_put (m : Memory) (a : Nat) (v : Byte) (b : Nat) :
    Memory.read? (Memory.put m a v) b = if b = a then some v else Memory.read? m b := by
  induction m with
  | nil => simp [Memory.put, Memory.read?, eq_comm]
  | cons c m ih =>
    obtain ⟨k, w⟩ := c
    simp only [Memory.put]
    split
    · simp [Memory.read?, eq_comm]
    · split
      · subst_vars
        by_cases h : b = k
        · simp [Memory.read?, h]
        · simp [Memory.read?, h, Ne.symm h]
      · rw [Memory.read?, ih, Memory.read?]
        by_cases h : k = b
        · subst h
          rw [if_pos rfl, if_pos rfl, if_neg (by omega)]
        · rw [if_neg h, if_neg h]

/-- Whether `a` is above a bound, `none` bounding nothing. -/
theorem Memory.rising_weaken (low : Option Nat) (m : Memory) (h : Memory.rising low m = true) :
    Memory.rising none m = true := by
  cases m with
  | nil => rfl
  | cons c m => simp_all [Memory.rising]

theorem Memory.read?_of_le (l : Nat) (m : Memory) (h : Memory.rising (some l) m = true) (a : Nat) (ha : a ≤ l) :
    Memory.read? m a = none := by
  induction m generalizing l with
  | nil => rfl
  | cons c m ih =>
    simp only [Memory.rising, Bool.and_eq_true, decide_eq_true_eq] at h
    rw [Memory.read?, if_neg (by omega)]
    exact ih c.1 h.2 (by omega)

theorem Memory.read?_erase (low : Option Nat) (m : Memory) (hm : Memory.rising low m = true) (a b : Nat) :
    Memory.read? (Memory.erase m a) b = if b = a then none else Memory.read? m b := by
  induction m generalizing low with
  | nil => simp [Memory.erase, Memory.read?]
  | cons c m ih =>
    obtain ⟨k, w⟩ := c
    simp only [Memory.rising, Bool.and_eq_true] at hm
    simp only [Memory.erase]
    split
    · subst_vars
      by_cases h : b = k
      · subst h; simpa using Memory.read?_of_le b m hm.2 b (Nat.le_refl b)
      · simp [Memory.read?, h, Ne.symm h]
    · rename_i hka
      rw [Memory.read?, ih _ hm.2, Memory.read?]
      by_cases h : k = b
      · subst h; simp [hka]
      · simp [h]

theorem Memory.rising_put (low : Option Nat) (m : Memory) (a : Nat) (v : Byte) (hm : Memory.rising low m = true)
    (ha : ∀ l, low = some l → l < a) : Memory.rising low (Memory.put m a v) = true := by
  induction m generalizing low with
  | nil => cases low <;> simp_all [Memory.put, Memory.rising]
  | cons c m ih =>
    obtain ⟨k, w⟩ := c
    simp only [Memory.rising, Bool.and_eq_true] at hm
    simp only [Memory.put]
    split
    · cases low <;> simp_all [Memory.rising]
    · split
      · subst_vars; simp_all [Memory.rising]
      · simp only [Memory.rising, Bool.and_eq_true]
        exact ⟨hm.1, ih _ hm.2 (by intro l hl; cases hl; omega)⟩

theorem Memory.rising_erase (low : Option Nat) (m : Memory) (a : Nat) (hm : Memory.rising low m = true) :
    Memory.rising low (Memory.erase m a) = true := by
  induction m generalizing low with
  | nil => simpa [Memory.erase] using hm
  | cons c m ih =>
    obtain ⟨k, w⟩ := c
    simp only [Memory.rising, Bool.and_eq_true] at hm
    simp only [Memory.erase]
    split
    · cases m with
      | nil => simp [Memory.rising]
      | cons d m =>
        cases low <;> simp_all [Memory.rising]
        omega
    · simp only [Memory.rising, Bool.and_eq_true]
      exact ⟨hm.1, ih _ hm.2⟩

theorem Memory.mem_put (m : Memory) (a : Nat) (v : Byte) (c : Host.Cell) (h : c ∈ Memory.put m a v) :
    c = (a, v) ∨ c ∈ m := by
  induction m with
  | nil => simpa [Memory.put] using h
  | cons d m ih =>
    obtain ⟨k, w⟩ := d
    simp only [Memory.put] at h
    split at h
    · simpa using h
    · split at h
      · rcases List.mem_cons.1 h with h | h
        · exact .inl h
        · exact .inr (List.mem_cons_of_mem _ h)
      · rcases List.mem_cons.1 h with h | h
        · exact .inr (h ▸ List.mem_cons_self)
        · rcases ih h with h | h
          · exact .inl h
          · exact .inr (List.mem_cons_of_mem _ h)

theorem Memory.mem_erase (m : Memory) (a : Nat) (c : Host.Cell) (h : c ∈ Memory.erase m a) : c ∈ m := by
  induction m with
  | nil => simp [Memory.erase] at h
  | cons d m ih =>
    simp only [Memory.erase] at h
    split at h
    · exact List.mem_cons_of_mem _ h
    · rcases List.mem_cons.1 h with h | h
      · exact h ▸ List.mem_cons_self
      · exact List.mem_cons_of_mem _ (ih h)

theorem Memory.mem_write (d : Option Byte) (m : Memory) (a : Nat) (v : Byte) (c : Host.Cell)
    (h : c ∈ Memory.write d m a v) : c = (a, v) ∨ c ∈ m := by
  unfold Memory.write at h
  split at h
  · exact .inr (Memory.mem_erase _ _ _ h)
  · exact Memory.mem_put _ _ _ _ h

/-- A write keeps the canonical form. -/
theorem Memory.wf_write (d : Option Byte) (m : Memory) (a : Nat) (v : Byte) (hm : Memory.wf d m = true) :
    Memory.wf d (Memory.write d m a v) = true := by
  simp only [Memory.wf, Bool.and_eq_true, List.all_eq_true] at hm ⊢
  unfold Memory.write
  split
  · exact ⟨Memory.rising_erase _ _ _ hm.1, fun c hc => hm.2 c (Memory.mem_erase _ _ _ hc)⟩
  · rename_i hd
    refine ⟨Memory.rising_put _ _ _ _ hm.1 (by simp), fun c hc => ?_⟩
    rcases Memory.mem_put _ _ _ _ hc with rfl | h
    · simpa using hd
    · exact hm.2 c h

/-- A run of writes keeps the canonical form. -/
theorem Memory.wf_writeRun (d : Option Byte) (s : List Byte) (m : Memory) (a : Nat) (hm : Memory.wf d m = true) :
    Memory.wf d (Memory.writeRun d m a s) = true := by
  induction s generalizing m a with
  | nil => exact hm
  | cons v s ih => exact ih _ _ (Memory.wf_write d m a v hm)

/-- The addresses a run of writes lists lie in the run or were listed before. -/
theorem Memory.mem_writeRun (d : Option Byte) (s : List Byte) (m : Memory) (a : Nat) (c : Host.Cell)
    (h : c ∈ Memory.writeRun d m a s) : (a ≤ c.1 ∧ c.1 < a + s.length) ∨ c ∈ m := by
  induction s generalizing m a with
  | nil => exact .inr h
  | cons v s ih =>
    rcases ih _ _ h with h | h
    · exact .inl ⟨by omega, by simp; omega⟩
    · rcases Memory.mem_write d m a v c h with rfl | h
      · exact .inl ⟨Nat.le_refl _, by simp⟩
      · exact .inr h

/-- Read after write, by the default a memory's unlisted bytes have. -/
theorem Memory.read_write (d : Byte) (m : Memory) (a : Nat) (v : Byte) (b : Nat) (hm : Memory.rising none m = true) :
    Memory.read d (Memory.write (some d) m a v) b = if b = a then v else Memory.read d m b := by
  unfold Memory.read Memory.write
  split
  · rename_i h
    cases h
    rw [Memory.read?_erase none m hm]
    split <;> simp
  · rw [Memory.read?_put]
    split <;> simp

theorem Memory.rising_write (d : Option Byte) (m : Memory) (a : Nat) (v : Byte) (hm : Memory.rising none m = true) :
    Memory.rising none (Memory.write d m a v) = true := by
  unfold Memory.write
  split
  · exact Memory.rising_erase _ _ _ hm
  · exact Memory.rising_put _ _ _ _ hm (by simp)

/-- Read after a run of writes. -/
theorem Memory.read_writeRun (d : Byte) (s : List Byte) (m : Memory) (a b : Nat) (hm : Memory.rising none m = true) :
    Memory.read d (Memory.writeRun (some d) m a s) b =
      if a ≤ b ∧ b < a + s.length then s.getD (b - a) 0 else Memory.read d m b := by
  induction s generalizing m a with
  | nil => simp [Memory.writeRun]
  | cons v s ih =>
    rw [Memory.writeRun, ih _ _ (Memory.rising_write _ _ _ _ hm), Memory.read_write _ _ _ _ _ hm]
    by_cases h1 : b = a
    · subst h1; rw [if_neg (by omega), if_pos rfl, if_pos (by simp)]; simp
    · by_cases h2 : a ≤ b ∧ b < a + (v :: s).length
      · have : b - a = (b - (a + 1)) + 1 := by omega
        rw [if_pos (by simp at h2; omega), if_pos h2, this]; simp
      · rw [if_neg (by simp at h2; omega), if_neg h1, if_neg h2]

/-- Read after a run of writes that lists every byte (DATA). -/
theorem Memory.read?_writeRun (s : List Byte) (m : Memory) (a b : Nat) :
    Memory.read? (Memory.writeRun none m a s) b =
      if a ≤ b ∧ b < a + s.length then some (s.getD (b - a) 0) else Memory.read? m b := by
  induction s generalizing m a with
  | nil => simp [Memory.writeRun]
  | cons v s ih =>
    rw [Memory.writeRun, ih]
    simp only [Memory.write, reduceCtorEq, if_false, Memory.read?_put]
    by_cases h1 : b = a
    · subst h1; rw [if_neg (by omega), if_pos rfl, if_pos (by simp)]; simp
    · by_cases h2 : a ≤ b ∧ b < a + (v :: s).length
      · have : b - a = (b - (a + 1)) + 1 := by omega
        rw [if_pos (by simp at h2; omega), if_pos h2, this]; simp
      · rw [if_neg (by simp at h2; omega), if_neg h1, if_neg h2]

end Sys2Proof.Machine
end

