-- ==== Sys2Proof/Laws/State.lean ====
section
/-! SUPPORT. One lemma per field per named update of State, so that no proof unfolds a record update. -/

namespace Sys2Proof.Machine

/-! `start`: Start(w) (60_exceptions.md R300). -/

@[simp] theorem start_cfg (s : State) : (start s).cfg = s.cfg := rfl
@[simp] theorem start_busy (s : State) : (start s).busy = true := rfl
@[simp] theorem start_done (s : State) : (start s).done = false := rfl
@[simp] theorem start_err (s : State) : (start s).err = .none := rfl
@[simp] theorem start_result (s : State) : (start s).result = s.result := rfl
@[simp] theorem start_arg0 (s : State) : (start s).arg0 = s.arg0 := rfl
@[simp] theorem start_arg1 (s : State) : (start s).arg1 = s.arg1 := rfl
@[simp] theorem start_arg2 (s : State) : (start s).arg2 = s.arg2 := rfl
@[simp] theorem start_arg3 (s : State) : (start s).arg3 = s.arg3 := rfl
@[simp] theorem start_crc8 (s : State) : (start s).crc8 = s.crc8 := rfl
@[simp] theorem start_crc16 (s : State) : (start s).crc16 = s.crc16 := rfl
@[simp] theorem start_wverify (s : State) : (start s).wverify = s.wverify := rfl
@[simp] theorem start_romLo (s : State) : (start s).romLo = s.romLo := rfl
@[simp] theorem start_romHi (s : State) : (start s).romHi = s.romHi := rfl
@[simp] theorem start_romValid (s : State) : (start s).romValid = s.romValid := rfl
@[simp] theorem start_speedVerified (s : State) : (start s).speedVerified = s.speedVerified := rfl
@[simp] theorem start_resumeEligible (s : State) : (start s).resumeEligible = s.resumeEligible := rfl
@[simp] theorem start_cont (s : State) : (start s).cont = s.cont := rfl
@[simp] theorem start_sp (s : State) : (start s).sp = s.sp := rfl
@[simp] theorem start_auth (s : State) : (start s).auth = s.auth := rfl
@[simp] theorem start_hostSecret (s : State) : (start s).hostSecret = s.hostSecret := rfl
@[simp] theorem start_data (s : State) : (start s).data = s.data := rfl
@[simp] theorem start_issued (s : State) : (start s).issued = 0 := rfl
@[simp] theorem start_dev (s : State) : (start s).dev = s.dev := rfl
@[simp] theorem start_events (s : State) : (start s).events = s.events := rfl
@[simp] theorem start_host (s : State) : (start s).host = s.host := rfl
@[simp] theorem start_answers (s : State) : (start s).answers = s.answers := rfl
@[simp] theorem start_draws (s : State) : (start s).draws = s.draws := rfl

/-! `completeOk`: normal completion (60_exceptions.md R303). -/

@[simp] theorem completeOk_cfg (s : State) : (completeOk s).cfg = s.cfg := rfl
@[simp] theorem completeOk_busy (s : State) : (completeOk s).busy = false := rfl
@[simp] theorem completeOk_done (s : State) : (completeOk s).done = true := rfl
@[simp] theorem completeOk_err (s : State) : (completeOk s).err = .none := rfl
@[simp] theorem completeOk_result (s : State) : (completeOk s).result = s.result := rfl
@[simp] theorem completeOk_arg0 (s : State) : (completeOk s).arg0 = s.arg0 := rfl
@[simp] theorem completeOk_arg1 (s : State) : (completeOk s).arg1 = s.arg1 := rfl
@[simp] theorem completeOk_arg2 (s : State) : (completeOk s).arg2 = s.arg2 := rfl
@[simp] theorem completeOk_arg3 (s : State) : (completeOk s).arg3 = s.arg3 := rfl
@[simp] theorem completeOk_crc8 (s : State) : (completeOk s).crc8 = s.crc8 := rfl
@[simp] theorem completeOk_crc16 (s : State) : (completeOk s).crc16 = s.crc16 := rfl
@[simp] theorem completeOk_wverify (s : State) : (completeOk s).wverify = s.wverify := rfl
@[simp] theorem completeOk_romLo (s : State) : (completeOk s).romLo = s.romLo := rfl
@[simp] theorem completeOk_romHi (s : State) : (completeOk s).romHi = s.romHi := rfl
@[simp] theorem completeOk_romValid (s : State) : (completeOk s).romValid = s.romValid := rfl
@[simp] theorem completeOk_speedVerified (s : State) : (completeOk s).speedVerified = s.speedVerified := rfl
@[simp] theorem completeOk_resumeEligible (s : State) : (completeOk s).resumeEligible = s.resumeEligible := rfl
@[simp] theorem completeOk_cont (s : State) : (completeOk s).cont = s.cont := rfl
@[simp] theorem completeOk_sp (s : State) : (completeOk s).sp = s.sp := rfl
@[simp] theorem completeOk_auth (s : State) : (completeOk s).auth = s.auth := rfl
@[simp] theorem completeOk_hostSecret (s : State) : (completeOk s).hostSecret = s.hostSecret := rfl
@[simp] theorem completeOk_data (s : State) : (completeOk s).data = s.data := rfl
@[simp] theorem completeOk_issued (s : State) : (completeOk s).issued = s.issued := rfl
@[simp] theorem completeOk_dev (s : State) : (completeOk s).dev = s.dev := rfl
@[simp] theorem completeOk_events (s : State) : (completeOk s).events = s.events := rfl
@[simp] theorem completeOk_host (s : State) : (completeOk s).host = s.host := rfl
@[simp] theorem completeOk_answers (s : State) : (completeOk s).answers = s.answers := rfl
@[simp] theorem completeOk_draws (s : State) : (completeOk s).draws = s.draws := rfl

/-! `forceVerify`: the session marked unverified (60_exceptions.md R304). -/

@[simp] theorem forceVerify_cfg (s : State) : (forceVerify s).cfg = s.cfg := rfl
@[simp] theorem forceVerify_busy (s : State) : (forceVerify s).busy = s.busy := rfl
@[simp] theorem forceVerify_done (s : State) : (forceVerify s).done = s.done := rfl
@[simp] theorem forceVerify_err (s : State) : (forceVerify s).err = s.err := rfl
@[simp] theorem forceVerify_result (s : State) : (forceVerify s).result = s.result := rfl
@[simp] theorem forceVerify_arg0 (s : State) : (forceVerify s).arg0 = s.arg0 := rfl
@[simp] theorem forceVerify_arg1 (s : State) : (forceVerify s).arg1 = s.arg1 := rfl
@[simp] theorem forceVerify_arg2 (s : State) : (forceVerify s).arg2 = s.arg2 := rfl
@[simp] theorem forceVerify_arg3 (s : State) : (forceVerify s).arg3 = s.arg3 := rfl
@[simp] theorem forceVerify_crc8 (s : State) : (forceVerify s).crc8 = s.crc8 := rfl
@[simp] theorem forceVerify_crc16 (s : State) : (forceVerify s).crc16 = s.crc16 := rfl
@[simp] theorem forceVerify_wverify (s : State) : (forceVerify s).wverify = s.wverify := rfl
@[simp] theorem forceVerify_romLo (s : State) : (forceVerify s).romLo = s.romLo := rfl
@[simp] theorem forceVerify_romHi (s : State) : (forceVerify s).romHi = s.romHi := rfl
@[simp] theorem forceVerify_romValid (s : State) : (forceVerify s).romValid = s.romValid := rfl
@[simp] theorem forceVerify_speedVerified (s : State) : (forceVerify s).speedVerified = false := rfl
@[simp] theorem forceVerify_resumeEligible (s : State) : (forceVerify s).resumeEligible = false := rfl
@[simp] theorem forceVerify_cont (s : State) : (forceVerify s).cont = s.cont := rfl
@[simp] theorem forceVerify_sp (s : State) : (forceVerify s).sp = s.sp := rfl
@[simp] theorem forceVerify_auth (s : State) : (forceVerify s).auth = s.auth := rfl
@[simp] theorem forceVerify_hostSecret (s : State) : (forceVerify s).hostSecret = s.hostSecret := rfl
@[simp] theorem forceVerify_data (s : State) : (forceVerify s).data = s.data := rfl
@[simp] theorem forceVerify_issued (s : State) : (forceVerify s).issued = s.issued := rfl
@[simp] theorem forceVerify_dev (s : State) : (forceVerify s).dev = s.dev := rfl
@[simp] theorem forceVerify_events (s : State) : (forceVerify s).events = s.events := rfl
@[simp] theorem forceVerify_host (s : State) : (forceVerify s).host = s.host := rfl
@[simp] theorem forceVerify_answers (s : State) : (forceVerify s).answers = s.answers := rfl
@[simp] theorem forceVerify_draws (s : State) : (forceVerify s).draws = s.draws := rfl

/-! `putData`: MemWrite (00_scope.md R14). -/

@[simp] theorem putData_cfg (s : State) (a : Nat) (bs : List Byte) : (s.putData a bs).cfg = s.cfg := rfl
@[simp] theorem putData_busy (s : State) (a : Nat) (bs : List Byte) : (s.putData a bs).busy = s.busy := rfl
@[simp] theorem putData_done (s : State) (a : Nat) (bs : List Byte) : (s.putData a bs).done = s.done := rfl
@[simp] theorem putData_err (s : State) (a : Nat) (bs : List Byte) : (s.putData a bs).err = s.err := rfl
@[simp] theorem putData_result (s : State) (a : Nat) (bs : List Byte) : (s.putData a bs).result = s.result := rfl
@[simp] theorem putData_arg0 (s : State) (a : Nat) (bs : List Byte) : (s.putData a bs).arg0 = s.arg0 := rfl
@[simp] theorem putData_arg1 (s : State) (a : Nat) (bs : List Byte) : (s.putData a bs).arg1 = s.arg1 := rfl
@[simp] theorem putData_arg2 (s : State) (a : Nat) (bs : List Byte) : (s.putData a bs).arg2 = s.arg2 := rfl
@[simp] theorem putData_arg3 (s : State) (a : Nat) (bs : List Byte) : (s.putData a bs).arg3 = s.arg3 := rfl
@[simp] theorem putData_crc8 (s : State) (a : Nat) (bs : List Byte) : (s.putData a bs).crc8 = s.crc8 := rfl
@[simp] theorem putData_crc16 (s : State) (a : Nat) (bs : List Byte) : (s.putData a bs).crc16 = s.crc16 := rfl
@[simp] theorem putData_wverify (s : State) (a : Nat) (bs : List Byte) : (s.putData a bs).wverify = s.wverify := rfl
@[simp] theorem putData_romLo (s : State) (a : Nat) (bs : List Byte) : (s.putData a bs).romLo = s.romLo := rfl
@[simp] theorem putData_romHi (s : State) (a : Nat) (bs : List Byte) : (s.putData a bs).romHi = s.romHi := rfl
@[simp] theorem putData_romValid (s : State) (a : Nat) (bs : List Byte) : (s.putData a bs).romValid = s.romValid := rfl
@[simp] theorem putData_speedVerified (s : State) (a : Nat) (bs : List Byte) : (s.putData a bs).speedVerified = s.speedVerified := rfl
@[simp] theorem putData_resumeEligible (s : State) (a : Nat) (bs : List Byte) : (s.putData a bs).resumeEligible = s.resumeEligible := rfl
@[simp] theorem putData_cont (s : State) (a : Nat) (bs : List Byte) : (s.putData a bs).cont = s.cont := rfl
@[simp] theorem putData_sp (s : State) (a : Nat) (bs : List Byte) : (s.putData a bs).sp = s.sp := rfl
@[simp] theorem putData_auth (s : State) (a : Nat) (bs : List Byte) : (s.putData a bs).auth = s.auth := rfl
@[simp] theorem putData_hostSecret (s : State) (a : Nat) (bs : List Byte) : (s.putData a bs).hostSecret = s.hostSecret := rfl
@[simp] theorem putData_data (s : State) (a : Nat) (bs : List Byte) : (s.putData a bs).data = Memory.writeRun none s.data a bs := rfl
@[simp] theorem putData_issued (s : State) (a : Nat) (bs : List Byte) : (s.putData a bs).issued = s.issued := rfl
@[simp] theorem putData_dev (s : State) (a : Nat) (bs : List Byte) : (s.putData a bs).dev = s.dev := rfl
@[simp] theorem putData_events (s : State) (a : Nat) (bs : List Byte) : (s.putData a bs).events = s.events := rfl
@[simp] theorem putData_host (s : State) (a : Nat) (bs : List Byte) : (s.putData a bs).host = s.host := rfl
@[simp] theorem putData_answers (s : State) (a : Nat) (bs : List Byte) : (s.putData a bs).answers = s.answers := rfl
@[simp] theorem putData_draws (s : State) (a : Nat) (bs : List Byte) : (s.putData a bs).draws = s.draws := rfl

/-! `answer`: the answer to a host read. -/

@[simp] theorem answer_cfg (s : State) (v : Word) : (s.answer v).cfg = s.cfg := rfl
@[simp] theorem answer_busy (s : State) (v : Word) : (s.answer v).busy = s.busy := rfl
@[simp] theorem answer_done (s : State) (v : Word) : (s.answer v).done = s.done := rfl
@[simp] theorem answer_err (s : State) (v : Word) : (s.answer v).err = s.err := rfl
@[simp] theorem answer_result (s : State) (v : Word) : (s.answer v).result = s.result := rfl
@[simp] theorem answer_arg0 (s : State) (v : Word) : (s.answer v).arg0 = s.arg0 := rfl
@[simp] theorem answer_arg1 (s : State) (v : Word) : (s.answer v).arg1 = s.arg1 := rfl
@[simp] theorem answer_arg2 (s : State) (v : Word) : (s.answer v).arg2 = s.arg2 := rfl
@[simp] theorem answer_arg3 (s : State) (v : Word) : (s.answer v).arg3 = s.arg3 := rfl
@[simp] theorem answer_crc8 (s : State) (v : Word) : (s.answer v).crc8 = s.crc8 := rfl
@[simp] theorem answer_crc16 (s : State) (v : Word) : (s.answer v).crc16 = s.crc16 := rfl
@[simp] theorem answer_wverify (s : State) (v : Word) : (s.answer v).wverify = s.wverify := rfl
@[simp] theorem answer_romLo (s : State) (v : Word) : (s.answer v).romLo = s.romLo := rfl
@[simp] theorem answer_romHi (s : State) (v : Word) : (s.answer v).romHi = s.romHi := rfl
@[simp] theorem answer_romValid (s : State) (v : Word) : (s.answer v).romValid = s.romValid := rfl
@[simp] theorem answer_speedVerified (s : State) (v : Word) : (s.answer v).speedVerified = s.speedVerified := rfl
@[simp] theorem answer_resumeEligible (s : State) (v : Word) : (s.answer v).resumeEligible = s.resumeEligible := rfl
@[simp] theorem answer_cont (s : State) (v : Word) : (s.answer v).cont = s.cont := rfl
@[simp] theorem answer_sp (s : State) (v : Word) : (s.answer v).sp = s.sp := rfl
@[simp] theorem answer_auth (s : State) (v : Word) : (s.answer v).auth = s.auth := rfl
@[simp] theorem answer_hostSecret (s : State) (v : Word) : (s.answer v).hostSecret = s.hostSecret := rfl
@[simp] theorem answer_data (s : State) (v : Word) : (s.answer v).data = s.data := rfl
@[simp] theorem answer_issued (s : State) (v : Word) : (s.answer v).issued = s.issued := rfl
@[simp] theorem answer_dev (s : State) (v : Word) : (s.answer v).dev = s.dev := rfl
@[simp] theorem answer_events (s : State) (v : Word) : (s.answer v).events = s.events := rfl
@[simp] theorem answer_host (s : State) (v : Word) : (s.answer v).host = s.host := rfl
@[simp] theorem answer_answers (s : State) (v : Word) : (s.answer v).answers = s.answers ++ [v] := rfl
@[simp] theorem answer_draws (s : State) (v : Word) : (s.answer v).draws = s.draws := rfl

/-! `answerFree`: a free answer to a host read. -/

@[simp] theorem answerFree_cfg (s : State) (w : Width) : (s.answerFree w).cfg = s.cfg := rfl
@[simp] theorem answerFree_busy (s : State) (w : Width) : (s.answerFree w).busy = s.busy := rfl
@[simp] theorem answerFree_done (s : State) (w : Width) : (s.answerFree w).done = s.done := rfl
@[simp] theorem answerFree_err (s : State) (w : Width) : (s.answerFree w).err = s.err := rfl
@[simp] theorem answerFree_result (s : State) (w : Width) : (s.answerFree w).result = s.result := rfl
@[simp] theorem answerFree_arg0 (s : State) (w : Width) : (s.answerFree w).arg0 = s.arg0 := rfl
@[simp] theorem answerFree_arg1 (s : State) (w : Width) : (s.answerFree w).arg1 = s.arg1 := rfl
@[simp] theorem answerFree_arg2 (s : State) (w : Width) : (s.answerFree w).arg2 = s.arg2 := rfl
@[simp] theorem answerFree_arg3 (s : State) (w : Width) : (s.answerFree w).arg3 = s.arg3 := rfl
@[simp] theorem answerFree_crc8 (s : State) (w : Width) : (s.answerFree w).crc8 = s.crc8 := rfl
@[simp] theorem answerFree_crc16 (s : State) (w : Width) : (s.answerFree w).crc16 = s.crc16 := rfl
@[simp] theorem answerFree_wverify (s : State) (w : Width) : (s.answerFree w).wverify = s.wverify := rfl
@[simp] theorem answerFree_romLo (s : State) (w : Width) : (s.answerFree w).romLo = s.romLo := rfl
@[simp] theorem answerFree_romHi (s : State) (w : Width) : (s.answerFree w).romHi = s.romHi := rfl
@[simp] theorem answerFree_romValid (s : State) (w : Width) : (s.answerFree w).romValid = s.romValid := rfl
@[simp] theorem answerFree_speedVerified (s : State) (w : Width) : (s.answerFree w).speedVerified = s.speedVerified := rfl
@[simp] theorem answerFree_resumeEligible (s : State) (w : Width) : (s.answerFree w).resumeEligible = s.resumeEligible := rfl
@[simp] theorem answerFree_cont (s : State) (w : Width) : (s.answerFree w).cont = s.cont := rfl
@[simp] theorem answerFree_sp (s : State) (w : Width) : (s.answerFree w).sp = s.sp := rfl
@[simp] theorem answerFree_auth (s : State) (w : Width) : (s.answerFree w).auth = s.auth := rfl
@[simp] theorem answerFree_hostSecret (s : State) (w : Width) : (s.answerFree w).hostSecret = s.hostSecret := rfl
@[simp] theorem answerFree_data (s : State) (w : Width) : (s.answerFree w).data = s.data := rfl
@[simp] theorem answerFree_issued (s : State) (w : Width) : (s.answerFree w).issued = s.issued := rfl
@[simp] theorem answerFree_dev (s : State) (w : Width) : (s.answerFree w).dev = s.dev := rfl
@[simp] theorem answerFree_events (s : State) (w : Width) : (s.answerFree w).events = s.events := rfl
@[simp] theorem answerFree_host (s : State) (w : Width) : (s.answerFree w).host = s.host := rfl
@[simp] theorem answerFree_answers (s : State) (w : Width) : (s.answerFree w).answers = s.answers ++ [leWord (leBytes (Config.freeWord s.draws) w.bytes)] := rfl
@[simp] theorem answerFree_draws (s : State) (w : Width) : (s.answerFree w).draws = s.draws + 1 := rfl

/-! `deviceChange`: the device-change effect (70_reset_and_hazards.md R333). -/

@[simp] theorem deviceChange_cfg (s : State) : (deviceChange s).cfg = s.cfg := rfl
@[simp] theorem deviceChange_busy (s : State) : (deviceChange s).busy = s.busy := rfl
@[simp] theorem deviceChange_done (s : State) : (deviceChange s).done = s.done := rfl
@[simp] theorem deviceChange_err (s : State) : (deviceChange s).err = s.err := rfl
@[simp] theorem deviceChange_result (s : State) : (deviceChange s).result = s.result := rfl
@[simp] theorem deviceChange_arg0 (s : State) : (deviceChange s).arg0 = s.arg0 := rfl
@[simp] theorem deviceChange_arg1 (s : State) : (deviceChange s).arg1 = s.arg1 := rfl
@[simp] theorem deviceChange_arg2 (s : State) : (deviceChange s).arg2 = s.arg2 := rfl
@[simp] theorem deviceChange_arg3 (s : State) : (deviceChange s).arg3 = s.arg3 := rfl
@[simp] theorem deviceChange_crc8 (s : State) : (deviceChange s).crc8 = s.crc8 := rfl
@[simp] theorem deviceChange_crc16 (s : State) : (deviceChange s).crc16 = s.crc16 := rfl
@[simp] theorem deviceChange_wverify (s : State) : (deviceChange s).wverify = s.wverify := rfl
@[simp] theorem deviceChange_romLo (s : State) : (deviceChange s).romLo = s.romLo := rfl
@[simp] theorem deviceChange_romHi (s : State) : (deviceChange s).romHi = s.romHi := rfl
@[simp] theorem deviceChange_romValid (s : State) : (deviceChange s).romValid = s.romValid := rfl
@[simp] theorem deviceChange_speedVerified (s : State) : (deviceChange s).speedVerified = false := rfl
@[simp] theorem deviceChange_resumeEligible (s : State) : (deviceChange s).resumeEligible = false := rfl
@[simp] theorem deviceChange_cont (s : State) : (deviceChange s).cont = { s.cont with valid := false } := rfl
@[simp] theorem deviceChange_sp (s : State) : (deviceChange s).sp = { s.sp with phase := .idle } := rfl
@[simp] theorem deviceChange_auth (s : State) : (deviceChange s).auth = .noSecret := rfl
@[simp] theorem deviceChange_hostSecret (s : State) : (deviceChange s).hostSecret = s.hostSecret := rfl
@[simp] theorem deviceChange_data (s : State) : (deviceChange s).data = s.data := rfl
@[simp] theorem deviceChange_issued (s : State) : (deviceChange s).issued = s.issued := rfl
@[simp] theorem deviceChange_dev (s : State) : (deviceChange s).dev = s.dev := rfl
@[simp] theorem deviceChange_events (s : State) : (deviceChange s).events = s.events := rfl
@[simp] theorem deviceChange_host (s : State) : (deviceChange s).host = s.host := rfl
@[simp] theorem deviceChange_answers (s : State) : (deviceChange s).answers = s.answers := rfl
@[simp] theorem deviceChange_draws (s : State) : (deviceChange s).draws = s.draws := rfl

/-! `dropSecret`: the secret dropped (45_auth.md R260). -/

@[simp] theorem dropSecret_cfg (s : State) : (dropSecret s).cfg = s.cfg := rfl
@[simp] theorem dropSecret_busy (s : State) : (dropSecret s).busy = s.busy := rfl
@[simp] theorem dropSecret_done (s : State) : (dropSecret s).done = s.done := rfl
@[simp] theorem dropSecret_err (s : State) : (dropSecret s).err = s.err := rfl
@[simp] theorem dropSecret_result (s : State) : (dropSecret s).result = s.result := rfl
@[simp] theorem dropSecret_arg0 (s : State) : (dropSecret s).arg0 = s.arg0 := rfl
@[simp] theorem dropSecret_arg1 (s : State) : (dropSecret s).arg1 = s.arg1 := rfl
@[simp] theorem dropSecret_arg2 (s : State) : (dropSecret s).arg2 = s.arg2 := rfl
@[simp] theorem dropSecret_arg3 (s : State) : (dropSecret s).arg3 = s.arg3 := rfl
@[simp] theorem dropSecret_crc8 (s : State) : (dropSecret s).crc8 = s.crc8 := rfl
@[simp] theorem dropSecret_crc16 (s : State) : (dropSecret s).crc16 = s.crc16 := rfl
@[simp] theorem dropSecret_wverify (s : State) : (dropSecret s).wverify = s.wverify := rfl
@[simp] theorem dropSecret_romLo (s : State) : (dropSecret s).romLo = s.romLo := rfl
@[simp] theorem dropSecret_romHi (s : State) : (dropSecret s).romHi = s.romHi := rfl
@[simp] theorem dropSecret_romValid (s : State) : (dropSecret s).romValid = s.romValid := rfl
@[simp] theorem dropSecret_speedVerified (s : State) : (dropSecret s).speedVerified = s.speedVerified := rfl
@[simp] theorem dropSecret_resumeEligible (s : State) : (dropSecret s).resumeEligible = s.resumeEligible := rfl
@[simp] theorem dropSecret_cont (s : State) : (dropSecret s).cont = s.cont := rfl
@[simp] theorem dropSecret_sp (s : State) : (dropSecret s).sp = s.sp := rfl
@[simp] theorem dropSecret_auth (s : State) : (dropSecret s).auth = .noSecret := rfl
@[simp] theorem dropSecret_hostSecret (s : State) : (dropSecret s).hostSecret = s.hostSecret := rfl
@[simp] theorem dropSecret_data (s : State) : (dropSecret s).data = s.data := rfl
@[simp] theorem dropSecret_issued (s : State) : (dropSecret s).issued = s.issued := rfl
@[simp] theorem dropSecret_dev (s : State) : (dropSecret s).dev = s.dev := rfl
@[simp] theorem dropSecret_events (s : State) : (dropSecret s).events = s.events := rfl
@[simp] theorem dropSecret_host (s : State) : (dropSecret s).host = s.host := rfl
@[simp] theorem dropSecret_answers (s : State) : (dropSecret s).answers = s.answers := rfl
@[simp] theorem dropSecret_draws (s : State) : (dropSecret s).draws = s.draws := rfl

/-! `withFetchWord`: a command word placed as the next host access. -/

@[simp] theorem withFetchWord_cfg (s : State) (nbits w : Nat) : (s.withFetchWord nbits w).cfg = s.cfg := rfl
@[simp] theorem withFetchWord_busy (s : State) (nbits w : Nat) : (s.withFetchWord nbits w).busy = false := rfl
@[simp] theorem withFetchWord_done (s : State) (nbits w : Nat) : (s.withFetchWord nbits w).done = s.done := rfl
@[simp] theorem withFetchWord_err (s : State) (nbits w : Nat) : (s.withFetchWord nbits w).err = s.err := rfl
@[simp] theorem withFetchWord_result (s : State) (nbits w : Nat) : (s.withFetchWord nbits w).result = s.result := rfl
@[simp] theorem withFetchWord_arg0 (s : State) (nbits w : Nat) : (s.withFetchWord nbits w).arg0 = s.arg0 := rfl
@[simp] theorem withFetchWord_arg1 (s : State) (nbits w : Nat) : (s.withFetchWord nbits w).arg1 = s.arg1 := rfl
@[simp] theorem withFetchWord_arg2 (s : State) (nbits w : Nat) : (s.withFetchWord nbits w).arg2 = s.arg2 := rfl
@[simp] theorem withFetchWord_arg3 (s : State) (nbits w : Nat) : (s.withFetchWord nbits w).arg3 = s.arg3 := rfl
@[simp] theorem withFetchWord_crc8 (s : State) (nbits w : Nat) : (s.withFetchWord nbits w).crc8 = s.crc8 := rfl
@[simp] theorem withFetchWord_crc16 (s : State) (nbits w : Nat) : (s.withFetchWord nbits w).crc16 = s.crc16 := rfl
@[simp] theorem withFetchWord_wverify (s : State) (nbits w : Nat) : (s.withFetchWord nbits w).wverify = s.wverify := rfl
@[simp] theorem withFetchWord_romLo (s : State) (nbits w : Nat) : (s.withFetchWord nbits w).romLo = s.romLo := rfl
@[simp] theorem withFetchWord_romHi (s : State) (nbits w : Nat) : (s.withFetchWord nbits w).romHi = s.romHi := rfl
@[simp] theorem withFetchWord_romValid (s : State) (nbits w : Nat) : (s.withFetchWord nbits w).romValid = s.romValid := rfl
@[simp] theorem withFetchWord_speedVerified (s : State) (nbits w : Nat) : (s.withFetchWord nbits w).speedVerified = s.speedVerified := rfl
@[simp] theorem withFetchWord_resumeEligible (s : State) (nbits w : Nat) : (s.withFetchWord nbits w).resumeEligible = s.resumeEligible := rfl
@[simp] theorem withFetchWord_cont (s : State) (nbits w : Nat) : (s.withFetchWord nbits w).cont = s.cont := rfl
@[simp] theorem withFetchWord_sp (s : State) (nbits w : Nat) : (s.withFetchWord nbits w).sp = s.sp := rfl
@[simp] theorem withFetchWord_auth (s : State) (nbits w : Nat) : (s.withFetchWord nbits w).auth = s.auth := rfl
@[simp] theorem withFetchWord_hostSecret (s : State) (nbits w : Nat) : (s.withFetchWord nbits w).hostSecret = s.hostSecret := rfl
@[simp] theorem withFetchWord_data (s : State) (nbits w : Nat) : (s.withFetchWord nbits w).data = s.data := rfl
@[simp] theorem withFetchWord_issued (s : State) (nbits w : Nat) : (s.withFetchWord nbits w).issued = s.issued := rfl
@[simp] theorem withFetchWord_dev (s : State) (nbits w : Nat) : (s.withFetchWord nbits w).dev = s.dev := rfl
@[simp] theorem withFetchWord_events (s : State) (nbits w : Nat) : (s.withFetchWord nbits w).events = s.events := rfl
@[simp] theorem withFetchWord_host (s : State) (nbits w : Nat) : (s.withFetchWord nbits w).host = ⟨.write 0x000 .b32 (leWord (tableWordBytes nbits w)), none⟩ :: s.host := rfl
@[simp] theorem withFetchWord_answers (s : State) (nbits w : Nat) : (s.withFetchWord nbits w).answers = s.answers := rfl
@[simp] theorem withFetchWord_draws (s : State) (nbits w : Nat) : (s.withFetchWord nbits w).draws = s.draws := rfl

/-! `softReset`: the soft reset (70_reset_and_hazards.md R331). -/

@[simp] theorem softReset_cfg (s : State) : (softReset s).cfg = s.cfg := rfl
@[simp] theorem softReset_busy (s : State) : (softReset s).busy = false := rfl
@[simp] theorem softReset_done (s : State) : (softReset s).done = false := rfl
@[simp] theorem softReset_err (s : State) : (softReset s).err = .none := rfl
@[simp] theorem softReset_result (s : State) : (softReset s).result = 0 := rfl
@[simp] theorem softReset_arg0 (s : State) : (softReset s).arg0 = 0 := rfl
@[simp] theorem softReset_arg1 (s : State) : (softReset s).arg1 = 0 := rfl
@[simp] theorem softReset_arg2 (s : State) : (softReset s).arg2 = 0 := rfl
@[simp] theorem softReset_arg3 (s : State) : (softReset s).arg3 = 0 := rfl
@[simp] theorem softReset_crc8 (s : State) : (softReset s).crc8 = 0x00 := rfl
@[simp] theorem softReset_crc16 (s : State) : (softReset s).crc16 = 0x0000 := rfl
@[simp] theorem softReset_wverify (s : State) : (softReset s).wverify = wverifyMask s.cfg := rfl
@[simp] theorem softReset_romLo (s : State) : (softReset s).romLo = 0 := rfl
@[simp] theorem softReset_romHi (s : State) : (softReset s).romHi = 0 := rfl
@[simp] theorem softReset_romValid (s : State) : (softReset s).romValid = false := rfl
@[simp] theorem softReset_speedVerified (s : State) : (softReset s).speedVerified = false := rfl
@[simp] theorem softReset_resumeEligible (s : State) : (softReset s).resumeEligible = false := rfl
@[simp] theorem softReset_cont (s : State) : (softReset s).cont = ⟨false, 0, .page, 0⟩ := rfl
@[simp] theorem softReset_sp (s : State) : (softReset s).sp = ⟨.idle, 0, 0, 0, []⟩ := rfl
@[simp] theorem softReset_auth (s : State) : (softReset s).auth = .noSecret := rfl
@[simp] theorem softReset_hostSecret (s : State) : (softReset s).hostSecret = rep 0x00 8 := rfl
@[simp] theorem softReset_data (s : State) : (softReset s).data = s.data := rfl
@[simp] theorem softReset_issued (s : State) : (softReset s).issued = 0 := rfl
@[simp] theorem softReset_dev (s : State) : (softReset s).dev = s.dev := rfl
@[simp] theorem softReset_events (s : State) : (softReset s).events = s.events := rfl
@[simp] theorem softReset_host (s : State) : (softReset s).host = s.host := rfl
@[simp] theorem softReset_answers (s : State) : (softReset s).answers = s.answers := rfl
@[simp] theorem softReset_draws (s : State) : (softReset s).draws = s.draws := rfl

/-! `completeError`: error completion (60_exceptions.md R304). -/

@[simp] theorem completeError_cfg (p : Phase) (c : Cause) (s : State) : (completeError p c s).cfg = s.cfg := by
  unfold completeError; split <;> rfl
@[simp] theorem completeError_busy (p : Phase) (c : Cause) (s : State) : (completeError p c s).busy = false := rfl
@[simp] theorem completeError_done (p : Phase) (c : Cause) (s : State) : (completeError p c s).done = true := rfl
@[simp] theorem completeError_err (p : Phase) (c : Cause) (s : State) : (completeError p c s).err = c.kind := rfl
@[simp] theorem completeError_result (p : Phase) (c : Cause) (s : State) : (completeError p c s).result = c.info := rfl
@[simp] theorem completeError_arg0 (p : Phase) (c : Cause) (s : State) : (completeError p c s).arg0 = s.arg0 := by
  unfold completeError; split <;> rfl
@[simp] theorem completeError_arg1 (p : Phase) (c : Cause) (s : State) : (completeError p c s).arg1 = s.arg1 := by
  unfold completeError; split <;> rfl
@[simp] theorem completeError_arg2 (p : Phase) (c : Cause) (s : State) : (completeError p c s).arg2 = s.arg2 := by
  unfold completeError; split <;> rfl
@[simp] theorem completeError_arg3 (p : Phase) (c : Cause) (s : State) : (completeError p c s).arg3 = s.arg3 := by
  unfold completeError; split <;> rfl
@[simp] theorem completeError_crc8 (p : Phase) (c : Cause) (s : State) : (completeError p c s).crc8 = s.crc8 := by
  unfold completeError; split <;> rfl
@[simp] theorem completeError_crc16 (p : Phase) (c : Cause) (s : State) : (completeError p c s).crc16 = s.crc16 := by
  unfold completeError; split <;> rfl
@[simp] theorem completeError_wverify (p : Phase) (c : Cause) (s : State) : (completeError p c s).wverify = s.wverify := by
  unfold completeError; split <;> rfl
@[simp] theorem completeError_romLo (p : Phase) (c : Cause) (s : State) : (completeError p c s).romLo = s.romLo := by
  unfold completeError; split <;> rfl
@[simp] theorem completeError_romHi (p : Phase) (c : Cause) (s : State) : (completeError p c s).romHi = s.romHi := by
  unfold completeError; split <;> rfl
@[simp] theorem completeError_romValid (p : Phase) (c : Cause) (s : State) : (completeError p c s).romValid = s.romValid := by
  unfold completeError; split <;> rfl
@[simp] theorem completeError_speedVerified (p : Phase) (c : Cause) (s : State) : (completeError p c s).speedVerified = if p = .bus ∧ c.kind.unverifies then false else s.speedVerified := by
  unfold completeError; split <;> simp_all [forceVerify]
@[simp] theorem completeError_resumeEligible (p : Phase) (c : Cause) (s : State) : (completeError p c s).resumeEligible = if p = .bus ∧ c.kind.unverifies then false else s.resumeEligible := by
  unfold completeError; split <;> simp_all [forceVerify]
@[simp] theorem completeError_cont (p : Phase) (c : Cause) (s : State) : (completeError p c s).cont = s.cont := by
  unfold completeError; split <;> rfl
@[simp] theorem completeError_sp (p : Phase) (c : Cause) (s : State) : (completeError p c s).sp = s.sp := by
  unfold completeError; split <;> rfl
@[simp] theorem completeError_auth (p : Phase) (c : Cause) (s : State) : (completeError p c s).auth = s.auth := by
  unfold completeError; split <;> rfl
@[simp] theorem completeError_hostSecret (p : Phase) (c : Cause) (s : State) : (completeError p c s).hostSecret = s.hostSecret := by
  unfold completeError; split <;> rfl
@[simp] theorem completeError_data (p : Phase) (c : Cause) (s : State) : (completeError p c s).data = s.data := by
  unfold completeError; split <;> rfl
@[simp] theorem completeError_issued (p : Phase) (c : Cause) (s : State) : (completeError p c s).issued = s.issued := by
  unfold completeError; split <;> rfl
@[simp] theorem completeError_dev (p : Phase) (c : Cause) (s : State) : (completeError p c s).dev = s.dev := by
  unfold completeError; split <;> rfl
@[simp] theorem completeError_events (p : Phase) (c : Cause) (s : State) : (completeError p c s).events = s.events := by
  unfold completeError; split <;> rfl
@[simp] theorem completeError_host (p : Phase) (c : Cause) (s : State) : (completeError p c s).host = s.host := by
  unfold completeError; split <;> rfl
@[simp] theorem completeError_answers (p : Phase) (c : Cause) (s : State) : (completeError p c s).answers = s.answers := by
  unfold completeError; split <;> rfl
@[simp] theorem completeError_draws (p : Phase) (c : Cause) (s : State) : (completeError p c s).draws = s.draws := by
  unfold completeError; split <;> rfl

theorem dataByte_congr {s t : State} (h : t.data = s.data) (a : Nat) : dataByte t a = dataByte s a := by
  unfold dataByte; rw [h]

theorem dataRun_congr {s t : State} (h : t.data = s.data) (a n : Nat) : dataRun t a n = dataRun s a n := by
  simp [dataRun, dataByte_congr h]

@[simp] theorem dataRun_length (s : State) (a n : Nat) : (dataRun s a n).length = n := by
  simp [dataRun]

end Sys2Proof.Machine
end

