-- ==== Sys2Proof/Laws/Proc.lean ====
section
/-! SUPPORT. Procedures: how they run, and the relation `Rel` that every transport procedure keeps, with its closure under
sequencing. A proof about a command cites these and unfolds no procedure twice. -/

namespace Sys2Proof.Machine

/-! How a procedure runs. -/

theorem bind_ok {α β : Type} {p : Proc α} {f : α → Proc β} {s t : State} {a : α} (h : p s = .ok a t) :
    (p >>= f) s = f a t := by
  show EStateM.bind p f s = f a t
  simp [EStateM.bind, h]

theorem bind_error {α β : Type} {p : Proc α} {f : α → Proc β} {s t : State} {e : Stop} (h : p s = .error e t) :
    (p >>= f) s = .error e t := by
  show EStateM.bind p f s = .error e t
  simp [EStateM.bind, h]

theorem get_bind {β : Type} (f : State → Proc β) (s : State) : (get >>= f) s = f s s := rfl

@[simp] theorem pure_run {α : Type} (a : α) (s : State) : (pure a : Proc α) s = .ok a s := rfl

@[simp] theorem setResult_run (v : Word) (s : State) : setResult v s = .ok () { s with result := v } := rfl

@[simp] theorem memWrite_run (o : Nat) (bs : List Byte) (s : State) : memWrite o bs s = .ok () (s.putData o bs) := rfl

@[simp] theorem setPhase_run (p : SpPhase) (s : State) : setPhase p s = .ok () { s with sp := { s.sp with phase := p } } := rfl

@[simp] theorem setScratch_run (p : Scratch) (s : State) : setScratch p s = .ok () { s with sp := p } := rfl

@[simp] theorem setCont_run (c : Cont) (s : State) : setCont c s = .ok () { s with cont := c } := rfl

@[simp] theorem setAuth_run (a : AuthState) (s : State) : setAuth a s = .ok () { s with auth := a } := rfl

@[simp] theorem setHostSecret_run (v : List Byte) (s : State) : setHostSecret v s = .ok () { s with hostSecret := v } := rfl

@[simp] theorem fail_run {α : Type} (c : Cause) (s : State) : (fail c : Proc α) s = .error (.raised .bus c) s := rfl

theorem ensure_run (ok : Bool) (c : Cause) (s : State) :
    ensure ok c s = if ok then .ok () s else .error (.raised .bus c) s := by
  cases ok <;> rfl

theorem require_run (checks : List (Bool × Cause)) (s : State) :
    require checks s =
      match firstFailing checks with
      | none => .ok () s
      | some c => .error (.raised .check c) s := by
  unfold require
  cases firstFailing checks <;> rfl

@[simp] theorem firstFailing_nil : firstFailing [] = none := rfl

@[simp] theorem firstFailing_cons (ok : Bool) (c : Cause) (rest : List (Bool × Cause)) :
    firstFailing ((ok, c) :: rest) = if ok then firstFailing rest else some c := rfl

theorem firstFailing_append (xs ys : List (Bool × Cause)) :
    firstFailing (xs ++ ys) = (firstFailing xs).or (firstFailing ys) := by
  induction xs with
  | nil => simp
  | cons x xs ih =>
    obtain ⟨ok, c⟩ := x
    cases ok <;> simp [ih]

/-- Nothing fails iff every check holds. -/
theorem firstFailing_none (checks : List (Bool × Cause)) :
    firstFailing checks = none ↔ ∀ k ∈ checks, k.1 = true := by
  induction checks with
  | nil => simp
  | cons k rest ih =>
    obtain ⟨ok, c⟩ := k
    cases ok <;> simp [ih]

/-- What fails is one of the checks. -/
theorem firstFailing_mem (checks : List (Bool × Cause)) (c : Cause) (h : firstFailing checks = some c) :
    (false, c) ∈ checks := by
  induction checks with
  | nil => simp at h
  | cons k rest ih =>
    obtain ⟨ok, d⟩ := k
    cases ok <;> simp_all

/-! The frame of a transport procedure. -/

/-- What no wire frame changes: everything but the session flags, `cont`, the device, the history and the host's side. -/
def wireView (s : State) :=
  (s.done, s.err, s.result, s.arg0, s.arg1, s.arg2, s.arg3, s.crc8, s.crc16, s.wverify, s.romLo, s.romHi, s.romValid,
    s.auth, s.hostSecret, s.sp)

/-- What no scratchpad procedure changes. -/
def busView (s : State) :=
  (s.done, s.err, s.result, s.arg0, s.arg1, s.arg2, s.arg3, s.crc8, s.crc16, s.wverify, s.romLo, s.romHi, s.romValid,
    s.auth, s.hostSecret)

/-- What no command changes before it completes. -/
def secView (s : State) :=
  (s.done, s.err, s.arg0, s.arg1, s.arg2, s.arg3, s.crc8, s.crc16, s.wverify, s.romLo, s.romHi, s.romValid)

/-- The memories of the device model are canonical, if it is the device. -/
def State.deviceOk (s : State) : Prop := ∀ r, s.dev = .reference r → r.canonical = true

/-- From `s` to `t`: `view` is unchanged, and with it the configuration, BUSY and DATA; the history only grows; no host
access has landed if none was due; an event ends the read stream; the session flags stay equal; the device model stays
canonical; the scratchpad record stays sound. -/
structure Rel {α : Type} (view : State → α) (s t : State) : Prop where
  view : view t = view s
  cfg : t.cfg = s.cfg
  busy : t.busy = s.busy
  data : t.data = s.data
  events : s.events <+: t.events
  quiet : s.quiet = true → t.host = s.host ∧ t.answers = s.answers
  legal : s.hostLegal = true → t.hostLegal = true
  cont : t.cont = s.cont ∨ t.cont.valid = false
  contEvent : s.events.length < t.events.length → t.cont.valid = false
  session : s.speedVerified = s.resumeEligible → t.speedVerified = t.resumeEligible
  device : s.deviceOk → t.deviceOk
  scratch : s.sp.sound s.cfg → t.sp.sound s.cfg

/-- `Rel` with at least one event. -/
def RelEvent {α : Type} (view : State → α) (s t : State) : Prop := Rel view s t ∧ s.events.length < t.events.length

/-- How an abandoned procedure leaves the machine (70_reset_and_hazards.md R332): only a host access that was due does it. -/
structure Left (s t : State) : Prop where
  cfg : t.cfg = s.cfg
  data : t.data = s.data
  events : s.events <+: t.events
  legal : s.hostLegal = true → t.hostLegal = true
  device : s.deviceOk → t.deviceOk
  notQuiet : s.quiet = false

theorem quiet_congr {s t : State} (h : t.host = s.host) : t.quiet = s.quiet := by
  unfold State.quiet; rw [h]

namespace Rel

variable {α β : Type} {v : State → α} {w : State → β} {s t u : State}

theorem refl (v : State → α) (s : State) : Rel v s s where
  view := rfl
  cfg := rfl
  busy := rfl
  data := rfl
  events := List.prefix_refl _
  quiet := fun _ => ⟨rfl, rfl⟩
  legal := id
  cont := .inl rfl
  contEvent := fun h => absurd h (lt_irrefl _)
  session := id
  device := id
  scratch := id

theorem quiet_eq (h : Rel v s t) (hq : s.quiet = true) : t.quiet = true := by
  rw [quiet_congr (h.quiet hq).1, hq]

theorem not_quiet (h : Rel v s t) (hq : t.quiet = false) : s.quiet = false := by
  cases hs : s.quiet with
  | false => rfl
  | true => rw [h.quiet_eq hs] at hq; cases hq

theorem not_legal (h : Rel v s t) (hl : t.hostLegal = false) : s.hostLegal = false := by
  cases hs : s.hostLegal with
  | false => rfl
  | true => rw [h.legal hs] at hl; cases hl

theorem trans (h : Rel v s t) (k : Rel v t u) : Rel v s u where
  view := k.view.trans h.view
  cfg := k.cfg.trans h.cfg
  busy := k.busy.trans h.busy
  data := k.data.trans h.data
  events := h.events.trans k.events
  quiet := fun hq => by
    have h1 := h.quiet hq
    have h2 := k.quiet (h.quiet_eq hq)
    exact ⟨h2.1.trans h1.1, h2.2.trans h1.2⟩
  legal := fun hl => k.legal (h.legal hl)
  cont := by
    rcases k.cont with k' | k'
    · rcases h.cont with h' | h'
      · exact .inl (k'.trans h')
      · exact .inr (by rw [k', h'])
    · exact .inr k'
  contEvent := fun hlt => by
    by_cases h2 : t.events.length < u.events.length
    · exact k.contEvent h2
    · have h1 : s.events.length < t.events.length := by omega
      rcases k.cont with k' | k'
      · rw [k', h.contEvent h1]
      · exact k'
  session := fun hs => k.session (h.session hs)
  device := fun hd => k.device (h.device hd)
  scratch := fun hs => by
    have := k.scratch (by rw [h.cfg]; exact h.scratch hs)
    rwa [h.cfg] at this

theorem mono (h : Rel v s t) (hv : v t = v s → w t = w s) : Rel w s t := { h with view := hv h.view }

theorem toBus (h : Rel wireView s t) : Rel busView s t :=
  h.mono (by simp only [wireView, busView, Prod.mk.injEq]; tauto)

theorem toSec (h : Rel busView s t) : Rel secView s t :=
  h.mono (by simp only [busView, secView, Prod.mk.injEq]; tauto)

theorem length_le (h : Rel v s t) : s.events.length ≤ t.events.length := h.events.length_le

theorem left (h : Rel v s t) (k : Left t u) : Left s u where
  cfg := k.cfg.trans h.cfg
  data := k.data.trans h.data
  events := h.events.trans k.events
  legal := fun hl => k.legal (h.legal hl)
  device := fun hd => k.device (h.device hd)
  notQuiet := h.not_quiet k.notQuiet

/-- The frame claims are stated in. -/
theorem busFrame (h : Rel busView s t) : BusFrame s t := by
  have hv := h.view
  simp only [busView, Prod.mk.injEq] at hv
  obtain ⟨h1, h2, h3, h4, h5, h6, h7, h8, h9, h10, h11, h12, h13, h14, h15⟩ := hv
  exact ⟨h.cfg, h.busy, h1, h2, h3, h4, h5, h6, h7, h8, h9, h10, h11, h12, h13, h14, h15, h.data, h.events⟩

end Rel

namespace RelEvent

variable {α : Type} {v : State → α} {s t u : State}

theorem after (h : Rel v s t) (k : RelEvent v t u) : RelEvent v s u :=
  ⟨h.trans k.1, lt_of_le_of_lt h.length_le k.2⟩

theorem before (h : RelEvent v s t) (k : Rel v t u) : RelEvent v s u :=
  ⟨h.1.trans k, lt_of_lt_of_le h.2 k.length_le⟩

end RelEvent

/-- How a procedure that started in `s` may end: a normal end is `ok`-related to `s`, a raise is one of the bus phase and
`err`-related to it, an abandonment is `Left`, and a stop needs an illegal host access. -/
def Ends {α : Type} (ok err : State → State → Prop) (s : State) : EStateM.Result Stop State α → Prop
  | .ok _ t => ok s t
  | .error (.raised ph _) t => ph = .bus ∧ err s t
  | .error .abandoned t => Left s t
  | .error (.fault _) _ => s.hostLegal = false
  | .error (.refused _) _ => s.hostLegal = false

/-- `p`, run under configuration `c` from any state where a command runs, ends as `Ends` says. -/
def Sat {α : Type} (c : Config) (ok err : State → State → Prop) (p : Proc α) : Prop :=
  ∀ s, s.busy = true → s.cfg = c → Ends ok err s (p s)

/-- A procedure that keeps `Rel v` and whose raises follow an event. -/
abbrev Bus {α β : Type} (v : State → β) (c : Config) (p : Proc α) : Prop := Sat c (Rel v) (RelEvent v) p

/-- A procedure that keeps `Rel v` and always issues an event. -/
abbrev BusEvent {α β : Type} (v : State → β) (c : Config) (p : Proc α) : Prop := Sat c (RelEvent v) (RelEvent v) p

/-- A procedure that keeps `Rel v` and may raise at once: it needs an event before it. -/
abbrev BusAfter {α β : Type} (v : State → β) (c : Config) (p : Proc α) : Prop := Sat c (Rel v) (Rel v) p

section Closure

variable {α β γ : Type} {v : State → γ} {c : Config} {p : Proc α} {f : α → Proc β}

/-- Sequencing, for any relations that compose, the second procedure being run from states of `P`. -/
theorem Sat.bind_from {ok1 err1 ok2 err2 ok err : State → State → Prop} {P : State → Prop} (hp : Sat c ok1 err1 p)
    (hP : ∀ s t, ok1 s t → P t)
    (hf : ∀ a t, t.busy = true → t.cfg = c → P t → Ends ok2 err2 t (f a t))
    (hrel : ∀ s t, ok1 s t → Rel (fun _ => ()) s t) (he : ∀ s t, err1 s t → err s t)
    (hoo : ∀ s t u, ok1 s t → ok2 t u → ok s u) (hoe : ∀ s t u, ok1 s t → err2 t u → err s u) :
    Sat c ok err (p >>= f) := by
  intro s hb hc
  have h1 := hp s hb hc
  cases hr : p s with
  | ok a t =>
    rw [hr] at h1
    have hR := hrel s t h1
    rw [bind_ok hr]
    have h2 := hf a t (hR.busy.trans hb) (hR.cfg.trans hc) (hP s t h1)
    cases hr2 : f a t with
    | ok b u => rw [hr2] at h2; exact hoo s t u h1 h2
    | error e u =>
      rw [hr2] at h2
      cases e with
      | raised ph d => exact ⟨h2.1, hoe s t u h1 h2.2⟩
      | abandoned => exact hR.left h2
      | fault d => exact hR.not_legal h2
      | refused d => exact hR.not_legal h2
  | error e t =>
    rw [hr] at h1
    rw [bind_error hr]
    cases e with
    | raised ph d => exact ⟨h1.1, he s t h1.2⟩
    | abandoned => exact h1
    | fault d => exact h1
    | refused d => exact h1

/-- Sequencing, for any relations that compose. -/
theorem Sat.bind {ok1 err1 ok2 err2 ok err : State → State → Prop} (hp : Sat c ok1 err1 p) (hf : ∀ a, Sat c ok2 err2 (f a))
    (hrel : ∀ s t, ok1 s t → Rel (fun _ => ()) s t) (he : ∀ s t, err1 s t → err s t)
    (hoo : ∀ s t u, ok1 s t → ok2 t u → ok s u) (hoe : ∀ s t u, ok1 s t → err2 t u → err s u) :
    Sat c ok err (p >>= f) :=
  Sat.bind_from (P := fun _ => True) hp (fun _ _ _ => trivial) (fun a t hb hc _ => hf a t hb hc) hrel he hoo hoe

theorem Rel.unit {v : State → γ} {s t : State} (h : Rel v s t) : Rel (fun _ => ()) s t := h.mono fun _ => rfl

theorem Sat.get_bind {ok err : State → State → Prop} {f : State → Proc β} (hf : ∀ s, s.cfg = c → Sat c ok err (f s)) :
    Sat c ok err (get >>= f) := by
  intro s hb hc
  exact hf s hc s hb hc

theorem Sat.imp {ok err ok' err' : State → State → Prop} (hp : Sat c ok err p) (ho : ∀ s t, ok s t → ok' s t)
    (he : ∀ s t, err s t → err' s t) : Sat c ok' err' p := by
  intro s hb hc
  have h := hp s hb hc
  cases hr : p s with
  | ok a t => rw [hr] at h; exact ho s t h
  | error e t =>
    rw [hr] at h
    cases e with
    | raised ph d => exact ⟨h.1, he s t h.2⟩
    | abandoned => exact h
    | fault d => exact h
    | refused d => exact h

theorem BusEvent.bus (hp : BusEvent v c p) : Bus v c p := hp.imp (fun _ _ h => h.1) fun _ _ h => h

theorem Bus.after (hp : Bus v c p) : BusAfter v c p := hp.imp (fun _ _ h => h) fun _ _ h => h.1

theorem Bus.bind (hp : Bus v c p) (hf : ∀ a, Bus v c (f a)) : Bus v c (p >>= f) :=
  Sat.bind hp hf (fun _ _ h => h.unit) (fun _ _ h => h) (fun _ _ _ h k => h.trans k) fun _ _ _ h k => RelEvent.after h k

theorem BusAfter.bind (hp : BusAfter v c p) (hf : ∀ a, BusAfter v c (f a)) : BusAfter v c (p >>= f) :=
  Sat.bind hp hf (fun _ _ h => h.unit) (fun _ _ h => h) (fun _ _ _ h k => h.trans k) fun _ _ _ h k => h.trans k

theorem BusEvent.bind_after (hp : BusEvent v c p) (hf : ∀ a, BusAfter v c (f a)) : BusEvent v c (p >>= f) :=
  Sat.bind hp hf (fun _ _ h => h.1.unit) (fun _ _ h => h) (fun _ _ _ h k => h.before k) fun _ _ _ h k => h.before k

theorem Bus.bind_event (hp : Bus v c p) (hf : ∀ a, BusEvent v c (f a)) : BusEvent v c (p >>= f) :=
  Sat.bind hp hf (fun _ _ h => h.unit) (fun _ _ h => h) (fun _ _ _ h k => RelEvent.after h k)
    fun _ _ _ h k => RelEvent.after h k

theorem Bus.pure (a : α) : Bus v c (pure a : Proc α) := fun s _ _ => Rel.refl v s

theorem Sat.weaken {δ : Type} {w : State → δ} (hw : ∀ s t, v t = v s → w t = w s) :
    (Bus v c p → Bus w c p) ∧ (BusEvent v c p → BusEvent w c p) ∧ (BusAfter v c p → BusAfter w c p) :=
  ⟨fun h => h.imp (fun _ _ k => k.mono (hw _ _)) fun _ _ k => ⟨k.1.mono (hw _ _), k.2⟩,
   fun h => h.imp (fun _ _ k => ⟨k.1.mono (hw _ _), k.2⟩) fun _ _ k => ⟨k.1.mono (hw _ _), k.2⟩,
   fun h => h.imp (fun _ _ k => k.mono (hw _ _)) fun _ _ k => k.mono (hw _ _)⟩

theorem ensure_after (ok : Bool) (d : Cause) : BusAfter v c (ensure ok d) := by
  intro s _ _
  cases ok with
  | true => exact Rel.refl v s
  | false => exact ⟨rfl, Rel.refl v s⟩

theorem fail_after (d : Cause) : BusAfter v c (fail d : Proc α) := fun s _ _ => ⟨rfl, Rel.refl v s⟩

end Closure

theorem wire_bus (s t : State) (h : wireView t = wireView s) : busView t = busView s := by
  revert h; simp only [wireView, busView, Prod.mk.injEq]; tauto

theorem bus_sec (s t : State) (h : busView t = busView s) : secView t = secView s := by
  revert h; simp only [busView, secView, Prod.mk.injEq]; tauto

end Sys2Proof.Machine
end

