-- ==== Sys2Proof/Laws/Port.lean ====
section
/-! SUPPORT. What a host access can do: while a command runs, and at all; which accesses stop the machine. -/

namespace Sys2Proof.Machine

/-- DATA byte `i` after a write of `bs` at `a` (20_memory.md R72). -/
theorem dataByte_putData (s : State) (a : Nat) (bs : List Byte) (i : Nat) :
    dataByte (s.putData a bs) i = if a ≤ i ∧ i < a + bs.length then bs.getD (i - a) 0 else dataByte s i := by
  unfold dataByte
  simp only [putData_data, Memory.read?_writeRun]
  split <;> simp

/-- While a command runs, an access that is done changes the port's own record at most (10_state.md R51). -/
theorem regWrite_busy (s : State) (off : Nat) (v : Word) (hb : s.busy = true) :
    regWrite s off v = .reset s ∨ regWrite s off v = .done s := by
  unfold regWrite
  split
  · split <;> simp
  · simp

/-- How a host access may end while a command runs. -/
inductive BusyPort (a : HostAccess) (s : State) : PortEffect → Prop where
  | done (an : List Word) (dr : Nat) : BusyPort a s (.done { s with answers := an, draws := dr })
  | reset : BusyPort a s (.reset s)
  | fault (f : Fault) : a.legal s.cfg = false → BusyPort a s (.fault f)
  | refuse (r : Refusal) : a.legal s.cfg = false → BusyPort a s (.refuse r)

theorem busyPort_done_self (a : HostAccess) (s : State) : BusyPort a s (.done s) := .done s.answers s.draws

theorem busyPort_answer (a : HostAccess) (s : State) (v : Word) : BusyPort a s (.done (s.answer v)) := .done _ s.draws

theorem busyPort_answerFree (a : HostAccess) (s : State) (w : Width) : BusyPort a s (.done (s.answerFree w)) := .done _ _

theorem portAccess_busy (a : HostAccess) (off : Nat) (s : State) (hb : s.busy = true)
    (hleg : offsetFits off a.width = false → a.legal s.cfg = false) (_hoff : off < 0x200) :
    BusyPort a s (portAccess a off s) := by
  unfold portAccess
  split
  · rename_i h1
    cases a with
    | read o w =>
      simp only [regAccess]
      split
      · exact busyPort_answer _ _ _
      · rename_i h2
        exact .refuse _ (hleg (by cases w <;> simp_all [offsetFits, HostAccess.width]))
    | write o w v =>
      simp only [regAccess]
      split
      · rcases regWrite_busy s off v hb with h | h <;> rw [h]
        · exact .reset
        · exact busyPort_done_self _ _
      · rename_i h2
        exact .refuse _ (hleg (by cases w <;> simp_all [offsetFits, HostAccess.width]))
  · rename_i h1
    cases a with
    | read o w =>
      simp only [dataAccess, hb, if_true]
      split
      · exact busyPort_answerFree _ _ _
      · rename_i h2
        exact .refuse _ (hleg (by simp_all [offsetFits, HostAccess.width]))
    | write o w v =>
      simp only [dataAccess, hb, if_true]
      split
      · exact busyPort_done_self _ _
      · rename_i h2
        exact .refuse _ (hleg (by simp_all [offsetFits, HostAccess.width]))

theorem hostPort_busy (a : HostAccess) (s : State) (hb : s.busy = true) : BusyPort a s (hostPort a s) := by
  unfold hostPort
  split
  · rename_i h
    exact portAccess_busy a a.off s hb (fun h2 => by simp [HostAccess.legal, h, h2]) h
  · rename_i h
    unfold outsideAccess
    cases hd : s.cfg.hostDecode with
    | wrap =>
      exact portAccess_busy a _ s hb (fun h2 => by simp [HostAccess.legal, h, hd, h2]) (Nat.mod_lt _ (by omega))
    | busError => exact .fault _ (by simp [HostAccess.legal, h, hd])
    | zero => cases a <;> first | exact busyPort_answer _ _ _ | exact busyPort_done_self _ _
    | openBus => cases a <;> first | exact busyPort_answerFree _ _ _ | exact busyPort_done_self _ _

/-- An access stops the machine only if it is not legal (20_memory.md R71, R73). -/
theorem portAccess_legal (a : HostAccess) (off : Nat) (s : State) (h : offsetFits off a.width = true) :
    (∀ f, portAccess a off s ≠ .fault f) ∧ ∀ r, portAccess a off s ≠ .refuse r := by
  unfold portAccess
  split
  · rename_i h1
    cases a with
    | read o w => simp_all [regAccess, offsetFits, HostAccess.width]
    | write o w v =>
      simp_all only [regAccess, offsetFits, HostAccess.width, if_true, Bool.and_eq_true, beq_iff_eq, and_self]
      unfold regWrite
      constructor <;> intro f <;> repeat' (split <;> try simp)
  · rename_i h1
    rw [offsetFits, if_neg h1, beq_iff_eq] at h
    cases a with
    | read o w =>
      simp only [HostAccess.width] at h
      simp only [dataAccess, h, if_true]
      cases s.busy <;> simp
    | write o w v =>
      simp only [HostAccess.width] at h
      simp only [dataAccess, h, if_true]
      cases s.busy <;> simp

theorem hostPort_legal (a : HostAccess) (s : State) (h : a.legal s.cfg = true) :
    (∀ f, hostPort a s ≠ .fault f) ∧ ∀ r, hostPort a s ≠ .refuse r := by
  unfold HostAccess.legal at h
  unfold hostPort
  split
  · rename_i h1
    exact portAccess_legal a _ s (by simpa [h1] using h)
  · rename_i h1
    rw [if_neg h1] at h
    unfold outsideAccess
    cases hd : s.cfg.hostDecode <;> simp only [hd] at h ⊢
    · exact portAccess_legal a _ s h
    · cases a <;> simp
    · cases a <;> simp
    · cases h

/-! Accesses inside the port's window (20_memory.md R71, R73). -/

theorem hostPort_reg_read (s : State) (off : Nat) (h : off < 0x100) (ha : off % 4 = 0) :
    hostPort (.read off .b32) s = .done (s.answer (regRead s off)) := by
  unfold hostPort
  rw [if_pos (show HostAccess.off (.read off .b32) < 0x200 from Nat.lt_trans h (by decide))]
  unfold portAccess
  rw [if_pos (show HostAccess.off (.read off .b32) < 0x100 from h)]
  unfold regAccess
  exact if_pos ⟨rfl, ha⟩

theorem hostPort_reg_write (s : State) (off : Nat) (v : Word) (h : off < 0x100) (ha : off % 4 = 0) :
    hostPort (.write off .b32 v) s = regWrite s off v := by
  unfold hostPort
  rw [if_pos (show HostAccess.off (.write off .b32 v) < 0x200 from Nat.lt_trans h (by decide))]
  unfold portAccess
  rw [if_pos (show HostAccess.off (.write off .b32 v) < 0x100 from h)]
  unfold regAccess
  exact if_pos ⟨rfl, ha⟩

theorem hostPort_data (a : HostAccess) (s : State) (i : Nat) (ha : a.off = 0x100 + i) (h : i < 0x100) :
    hostPort a s = dataAccess a i s := by
  unfold hostPort
  rw [if_pos (by omega)]
  unfold portAccess
  rw [if_neg (by omega), show a.off - 0x100 = i by omega]

/-- An access that does not fit its offset is refused (20_memory.md R73). -/
theorem hostPort_misfit (a : HostAccess) (s : State) (ho : a.off < 0x200) (h : offsetFits a.off a.width = false) :
    hostPort a s = .refuse (.undefinedHostAccess a.off) := by
  unfold hostPort
  rw [if_pos ho]
  unfold offsetFits at h
  unfold portAccess
  split at h
  · rename_i h1
    rw [if_pos h1]
    have hne : ¬(a.width = .b32 ∧ a.off % 4 = 0) := by
      simp only [Bool.and_eq_false_iff, beq_eq_false_iff_ne] at h
      tauto
    cases a with
    | read o w =>
      simp only [HostAccess.width, HostAccess.off] at hne ⊢
      unfold regAccess
      exact if_neg hne
    | write o w v =>
      simp only [HostAccess.width, HostAccess.off] at hne ⊢
      unfold regAccess
      exact if_neg hne
  · rename_i h1
    rw [if_neg h1]
    have hne : ¬(a.off - 0x100) % a.width.bytes = 0 := by simpa using h
    have hoff : 0x100 + (a.off - 0x100) = a.off := by omega
    cases a with
    | read o w =>
      simp only [HostAccess.width, HostAccess.off] at hne hoff ⊢
      unfold dataAccess
      exact (if_neg hne).trans (by rw [hoff])
    | write o w v =>
      simp only [HostAccess.width, HostAccess.off] at hne hoff ⊢
      unfold dataAccess
      exact (if_neg hne).trans (by rw [hoff])

end Sys2Proof.Machine
end

