-- ==== Sys2Proof/Laws/Rdm.lean ====
section
/-! SUPPORT. The reference device model: everything it does keeps its memories in canonical form. -/

namespace Sys2Proof.Machine

theorem Rdm.canonical_iff (r : Rdm) :
    r.canonical = true ↔
      Memory.wf (some 0xFF) r.mem = true ∧ Memory.wf (some 0x00) r.spBuf = true ∧ Memory.wf (some 0x00) r.sec = true ∧
        Memory.wf (some 0xFF) r.extra = true := by
  simp [Rdm.canonical, and_assoc]

theorem Rdm.canonical_congr {r r' : Rdm} (h1 : r'.mem = r.mem) (h2 : r'.spBuf = r.spBuf) (h3 : r'.sec = r.sec)
    (h4 : r'.extra = r.extra) (h : r.canonical = true) : r'.canonical = true := by
  simpa only [Rdm.canonical, h1, h2, h3, h4] using h

theorem Rdm.copySp_canonical (r : Rdm) (c : Config) (frame : List Byte) (h : r.canonical = true) :
    (r.copySp c frame).canonical = true := by
  rw [Rdm.canonical_iff] at h ⊢
  obtain ⟨h1, h2, h3, h4⟩ := h
  unfold Rdm.copySp
  simp only
  split
  · split
    · exact ⟨h1, h2, Memory.wf_writeRun _ _ _ _ h3, h4⟩
    · split
      · exact ⟨h1, h2, h3, h4⟩
      · split
        · exact ⟨h1, h2, h3, h4⟩
        · exact ⟨Memory.wf_writeRun _ _ _ _ h1, h2, h3, h4⟩
  · exact ⟨h1, h2, h3, h4⟩

theorem Rdm.copyBytes_canonical (r : Rdm) (c : Config) (bytes : List Byte) (h : r.canonical = true) :
    (r.copyBytes c bytes).canonical = true := by
  unfold Rdm.copyBytes
  split
  · exact h
  · exact Rdm.copySp_canonical _ _ _ h

theorem Rdm.readCrc_canonical (r : Rdm) (c : Config) (out : List Byte) (h : r.canonical = true) :
    (r.readCrc c out).2.canonical = true := by
  unfold Rdm.readCrc; simp only; split
  · exact h
  · split <;> exact h

theorem Rdm.readAuth_canonical (r : Rdm) (c : Config) (out : List Byte) (h : r.canonical = true) :
    (r.readAuth c out).2.canonical = true := by
  unfold Rdm.readAuth; simp only; split <;> exact h

theorem Rdm.readEither_canonical (r : Rdm) (c : Config) (out : List Byte) (h : r.canonical = true) :
    (r.readEither c out).2.canonical = true := by
  unfold Rdm.readEither; simp only
  split
  · exact Rdm.readCrc_canonical _ _ _ h
  · split
    · split
      · exact Rdm.readAuth_canonical _ _ _ h
      · exact Rdm.readCrc_canonical _ _ _ h
    · exact Rdm.readCrc_canonical _ _ _ h

theorem Rdm.command_canonical (r : Rdm) (c : Config) (out : List Byte) (h : r.canonical = true) :
    (r.command c out).2.canonical = true := by
  unfold Rdm.command
  simp only
  split
  · exact h
  split
  · split
    · exact Rdm.readEither_canonical _ _ _ h
    · exact Rdm.readCrc_canonical _ _ _ h
  split
  · exact h
  split
  · obtain ⟨h1, h2, h3, h4⟩ := (Rdm.canonical_iff r).1 h
    rw [Rdm.canonical_iff]
    exact ⟨h1, Memory.wf_writeRun _ _ _ _ h2, h3, h4⟩
  split
  · unfold Rdm.readSp; split <;> exact h
  split
  · exact Rdm.copyBytes_canonical _ _ _ h
  split
  · unfold Rdm.sha; simp only; split <;> exact h
  split
  · exact Rdm.readAuth_canonical _ _ _ h
  · exact h

theorem Rdm.continue_canonical (r : Rdm) (c : Config) (out : List Byte) (h : r.canonical = true) :
    (r.continue c out).2.canonical = true := by
  unfold Rdm.continue
  split
  all_goals first | exact h | (split <;> exact h)

theorem Rdm.exchange_canonical (r : Rdm) (c : Config) (out : List Byte) (h : r.canonical = true) :
    (r.exchange c out).2.canonical = true := by
  unfold Rdm.exchange
  cases r.selected
  · exact Rdm.continue_canonical r c out h
  · exact Rdm.command_canonical { r with selected := false } c out h

theorem Rdm.busReset_canonical (r : Rdm) (h : r.canonical = true) : r.busReset.canonical = true := h

theorem Rdm.select_canonical (r : Rdm) (rom : List Byte) (h : r.canonical = true) : (r.select rom).2.canonical = true := h

theorem Rdm.getByte_canonical (r : Rdm) (h : r.canonical = true) : r.getByte.2.canonical = true := by
  unfold Rdm.getByte
  split <;> exact h

theorem Rdm.putByte_canonical (r : Rdm) (c : Config) (b : Byte) (h : r.canonical = true) :
    (r.putByte c b).canonical = true := by
  unfold Rdm.putByte
  split
  · exact h
  · exact Rdm.copyBytes_canonical _ _ _ h

end Sys2Proof.Machine
end

