-- ==== Sys2Proof/Laws/Transport.lean ====
section
/-! SUPPORT. The transport primitives: each keeps the wire frame and issues an event; on a quiet state with an oracle
whose answers are listed, exactly what it does. -/

namespace Sys2Proof.Machine

theorem hostLegal_cons {s : State} {op : HostOp} {rest : List HostOp} (h : s.host = op :: rest) :
    s.hostLegal = true ↔ op.access.legal s.cfg = true ∧ (rest.all fun o => o.access.legal s.cfg) = true := by
  unfold State.hostLegal; rw [h]; simp

theorem landFrom_ends (l : List HostOp) (s : State) (hb : s.busy = true) (hl : s.host = l) :
    Ends (Rel wireView) (RelEvent wireView) s (landFrom l s) := by
  induction l generalizing s with
  | nil => exact Rel.refl _ s
  | cons op rest ih =>
    simp only [landFrom]
    cases he : op.early with
    | none => exact Rel.refl _ s
    | some k =>
      have hq : s.quiet = false := by simp [State.quiet, hl, he]
      simp only
      split
      · have hp := hostPort_busy op.access { s with host := rest } hb
        have hlegal : op.access.legal s.cfg = false → s.hostLegal = false := by
          intro h
          rw [← Bool.not_eq_true, hostLegal_cons hl]
          simp [h]
        cases hr : hostPort op.access { s with host := rest } with
        | done s' =>
          rw [hr] at hp
          cases hp with
          | done an dr =>
            have h1 : Rel wireView s { s with host := rest, answers := an, draws := dr } :=
              ⟨rfl, rfl, rfl, rfl, List.prefix_refl _, fun h => absurd h (by rw [hq]; decide),
                fun h => ((hostLegal_cons hl).1 h).2, .inl rfl, fun h => absurd h (lt_irrefl _), id, id, id⟩
            have h2 := ih { s with host := rest, answers := an, draws := dr } hb rfl
            simp only
            revert h2
            cases landFrom rest { s with host := rest, answers := an, draws := dr } with
            | ok a t => exact fun h2 => h1.trans h2
            | error e t =>
              cases e with
              | raised ph d => exact fun h2 => ⟨h2.1, RelEvent.after h1 h2.2⟩
              | abandoned => exact fun h2 => h1.left h2
              | fault d => exact fun h2 => h1.not_legal h2
              | refused d => exact fun h2 => h1.not_legal h2
        | start w s' => rw [hr] at hp; cases hp
        | reset s' =>
          rw [hr] at hp
          cases hp with
          | reset =>
            exact ⟨rfl, rfl, List.prefix_refl _, fun h => ((hostLegal_cons hl).1 h).2, id, hq⟩
        | fault f => rw [hr] at hp; cases hp with | fault _ h => exact hlegal h
        | refuse r => rw [hr] at hp; cases hp with | refuse _ h => exact hlegal h
      · exact Rel.refl _ s

theorem land_bus (c : Config) : Bus wireView c land := fun s hb _ => landFrom_ends s.host s hb rfl

/-- Landing raises no error of the spec: it ends normally, abandons the command or stops the machine. -/
theorem landFrom_raises (l : List HostOp) (s t : State) (ph : Phase) (c : Cause) :
    landFrom l s ≠ .error (.raised ph c) t := by
  induction l generalizing s with
  | nil => simp [landFrom]
  | cons op rest ih =>
    simp only [landFrom]
    cases op.early with
    | none => simp
    | some k =>
      simp only
      split
      · split
        · exact ih _
        · exact ih _
        · simp
        · simp
        · simp
      · simp

theorem land_raises (s t : State) (ph : Phase) (c : Cause) : land s ≠ .error (.raised ph c) t :=
  landFrom_raises _ _ _ _ _

/-- Nothing lands in a quiet state. -/
theorem land_quiet {s : State} (h : s.quiet = true) : land s = .ok () s := by
  unfold land
  unfold State.quiet at h
  cases hl : s.host with
  | nil => rfl
  | cons op rest =>
    rw [hl] at h
    simp only [landFrom]
    cases he : op.early with
    | none => rfl
    | some k => simp [he] at h

/-- The state after an event, before anything lands. -/
def State.afterEvent (s : State) (e : Event) (d : Device) (draws : Nat) : State :=
  { s with
    dev := d
    draws := draws
    events := s.events ++ [e]
    issued := s.issued + 1
    cont := { s.cont with valid := false } }

theorem event_ends (e : Event) (d : Device) (n : Nat) (s : State) (hb : s.busy = true)
    (hd : s.deviceOk → ∀ r, d = .reference r → r.canonical = true) :
    Ends (RelEvent wireView) (RelEvent wireView) s (event e d n s) := by
  have h1 : RelEvent wireView s (s.afterEvent e d n) :=
    ⟨⟨rfl, rfl, rfl, rfl, List.prefix_append _ _, fun _ => ⟨rfl, rfl⟩, id, .inr rfl, fun _ => rfl, id, hd, id⟩,
      by simp [State.afterEvent]⟩
  have h2 := land_bus s.cfg (s.afterEvent e d n) hb rfl
  show Ends _ _ s (land (s.afterEvent e d n))
  revert h2
  cases land (s.afterEvent e d n) with
  | ok a t => exact fun h2 => h1.before h2
  | error e t =>
    cases e with
    | raised ph d => exact fun h2 => ⟨h2.1, h1.before h2.2.1⟩
    | abandoned => exact fun h2 => h1.1.left h2
    | fault d => exact fun h2 => h1.1.not_legal h2
    | refused d => exact fun h2 => h1.1.not_legal h2

theorem event_quiet (e : Event) (d : Device) (n : Nat) (s : State) (h : s.quiet = true) :
    event e d n s = .ok () (s.afterEvent e d n) := land_quiet (s := s.afterEvent e d n) h

/-- An event that hands back an answer. -/
theorem ends_answer {α : Type} {ok err : State → State → Prop} {s : State} (a : α) (r : EStateM.Result Stop State Unit)
    (h : Ends ok err s r) :
    Ends ok err s (match r with | .ok _ s' => EStateM.Result.ok a s' | .error e s' => .error e s') := by
  cases r with
  | ok _ t => exact h
  | error e t => cases e <;> exact h

theorem tReset_event (c : Config) : BusEvent wireView c tReset := by
  intro s hb _
  unfold tReset
  cases hd : s.dev with
  | oracle o => exact event_ends _ _ _ s hb (by simp)
  | reference r => exact event_ends _ _ _ s hb (fun hk r' h => by cases h; exact hk r hd)

theorem tSelect_event (c : Config) (resume : Bool) : BusEvent wireView c (tSelect resume) := by
  intro s hb _
  refine ends_answer _ _ (event_ends _ _ _ s hb ?_)
  intro hk r hr
  unfold selectAnswer at hr
  cases hd : s.dev with
  | oracle o => rw [hd] at hr; simp only at hr; split at hr <;> simp at hr
  | reference r0 => rw [hd] at hr; cases hr; exact hk r0 hd

theorem tExchange_event (c : Config) (out : List Byte) : BusEvent wireView c (tExchange out) := by
  intro s hb _
  refine ends_answer _ _ (event_ends _ _ _ s hb ?_)
  intro hk r hr
  unfold exchangeAnswer at hr
  cases hd : s.dev with
  | oracle o => rw [hd] at hr; simp only at hr; split at hr <;> simp at hr
  | reference r0 => rw [hd] at hr; cases hr; exact Rdm.exchange_canonical r0 _ _ (hk r0 hd)

theorem tPutByte_event (c : Config) (b : Byte) : BusEvent wireView c (tPutByte b) := by
  intro s hb _
  unfold tPutByte
  cases hd : s.dev with
  | oracle o => exact event_ends _ _ _ s hb (by simp)
  | reference r =>
    exact event_ends _ _ _ s hb (fun hk r' h => by cases h; exact Rdm.putByte_canonical r _ _ (hk r hd))

theorem tGetByte_event (c : Config) : BusEvent wireView c tGetByte := by
  intro s hb _
  refine ends_answer _ _ (event_ends _ _ _ s hb ?_)
  intro hk r hr
  unfold getByteAnswer at hr
  cases hd : s.dev with
  | oracle o => rw [hd] at hr; simp only at hr; split at hr <;> simp at hr
  | reference r0 => rw [hd] at hr; cases hr; exact Rdm.getByte_canonical r0 (hk r0 hd)

theorem tSetPowerMode_event (c : Config) (ms : Nat) : BusEvent wireView c (tSetPowerMode ms) :=
  fun s hb _ => event_ends _ _ _ s hb id

theorem tStartPowerDelivery_event (c : Config) : BusEvent wireView c tStartPowerDelivery :=
  fun s hb _ => event_ends _ _ _ s hb id

theorem tSleep_event (c : Config) (ms : Nat) : BusEvent wireView c (tSleep ms) := fun s hb _ => event_ends _ _ _ s hb id

end Sys2Proof.Machine
end

