-- ==== Sys2Proof/Laws/Procedures.lean ====
section
/-! SUPPORT. What each procedure of the bus phase keeps: the wire frames keep everything `wireView` sees, the scratchpad
procedures everything `busView` sees, the secret-engine steps everything `secView` sees; every raise follows an event. -/

namespace Sys2Proof.Machine

section Wire

variable {c : Config}

theorem selectDevice_event : BusEvent wireView c selectDevice := by
  have hrest : ∀ resume : Bool, BusEvent wireView c (do
      let ok ← tSelect resume
      ensure ok .select
      modify fun s => { s with speedVerified := true, resumeEligible := true }) := by
    intro resume
    refine (tSelect_event c resume).bind_after fun ok => (ensure_after ok _).bind fun _ => ?_
    intro s _ _
    exact ⟨rfl, rfl, rfl, rfl, List.prefix_refl _, fun _ => ⟨rfl, rfl⟩, id, .inl rfl, fun h => absurd h (lt_irrefl _),
      fun _ => rfl, id, id⟩
  unfold selectDevice
  refine Sat.get_bind fun s hs => ?_
  dsimp only
  split
  · exact hrest _
  · exact (tReset_event c).bus.bind_event fun _ => hrest _

/-- An exchange, a check of its answer, and a value. -/
theorem exchange_check {α : Type} (out : List Byte) (ok : List Byte → Bool) (d : Cause) (f : List Byte → α) :
    BusEvent wireView c (do
      let a ← tExchange out
      ensure (ok a) d
      pure (f a)) :=
  (tExchange_event c out).bind_after fun _ => (ensure_after _ _).bind fun _ => (Bus.pure _).after

theorem frameReadCrc_event (k : Bank) (a : Nat) : BusEvent wireView c (frameReadCrc k a) := exchange_check _ _ _ _

theorem frameReadCrcCont_event (k : Bank) : BusEvent wireView c (frameReadCrcCont k) := exchange_check _ _ _ _

theorem frameReadCrcAa_event (k : Bank) (a : Nat) : BusEvent wireView c (frameReadCrcAa k a) :=
  (tExchange_event c _).bind_after fun _ => (ensure_after _ _).bind fun _ => (frameReadCrcCont_event k).bus.after

theorem frameReadRaw_event (k : Bank) (a n : Nat) : BusEvent wireView c (frameReadRaw k a n) :=
  (tExchange_event c _).bind_after fun _ => (Bus.pure _).after

theorem frameReadRawCont_event (n : Nat) : BusEvent wireView c (frameReadRawCont n) := tExchange_event c _

theorem frameWriteSp_event (k : Bank) (ta : Nat) (d : List Byte) : BusEvent wireView c (frameWriteSp k ta d) :=
  (tExchange_event c _).bind_after fun _ => ensure_after _ _

theorem frameReadSp_event (k : Bank) (n : Nat) : BusEvent wireView c (frameReadSp k n) := exchange_check _ _ _ _

theorem frameSha_event (k : Bank) (a : Nat) (fn : Byte) : BusEvent wireView c (frameSha k a fn) := by
  unfold frameSha
  refine Sat.get_bind fun s hs => ?_
  exact (tExchange_event c _).bind_after fun _ => (tSleep_event c _).bus.after.bind fun _ =>
    (tGetByte_event c).bus.after.bind fun _ => ensure_after _ _

theorem frameReadAuth_event (k : Bank) (a : Nat) : BusEvent wireView c (frameReadAuth k a) := by
  unfold frameReadAuth
  refine Sat.get_bind fun s hs => ?_
  exact (tExchange_event c _).bind_after fun _ => (ensure_after _ _).bind fun _ =>
    (tSleep_event c _).bus.after.bind fun _ => (tExchange_event c _).bus.after.bind fun _ =>
      (ensure_after _ _).bind fun _ => (Bus.pure _).after

theorem pageRead_event (b p : Nat) (cok : Bool) : BusEvent wireView c (pageRead b p cok) := by
  unfold pageRead
  refine Sat.get_bind fun s hs => ?_
  dsimp only
  split
  · exact frameReadCrcCont_event _
  · refine selectDevice_event.bus.bind_event fun _ => ?_
    split
    · exact frameReadCrcAa_event _ _
    · exact frameReadCrc_event _ _

theorem rawRead_event (b r n : Nat) (cok : Bool) : BusEvent wireView c (rawRead b r n cok) := by
  unfold rawRead
  refine Sat.get_bind fun s hs => ?_
  dsimp only
  split
  · exact frameReadRawCont_event _
  · exact selectDevice_event.bus.bind_event fun _ => frameReadRaw_event _ _ _

theorem readCtl_event (l cp : Nat) : BusEvent wireView c (readCtl l cp) :=
  (pageRead_event l cp false).bind_after fun _ => (Bus.pure _).after

theorem testBit_event (l q : Nat) : BusEvent wireView c (testBit l q) := by
  unfold testBit
  refine Sat.get_bind fun s hs => ?_
  exact (readCtl_event _ _).bind_after fun _ => (Bus.pure _).after

theorem lockCheck_bus (b p : Nat) : Bus wireView c (lockCheck b p) := by
  unfold lockCheck
  refine Sat.get_bind fun s hs => ?_
  split
  · exact Bus.pure _
  · exact ((testBit_event _ _).bind_after fun _ => ensure_after _ _).bus

theorem lockCheckPages_bus (b n : Nat) : ∀ p, Bus wireView c (lockCheckPages b p n) := by
  induction n with
  | zero => intro p; exact Bus.pure _
  | succ n ih => intro p; exact (lockCheck_bus b p).bind fun _ => ih _

theorem redirectLockCheck_bus (k : Bank) (p : Nat) : Bus wireView c (redirectLockCheck k p) := by
  unfold redirectLockCheck
  split
  · exact Bus.pure _
  · exact ((testBit_event _ _).bind_after fun _ => ensure_after _ _).bus

theorem verify_event (b ta : Nat) (d : List Byte) : BusEvent wireView c (verify b ta d) := by
  unfold verify
  refine Sat.get_bind fun s hs => ?_
  dsimp only
  split
  · exact (pageRead_event _ _ _).bind_after fun _ => ensure_after _ _
  · exact (rawRead_event _ _ _ _).bind_after fun _ => ensure_after _ _

theorem macFor_event (b ta : Nat) (d : List Byte) : BusEvent wireView c (macFor b ta d) := by
  unfold macFor
  refine Sat.get_bind fun s hs => ?_
  exact (pageRead_event _ _ _).bind_after fun _ => (Bus.pure _).after

theorem poll_after (k : Bank) (n : Nat) : BusAfter wireView c (poll k n) := by
  induction n with
  | zero => exact fail_after _
  | succ n ih =>
    refine (tGetByte_event c).bus.after.bind fun v => ?_
    split
    · exact (Bus.pure _).after
    · split
      · exact ih
      · exact fail_after _

theorem sendCommit_event (out : List Byte) : BusEvent wireView c (sendCommit c out) := by
  unfold sendCommit
  split
  · exact (tExchange_event c _).bind_after fun _ => (tSetPowerMode_event c _).bus.after.bind fun _ =>
      (tStartPowerDelivery_event c).bus.after.bind fun _ => (tPutByte_event c _).bus.after
  · exact (tExchange_event c _).bind_after fun _ => (Bus.pure _).after

theorem readMorePages_bus (b n : Nat) : ∀ p, Bus wireView c (readMorePages b p n) := by
  induction n with
  | zero => intro p; exact Bus.pure _
  | succ n ih => intro p; exact (pageRead_event b p true).bus.bind fun _ => (ih _).bind fun _ => Bus.pure _

theorem readWholePage_event (b p : Nat) (f : Bool) : BusEvent wireView c (readWholePage b p f) := by
  unfold readWholePage
  refine Sat.get_bind fun s hs => ?_
  dsimp only
  split
  · exact (pageRead_event _ _ _).bind_after fun _ => (Bus.pure _).after
  · exact (rawRead_event _ _ _ _).bind_after fun _ => (Bus.pure _).after

end Wire

/-! The scratchpad procedures. -/

section Scratchpad

variable {c : Config}

theorem BusEvent.toBus {α : Type} {p : Proc α} (h : BusEvent wireView c p) : BusEvent busView c p :=
  (Sat.weaken wire_bus).2.1 h

theorem Bus.toBus {α : Type} {p : Proc α} (h : Bus wireView c p) : Bus busView c p := (Sat.weaken wire_bus).1 h

theorem BusAfter.toBus {α : Type} {p : Proc α} (h : BusAfter wireView c p) : BusAfter busView c p :=
  (Sat.weaken wire_bus).2.2 h

/-- Forgetting what the device scratchpad holds keeps everything. -/
theorem setPhase_bus (p : SpPhase) (h : p = .unknown ∨ p = .idle) : Bus busView c (setPhase p) := by
  intro s _ _
  exact ⟨rfl, rfl, rfl, rfl, List.prefix_refl _, fun _ => ⟨rfl, rfl⟩, id, .inl rfl, fun h => absurd h (lt_irrefl _), id, id,
    fun _ => by rcases h with rfl | rfl <;> simp [Scratch.sound]⟩

theorem setScratch_bus (p : Scratch) (h : p.sound c) : Bus busView c (setScratch p) := by
  intro s _ hc
  exact ⟨rfl, rfl, rfl, rfl, List.prefix_refl _, fun _ => ⟨rfl, rfl⟩, id, .inl rfl, fun h => absurd h (lt_irrefl _), id, id,
    fun _ => by rw [hc]; exact h⟩

/-- What a stage of `d` at `ta` needs (43_scratchpad.md R202). -/
def StageFits (c : Config) (b ta : Nat) (d : List Byte) : Prop :=
  b < c.nbanks ∧ 1 ≤ d.length ∧ (BitVec.ofNat 16 ta).toNat % c.spLen + d.length ≤ c.spLen ∧
    expE c ta d.length = expE c (BitVec.ofNat 16 ta).toNat d.length

theorem expE_masked (c : Config) (ta n : Nat) : expE c ta n &&& 0x1F = expE c ta n := by
  unfold expE
  rw [BitVec.and_assoc]
  rfl

/-- After a stage the record is what was staged. -/
def Staged (c : Config) (b ta : Nat) (d : List Byte) (t : State) : Prop :=
  t.sp = ⟨.staged, b, BitVec.ofNat 16 ta, expE c ta d.length, d⟩

theorem StageFits.sound {b ta : Nat} {d : List Byte} (h : StageFits c b ta d) :
    (⟨.staged, b, BitVec.ofNat 16 ta, expE c ta d.length, d⟩ : Scratch).sound c :=
  fun _ => ⟨h.1, h.2.1, h.2.2.1, by rw [expE_masked]; exact h.2.2.2⟩

theorem stage_event {b ta : Nat} {d : List Byte} (h : StageFits c b ta d) :
    Sat c (fun s t => RelEvent busView s t ∧ Staged c b ta d t) (RelEvent busView) (stage b ta d) := by
  unfold stage
  have h1 : BusEvent busView c (do setPhase .unknown; selectDevice) :=
    (setPhase_bus _ (.inl rfl)).bind_event fun _ => selectDevice_event.toBus
  have h2 : Sat c (fun s t => Rel busView s t ∧ Staged c b ta d t) (Rel busView) (do
      let s ← get
      frameWriteSp (s.bank b) ta d
      setScratch ⟨.staged, b, BitVec.ofNat 16 ta, expE s.cfg ta d.length, d⟩) := by
    refine Sat.get_bind fun s hs => ?_
    rw [hs]
    refine Sat.bind (err1 := RelEvent busView) (ok2 := fun s t => Rel busView s t ∧ Staged c b ta d t)
      (err2 := RelEvent busView) (frameWriteSp_event _ _ _).toBus
      (fun _ => ?_) (fun _ _ h => h.1.unit) (fun _ _ h => h.1)
      (fun _ _ _ h k => ⟨h.1.trans k.1, k.2⟩) (fun _ _ _ h k => h.1.trans k.1)
    intro s hb hc
    exact ⟨setScratch_bus _ h.sound s hb hc, rfl⟩
  have := Sat.bind h1 (fun _ => h2) (fun _ _ h => h.1.unit) (fun _ _ h => h)
    (ok := fun s t => RelEvent busView s t ∧ Staged c b ta d t) (err := RelEvent busView)
    (fun _ _ _ h k => ⟨h.before k.1, k.2⟩) (fun _ _ _ h k => h.before k)
  rwa [bind_assoc] at this

/-- Confirming keeps a sound record sound: what is confirmed is what was staged. -/
theorem confirm_ends (s : State) (hb : s.busy = true) (hc : s.cfg = c) (hs : s.sp.phase = .staged ∨ s.sp.phase = .confirmed) :
    Ends (RelEvent busView) (RelEvent busView) s (confirm s) := by
  unfold confirm
  rw [get_bind]
  have hrest : BusEvent busView c (do
      let r ← frameReadSp (s.bank s.sp.bank) s.sp.n
      ensure (confirms s.cfg s.sp r) .confirm) :=
    (frameReadSp_event _ _).toBus.bind_after fun _ => ensure_after _ _
  have hall := (setPhase_bus .unknown (.inl rfl)).bind_event (c := c) fun _ =>
    selectDevice_event.toBus.bus.bind_event fun _ => hrest
  have h := hall s hb hc
  rw [bind_ok (setPhase_run _ s)] at h ⊢
  generalize { s with sp := { s.sp with phase := .unknown } } = s1 at h ⊢
  cases h1 : selectDevice s1 with
  | error e t => rw [bind_error h1] at h ⊢; cases e <;> exact h
  | ok a t =>
    rw [bind_ok h1] at h ⊢
    cases h2 : frameReadSp (s.bank s.sp.bank) s.sp.n t with
    | error e u => rw [bind_error h2] at h ⊢; cases e <;> exact h
    | ok r u =>
      rw [bind_ok h2] at h ⊢
      cases h3 : ensure (confirms s.cfg s.sp r) .confirm u with
      | error e u' => rw [h3] at h; rw [bind_error h3]; cases e <;> exact h
      | ok _ u' =>
        rw [h3] at h; rw [bind_ok h3]
        rw [ensure_run] at h3
        split at h3
        · rename_i hconf
          cases h3
          refine ⟨{ h.1 with scratch := ?_, view := h.1.view }, h.2⟩
          intro hs2 _
          unfold confirms at hconf
          simp only [Bool.and_eq_true, beq_iff_eq] at hconf
          obtain ⟨a1, a2, a3, a4⟩ := hs2 hs
          exact ⟨a1, a2, a3, hconf.1.1.2⟩
        · cases h3

/-- `Commit` from any state: the record is used up. -/
theorem commit_event (mac : List Byte) : BusEvent busView c (commit mac) := by
  unfold commit
  refine Sat.get_bind fun s hs => ?_
  rw [hs]
  exact (setPhase_bus _ (.inl rfl)).bind_event fun _ => selectDevice_event.toBus.bind_after fun _ =>
    (sendCommit_event _).toBus.bus.after.bind fun _ => (tSleep_event c _).toBus.bus.after.bind fun _ =>
      (poll_after _ _).toBus.bind fun _ => (setPhase_bus _ (.inr rfl)).after

/-- `Stage` and `Confirm`, then a procedure. -/
theorem stage_confirm_event {γ : Type} {v : State → γ} {α : Type} {b ta : Nat} {d : List Byte} {f : Unit → Proc α}
    (hv : ∀ s t, busView t = busView s → v t = v s) (h : StageFits c b ta d) (hf : ∀ a, BusAfter v c (f a)) :
    BusEvent v c (do
      stage b ta d
      let a ← confirm
      f a) := by
  have h1 : Sat c (RelEvent busView) (RelEvent busView) (do stage b ta d; confirm) :=
    Sat.bind_from (P := Staged c b ta d) (stage_event h) (fun _ _ h => h.2)
      (fun _ t hb hc hP => confirm_ends t hb hc (.inl (by rw [hP])))
      (fun _ _ h => h.1.1.unit) (fun _ _ h => h) (fun _ _ _ h k => h.1.before k.1) (fun _ _ _ h k => h.1.before k.1)
  have h2 := ((Sat.weaken hv).2.1 h1).bind_after hf
  rwa [bind_assoc] at h2

/-- Two settings of the record that end in UNKNOWN. -/
theorem setScratch_forget {α : Type} (p : Scratch) {f : Unit → Proc α}
    (hf : ∀ a, BusAfter busView c (f a)) : BusAfter busView c (do
      setScratch p
      let a ← setPhase .unknown
      f a) := by
  have h : Bus busView c (setScratch { p with phase := .unknown }) := setScratch_bus _ (by simp [Scratch.sound])
  exact h.after.bind hf

/-- `Stage` and `Confirm` of a record that is then consumed without a commit (43_scratchpad.md R200): any record will do. -/
theorem stage_confirm_forget_event {α : Type} (b ta : Nat) (d : List Byte) {f : Unit → Proc α}
    (hf : ∀ a, BusAfter busView c (f a)) :
    BusEvent busView c (do
      stage b ta d
      confirm
      let a ← setPhase .unknown
      f a) := by
  have hconf : ∀ p : Scratch, BusAfter busView c (do
      setScratch p
      confirm
      let a ← setPhase .unknown
      f a) := by
    intro p s hb hc
    have hrest : BusAfter busView c (do
        setScratch { p with phase := .unknown }
        selectDevice
        let r ← frameReadSp (s.bank p.bank) p.n
        ensure (confirms s.cfg p r) .confirm
        setScratch { p with phase := .confirmed, es := r.es }
        let a ← setPhase .unknown
        f a) :=
      (setScratch_bus _ (by simp [Scratch.sound])).after.bind fun _ => selectDevice_event.toBus.bus.after.bind fun _ =>
        (frameReadSp_event _ _).toBus.bus.after.bind fun r => (ensure_after _ _).bind fun _ =>
          setScratch_forget _ hf
    have h := hrest s hb hc
    have heq : (do
        setScratch p
        confirm
        let a ← setPhase .unknown
        f a) s = (do
        setScratch { p with phase := .unknown }
        selectDevice
        let r ← frameReadSp (s.bank p.bank) p.n
        ensure (confirms s.cfg p r) .confirm
        setScratch { p with phase := .confirmed, es := r.es }
        let a ← setPhase .unknown
        f a) s := by
      rw [bind_ok (setScratch_run p s), bind_ok (setScratch_run _ s)]
      unfold confirm
      simp only [bind_assoc]
      rw [get_bind, bind_ok (setPhase_run _ _)]
      rfl
    rw [heq]
    exact h
  have hstage : BusEvent busView c (do
      setPhase .unknown
      selectDevice
      let s ← get
      frameWriteSp (s.bank b) ta d
      setScratch ⟨.staged, b, BitVec.ofNat 16 ta, expE s.cfg ta d.length, d⟩
      confirm
      let a ← setPhase .unknown
      f a) := by
    refine (setPhase_bus _ (.inl rfl)).bind_event fun _ => selectDevice_event.toBus.bind_after fun _ => ?_
    refine Sat.get_bind fun s hs => ?_
    exact (frameWriteSp_event _ _ _).toBus.bus.after.bind fun _ => hconf _
  unfold stage
  simp only [bind_assoc]
  exact hstage

theorem writeChunk_event {b ta : Nat} {d : List Byte} (check : Bool) (h : StageFits c b ta d) :
    BusEvent busView c (writeChunk b ta d check) := by
  have hrest : ∀ mac : List Byte, BusEvent busView c (do
      stage b ta d
      confirm
      commit mac
      if check then verify b ta d else pure ()) := by
    intro mac
    refine stage_confirm_event (fun _ _ h => h) h fun _ => (commit_event mac).bus.after.bind fun _ => ?_
    split
    · exact (verify_event _ _ _).toBus.bus.after
    · exact (Bus.pure _).after
  unfold writeChunk
  refine Sat.get_bind fun s hs => ?_
  dsimp only
  split
  · exact (macFor_event _ _ _).toBus.bus.bind_event fun mac => hrest mac
  · exact (Bus.pure _).bind_event fun mac => hrest mac

theorem bitClear_event {l q : Nat} (h : StageFits c l (devAddr (c.bank l) (byteIndex q)) [0xFF ^^^ bitMask q]) :
    BusEvent busView c (bitClear l q) := by
  unfold bitClear
  refine Sat.get_bind fun s hs => ?_
  subst hs
  exact (writeChunk_event false h).bind_after fun _ => (readCtl_event _ _).toBus.bus.after.bind fun _ => ensure_after _ _

theorem writeChunks_bus (b : Nat) (d : List Byte) (check : Bool) (cs : List Chunk)
    (h : ∀ ch ∈ cs, StageFits c b ch.ta (slice d ch.i (ch.i + ch.m))) : Bus busView c (writeChunks b d check cs) := by
  induction cs with
  | nil => exact Bus.pure _
  | cons ch rest ih =>
    exact (writeChunk_event check (h ch List.mem_cons_self)).bus.bind fun _ =>
      ih fun ch' hc => h ch' (List.mem_cons_of_mem _ hc)

theorem writeRange_bus (b r : Nat) (d : List Byte) (check : Bool)
    (h : ∀ ch ∈ chunks c (c.bank b) r d.length, StageFits c b ch.ta (slice d ch.i (ch.i + ch.m))) :
    Bus busView c (writeRange b r d check) := by
  unfold writeRange
  refine Sat.get_bind fun s hs => ?_
  subst hs
  exact (lockCheckPages_bus _ _ _).toBus.bind fun _ => writeChunks_bus _ _ _ _ h

end Scratchpad

/-! The secret engine. -/

section Secret

variable {c : Config}

theorem BusEvent.toSec {α : Type} {p : Proc α} (h : BusEvent busView c p) : BusEvent secView c p :=
  (Sat.weaken bus_sec).2.1 h

theorem Bus.toSec {α : Type} {p : Proc α} (h : Bus busView c p) : Bus secView c p := (Sat.weaken bus_sec).1 h

theorem setHostSecret_bus (v : List Byte) : Bus secView c (setHostSecret v) := fun _ _ _ =>
  ⟨rfl, rfl, rfl, rfl, List.prefix_refl _, fun _ => ⟨rfl, rfl⟩, id, .inl rfl, fun h => absurd h (lt_irrefl _), id, id, id⟩

theorem setAuth_bus (a : AuthState) : Bus secView c (setAuth a) := fun _ _ _ =>
  ⟨rfl, rfl, rfl, rfl, List.prefix_refl _, fun _ => ⟨rfl, rfl⟩, id, .inl rfl, fun h => absurd h (lt_irrefl _), id, id, id⟩

theorem setResult_bus (v : Word) : Bus secView c (setResult v) := fun _ _ _ =>
  ⟨rfl, rfl, rfl, rfl, List.prefix_refl _, fun _ => ⟨rfl, rfl⟩, id, .inl rfl, fun h => absurd h (lt_irrefl _), id, id, id⟩

/-- Dropping the secret on an error changes nothing else. -/
theorem onBusError_bus {α : Type} {p : Proc α} (hp : Bus secView c p) : Bus secView c (onBusError dropSecret p) := by
  intro s hb hc
  have h := hp s hb hc
  unfold onBusError
  cases hr : p s with
  | ok a t => rw [hr] at h; exact h
  | error e t =>
    rw [hr] at h
    cases e with
    | raised ph d =>
      obtain ⟨rfl, h2⟩ := h
      exact ⟨rfl, ⟨⟨h2.1.view, h2.1.cfg, h2.1.busy, h2.1.data, h2.1.events, h2.1.quiet, h2.1.legal, h2.1.cont,
        h2.1.contEvent, h2.1.session, h2.1.device, h2.1.scratch⟩, h2.2⟩⟩
    | abandoned => exact h
    | fault d => exact h
    | refused d => exact h

theorem shaStage_event (b p : Nat) (sp15 : List Byte) : BusEvent busView c (shaStage b p sp15) := by
  unfold shaStage
  refine Sat.get_bind fun s hs => ?_
  exact stage_confirm_forget_event _ _ _ fun _ => selectDevice_event.toBus.bus.after

theorem shaStep_event (b p : Nat) (fn : Byte) : BusEvent busView c (shaStep b p fn) := by
  unfold shaStep
  refine Sat.get_bind fun s hs => ?_
  exact (frameSha_event _ _ _).toBus.bind_after fun _ => (setPhase_bus _ (.inr rfl)).after

theorem shaRound_event (b p : Nat) (sp15 : List Byte) (fn : Byte) : BusEvent busView c (shaRound b p sp15 fn) :=
  (shaStage_event b p sp15).bind_after fun _ => (shaStep_event _ _ _).bus.after

end Secret

end Sys2Proof.Machine
end

