-- ==== Sys2Proof/Laws/Config.lean ====
section
/-! SUPPORT. What a well-formed configuration gives (00_scope.md R9), and that everything the core stages fits one
scratchpad and a 16-bit address (43_scratchpad.md R202). -/

namespace Sys2Proof.Machine

theorem bank_mem {c : Config} {b : Nat} (h : b < c.nbanks) : c.bank b ∈ c.banks := by
  unfold Config.bank Config.nbanks at *
  rw [List.getD_eq_getElem _ _ h]
  exact List.getElem_mem h

theorem bank_zipIdx {c : Config} {b : Nat} (h : b < c.nbanks) : (c.bank b, b) ∈ c.banks.zipIdx := by
  unfold Config.bank Config.nbanks at *
  rw [List.getD_eq_getElem _ _ h]
  simp [List.mem_zipIdx_iff_getElem?]

/-- The parts of a well-formed configuration. -/
theorem wf_parts {c : Config} (h : c.wf = true) :
    wfRanges c = true ∧ wf1 c = true ∧ wf2 c = true ∧ wf3 c = true ∧ wf4 c = true ∧ wf5 c = true ∧ wf6 c = true ∧
      wf7 c = true ∧ wf8 c = true ∧ wf9 c = true ∧ wf10 c = true ∧ wf11 c = true ∧ wfDefaults c = true := by
  simpa [Config.wf, and_assoc] using h

theorem wf_nbanks {c : Config} (h : c.wf = true) : c.nbanks ≤ 32 := by
  have := (wf_parts h).1
  simp only [wfRanges, Bool.and_eq_true, decide_eq_true_eq] at this
  exact this.1.1.2

theorem wf_pollMax {c : Config} (h : c.wf = true) : 1 ≤ c.pollMax := by
  have := (wf_parts h).1
  simp only [wfRanges, Bool.and_eq_true, decide_eq_true_eq] at this
  exact this.1.2

theorem wf_spLen {c : Config} (h : c.wf = true) : c.spLen = 8 ∨ c.spLen = 16 ∨ c.spLen = 32 := by
  have := (wf_parts h).2.2.2.2.2.2.2.2.1
  simp only [wf8, Bool.and_eq_true, Bool.or_eq_true, beq_iff_eq] at this
  tauto

/-- The size and place of an existing bank. -/
theorem wf_bank {c : Config} (h : c.wf = true) {b : Nat} (hb : b < c.nbanks) :
    1 ≤ (c.bank b).pageLength ∧ (c.bank b).pageLength ≤ 128 ∧ (c.bank b).pageCount ≤ 255 ∧
      (c.bank b).base + (c.bank b).pageCount * (c.bank b).pageLength ≤ 65536 ∧
      (c.bank b).base % (c.bank b).pageLength = 0 ∧
      (c.bank b).pageLength + (c.bank b).extraInfoLength + 20 ≤ 256 ∧ (c.bank b).extraInfoLength ≤ 16 := by
  obtain ⟨h0, h1, -, h3, -, -, -, -, -, h9, -⟩ := wf_parts h
  have hm := bank_mem hb
  simp only [wfRanges, wf1, wf3, wf9, Bool.and_eq_true, List.all_eq_true, decide_eq_true_eq, beq_iff_eq] at h0 h1 h3 h9
  have a0 := h0.2 _ hm
  have a1 := h1.2 _ hm
  have a3 := h3 _ hm
  have a9 := h9 _ hm
  unfold bankSize at a1
  unfold bufLen at a9
  refine ⟨a0.1.1.1.1.1, a0.1.1.1.1.2, a0.1.1.2, by omega, a3, a9, a0.2⟩

/-- The links of an existing bank name existing banks that hold their bits and bytes. -/
theorem wf_links {c : Config} (h : c.wf = true) {b : Nat} (hb : b < c.nbanks) :
    (∀ l, (c.bank b).lockBank = some l → l < c.nbanks ∧
        (c.bank b).lockOffset + (c.bank b).pageCount ≤ 8 * (c.bank l).pageLength * (c.bank l).pageCount) ∧
      (∀ l, (c.bank b).rlockBank = some l → l < c.nbanks ∧
        (c.bank b).rlockOffset + (c.bank b).pageCount ≤ 8 * (c.bank l).pageLength * (c.bank l).pageCount) ∧
      (∀ l, (c.bank b).redirBank = some l → l < c.nbanks ∧
        (c.bank b).redirOffset + (c.bank b).pageCount ≤ (c.bank l).pageLength * (c.bank l).pageCount) := by
  obtain ⟨-, -, -, -, h4, h5, -⟩ := wf_parts h
  have hm := bank_zipIdx hb
  simp only [wf4, wf5, Bool.and_eq_true, List.all_eq_true] at h4 h5
  have a4 := h4 _ hm
  have a5 := h5 _ hm
  refine ⟨fun l hl => ?_, fun l hl => ?_, fun l hl => ?_⟩
  · have := a4.1.1
    rw [hl] at this
    simp only [lockLinkOk, Bool.and_eq_true, decide_eq_true_eq] at this
    exact ⟨this.1.1.1.1.1.1.1, this.2⟩
  · have := a4.1.2
    rw [hl] at this
    simp only [lockLinkOk, Bool.and_eq_true, decide_eq_true_eq] at this
    exact ⟨this.1.1.1.1.1.1.1, this.2⟩
  · rw [hl] at a5
    simp only [redirLinkOk, Bool.and_eq_true, decide_eq_true_eq] at a5
    exact ⟨a5.1.1.1.1.1, a5.2⟩

/-- What a SHA-capable bank means for the configuration (WF6, WF8, WF11). -/
theorem wf_sha {c : Config} (h : c.wf = true) {b : Nat} (hb : b < c.nbanks) (hs : (c.bank b).shaCapable = true) :
    (c.bank b).pageLength = 32 ∧ (c.bank b).crcBytes = 2 ∧ (c.bank b).pageAutoCrc = true ∧
      c.spSecretOffset + 15 ≤ c.spLen ∧ c.chalOffset + c.chalLen ≤ c.spLen ∧ c.secretBase % 8 = 0 ∧
      c.secretBase + 64 ≤ 65536 := by
  obtain ⟨-, -, -, -, -, -, h6, -, h8, -, -, h11, -⟩ := wf_parts h
  have hm := bank_mem hb
  have hany : anySha c = true := by
    simp only [anySha, List.any_eq_true]
    exact ⟨_, hm, hs⟩
  simp only [wf6, wf8, wf11, hany, Bool.and_eq_true, Bool.or_eq_true, List.all_eq_true, decide_eq_true_eq, beq_iff_eq,
    Bool.not_eq_true', reduceCtorEq, false_or] at h6 h8 h11
  have a6 := (h6 _ hm).1
  simp only [hs, false_or, reduceCtorEq] at a6
  exact ⟨a6.1.1.1.1.1, a6.1.1.1.1.2, a6.1.1.1.2, h8.2.1, h8.2.2, h11.1.1, h11.1.2⟩

theorem wf_authenticated {c : Config} (h : c.wf = true) {b : Nat} (hb : b < c.nbanks)
    (ha : (c.bank b).authenticated = true) : (c.bank b).shaCapable = true := by
  obtain ⟨-, -, -, -, -, -, h6, -⟩ := wf_parts h
  simp only [wf6, Bool.and_eq_true, Bool.or_eq_true, List.all_eq_true] at h6
  have a6 := (h6 _ (bank_mem hb)).2
  simpa [ha] using a6

theorem toNat_wire {a : Nat} (h : a < 65536) : (BitVec.ofNat 16 a).toNat = a := by
  rw [BitVec.toNat_ofNat]; omega

theorem stageFits_of {c : Config} {b ta : Nat} {d : List Byte} (hb : b < c.nbanks) (hta : ta < 65536) (h1 : 1 ≤ d.length)
    (h2 : ta % c.spLen + d.length ≤ c.spLen) : StageFits c b ta d :=
  ⟨hb, h1, by rw [toNat_wire hta]; exact h2, by rw [toNat_wire hta]⟩

theorem stageFits_one {c : Config} (h : c.wf = true) {b ta : Nat} (v : Byte) (hb : b < c.nbanks) (hta : ta < 65536) :
    StageFits c b ta [v] := by
  refine stageFits_of hb hta (by simp) ?_
  have : ta % c.spLen < c.spLen := Nat.mod_lt _ (by rcases wf_spLen h with h | h | h <;> omega)
  simp only [List.length_singleton]; omega

/-- A bit of a control bank lies in it, so its byte can be staged. -/
theorem bit_fits {c : Config} (h : c.wf = true) {l q : Nat} (hl : l < c.nbanks)
    (hq : q < 8 * (c.bank l).pageLength * (c.bank l).pageCount) (v : Byte) :
    StageFits c l (devAddr (c.bank l) (byteIndex q)) [v] := by
  refine stageFits_one h v hl ?_
  have hb := wf_bank h hl
  unfold devAddr byteIndex
  rw [Nat.shiftRight_eq_div_pow]
  have h1 : q < 8 * ((c.bank l).pageCount * (c.bank l).pageLength) := by
    rw [Nat.mul_comm (c.bank l).pageCount, ← Nat.mul_assoc]; exact hq
  omega

/-- A chunk of a write that stays inside its bank. -/
structure Chunk.Inside (c : Config) (k : Bank) (r n : Nat) (ch : Chunk) : Prop where
  ta : ch.ta = devAddr k (r + ch.i)
  full : ch.m = chunkLength c k (r + ch.i) (n - ch.i)
  pos : 1 ≤ ch.m
  stop : ch.i + ch.m ≤ n
  fits : ch.ta % c.spLen + ch.m ≤ c.spLen
  page : (r + ch.i) % k.pageLength + ch.m ≤ k.pageLength
  group : k.authenticated = true → ch.ta % 8 + ch.m ≤ 8

theorem chunkLength_bounds {c : Config} {k : Bank} (hsp : 1 ≤ c.spLen) (hpl : 1 ≤ k.pageLength) (r n : Nat) (hn : 1 ≤ n) :
    1 ≤ chunkLength c k r n ∧ chunkLength c k r n ≤ n ∧ devAddr k r % c.spLen + chunkLength c k r n ≤ c.spLen ∧
      r % k.pageLength + chunkLength c k r n ≤ k.pageLength ∧
      (k.authenticated = true → devAddr k r % 8 + chunkLength c k r n ≤ 8) := by
  have h1 : r % k.pageLength < k.pageLength := Nat.mod_lt _ (by omega)
  have h2 : devAddr k r % c.spLen < c.spLen := Nat.mod_lt _ (by omega)
  have h3 : devAddr k r % 8 < 8 := Nat.mod_lt _ (by omega)
  unfold chunkLength
  simp only
  split
  · refine ⟨by omega, by omega, by omega, by omega, fun _ => by omega⟩
  · rename_i ha
    refine ⟨by omega, by omega, by omega, by omega, fun h => absurd h ha⟩

theorem chunksFrom_inside {c : Config} {k : Bank} (hsp : 1 ≤ c.spLen) (hpl : 1 ≤ k.pageLength) (r n : Nat) (fuel : Nat) :
    ∀ i, ∀ ch ∈ chunksFrom c k r n fuel i, Chunk.Inside c k r n ch := by
  induction fuel with
  | zero => simp [chunksFrom]
  | succ fuel ih =>
    intro i ch hch
    unfold chunksFrom at hch
    split at hch
    · rename_i hi
      rcases List.mem_cons.1 hch with rfl | hch
      · have := chunkLength_bounds (c := c) hsp hpl (r + i) (n - i) (by omega)
        exact ⟨rfl, rfl, this.1, by simp only; omega, this.2.2.1, this.2.2.2.1, this.2.2.2.2⟩
      · exact ih _ _ hch
    · simp at hch

theorem slice_length (s : List Byte) (i j : Nat) (h : j ≤ s.length) (hij : i ≤ j) : (slice s i j).length = j - i := by
  simp [slice]; omega

/-- Every chunk of a write inside a bank can be staged (42_paged_memory.md R171). -/
theorem chunks_fit {c : Config} (h : c.wf = true) {b : Nat} (hb : b < c.nbanks) (r : Nat) (d : List Byte)
    (hr : r + d.length ≤ (c.bank b).pageCount * (c.bank b).pageLength) :
    ∀ ch ∈ chunks c (c.bank b) r d.length, StageFits c b ch.ta (slice d ch.i (ch.i + ch.m)) := by
  intro ch hch
  have hk := wf_bank h hb
  have hsp : 1 ≤ c.spLen := by rcases wf_spLen h with h | h | h <;> omega
  have hin := chunksFrom_inside hsp hk.1 r d.length d.length 0 ch hch
  have hlen : (slice d ch.i (ch.i + ch.m)).length = ch.m := by
    rw [slice_length _ _ _ hin.stop (by omega)]; omega
  have hp := hin.pos
  have hs := hin.stop
  refine stageFits_of hb ?_ (by omega) (by rw [hlen]; exact hin.fits)
  rw [hin.ta]; unfold devAddr; omega

/-- The secret-input area of a page fits the scratchpad (45_auth.md R261). -/
theorem sha_fits {c : Config} (h : c.wf = true) {b p : Nat} (hb : b < c.nbanks) (hs : (c.bank b).shaCapable = true)
    (hp : p < (c.bank b).pageCount) {off : Nat} {d : List Byte} (h1 : 1 ≤ d.length) (ho : off + d.length ≤ c.spLen) :
    StageFits c b (pageAddr (c.bank b) p + off) d := by
  have hk := wf_bank h hb
  obtain ⟨hpl, -⟩ := wf_sha h hb hs
  rw [hpl] at hk
  have ha : pageAddr (c.bank b) p % 32 = 0 := by unfold pageAddr; rw [hpl]; omega
  have hlt : pageAddr (c.bank b) p + 32 ≤ 65536 := by unfold pageAddr; rw [hpl]; omega
  have hsp := wf_spLen h
  refine stageFits_of hb (by rcases hsp with h | h | h <;> omega) h1 ?_
  rcases hsp with h | h | h <;> rw [h] at ho ⊢ <;> omega

/-- A secret slot fits the scratchpad (45_auth.md R264). -/
theorem slot_fits {c : Config} (h : c.wf = true) {b slot : Nat} (hb : b < c.nbanks) (hs : (c.bank b).shaCapable = true)
    (hslot : slot < 8) {d : List Byte} (hd : d.length = 8) : StageFits c b (slotAddr c slot) d := by
  obtain ⟨-, -, -, -, -, h8, hle⟩ := wf_sha h hb hs
  refine stageFits_of hb (by unfold slotAddr; omega) (by omega) ?_
  unfold slotAddr
  rcases wf_spLen h with h | h | h <;> rw [h, hd] <;> omega

end Sys2Proof.Machine
end

