-- ==== Sys2Proof/Laws/Commands.lean ====
section
/-! SUPPORT. How a command ends: abandoned by a host access that lands, refused by a check, by an error of the bus phase,
or completed; what each way changes. One inversion lemma for every command. -/

namespace Sys2Proof.Machine

/-! Values a procedure hands back. -/

/-- Every value `p` hands back from `s` meets `P`. -/
def Returns {α : Type} (P : α → Prop) (p : Proc α) (s : State) : Prop := ∀ a t, p s = .ok a t → P a

theorem Returns.bind {α β : Type} {P : β → Prop} {p : Proc α} {f : α → Proc β} {s : State}
    (h : ∀ a t, p s = .ok a t → Returns P (f a) t) : Returns P (p >>= f) s := by
  intro b u hb
  cases hr : p s with
  | ok a t => rw [bind_ok hr] at hb; exact h a t hr b u hb
  | error e t => rw [bind_error hr] at hb; cases hb

theorem Returns.pure {α : Type} {P : α → Prop} {a : α} {s : State} (h : P a) : Returns P (pure a : Proc α) s := by
  intro b t hb; cases hb; exact h

theorem Returns.get_bind {β : Type} {P : β → Prop} {f : State → Proc β} {s : State} (h : Returns P (f s) s) :
    Returns P (get >>= f) s := h

theorem slice_length_le (s : List Byte) (i j : Nat) : (slice s i j).length ≤ j - i := by
  simp [slice]

theorem splitPage_bounds (k : Bank) (i : Nat) (a : List Byte) :
    (splitPage k i a).1.length ≤ k.pageLength ∧ (splitPage k i a).2.length ≤ k.extraInfoLength := by
  unfold splitPage
  have h1 := slice_length_le a i (i + k.pageLength)
  have h2 := slice_length_le a (i + k.pageLength) (i + k.pageLength + k.extraInfoLength)
  exact ⟨by simp only; omega, by simp only; omega⟩

theorem frameReadCrcCont_returns (k : Bank) (s : State) :
    Returns (fun pg => pg.1.length ≤ k.pageLength ∧ pg.2.length ≤ k.extraInfoLength) (frameReadCrcCont k) s :=
  Returns.bind fun _ _ _ => Returns.bind fun _ _ _ => Returns.pure (splitPage_bounds _ _ _)

theorem pageRead_returns (b p : Nat) (cok : Bool) (s : State) :
    Returns (fun pg => pg.1.length ≤ (s.bank b).pageLength ∧ pg.2.length ≤ (s.bank b).extraInfoLength)
      (pageRead b p cok) s := by
  unfold pageRead
  refine Returns.get_bind ?_
  dsimp only
  split
  · exact frameReadCrcCont_returns _ _
  · refine Returns.bind fun _ _ _ => ?_
    split
    · exact Returns.bind fun _ _ _ => Returns.bind fun _ _ _ => frameReadCrcCont_returns _ _
    · exact Returns.bind fun _ _ _ => Returns.bind fun _ _ _ => Returns.pure (splitPage_bounds _ _ _)

theorem tExchange_returns (out : List Byte) (s : State) : Returns (fun a => a.length = out.length) (tExchange out) s := by
  intro a t h
  unfold tExchange at h
  have hlen : (exchangeAnswer s out).1.length = out.length := by
    have hfit : ∀ (x : List Byte) (pad : Nat → Byte), (fit out.length x pad).length = out.length := by
      intro x pad; simp only [fit, List.length_take, List.length_append, List.length_map, List.length_range]; omega
    unfold exchangeAnswer
    cases s.dev with
    | oracle o => simp only; split <;> exact hfit _ _
    | reference r =>
      have hflip : ∀ (f : Option (Nat × Byte)) (x : List Byte), (flipByte f x).length = x.length := by
        intro f x; cases f <;> simp [flipByte]
      exact (hflip _ _).trans (hfit _ _)
  simp only at h
  split at h
  · cases h; exact hlen
  · cases h

theorem rawRead_returns (b r n : Nat) (cok : Bool) (s : State) : Returns (fun a => a.length ≤ n) (rawRead b r n cok) s := by
  unfold rawRead
  refine Returns.get_bind ?_
  dsimp only
  split
  · intro a t h
    have := tExchange_returns _ _ a t h
    simp [ff, rep] at this; omega
  · refine Returns.bind fun _ _ _ => Returns.bind fun _ _ _ => Returns.pure ?_
    have := slice_length_le
    rename_i x _ _
    have := this x 3 (3 + n)
    omega

theorem readWholePage_returns (b p : Nat) (f : Bool) (s : State) :
    Returns (fun pg => pg.1.length ≤ (s.bank b).pageLength ∧ pg.2.1.length ≤ (s.bank b).extraInfoLength)
      (readWholePage b p f) s := by
  unfold readWholePage
  refine Returns.get_bind ?_
  dsimp only
  split
  · exact Returns.bind fun pg t h => Returns.pure (pageRead_returns b p _ s pg t h)
  · exact Returns.bind fun pg t h => Returns.pure ⟨rawRead_returns b _ _ _ s pg t h, by simp⟩

theorem exactly_length (n : Nat) (s : List Byte) : (exactly n s).length = n := by
  simp only [exactly, fit, List.length_take, List.length_append, List.length_map, List.length_range]; omega

theorem beBytes_length (w : Word) : (beBytes w).length = 4 := by simp [beBytes, leBytes]

theorem sha1_length (c : Config) (m : List Byte) : (Crypto.sha1 c m).length = 20 := by
  unfold Crypto.sha1
  cases c.suite with
  | reference => simp [sha1Block, beBytes_length]
  | uninterpreted k => exact exactly_length _ _

/-- A secret is eight bytes (00_scope.md R10, R18). -/
theorem devSecret_length (c : Config) (prev page sp15 : List Byte) : (devSecret c prev page sp15).length = 8 := by
  have h := sha1_length c (Crypto.msgSecret c prev page sp15)
  unfold devSecret Crypto.extractSecret
  cases hs : c.suite with
  | reference => simp only [List.length_take]; omega
  | uninterpreted k => exact exactly_length _ _

/-! How a command ends. -/

/-- A command that has done its work, from `s` to `t`: the bus phase led to some `u`, and what follows it may write DATA
inside the buffer, `cont` for its bank, and RESULT. -/
def Worked {α : Type} (v : State → α) (i : Instr) (s t : State) : Prop :=
  ∃ u, Rel v s u ∧ ∃ d k r, t = { u with data := d, cont := k, result := r } ∧
    (d = u.data ∨ writesData i = true ∧ ∃ o bs, d = Memory.writeRun none u.data o bs ∧
      (s.sp.sound s.cfg → o + bs.length ≤ bufLen)) ∧
    (k = u.cont ∨ opensStream i = true ∧ k.bank < s.cfg.nbanks ∧ bankOf i = some k.bank)

/-- How the body of a command may end, from a state where it runs. -/
def CmdEnds {α : Type} (v : State → α) (i : Instr) (s : State) (r : EStateM.Result Stop State Unit) : Prop :=
  (∃ c, r = .error (.raised .check c) s) ∨ Ends (Worked v i) (RelEvent v) s r

/-- How a command ends. -/
inductive CmdCases {α : Type} (v : State → α) (i : Instr) (s : State) : Host.Outcome State Fault Refusal → Prop where
  | left (u : State) : Left (start s) u → CmdCases v i s (.next (softReset u))
  | check (c : Cause) (u : State) :
    Rel wireView (start s) u → (s.quiet = true → u = start s) → CmdCases v i s (.next (completeError .check c u))
  | bus (c : Cause) (u : State) : RelEvent v (start s) u → CmdCases v i s (.next (completeError .bus c u))
  | ok (t : State) : Worked v i (start s) t → CmdCases v i s (.next (completeOk t))
  | fault (f : Fault) : s.hostLegal = false → CmdCases v i s (.fault f)
  | refused (r : Refusal) : s.hostLegal = false → CmdCases v i s (.refused r)

theorem start_quiet (s : State) : (start s).quiet = s.quiet := rfl

theorem start_hostLegal (s : State) : (start s).hostLegal = s.hostLegal := rfl

/-- In a quiet state a command is its body. -/
theorem runCommand_quiet {s : State} (p : Proc Unit) (hq : s.quiet = true) : runCommand p s = conclude (p (start s)) := by
  unfold runCommand
  rw [bind_ok (land_quiet (s := start s) hq)]

theorem cmdCases_of {α : Type} {v : State → α} {i : Instr} {s : State} {p : Proc Unit}
    (hv : ∀ s t, wireView t = wireView s → v t = v s)
    (h : ∀ s0, s0.busy = true → s0.cfg = s.cfg → CmdEnds v i s0 (p s0)) : CmdCases v i s (runCommand p s) := by
  have h1 := land_bus s.cfg (start s) rfl rfl
  have hq : s.quiet = true → land (start s) = .ok () (start s) := fun hq => land_quiet (s := start s) hq
  unfold runCommand
  cases hr : land (start s) with
  | error e u =>
    rw [hr] at h1
    rw [bind_error hr]
    cases e with
    | raised ph c =>
      obtain ⟨rfl, h2⟩ := h1
      exact .bus c u ⟨h2.1.mono (hv _ _), h2.2⟩
    | abandoned => exact .left u h1
    | fault f => exact .fault f h1
    | refused r => exact .refused r h1
  | ok _ s0 =>
    rw [hr] at h1
    have hR : Rel wireView (start s) s0 := h1
    have hRv : Rel v (start s) s0 := hR.mono (hv _ _)
    rw [bind_ok hr]
    rcases h s0 (hR.busy.trans rfl) hR.cfg with ⟨c, hc⟩ | he
    · rw [hc]
      exact .check c s0 hR fun hqs => by have := hq hqs; rw [hr] at this; cases this; rfl
    · cases hp : p s0 with
      | ok _ t =>
        rw [hp] at he
        obtain ⟨u, hu, d, k, r, ht, hd, hk⟩ := he
        refine .ok t ⟨u, hRv.trans hu, d, k, r, ht, ?_, ?_⟩
        · rcases hd with hd | ⟨hw, o, bs, hd, hb⟩
          · exact .inl hd
          · exact .inr ⟨hw, o, bs, hd, fun hs => hb (by rw [hR.cfg]; exact hR.scratch hs)⟩
        · rw [← hR.cfg]; exact hk
      | error e u =>
        rw [hp] at he
        cases e with
        | raised ph c =>
          obtain ⟨rfl, h2⟩ := he
          exact .bus c u (RelEvent.after hRv h2)
        | abandoned => exact .left u (hR.left he)
        | fault f => exact .fault f (hR.not_legal he)
        | refused r => exact .refused r (hR.not_legal he)

/-- A body that checks and then works. -/
theorem cmdEnds_require {α : Type} {v : State → α} {i : Instr} {s : State} {checks : List (Bool × Cause)} {f : Unit → Proc Unit}
    (h : (∀ k ∈ checks, k.1 = true) → Ends (Worked v i) (RelEvent v) s (f () s)) :
    CmdEnds v i s ((require checks >>= f) s) := by
  have hr := require_run checks s
  cases hc : firstFailing checks with
  | some c => rw [hc] at hr; exact .inl ⟨c, bind_error hr⟩
  | none =>
    rw [hc] at hr
    rw [bind_ok hr]
    exact .inr (h ((firstFailing_none checks).1 hc))

/-- A bus procedure and then the last writes. -/
theorem ends_tail {α β : Type} {v : State → α} {i : Instr} {s : State} {p : Proc β} {f : β → Proc Unit}
    (hp : Ends (Rel v) (RelEvent v) s (p s))
    (hf : ∀ a u, p s = .ok a u → Rel v s u → Ends (Worked v i) (RelEvent v) s (f a u)) :
    Ends (Worked v i) (RelEvent v) s ((p >>= f) s) := by
  cases hr : p s with
  | ok a u => rw [hr] at hp; rw [bind_ok hr]; exact hf a u hr hp
  | error e u => rw [hr] at hp; rw [bind_error hr]; cases e <;> exact hp

theorem worked_result {α : Type} {v : State → α} {i : Instr} {s u : State} (h : Rel v s u) (r : Word) :
    Worked v i s { u with result := r } := ⟨u, h, u.data, u.cont, r, rfl, .inl rfl, .inl rfl⟩

theorem worked_refl {α : Type} {v : State → α} {i : Instr} {s : State} (r : Word) :
    Worked v i s { s with result := r } := worked_result (Rel.refl v s) r

/-- The weaker a view, the more commands keep it. -/
theorem CmdCases.mono {α β : Type} {v : State → α} {w : State → β} {i : Instr} {s : State}
    {o : Host.Outcome State Fault Refusal} (hw : ∀ s t, v t = v s → w t = w s) (h : CmdCases v i s o) : CmdCases w i s o := by
  cases h with
  | left u h => exact .left u h
  | check c u h hq => exact .check c u h hq
  | bus c u h => exact .bus c u ⟨h.1.mono (hw _ _), h.2⟩
  | ok t h => obtain ⟨u, hu, r⟩ := h; exact .ok t ⟨u, hu.mono (hw _ _), r⟩
  | fault f h => exact .fault f h
  | refused r h => exact .refused r h

end Sys2Proof.Machine
end

