-- ==== Sys2Proof/Laws/Cases.lean ====
section
/-! SUPPORT. How each command ends, once for every command: the eighteen that use the bus, by the inversion lemma of
Commands.lean. The reads keep everything `wireView` sees, the commands that go through the scratchpad `busView`, the three
that move the secret `secView`. -/

namespace Sys2Proof.Machine

/-- What the checks of a bank command give. -/
theorem bankChecks_pass {s : State} {b : Nat} {rest : List (Bool × Cause)}
    (h : ∀ k ∈ bankChecks s b ++ rest, k.1 = true) :
    b < s.cfg.nbanks ∧ (s.bank b).generalPurpose = true ∧ ∀ k ∈ rest, k.1 = true := by
  simp only [bankChecks, List.cons_append, List.nil_append, List.forall_mem_cons, decide_eq_true_eq] at h
  exact ⟨h.1, h.2.1, h.2.2⟩

/-- The end of a command that wrote DATA, `cont` and RESULT. -/
theorem ends_data {α : Type} {v : State → α} {i : Instr} {s : State} {res : EStateM.Result Stop State Unit}
    (u : State) (o : Nat) (bs : List Byte) (k : Cont) (r : Word)
    (hres : res = .ok () { u.putData o bs with cont := k, result := r }) (hu : Rel v s u) (hw : writesData i = true)
    (hlen : s.sp.sound s.cfg → o + bs.length ≤ bufLen)
    (hk : k = u.cont ∨ opensStream i = true ∧ k.bank < s.cfg.nbanks ∧ bankOf i = some k.bank) :
    Ends (Worked v i) (RelEvent v) s res := by
  rw [hres]; exact ⟨u, hu, _, k, r, rfl, .inr ⟨hw, o, bs, rfl, hlen⟩, hk⟩

/-- The end of a command that wrote RESULT only. -/
theorem ends_result {α : Type} {v : State → α} {i : Instr} {s : State} {res : EStateM.Result Stop State Unit}
    (u : State) (r : Word) (hres : res = .ok () { u with result := r }) (hu : Rel v s u) :
    Ends (Worked v i) (RelEvent v) s res := by
  rw [hres]; exact worked_result hu r

theorem ends_before {α β : Type} {v : State → α} {s : State} {p : Proc β} (h : Bus v s.cfg p) (hb : s.busy = true) :
    Ends (Rel v) (RelEvent v) s (p s) := h s hb rfl

/-! The reads. -/

theorem readPage_cases (b : Nat) (c x : Bool) (s : State) :
    CmdCases wireView (.readPage b c x) s (exec (.readPage b c x) s) := by
  refine cmdCases_of (fun _ _ h => h) fun s0 hb hc => ?_
  rw [get_bind]
  refine cmdEnds_require fun hk => ?_
  obtain ⟨hbank, -, hk⟩ := bankChecks_pass hk
  refine ends_tail (ends_before (readWholePage_event _ _ _).bus hb) fun pg u hr hu => ?_
  have hlen := readWholePage_returns b s0.x0 c s0 pg u hr
  refine ends_data u s0.x1 _ ⟨true, b, pg.2.2, (s0.x0 + 1) * (s0.bank b).pageLength⟩ _ rfl hu rfl (fun _ => ?_)
    (.inr ⟨rfl, hbank, rfl⟩)
  simp only [List.forall_mem_cons, bufferCheck, decide_eq_true_eq] at hk
  have hbuf := hk.2.2.2.1
  cases x <;> simp only [Bool.false_eq_true, if_false, if_true, List.length_append, List.length_nil] at hbuf ⊢ <;> omega

theorem readBytes_cases (b : Nat) (c : Bool) (s : State) :
    CmdCases wireView (.readBytes b c) s (exec (.readBytes b c) s) := by
  refine cmdCases_of (fun _ _ h => h) fun s0 hb hc => ?_
  rw [get_bind]
  refine cmdEnds_require fun hk => ?_
  obtain ⟨hbank, -, hk⟩ := bankChecks_pass hk
  simp only [List.forall_mem_cons, bufferCheck, decide_eq_true_eq] at hk
  have hbuf := hk.2.2.1
  split
  · exact worked_refl 0
  · split
    · unfold readRawRange
      simp only [bind_assoc, pure_bind]
      rw [get_bind]
      refine ends_tail (ends_before (rawRead_event _ _ _ _).bus hb) fun data u hr hu => ?_
      have hlen := rawRead_returns b s0.x0 s0.x1 _ s0 data u hr
      exact ends_data u s0.x2 data ⟨true, b, .raw, s0.x0 + s0.x1⟩ _ rfl hu rfl (fun _ => by omega)
        (.inr ⟨rfl, hbank, rfl⟩)
    · unfold readCovered
      simp only [bind_assoc, pure_bind]
      rw [get_bind]
      have hpages : Bus wireView s0.cfg (do
          let pg ← pageRead b (s0.x0 / (s0.bank b).pageLength)
            (c && contOk s0 b .page (s0.x0 / (s0.bank b).pageLength * (s0.bank b).pageLength))
          let rest ← readMorePages b (s0.x0 / (s0.bank b).pageLength + 1)
            ((s0.x0 + s0.x1 - 1) / (s0.bank b).pageLength - s0.x0 / (s0.bank b).pageLength)
          pure (pg.1 ++ rest)) :=
        (pageRead_event _ _ _).bus.bind fun _ => (readMorePages_bus _ _ _).bind fun _ => Bus.pure _
      have := ends_tail (i := .readBytes b c) (ends_before hpages hb) (f := fun cat => do
          setCont ⟨true, b, .page, ((s0.x0 + s0.x1 - 1) / (s0.bank b).pageLength + 1) * (s0.bank b).pageLength⟩
          memWrite s0.x2 (slice cat (s0.x0 - s0.x0 / (s0.bank b).pageLength * (s0.bank b).pageLength)
            (s0.x0 - s0.x0 / (s0.bank b).pageLength * (s0.bank b).pageLength + s0.x1))
          setResult (BitVec.ofNat 32 s0.x1)) fun cat u hr hu => by
        have hlen := slice_length_le cat (s0.x0 - s0.x0 / (s0.bank b).pageLength * (s0.bank b).pageLength)
          (s0.x0 - s0.x0 / (s0.bank b).pageLength * (s0.bank b).pageLength + s0.x1)
        exact ends_data u s0.x2 _
          ⟨true, b, .page, ((s0.x0 + s0.x1 - 1) / (s0.bank b).pageLength + 1) * (s0.bank b).pageLength⟩ _ rfl hu rfl
          (fun _ => by omega) (.inr ⟨rfl, hbank, rfl⟩)
      simpa only [bind_assoc, pure_bind] using this

theorem readPagePacket_cases (b : Nat) (c : Bool) (s : State) :
    CmdCases wireView (.readPagePacket b c) s (exec (.readPagePacket b c) s) := by
  refine cmdCases_of (fun _ _ h => h) fun s0 hb hc => ?_
  rw [get_bind]
  refine cmdEnds_require fun hk => ?_
  obtain ⟨hbank, -, hk⟩ := bankChecks_pass hk
  simp only [List.forall_mem_cons, bufferCheck, decide_eq_true_eq] at hk
  have hbuf := hk.2.2.2.1
  have hpl := hk.2.1
  have hpage : Bus wireView s0.cfg (do
      let pg ← readWholePage b s0.x0 c
      ensure (decide ((byteAt pg.1 0).toNat + 3 ≤ (s0.bank b).pageLength)) .pktlenRead
      ensure (crc16 (BitVec.ofNat 16 s0.x0) (slice pg.1 0 ((byteAt pg.1 0).toNat + 3)) == 0xB001) .pktcrc
      pure pg) :=
    ((readWholePage_event _ _ _).bind_after fun _ => (ensure_after _ _).bind fun _ => (ensure_after _ _).bind fun _ =>
      (Bus.pure _).after).bus
  have hret : Returns (fun pg => (byteAt pg.1 0).toNat + 3 ≤ (s0.bank b).pageLength) (do
      let pg ← readWholePage b s0.x0 c
      ensure (decide ((byteAt pg.1 0).toNat + 3 ≤ (s0.bank b).pageLength)) .pktlenRead
      ensure (crc16 (BitVec.ofNat 16 s0.x0) (slice pg.1 0 ((byteAt pg.1 0).toNat + 3)) == 0xB001) .pktcrc
      pure pg) s0 := by
    refine Returns.bind fun pg t _ => Returns.bind fun _ t1 he => Returns.bind fun _ t2 _ => Returns.pure ?_
    rw [ensure_run] at he
    split at he
    · rename_i h; exact of_decide_eq_true h
    · cases he
  have := ends_tail (i := .readPagePacket b c) (ends_before hpage hb) (f := fun pg => do
      memWrite s0.x1 (slice pg.1 1 (1 + (byteAt pg.1 0).toNat))
      setCont ⟨true, b, pg.2.2, (s0.x0 + 1) * (s0.bank b).pageLength⟩
      setResult (BitVec.ofNat 32 (byteAt pg.1 0).toNat)) fun pg u hr hu => by
    have h1 := hret pg u hr
    have h2 := slice_length_le pg.1 1 (1 + (byteAt pg.1 0).toNat)
    exact ends_data u s0.x1 _ ⟨true, b, pg.2.2, (s0.x0 + 1) * (s0.bank b).pageLength⟩ _ rfl hu rfl
      (fun _ => by simp only at h1; omega) (.inr ⟨rfl, hbank, rfl⟩)
  simpa only [bind_assoc, pure_bind] using this

/-- A read of a control bank and RESULT from it. -/
theorem testBit_cases (i : Instr) (s0 : State) (l q : Nat) (hb : s0.busy = true) :
    Ends (Worked wireView i) (RelEvent wireView) s0 ((testBit l q >>= fun locked => setResult (if locked then 1 else 0)) s0) :=
  ends_tail (ends_before (testBit_event _ _).bus hb) fun _ u _ hu => ends_result u _ rfl hu

theorem isPageLocked_cases (b : Nat) (s : State) :
    CmdCases wireView (.isPageLocked b) s (exec (.isPageLocked b) s) := by
  refine cmdCases_of (fun _ _ h => h) fun s0 hb hc => ?_
  rw [get_bind]
  exact cmdEnds_require fun hk => testBit_cases _ _ _ _ hb

theorem isRedirectPageLocked_cases (b : Nat) (s : State) :
    CmdCases wireView (.isRedirectPageLocked b) s (exec (.isRedirectPageLocked b) s) := by
  refine cmdCases_of (fun _ _ h => h) fun s0 hb hc => ?_
  rw [get_bind]
  exact cmdEnds_require fun hk => testBit_cases _ _ _ _ hb

theorem getRedirectedPage_cases (b : Nat) (s : State) :
    CmdCases wireView (.getRedirectedPage b) s (exec (.getRedirectedPage b) s) := by
  refine cmdCases_of (fun _ _ h => h) fun s0 hb hc => ?_
  rw [get_bind]
  exact cmdEnds_require fun hk => ends_tail (ends_before (readCtl_event _ _).bus hb) fun _ u _ hu => ends_result u _ rfl hu

/-! The commands that go through the scratchpad. -/

theorem wire_bus' : ∀ s t : State, wireView t = wireView s → busView t = busView s := wire_bus

/-- A page index and a length inside the page give a range inside the bank. -/
theorem page_range {k : Bank} {p n : Nat} (hp : p < k.pageCount) (hn : n ≤ k.pageLength) :
    p * k.pageLength + n ≤ k.pageCount * k.pageLength := by
  have h1 : (p + 1) * k.pageLength ≤ k.pageCount * k.pageLength := Nat.mul_le_mul_right _ hp
  have h2 : (p + 1) * k.pageLength = p * k.pageLength + k.pageLength := by ring
  omega

theorem write_cases (b : Nat) (s : State) (hw : s.cfg.wf = true) :
    CmdCases busView (.write b) s (exec (.write b) s) := by
  refine cmdCases_of wire_bus fun s0 hb hc => ?_
  rw [get_bind]
  refine cmdEnds_require fun hk => ?_
  obtain ⟨hbank, -, hk⟩ := bankChecks_pass hk
  simp only [List.forall_mem_cons, rangeCheck, decide_eq_true_eq] at hk
  have hr := hk.2.1
  split
  · exact worked_refl 0
  · exact ends_tail (ends_before (writeRange_bus _ _ _ _ (chunks_fit (by rw [hc]; exact hw) hbank _ _
      (by rw [dataRun_length]; exact hr))) hb)
      fun _ u _ hu => ends_result u _ rfl hu

theorem packet_length (p : Nat) (payload : List Byte) : (packet p payload).length = payload.length + 3 := by
  simp [packet, seal16, wire16]

theorem writePagePacket_cases (b : Nat) (s : State) (hw : s.cfg.wf = true) :
    CmdCases busView (.writePagePacket b) s (exec (.writePagePacket b) s) := by
  refine cmdCases_of wire_bus fun s0 hb hc => ?_
  rw [get_bind]
  refine cmdEnds_require fun hk => ?_
  obtain ⟨hbank, -, hk⟩ := bankChecks_pass hk
  simp only [List.forall_mem_cons, pageCheck, decide_eq_true_eq] at hk
  refine ends_tail (ends_before (writeRange_bus _ _ _ _ (chunks_fit (by rw [hc]; exact hw) hbank _ _ ?_)) hb)
    fun _ u _ hu => ends_result u _ rfl hu
  rw [packet_length, dataRun_length]
  exact page_range hk.2.1 hk.2.2.1

theorem spStage_cases (b : Nat) (s : State) (hw : s.cfg.wf = true) :
    CmdCases busView (.spStage b) s (exec (.spStage b) s) := by
  refine cmdCases_of wire_bus fun s0 hb hc => ?_
  rw [get_bind]
  refine cmdEnds_require fun hk => ?_
  obtain ⟨hbank, -, hk⟩ := bankChecks_pass hk
  simp only [List.forall_mem_cons, rangeCheck, decide_eq_true_eq] at hk
  have hwf : s0.cfg.wf = true := by rw [hc]; exact hw
  have hkb := wf_bank hwf hbank
  have hsp : 1 ≤ s0.cfg.spLen := by rcases wf_spLen hwf with h | h | h <;> omega
  have hm := chunkLength_bounds hsp hkb.1 s0.x0 s0.x1 hk.2.1
  have hr : s0.x0 + s0.x1 ≤ (s0.cfg.bank b).pageCount * (s0.cfg.bank b).pageLength := hk.2.2.1
  have hfit : StageFits s0.cfg b (devAddr (s0.cfg.bank b) s0.x0)
      (dataRun s0 s0.x2 (chunkLength s0.cfg (s0.cfg.bank b) s0.x0 s0.x1)) := by
    refine stageFits_of hbank ?_ (by simpa using hm.1) (by simpa using hm.2.2.1)
    have := hk.2.1
    unfold devAddr; omega
  have hstage : Bus busView s0.cfg (do
      lockCheck b (s0.x0 / (s0.bank b).pageLength)
      stage b (devAddr (s0.cfg.bank b) s0.x0) (dataRun s0 s0.x2 (chunkLength s0.cfg (s0.cfg.bank b) s0.x0 s0.x1))) :=
    (lockCheck_bus _ _).toBus.bind fun _ => (stage_event hfit).imp (fun _ _ h => h.1.1) fun _ _ h => h
  have := ends_tail (i := .spStage b) (ends_before hstage hb)
    (f := fun _ => setResult (BitVec.ofNat 32 (chunkLength s0.cfg (s0.cfg.bank b) s0.x0 s0.x1)))
    fun _ u _ hu => ends_result u _ rfl hu
  simp only [bind_assoc] at this
  exact this

/-- What a normal end of `Confirm` makes of the record. -/
theorem confirm_record (s t : State) (h : confirm s = .ok () t) : ∃ es, t.sp = { s.sp with phase := .confirmed, es := es } := by
  unfold confirm at h
  rw [get_bind, bind_ok (setPhase_run _ s)] at h
  generalize { s with sp := { s.sp with phase := .unknown } } = s1 at h
  cases h1 : selectDevice s1 with
  | error e u => rw [bind_error h1] at h; cases h
  | ok a u =>
    rw [bind_ok h1] at h
    cases h2 : frameReadSp (s.bank s.sp.bank) s.sp.n u with
    | error e u => rw [bind_error h2] at h; cases h
    | ok r u =>
      rw [bind_ok h2] at h
      cases h3 : ensure (confirms s.cfg s.sp r) .confirm u with
      | error e u => rw [bind_error h3] at h; cases h
      | ok _ u =>
        rw [bind_ok h3] at h
        cases h
        exact ⟨r.es, rfl⟩

theorem spConfirm_cases (b : Nat) (s : State) :
    CmdCases busView (.spConfirm b) s (exec (.spConfirm b) s) := by
  refine cmdCases_of wire_bus fun s0 hb hc => ?_
  rw [get_bind]
  refine cmdEnds_require fun hk => ?_
  obtain ⟨hbank, -, hk⟩ := bankChecks_pass hk
  simp only [List.forall_mem_cons, bufferCheck, decide_eq_true_eq] at hk
  have hseq := hk.2.2.1.1
  have hconf := confirm_ends s0 hb rfl hseq
  refine ends_tail (i := .spConfirm b) ?_ fun _ u hr hu => ?_
  · revert hconf
    cases confirm s0 with
    | ok a t => exact fun h => h.1
    | error e t => cases e <;> exact fun h => h
  · obtain ⟨es, hes⟩ := confirm_record s0 u hr
    refine ends_data u s0.x0 (wire16 u.sp.ta ++ [u.sp.es] ++ u.sp.data) u.cont _ rfl hu rfl (fun hsound => ?_) (.inl rfl)
    have h1 := (hsound hseq).2.2.1
    have h2 := hk.1
    have h3 : u.sp.data.length = s0.sp.n := by rw [hes]; rfl
    simp only [List.length_append, h3, wire16, List.length_cons, List.length_nil]
    omega

theorem spCommit_cases (b : Nat) (s : State) :
    CmdCases busView (.spCommit b) s (exec (.spCommit b) s) := by
  refine cmdCases_of wire_bus fun s0 hb hc => ?_
  rw [get_bind]
  refine cmdEnds_require fun hk => ?_
  have hrest : ∀ mac : List Byte, BusAfter busView s0.cfg (commit mac) := fun mac => (commit_event mac).bus.after
  dsimp only
  split
  · have := ends_tail (i := .spCommit b)
      (ends_before ((macFor_event b s0.sp.ta.toNat s0.sp.data).toBus.bind_after hrest).bus hb)
      (f := fun _ => setResult (BitVec.ofNat 32 s0.sp.n)) fun _ u _ hu => ends_result u _ rfl hu
    simp only [bind_assoc] at this
    exact this
  · exact ends_tail (i := .spCommit b) (ends_before (commit_event []).bus hb)
      (f := fun _ => setResult (BitVec.ofNat 32 s0.sp.n)) fun _ u _ hu => ends_result u _ rfl hu

theorem lockPage_cases (b : Nat) (s : State) (hw : s.cfg.wf = true) :
    CmdCases busView (.lockPage b) s (exec (.lockPage b) s) := by
  refine cmdCases_of wire_bus fun s0 hb hc => ?_
  rw [get_bind]
  refine cmdEnds_require fun hk => ?_
  obtain ⟨hbank, -, hk⟩ := bankChecks_pass hk
  simp only [List.forall_mem_cons, pageCheck, decide_eq_true_eq] at hk
  have hwf : s0.cfg.wf = true := by rw [hc]; exact hw
  obtain ⟨l, hl⟩ := Option.isSome_iff_exists.1 hk.1
  have hlink := (wf_links hwf hbank).1 l hl
  have hp : s0.x0 < (s0.cfg.bank b).pageCount := hk.2.1
  have hfit := bit_fits hwf hlink.1 (q := (s0.bank b).lockOffset + s0.x0)
    (by have : (s0.bank b).lockOffset = (s0.cfg.bank b).lockOffset := rfl
        omega) (0xFF ^^^ bitMask ((s0.bank b).lockOffset + s0.x0))
  rw [hl]
  exact ends_tail (ends_before (bitClear_event hfit).bus hb) fun _ u _ hu => ends_result u _ rfl hu

theorem lockRedirectPage_cases (b : Nat) (s : State) (hw : s.cfg.wf = true) :
    CmdCases busView (.lockRedirectPage b) s (exec (.lockRedirectPage b) s) := by
  refine cmdCases_of wire_bus fun s0 hb hc => ?_
  rw [get_bind]
  refine cmdEnds_require fun hk => ?_
  obtain ⟨hbank, -, hk⟩ := bankChecks_pass hk
  simp only [List.forall_mem_cons, pageCheck, decide_eq_true_eq] at hk
  have hwf : s0.cfg.wf = true := by rw [hc]; exact hw
  obtain ⟨l, hl⟩ := Option.isSome_iff_exists.1 hk.1
  have hlink := (wf_links hwf hbank).2.1 l hl
  have hp : s0.x0 < (s0.cfg.bank b).pageCount := hk.2.1
  have hfit := bit_fits hwf hlink.1 (q := (s0.bank b).rlockOffset + s0.x0)
    (by have : (s0.bank b).rlockOffset = (s0.cfg.bank b).rlockOffset := rfl
        omega) (0xFF ^^^ bitMask ((s0.bank b).rlockOffset + s0.x0))
  rw [hl]
  exact ends_tail (ends_before (bitClear_event hfit).bus hb) fun _ u _ hu => ends_result u _ rfl hu

theorem redirectPage_cases (b : Nat) (s : State) (hw : s.cfg.wf = true) :
    CmdCases busView (.redirectPage b) s (exec (.redirectPage b) s) := by
  refine cmdCases_of wire_bus fun s0 hb hc => ?_
  rw [get_bind]
  refine cmdEnds_require fun hk => ?_
  obtain ⟨hbank, -, hk⟩ := bankChecks_pass hk
  simp only [List.forall_mem_cons, pageCheck, decide_eq_true_eq] at hk
  have hwf : s0.cfg.wf = true := by rw [hc]; exact hw
  obtain ⟨d, hd⟩ := Option.isSome_iff_exists.1 hk.1
  have hlink := (wf_links hwf hbank).2.2 d hd
  have hp : s0.x0 < (s0.cfg.bank b).pageCount := hk.2.1
  have hkd := wf_bank hwf hlink.1
  have hfit : StageFits s0.cfg d (devAddr (s0.bank d) ((s0.bank b).redirOffset + s0.x0)) [redirEnc s0.x1] := by
    refine stageFits_one hwf _ hlink.1 ?_
    have h1 : (s0.bank b).redirOffset = (s0.cfg.bank b).redirOffset := rfl
    have h2 : (s0.bank d).base = (s0.cfg.bank d).base := rfl
    have h3 := hlink.2
    rw [Nat.mul_comm (s0.cfg.bank d).pageLength] at h3
    unfold devAddr; omega
  have h : Bus busView s0.cfg (do
      redirectLockCheck (s0.bank b) s0.x0
      writeChunk d (devAddr (s0.bank d) ((s0.bank b).redirOffset + s0.x0)) [redirEnc s0.x1] true) :=
    (redirectLockCheck_bus _ _).toBus.bind fun _ => (writeChunk_event _ hfit).bus
  have := ends_tail (i := .redirectPage b) (ends_before h hb) (f := fun _ => setResult (BitVec.ofNat 32 s0.x1))
    fun _ u _ hu => ends_result u _ rfl hu
  rw [hd]
  simp only [bind_assoc] at this
  exact this

theorem frameReadAuth_returns (k : Bank) (a : Nat) (s : State) :
    Returns (fun r => r.page.length ≤ 32 ∧ r.extra.length ≤ k.extraInfoLength ∧ r.mac.length ≤ 20) (frameReadAuth k a) s := by
  unfold frameReadAuth
  refine Returns.get_bind ?_
  refine Returns.bind fun in1 _ _ => Returns.bind fun _ _ _ => Returns.bind fun _ _ _ => Returns.bind fun in2 _ _ =>
    Returns.bind fun _ _ _ => Returns.pure ?_
  have h1 := slice_length_le in1 3 35
  have h2 := slice_length_le in1 35 (35 + k.extraInfoLength)
  have h3 := slice_length_le in2 0 20
  exact ⟨by simpa using h1, by simp only; omega, by simpa using h3⟩

theorem authRead_cases (b : Nat) (s : State) :
    CmdCases busView (.authRead b) s (exec (.authRead b) s) := by
  refine cmdCases_of wire_bus fun s0 hb hc => ?_
  rw [get_bind]
  refine cmdEnds_require fun hk => ?_
  obtain ⟨hbank, -, hk⟩ := bankChecks_pass hk
  simp only [List.forall_mem_cons, bufferCheck, decide_eq_true_eq] at hk
  have hbuf := hk.2.2.1
  have h : Bus busView s0.cfg (do
      stage b (pageAddr (s0.bank b) s0.x0 + s0.cfg.chalOffset) (dataRun s0 s0.x1 s0.cfg.chalLen)
      confirm
      setPhase .unknown
      selectDevice
      let r ← frameReadAuth (s0.bank b) (pageAddr (s0.bank b) s0.x0)
      setPhase .idle
      ensure (r.mac == Crypto.sha1 s0.cfg (Crypto.msgAuthRead s0.cfg s0.hostSecret r.page r.extra
        (dataRun s0 s0.x1 s0.cfg.chalLen) s0.rom (Crypto.selector s0.cfg (pageAddr (s0.bank b) s0.x0) b))) .macmismatch
      pure r) :=
    (stage_confirm_forget_event _ _ _ fun _ => selectDevice_event.toBus.bus.after.bind fun _ =>
      (frameReadAuth_event _ _).toBus.bus.after.bind fun r => (setPhase_bus _ (.inr rfl)).after.bind fun _ =>
        (ensure_after _ _).bind fun _ => (Bus.pure r).after).bus
  have hret : Returns (fun r : AuthPage => r.page.length ≤ 32 ∧ r.extra.length ≤ (s0.bank b).extraInfoLength ∧
      r.mac.length ≤ 20) (do
      stage b (pageAddr (s0.bank b) s0.x0 + s0.cfg.chalOffset) (dataRun s0 s0.x1 s0.cfg.chalLen)
      confirm
      setPhase .unknown
      selectDevice
      let r ← frameReadAuth (s0.bank b) (pageAddr (s0.bank b) s0.x0)
      setPhase .idle
      ensure (r.mac == Crypto.sha1 s0.cfg (Crypto.msgAuthRead s0.cfg s0.hostSecret r.page r.extra
        (dataRun s0 s0.x1 s0.cfg.chalLen) s0.rom (Crypto.selector s0.cfg (pageAddr (s0.bank b) s0.x0) b))) .macmismatch
      pure r) s0 := by
    refine Returns.bind fun _ _ _ => Returns.bind fun _ _ _ => Returns.bind fun _ _ _ => Returns.bind fun _ u _ =>
      Returns.bind fun r t hr => Returns.bind fun _ _ _ => Returns.bind fun _ _ _ => Returns.pure ?_
    exact frameReadAuth_returns _ _ _ r t hr
  have := ends_tail (i := .authRead b) (ends_before h hb) (f := fun r => do
      memWrite s0.x1 (r.page ++ r.extra ++ r.mac)
      setResult (BitVec.ofNat 32 (52 + (s0.bank b).extraInfoLength))) fun r u hr hu => by
    obtain ⟨h1, h2, h3⟩ := hret r u hr
    refine ends_data u s0.x1 (r.page ++ r.extra ++ r.mac) u.cont _ rfl hu rfl (fun _ => ?_) (.inl rfl)
    simp only [List.length_append]; omega
  simpa only [bind_assoc, pure_bind] using this

/-! The commands that move the secret. -/

theorem wire_sec (s t : State) (h : wireView t = wireView s) : secView t = secView s := bus_sec s t (wire_bus s t h)

theorem slotCopy_ends {b slot : Nat} (s : State) (hb : s.busy = true)
    (h : StageFits s.cfg b (slotAddr s.cfg slot) s.hostSecret) :
    Ends (RelEvent busView) (RelEvent busView) s (slotCopy b slot s) := by
  unfold slotCopy
  rw [get_bind]
  exact stage_confirm_event (c := s.cfg) (fun _ _ h => h) h (fun _ => (commit_event []).bus.after) s hb rfl

/-- Storing a secret and copying it into a slot. -/
theorem setSecret_slotCopy_bus {c : Config} {b slot : Nat} (sec : List Byte) (h : StageFits c b (slotAddr c slot) sec) :
    Bus secView c (do setHostSecret sec; slotCopy b slot) := by
  refine Sat.bind_from (P := fun t => t.hostSecret = sec ∧ t.cfg = c)
    (ok1 := fun s t => Rel secView s t ∧ t.hostSecret = sec ∧ t.cfg = c) (err1 := RelEvent secView)
    (ok2 := RelEvent secView) (err2 := RelEvent secView) ?_ (fun _ _ h => h.2)
    (fun _ t hb hc hP => ?_) (fun _ _ h => h.1.unit) (fun _ _ h => h) (fun _ _ _ h k => h.1.trans k.1)
    (fun _ _ _ h k => RelEvent.after h.1 k)
  · intro s hb hc; exact ⟨setHostSecret_bus sec s hb hc, rfl, hc⟩
  · have h1 := slotCopy_ends (b := b) (slot := slot) t hb (by rw [hP.1, hP.2]; exact h)
    revert h1
    cases slotCopy b slot t with
    | ok a u => exact fun h => ⟨h.1.toSec, h.2⟩
    | error e u =>
      cases e with
      | raised ph d => exact fun h => ⟨h.1, h.2.1.toSec, h.2.2⟩
      | abandoned => exact fun h => h
      | fault d => exact fun h => h
      | refused d => exact fun h => h

theorem installChunks_bus {c : Config} (h : c.wf = true) {b p : Nat} (hb : b < c.nbanks) (hs : (c.bank b).shaCapable = true)
    (hp : p < (c.bank b).pageCount) (S : List Byte) (n : Nat) :
    ∀ j sec, 47 * (j + n) ≤ S.length → Bus busView c (installChunks b p S n j sec) := by
  induction n with
  | zero => intro j sec _; exact Bus.pure _
  | succ n ih =>
    intro j sec hS
    unfold installChunks
    refine Sat.get_bind fun s hsc => ?_
    have hlen : (slice (slice S (47 * j) (47 * j + 47)) 0 32).length = 32 := by
      rw [slice_length _ _ _ (by rw [slice_length _ _ _ (by omega) (by omega)]; omega) (by omega)]
    have hpl := (wf_sha h hb hs).1
    refine (writeRange_bus _ _ _ _ (chunks_fit h hb _ _ ?_)).bind fun _ => (shaRound_event _ _ _ _).bus.bind fun _ =>
      ih _ _ (by omega)
    rw [hlen]
    have := page_range (k := c.bank b) (n := 32) hp (by omega)
    rwa [hpl] at this ⊢

theorem installChunks_returns (b p : Nat) (S : List Byte) (n : Nat) :
    ∀ j sec s, sec.length = 8 → Returns (fun v => v.length = 8) (installChunks b p S n j sec) s := by
  induction n with
  | zero => intro j sec s h; exact Returns.pure h
  | succ n ih =>
    intro j sec s h
    unfold installChunks
    exact Returns.get_bind (Returns.bind fun _ _ _ => Returns.bind fun _ _ _ => ih _ _ _ (devSecret_length _ _ _ _))

theorem installBus_bus {c : Config} (h : c.wf = true) {b slot p : Nat} (hb : b < c.nbanks)
    (hs : (c.bank b).shaCapable = true) (hp : p < (c.bank b).pageCount) (hslot : slot < 8) (secret : List Byte) :
    Bus secView c (installBus b slot p secret) := by
  unfold installBus
  refine Sat.get_bind fun s hsc => ?_
  have hpl := (wf_sha h hb hs).1
  have hwipe : Bus secView c (writeRange b (p * 32) (rep wipeByte 32) (writeVerify s b)) := by
    refine (writeRange_bus _ _ _ _ (chunks_fit h hb _ _ ?_)).toSec
    have := page_range (k := c.bank b) (n := 32) hp (by omega)
    rw [hpl] at this ⊢
    simpa [rep] using this
  have hS : (secret ++ rep padByte (47 * installCount secret.length - secret.length)).length =
      47 * installCount secret.length := by
    simp only [List.length_append, rep, List.length_replicate, installCount]; omega
  have hchunks := (installChunks_bus h hb hs hp (secret ++ rep padByte (47 * installCount secret.length - secret.length))
    (installCount secret.length) 0 (rep 0x00 8) (by rw [hS]; omega)).toSec
  have hrest : ∀ sec : List Byte, sec.length = 8 → Bus secView c (do
      writeRange b (p * 32) (rep wipeByte 32) (writeVerify s b)
      setHostSecret sec
      slotCopy b slot
      setAuth .secretBound
      setResult (BitVec.ofNat 32 (installCount secret.length))) := by
    intro sec hsec
    have h2 := hwipe.bind fun _ => (setSecret_slotCopy_bus sec (slot_fits h hb hs hslot hsec)).bind fun _ =>
      (setAuth_bus .secretBound).bind fun _ => setResult_bus (BitVec.ofNat 32 (installCount secret.length))
    simpa only [bind_assoc] using h2
  intro s1 hb1 hc1
  have h1 := hchunks s1 hb1 hc1
  simp only
  cases hr : installChunks b p (secret ++ rep padByte (47 * installCount secret.length - secret.length))
      (installCount secret.length) 0 (rep 0x00 8) s1 with
  | error e t => rw [hr] at h1; rw [bind_error hr]; cases e <;> exact h1
  | ok sec t =>
    rw [hr] at h1
    have hR : Rel secView s1 t := h1
    have hlen := installChunks_returns _ _ _ _ _ _ _ (by simp [rep]) sec t hr
    rw [bind_ok hr]
    have h2 := hrest sec hlen t (hR.busy.trans hb1) (hR.cfg.trans hc1)
    revert h2
    generalize (do
      writeRange b (p * 32) (rep wipeByte 32) (writeVerify s b)
      setHostSecret sec
      slotCopy b slot
      setAuth .secretBound
      setResult (BitVec.ofNat 32 (installCount secret.length)) : Proc Unit) t = res
    cases res with
    | ok a u => exact fun h => hR.trans h
    | error e u =>
      cases e with
      | raised ph d => exact fun h => ⟨h.1, RelEvent.after hR h.2⟩
      | abandoned => exact fun h => hR.left h
      | fault d => exact fun h => hR.not_legal h
      | refused d => exact fun h => hR.not_legal h

/-- A body that is all bus phase and ends with RESULT. -/
theorem ends_bus {α : Type} {v : State → α} {i : Instr} {s : State} {p : Proc Unit} (h : Bus v s.cfg p) (hb : s.busy = true) :
    Ends (Worked v i) (RelEvent v) s (p s) := by
  have h1 := h s hb rfl
  revert h1
  cases p s with
  | ok a u => exact fun h => ⟨u, h, u.data, u.cont, u.result, rfl, .inl rfl, .inl rfl⟩
  | error e u => cases e <;> exact fun h => h

theorem installSecret_cases (b slot : Nat) (s : State) (hw : s.cfg.wf = true) (hslot : slot < 8) :
    CmdCases secView (.installSecret b slot) s (exec (.installSecret b slot) s) := by
  refine cmdCases_of wire_sec fun s0 hb hc => ?_
  rw [get_bind]
  refine cmdEnds_require fun hk => ?_
  obtain ⟨hbank, -, hk⟩ := bankChecks_pass hk
  simp only [List.forall_mem_cons, pageCheck, decide_eq_true_eq, Bool.and_eq_true] at hk
  have hwf : s0.cfg.wf = true := by rw [hc]; exact hw
  exact ends_bus ((setAuth_bus _).bind fun _ => onBusError_bus (installBus_bus hwf hbank hk.1.1 hk.2.1 hslot _)) hb

theorem bindSecret_cases (b slot : Nat) (af : Bool) (s : State) (hw : s.cfg.wf = true) (hslot : slot < 8) :
    CmdCases secView (.bindSecret b slot af) s (exec (.bindSecret b slot af) s) := by
  refine cmdCases_of wire_sec fun s0 hb hc => ?_
  rw [get_bind]
  refine cmdEnds_require fun hk => ?_
  obtain ⟨hbank, -, hk⟩ := bankChecks_pass hk
  simp only [List.forall_mem_cons, pageCheck, decide_eq_true_eq] at hk
  have hwf : s0.cfg.wf = true := by rw [hc]; exact hw
  have hpl := (wf_sha hwf hbank hk.1).1
  refine ends_bus (Bus.bind ?_ fun _ => (shaStage_event _ _ _).toSec.bus.bind fun _ => (onBusError_bus ?_).bind fun _ =>
    (setAuth_bus _).bind fun _ => setResult_bus _) hb
  · refine (writeRange_bus _ _ _ _ (chunks_fit hwf hbank _ _ ?_)).toSec
    have := page_range (k := s0.cfg.bank b) (n := 32) hk.2.1 (by omega)
    rw [dataRun_length]
    rw [hpl] at this ⊢
    exact this
  · exact (shaStep_event _ _ _).toSec.bus.bind fun _ =>
      setSecret_slotCopy_bus _ (slot_fits hwf hbank hk.1 hslot (devSecret_length _ _ _ _))

theorem computeNextSecret_cases (b : Nat) (s : State) :
    CmdCases secView (.computeNextSecret b) s (exec (.computeNextSecret b) s) := by
  refine cmdCases_of wire_sec fun s0 hb hc => ?_
  rw [get_bind]
  refine cmdEnds_require fun hk => ?_
  exact ends_bus ((pageRead_event _ _ _).toBus.toSec.bus.bind fun _ => (shaStage_event _ _ _).toSec.bus.bind fun _ =>
    (onBusError_bus (shaStep_event _ _ _).toSec.bus).bind fun _ => (setHostSecret_bus _).bind fun _ =>
      (setAuth_bus _).bind fun _ => setResult_bus _) hb

end Sys2Proof.Machine
end

