-- ==== Sys2Proof/Laws/Exec.lean ====
section
/-! SUPPORT. How `exec` ends, for every command at once: the bus commands by the view they keep, and the CRC commands. -/

namespace Sys2Proof.Machine

/-- Every bus command keeps what `secView` sees. -/
theorem exec_sec (i : Instr) (s : State) (hi : i.wf = true) (hw : s.cfg.wf = true) (hb : bankOf i ≠ none) :
    CmdCases secView i s (exec i s) := by
  cases i with
  | crc8Seed v => exact absurd rfl hb
  | crc8Byte v => exact absurd rfl hb
  | crc8Block => exact absurd rfl hb
  | crc8Check => exact absurd rfl hb
  | crc16Seed v => exact absurd rfl hb
  | crc16Byte v => exact absurd rfl hb
  | crc16Block => exact absurd rfl hb
  | crc16Check => exact absurd rfl hb
  | readPage b c x => exact (readPage_cases b c x s).mono wire_sec
  | readBytes b c => exact (readBytes_cases b c s).mono wire_sec
  | write b => exact (write_cases b s hw).mono bus_sec
  | readPagePacket b c => exact (readPagePacket_cases b c s).mono wire_sec
  | writePagePacket b => exact (writePagePacket_cases b s hw).mono bus_sec
  | spStage b => exact (spStage_cases b s hw).mono bus_sec
  | spConfirm b => exact (spConfirm_cases b s).mono bus_sec
  | spCommit b => exact (spCommit_cases b s).mono bus_sec
  | lockPage b => exact (lockPage_cases b s hw).mono bus_sec
  | isPageLocked b => exact (isPageLocked_cases b s).mono wire_sec
  | redirectPage b => exact (redirectPage_cases b s hw).mono bus_sec
  | getRedirectedPage b => exact (getRedirectedPage_cases b s).mono wire_sec
  | lockRedirectPage b => exact (lockRedirectPage_cases b s hw).mono bus_sec
  | isRedirectPageLocked b => exact (isRedirectPageLocked_cases b s).mono wire_sec
  | installSecret b slot =>
    exact installSecret_cases b slot s hw (by simp [Instr.wf, slotFits] at hi; exact hi.2)
  | bindSecret b slot af =>
    exact bindSecret_cases b slot af s hw (by simp [Instr.wf, slotFits] at hi; exact hi.2)
  | computeNextSecret b => exact computeNextSecret_cases b s
  | authRead b => exact (authRead_cases b s).mono bus_sec

/-- A bus command that moves no secret keeps what `busView` sees. -/
theorem exec_bus (i : Instr) (s : State) (hw : s.cfg.wf = true) (hb : bankOf i ≠ none) (hm : movesSecret i = false) :
    CmdCases busView i s (exec i s) := by
  cases i with
  | crc8Seed v => exact absurd rfl hb
  | crc8Byte v => exact absurd rfl hb
  | crc8Block => exact absurd rfl hb
  | crc8Check => exact absurd rfl hb
  | crc16Seed v => exact absurd rfl hb
  | crc16Byte v => exact absurd rfl hb
  | crc16Block => exact absurd rfl hb
  | crc16Check => exact absurd rfl hb
  | readPage b c x => exact (readPage_cases b c x s).mono wire_bus
  | readBytes b c => exact (readBytes_cases b c s).mono wire_bus
  | write b => exact write_cases b s hw
  | readPagePacket b c => exact (readPagePacket_cases b c s).mono wire_bus
  | writePagePacket b => exact writePagePacket_cases b s hw
  | spStage b => exact spStage_cases b s hw
  | spConfirm b => exact spConfirm_cases b s
  | spCommit b => exact spCommit_cases b s
  | lockPage b => exact lockPage_cases b s hw
  | isPageLocked b => exact (isPageLocked_cases b s).mono wire_bus
  | redirectPage b => exact redirectPage_cases b s hw
  | getRedirectedPage b => exact (getRedirectedPage_cases b s).mono wire_bus
  | lockRedirectPage b => exact lockRedirectPage_cases b s hw
  | isRedirectPageLocked b => exact (isRedirectPageLocked_cases b s).mono wire_bus
  | installSecret b slot => cases hm
  | bindSecret b slot af => cases hm
  | computeNextSecret b => cases hm
  | authRead b => exact authRead_cases b s

/-- A bus command that does not go through the scratchpad keeps what `wireView` sees. -/
theorem exec_wire (i : Instr) (s : State) (hb : bankOf i ≠ none) (hm : movesScratch i = false) :
    CmdCases wireView i s (exec i s) := by
  cases i with
  | crc8Seed v => exact absurd rfl hb
  | crc8Byte v => exact absurd rfl hb
  | crc8Block => exact absurd rfl hb
  | crc8Check => exact absurd rfl hb
  | crc16Seed v => exact absurd rfl hb
  | crc16Byte v => exact absurd rfl hb
  | crc16Block => exact absurd rfl hb
  | crc16Check => exact absurd rfl hb
  | readPage b c x => exact readPage_cases b c x s
  | readBytes b c => exact readBytes_cases b c s
  | write b => cases hm
  | readPagePacket b c => exact readPagePacket_cases b c s
  | writePagePacket b => cases hm
  | spStage b => cases hm
  | spConfirm b => cases hm
  | spCommit b => cases hm
  | lockPage b => cases hm
  | isPageLocked b => exact isPageLocked_cases b s
  | redirectPage b => cases hm
  | getRedirectedPage b => exact getRedirectedPage_cases b s
  | lockRedirectPage b => cases hm
  | isRedirectPageLocked b => exact isRedirectPageLocked_cases b s
  | installSecret b slot => cases hm
  | bindSecret b slot af => cases hm
  | computeNextSecret b => cases hm
  | authRead b => cases hm

/-- A command that moves the secret goes through the scratchpad. -/
theorem movesSecret_scratch (i : Instr) (h : movesScratch i = false) : movesSecret i = false := by
  cases i <;> first | rfl | cases h

/-! The CRC commands (41_crc.md R156). -/

/-- How the body of a CRC command may end: a check, or the accumulators and RESULT. -/
def CrcEnds (s : State) (r : EStateM.Result Stop State Unit) : Prop :=
  (∃ c, r = .error (.raised .check c) s) ∨ ∃ a b v, r = .ok () { s with crc8 := a, crc16 := b, result := v }

/-- How a CRC command may end. -/
inductive CrcCases (s : State) : Host.Outcome State Fault Refusal → Prop where
  | left (u : State) : Left (start s) u → CrcCases s (.next (softReset u))
  | check (c : Cause) (u : State) :
    Rel wireView (start s) u → (s.quiet = true → u = start s) → CrcCases s (.next (completeError .check c u))
  | ok (a : Byte) (b : HWord) (v : Word) (u : State) :
    Rel wireView (start s) u → (s.quiet = true → u = start s) →
      CrcCases s (.next (completeOk { u with crc8 := a, crc16 := b, result := v }))
  | fault (f : Fault) : s.hostLegal = false → CrcCases s (.fault f)
  | refused (r : Refusal) : s.hostLegal = false → CrcCases s (.refused r)

/-- A procedure that is checks and internal writes only, run as a command. -/
theorem crcCases_of {s : State} {p : Proc Unit} (h : ∀ s0, CrcEnds s0 (p s0)) : CrcCases s (runCommand p s) := by
  have h1 := land_bus s.cfg (start s) rfl rfl
  have hq : s.quiet = true → land (start s) = .ok () (start s) := fun hq => land_quiet (s := start s) hq
  unfold runCommand
  cases hr : land (start s) with
  | error e u =>
    rw [hr] at h1
    rw [bind_error hr]
    cases e with
    | raised ph c =>
      obtain ⟨rfl, -, h2⟩ := h1
      exact absurd hr (land_raises _ _ _ _)
    | abandoned => exact .left u h1
    | fault f => exact .fault f h1
    | refused r => exact .refused r h1
  | ok _ s0 =>
    rw [hr] at h1
    have hu : s.quiet = true → s0 = start s := fun hqs => by have := hq hqs; rw [hr] at this; cases this; rfl
    rw [bind_ok hr]
    rcases h s0 with ⟨c, hc⟩ | ⟨a, b, v, hc⟩
    · rw [hc]; exact .check c s0 h1 hu
    · rw [hc]; exact .ok a b v s0 h1 hu

theorem crcEnds_block {s : State} {checks : List (Bool × Cause)} {f : Unit → Proc Unit} (h : CrcEnds s (f () s)) :
    CrcEnds s ((require checks >>= f) s) := by
  have hr := require_run checks s
  cases hc : firstFailing checks with
  | some c => rw [hc] at hr; exact .inl ⟨c, bind_error hr⟩
  | none => rw [hc] at hr; rw [bind_ok hr]; exact h

theorem exec_crc (i : Instr) (s : State) (hb : bankOf i = none) : CrcCases s (exec i s) := by
  cases i with
  | crc8Seed v => exact crcCases_of fun s0 => .inr ⟨_, s0.crc16, _, rfl⟩
  | crc8Byte v => exact crcCases_of fun s0 => .inr ⟨_, s0.crc16, _, rfl⟩
  | crc8Block => exact crcCases_of fun s0 => crcEnds_block (.inr ⟨_, s0.crc16, _, rfl⟩)
  | crc8Check => exact crcCases_of fun s0 => .inr ⟨s0.crc8, s0.crc16, _, rfl⟩
  | crc16Seed v => exact crcCases_of fun s0 => .inr ⟨s0.crc8, _, _, rfl⟩
  | crc16Byte v => exact crcCases_of fun s0 => .inr ⟨s0.crc8, _, _, rfl⟩
  | crc16Block => exact crcCases_of fun s0 => crcEnds_block (.inr ⟨s0.crc8, _, _, rfl⟩)
  | crc16Check => exact crcCases_of fun s0 => .inr ⟨s0.crc8, s0.crc16, _, rfl⟩
  | readPage b c x => cases hb
  | readBytes b c => cases hb
  | write b => cases hb
  | readPagePacket b c => cases hb
  | writePagePacket b => cases hb
  | spStage b => cases hb
  | spConfirm b => cases hb
  | spCommit b => cases hb
  | lockPage b => cases hb
  | isPageLocked b => cases hb
  | redirectPage b => cases hb
  | getRedirectedPage b => cases hb
  | lockRedirectPage b => cases hb
  | isRedirectPageLocked b => cases hb
  | installSecret b slot => cases hb
  | bindSecret b slot af => cases hb
  | computeNextSecret b => cases hb
  | authRead b => cases hb

/-! A command in a quiet state. -/

/-- How a command that ran in a quiet state ended. -/
inductive QuietCases (i : Instr) (s t : State) : Prop where
  | check (c : Cause) : t = completeError .check c (start s) → QuietCases i s t
  | bus (c : Cause) (u : State) : bankOf i ≠ none → RelEvent secView (start s) u → t = completeError .bus c u →
    QuietCases i s t
  | ok (u : State) : bankOf i ≠ none → Worked secView i (start s) u → t = completeOk u → QuietCases i s t
  | crc (a : Byte) (b : HWord) (v : Word) : bankOf i = none →
    t = completeOk { start s with crc8 := a, crc16 := b, result := v } → QuietCases i s t

theorem Left.quiet {s u : State} (h : Left (start s) u) (hq : s.quiet = true) : False := by
  have := h.notQuiet
  rw [start_quiet, hq] at this; cases this

theorem quietCases_of {i : Instr} {s t : State} (hi : i.wf = true) (hw : s.cfg.wf = true) (hq : s.quiet = true)
    (h : exec i s = .next t) : QuietCases i s t := by
  by_cases hb : bankOf i = none
  · have hc := exec_crc i s hb
    rw [h] at hc
    cases hc with
    | left u hu => exact (hu.quiet hq).elim
    | check c u hu hq2 => rw [hq2 hq]; exact .check c rfl
    | ok a b v u hu hq2 => rw [hq2 hq]; exact .crc a b v hb rfl
  · have hc := exec_sec i s hi hw hb
    rw [h] at hc
    cases hc with
    | left u hu => exact (hu.quiet hq).elim
    | check c u hu hq2 => rw [hq2 hq]; exact .check c rfl
    | bus c u hu => exact .bus c u hb hu rfl
    | ok t ht => exact .ok t hb ht rfl

end Sys2Proof.Machine
end

