-- ==== Sys2Proof/Laws/Checks.lean ====
section
/-! SUPPORT. The check phase of every command as one list, and that it passes iff the command is `Allowed`. -/

namespace Sys2Proof.Machine

/-- The checks a command makes, in order (60_exceptions.md R308). -/
def checksOf : Instr → State → List (Bool × Cause)
  | .crc8Seed _, _ => []
  | .crc8Byte _, _ => []
  | .crc8Block, s => [bufferCheck s.x0 s.x1]
  | .crc8Check, _ => []
  | .crc16Seed _, _ => []
  | .crc16Byte _, _ => []
  | .crc16Block, s => [bufferCheck s.x0 s.x1]
  | .crc16Check, _ => []
  | .readPage b _ x, s => readPageChecks s b x
  | .readBytes b _, s => readBytesChecks s b
  | .write b, s => writeChecks s b
  | .readPagePacket b _, s => readPacketChecks s b
  | .writePagePacket b, s => writePacketChecks s b
  | .spStage b, s => spStageChecks s b
  | .spConfirm b, s => spConfirmChecks s b
  | .spCommit b, s => spCommitChecks s b
  | .lockPage b, s => controlChecks s b (s.bank b).lockBank
  | .isPageLocked b, s => controlChecks s b (s.bank b).lockBank
  | .redirectPage b, s => redirectChecks s b
  | .getRedirectedPage b, s => controlChecks s b (s.bank b).redirBank
  | .lockRedirectPage b, s => controlChecks s b (s.bank b).rlockBank
  | .isRedirectPageLocked b, s => controlChecks s b (s.bank b).rlockBank
  | .installSecret b _, s => installChecks s b
  | .bindSecret b _ af, s => bindChecks s b af
  | .computeNextSecret b, s => nextSecretChecks s b
  | .authRead b, s => authReadChecks s b

/-- Taking BUSY changes no check. -/
theorem checksOf_start (i : Instr) (s : State) : checksOf i (start s) = checksOf i s := by cases i <;> rfl

/-- The first failing check of `require`, as a whole command. -/
theorem conclude_refused {checks : List (Bool × Cause)} {f : Unit → Proc Unit} {s : State} {c : Cause}
    (h : firstFailing checks = some c) : conclude ((require checks >>= f) s) = .next (completeError .check c s) := by
  have hr := require_run checks s
  rw [h] at hr
  rw [bind_error hr]; rfl

/-- A command whose check `c` is the first to fail ends with it and does nothing else. -/
theorem exec_refused {i : Instr} {s : State} {c : Cause} (hq : s.quiet = true) (h : firstFailing (checksOf i s) = some c) :
    exec i s = .next (completeError .check c (start s)) := by
  rw [← checksOf_start] at h
  cases i with
  | crc8Seed v => cases h
  | crc8Byte v => cases h
  | crc8Block => exact (runCommand_quiet _ hq).trans (conclude_refused h)
  | crc8Check => cases h
  | crc16Seed v => cases h
  | crc16Byte v => cases h
  | crc16Block => exact (runCommand_quiet _ hq).trans (conclude_refused h)
  | crc16Check => cases h
  | readPage b _ x => exact (runCommand_quiet _ hq).trans (conclude_refused h)
  | readBytes b _ => exact (runCommand_quiet _ hq).trans (conclude_refused h)
  | write b => exact (runCommand_quiet _ hq).trans (conclude_refused h)
  | readPagePacket b _ => exact (runCommand_quiet _ hq).trans (conclude_refused h)
  | writePagePacket b => exact (runCommand_quiet _ hq).trans (conclude_refused h)
  | spStage b => exact (runCommand_quiet _ hq).trans (conclude_refused h)
  | spConfirm b => exact (runCommand_quiet _ hq).trans (conclude_refused h)
  | spCommit b => exact (runCommand_quiet _ hq).trans (conclude_refused h)
  | lockPage b => exact (runCommand_quiet _ hq).trans (conclude_refused h)
  | isPageLocked b => exact (runCommand_quiet _ hq).trans (conclude_refused h)
  | redirectPage b => exact (runCommand_quiet _ hq).trans (conclude_refused h)
  | getRedirectedPage b => exact (runCommand_quiet _ hq).trans (conclude_refused h)
  | lockRedirectPage b => exact (runCommand_quiet _ hq).trans (conclude_refused h)
  | isRedirectPageLocked b => exact (runCommand_quiet _ hq).trans (conclude_refused h)
  | installSecret b _ => exact (runCommand_quiet _ hq).trans (conclude_refused h)
  | bindSecret b _ af => exact (runCommand_quiet _ hq).trans (conclude_refused h)
  | computeNextSecret b => exact (runCommand_quiet _ hq).trans (conclude_refused h)
  | authRead b => exact (runCommand_quiet _ hq).trans (conclude_refused h)

theorem holdsSecret_iff (a : AuthState) : a.holdsSecret = true ↔ a = .secretBound ∨ a = .secretActive := by
  cases a <;> simp [AuthState.holdsSecret]

theorem isSome_iff_ne {α : Type} (o : Option α) : o.isSome = true ↔ o ≠ none := by cases o <;> simp

/-- Every check passes iff the command is allowed. -/
theorem allowed_iff (i : Instr) (s : State) : Allowed i s ↔ firstFailing (checksOf i s) = none := by
  rw [firstFailing_none]
  cases i <;>
    simp only [checksOf, Allowed, BankOk, Readable, CommitOk, SecretHeld, readPageChecks, readBytesChecks, writeChecks,
      readPacketChecks, writePacketChecks, spStageChecks, spConfirmChecks, spCommitChecks, controlChecks, redirectChecks,
      installChecks, bindChecks, nextSecretChecks, authReadChecks, bankChecks, bufferCheck, rangeCheck, pageCheck,
      readableCheck, romCheck, commitAuthCheck, decide_eq_true_eq, List.cons_append, List.nil_append,
      List.forall_mem_cons, List.not_mem_nil, false_imp_iff, implies_true, and_true] <;>
    simp [holdsSecret_iff, isSome_iff_ne, imp_iff_not_or, Nat.add_assoc, bindCodeLength, fragLen] <;>
    tauto

/-- The check phase raises Policy and Authentication errors only. -/
theorem checksOf_kind (i : Instr) (s : State) (k : Bool × Cause) (h : k ∈ checksOf i s) :
    k.2.kind = .policy ∨ k.2.kind = .authentication := by
  revert k
  cases i <;>
    simp [checksOf, readPageChecks, readBytesChecks, writeChecks, readPacketChecks, writePacketChecks, spStageChecks,
      spConfirmChecks, spCommitChecks, controlChecks, redirectChecks, installChecks, bindChecks, nextSecretChecks,
      authReadChecks, bankChecks, bufferCheck, rangeCheck, pageCheck, readableCheck, romCheck, commitAuthCheck, Cause.kind]

/-- A check of the model is this check of the spec. -/
def Matches (m : Bool × Cause) (c : SpecCheck) : Prop := (m.1 = true ↔ c.1) ∧ m.2.kind = c.2.1 ∧ m.2.info = c.2.2

/-- The checks of the model are the checks of the spec, one by one. -/
theorem specChecks_match (i : Instr) (s : State) : List.Forall₂ Matches (checksOf i s) (specChecks i s) := by
  cases i <;>
    simp only [checksOf, specChecks, readPageChecks, readBytesChecks, writeChecks,
      readPacketChecks, writePacketChecks, spStageChecks, spConfirmChecks, spCommitChecks, controlChecks, redirectChecks,
      installChecks, bindChecks, nextSecretChecks, authReadChecks, bankChecks, bufferCheck, rangeCheck, pageCheck,
      readableCheck, romCheck, commitAuthCheck, bankSpecChecks, pageSpecCheck, rangeSpecCheck, bufferSpecCheck, romSpecCheck,
      readableSpecCheck, writableSpecCheck, commitSpecCheck, List.cons_append, List.nil_append, List.forall₂_cons,
      List.Forall₂.nil, Matches, Cause.kind, Cause.info, decide_eq_true_eq, Bool.and_eq_true, Bool.not_eq_true', Bool.and_eq_false_iff,
      decide_eq_false_iff_not, true_and, and_true] <;>
    simp [CommitOk, Readable, SecretHeld, State.x0, State.x1, State.x2, bufLen, bindCodeLength, fragLen, holdsSecret_iff,
      isSome_iff_ne, Nat.add_assoc, State.bank, imp_iff_not_or] <;>
    tauto

/-- The first check that fails is the one the spec gives. -/
theorem firstFailing_match {ms : List (Bool × Cause)} : ∀ {cs : List SpecCheck}, List.Forall₂ Matches ms cs →
    ∀ {before after : List SpecCheck} {P : Prop} {k : ErrKind} {n : Word}, cs = before ++ (P, k, n) :: after →
    (∀ c ∈ before, c.1) → ¬ P →
    ∃ c, firstFailing ms = some c ∧ c.kind = k ∧ c.info = n := by
  intro cs h
  induction h with
  | nil => intro before after P k n h; simp at h
  | @cons m c ms cs hm _ ih =>
    intro before after P k n h hb hP
    cases before with
    | nil =>
      obtain ⟨rfl, rfl⟩ : c = (P, k, n) ∧ cs = after := by simpa using h
      refine ⟨m.2, ?_, hm.2.1, hm.2.2⟩
      obtain ⟨ok, c⟩ := m
      rw [firstFailing_cons, if_neg (fun e => hP (hm.1.1 e))]
    | cons x before =>
      obtain ⟨rfl, rfl⟩ : c = x ∧ cs = before ++ (P, k, n) :: after := by simpa using h
      obtain ⟨d, h1, h2⟩ := ih rfl (fun c hc => hb c (by simp [hc])) hP
      refine ⟨d, ?_, h2⟩
      obtain ⟨ok, e⟩ := m
      rw [firstFailing_cons, if_pos (hm.1.2 (hb c (by simp)))]; exact h1

theorem forall_match {ms : List (Bool × Cause)} {cs : List SpecCheck} (h : List.Forall₂ Matches ms cs) :
    (∀ m ∈ ms, m.1 = true) ↔ ∀ c ∈ cs, c.1 := by
  induction h with
  | nil => simp
  | cons hm _ ih => simp only [List.forall_mem_cons, ih, hm.1]

end Sys2Proof.Machine
end

