-- ==== Sys2Proof/Laws/Served.lean ====
section
/-! SUPPORT. What each reading procedure does in a quiet state whose oracle answers the events `es` that serve it: it ends
normally, hands back what the answers carry, issues exactly `es`, uses up exactly those answers and keeps `QuietFrame`. -/

namespace Sys2Proof.Machine

/-! `QuietFrame` composes. -/

theorem QuietFrame.refl (s : State) : QuietFrame s s :=
  ⟨⟨rfl, rfl, rfl, rfl, rfl, rfl, rfl, rfl, rfl, rfl, rfl, rfl, rfl, rfl, rfl, rfl, rfl, rfl, List.prefix_refl _⟩, rfl, rfl⟩

theorem QuietFrame.trans {s t u : State} (h : QuietFrame s t) (k : QuietFrame t u) : QuietFrame s u := by
  constructor
  · constructor
    · exact k.cfg.trans h.cfg
    · exact k.busy.trans h.busy
    · exact k.done.trans h.done
    · exact k.err.trans h.err
    · exact k.result.trans h.result
    · exact k.arg0.trans h.arg0
    · exact k.arg1.trans h.arg1
    · exact k.arg2.trans h.arg2
    · exact k.arg3.trans h.arg3
    · exact k.crc8.trans h.crc8
    · exact k.crc16.trans h.crc16
    · exact k.wverify.trans h.wverify
    · exact k.romLo.trans h.romLo
    · exact k.romHi.trans h.romHi
    · exact k.romValid.trans h.romValid
    · exact k.auth.trans h.auth
    · exact k.hostSecret.trans h.hostSecret
    · exact k.data.trans h.data
    · exact h.events.trans k.events
  · exact k.host.trans h.host
  · exact k.answers.trans h.answers

theorem QuietFrame.quiet {s t : State} (h : QuietFrame s t) (hq : s.quiet = true) : t.quiet = true := by
  rw [quiet_congr h.host, hq]

theorem QuietFrame.rom {s t : State} (h : QuietFrame s t) : t.rom = s.rom := by
  unfold State.rom; rw [h.romLo, h.romHi]

theorem QuietFrame.bank {s t : State} (h : QuietFrame s t) (b : Nat) : t.bank b = s.bank b := by
  unfold State.bank; rw [h.cfg]

theorem QuietFrame.link {s t : State} (h : QuietFrame s t) : t.link = s.link := by
  unfold State.link; rw [h.cfg, h.rom, h.hostSecret]

theorem afterEvent_frame (s : State) (e : Event) (d : Device) (n : Nat) : QuietFrame s (s.afterEvent e d n) :=
  ⟨⟨rfl, rfl, rfl, rfl, rfl, rfl, rfl, rfl, rfl, rfl, rfl, rfl, rfl, rfl, rfl, rfl, rfl, rfl, List.prefix_append _ _⟩, rfl, rfl⟩

theorem setSp_frame (s : State) (p : Scratch) : QuietFrame s { s with sp := p } :=
  ⟨⟨rfl, rfl, rfl, rfl, rfl, rfl, rfl, rfl, rfl, rfl, rfl, rfl, rfl, rfl, rfl, rfl, rfl, rfl, List.prefix_refl _⟩, rfl, rfl⟩

/-! Lists of events. -/

theorem answering_append (a b : List Event) (rest : Oracle) : answering (a ++ b) rest = answering a (answering b rest) :=
  List.foldr_append

theorem wire_append (a b : List Event) : ∀ v r : Bool,
    wire v r (a ++ b) = wire v r a ++ wire (v || a.any Event.selects) (r || a.any Event.selects) b := by
  induction a with
  | nil => intro v r; simp [wire]
  | cons e a ih => intro v r; simp [wire, ih, Bool.or_assoc]

/-- From `s` to `t` exactly the events `es` were issued and answered, the oracle going on as `rest`; a selection among them leaves
the session verified and resumable, and any event ends the read stream. -/
structure Ran (s : State) (es : List Event) (rest : Oracle) (t : State) : Prop extends QuietFrame s t where
  dev : t.dev = .oracle rest
  trace : t.events = s.events ++ s.wire es
  speed : t.speedVerified = (s.speedVerified || es.any Event.selects)
  resume : t.resumeEligible = (s.resumeEligible || es.any Event.selects)
  cont : t.cont.valid = (s.cont.valid && es.isEmpty)

/-- `Ran`, and the scratchpad record is untouched. -/
structure Wired (s : State) (es : List Event) (rest : Oracle) (t : State) : Prop extends Ran s es rest t where
  sp : t.sp = s.sp

section Ran

variable {s t u : State} {a b : List Event} {r r' : Oracle}

theorem Ran.trans (h : Ran s a r t) (k : Ran t b r' u) : Ran s (a ++ b) r' u where
  toQuietFrame := h.toQuietFrame.trans k.toQuietFrame
  dev := k.dev
  trace := by
    rw [k.trace, h.trace, List.append_assoc]
    unfold State.wire
    rw [wire_append, h.speed, h.resume]
  speed := by rw [k.speed, h.speed, List.any_append, Bool.or_assoc]
  resume := by rw [k.resume, h.resume, List.any_append, Bool.or_assoc]
  cont := by rw [k.cont, h.cont]; cases a <;> simp

theorem Wired.trans (h : Wired s a r t) (k : Wired t b r' u) : Wired s (a ++ b) r' u :=
  ⟨h.toRan.trans k.toRan, k.sp.trans h.sp⟩

/-- Nothing was issued. -/
theorem Wired.refl (hd : s.dev = .oracle r) : Wired s [] r s :=
  ⟨⟨QuietFrame.refl s, hd, by simp [State.wire, Machine.wire], by simp, by simp, by simp⟩, rfl⟩

/-- An event that is no selection. -/
theorem Wired.event {e : Event} {n : Nat} (he : ∀ v w, e.inSession v w = [e]) (hs : e.selects = false) :
    Wired s [e] r (s.afterEvent e (.oracle r) n) :=
  ⟨⟨afterEvent_frame _ _ _ _, rfl, by simp [State.wire, Machine.wire, he, State.afterEvent],
    by simp [State.afterEvent, hs], by simp [State.afterEvent, hs], by simp [State.afterEvent]⟩, rfl⟩

theorem Ran.withSp (h : Ran s a r t) (p : Scratch) : Ran s a r { t with sp := p } :=
  ⟨h.toQuietFrame.trans (setSp_frame t p), h.dev, h.trace, h.speed, h.resume, h.cont⟩

/-- The secret state plays no part in a run. -/
theorem Ran.withSecret (h : Ran s a r t) (x : AuthState) (v : List Byte) :
    Ran { s with auth := x, hostSecret := v } a r { t with auth := x, hostSecret := v } :=
  ⟨⟨⟨h.cfg, h.busy, h.done, h.err, h.result, h.arg0, h.arg1, h.arg2, h.arg3, h.crc8, h.crc16, h.wverify, h.romLo, h.romHi,
    h.romValid, rfl, rfl, h.data, h.events⟩, h.host, h.answers⟩, h.dev, h.trace, h.speed, h.resume, h.cont⟩

theorem Ran.ofSp {p : Scratch} (h : Ran { s with sp := p } a r t) : Ran s a r t :=
  ⟨(setSp_frame s p).trans h.toQuietFrame, h.dev, h.trace, h.speed, h.resume, h.cont⟩

/-- After events with a selection among them. -/
theorem Ran.selected (h : Ran s a r t) (ha : a.any Event.selects = true) : t.selected := by
  refine ⟨by rw [h.speed, ha, Bool.or_true], by rw [h.resume, ha, Bool.or_true], ?_⟩
  rw [h.cont]
  cases a with
  | nil => cases ha
  | cons e a => simp

end Ran

/-! The primitives. -/

theorem fit_self (a : List Byte) (pad : Nat → Byte) (n : Nat) (h : a.length = n) : fit n a pad = a := by
  simp [fit, h]

theorem tSelect_oracle {s : State} {a : Bool} {sel : List Bool} {ex : List (List Byte)} {g : List Byte} (resume : Bool)
    (hq : s.quiet = true) (hd : s.dev = .oracle ⟨a :: sel, ex, g⟩) :
    tSelect resume s = .ok a (s.afterEvent (.select s.rom resume a) (.oracle ⟨sel, ex, g⟩) s.draws) := by
  unfold tSelect selectAnswer; rw [hd]; simp only [event_quiet _ _ _ _ hq]

theorem tReset_oracle {s : State} {o : Oracle} (hq : s.quiet = true) (hd : s.dev = .oracle o) :
    tReset s = .ok () (s.afterEvent .reset (.oracle o) s.draws) := by
  unfold tReset; rw [hd]; exact event_quiet _ _ _ _ hq

/-- An exchange with its answer. -/
theorem exchange_served {s : State} {out a : List Byte} {rest : Oracle} (hq : s.quiet = true)
    (hd : s.dev = .oracle (answering [.exchange out a] rest)) (hl : a.length = out.length) :
    ∃ t, tExchange out s = .ok a t ∧ Wired s [.exchange out a] rest t := by
  refine ⟨s.afterEvent (.exchange out a) (.oracle rest) s.draws, ?_, Wired.event (fun _ _ => rfl) rfl⟩
  have hd : s.dev = .oracle ⟨rest.selects, a :: rest.exchanges, rest.gets⟩ := hd
  unfold tExchange exchangeAnswer
  rw [hd]
  simp only [fit_self a _ _ hl, if_neg (show ¬ a.length < out.length by omega), event_quiet _ _ _ _ hq]

theorem getByte_served {s : State} {v : Byte} {rest : Oracle} (hq : s.quiet = true)
    (hd : s.dev = .oracle (answering [.getByte v] rest)) :
    ∃ t, tGetByte s = .ok v t ∧ Wired s [.getByte v] rest t := by
  refine ⟨s.afterEvent (.getByte v) (.oracle rest) s.draws, ?_, Wired.event (fun _ _ => rfl) rfl⟩
  have hd : s.dev = .oracle ⟨rest.selects, rest.exchanges, v :: rest.gets⟩ := hd
  unfold tGetByte getByteAnswer; rw [hd]; simp only [event_quiet _ _ _ _ hq]

/-- An event that asks nothing. -/
theorem event_served {s : State} {e : Event} {rest : Oracle} (hq : s.quiet = true) (hd : s.dev = .oracle rest)
    (he : ∀ v w, e.inSession v w = [e]) (hs : e.selects = false) :
    ∃ t, event e s.dev s.draws s = .ok () t ∧ Wired s [e] rest t :=
  ⟨_, event_quiet _ _ _ _ hq, by rw [hd]; exact Wired.event he hs⟩

theorem sleep_served {s : State} {rest : Oracle} (ms : Nat) (hq : s.quiet = true) (hd : s.dev = .oracle rest) :
    ∃ t, tSleep ms s = .ok () t ∧ Wired s [.sleep ms] rest t := event_served hq hd (fun _ _ => rfl) rfl

theorem putByte_served {s : State} {rest : Oracle} (v : Byte) (hq : s.quiet = true) (hd : s.dev = .oracle rest) :
    ∃ t, tPutByte v s = .ok () t ∧ Wired s [.putByte v] rest t := by
  obtain ⟨t, h1, h2⟩ := event_served (e := .putByte v) hq hd (fun _ _ => rfl) rfl
  exact ⟨t, by unfold tPutByte; rw [hd]; rw [hd] at h1; exact h1, h2⟩

/-! The session prologue (42_paged_memory.md R161). -/

theorem selectDevice_served {w : Link} {s : State} {rest : Oracle} (hw : s.link = w) (hq : s.quiet = true)
    (hd : s.dev = .oracle (answering [w.select] rest)) :
    ∃ t, selectDevice s = .ok () t ∧ Wired s [w.select] rest t := by
  subst hw
  have hd : s.dev = .oracle ⟨true :: rest.selects, rest.exchanges, rest.gets⟩ := hd
  have hgo : ∀ (r : Bool) (u : State), QuietFrame s u → u.sp = s.sp → u.dev = .oracle ⟨true :: rest.selects, rest.exchanges, rest.gets⟩ →
      u.events ++ [.select s.rom r true] = s.events ++ s.wire [s.link.select] →
      ∃ t, (do
        let ok ← tSelect r
        ensure ok .select
        modify fun s => { s with speedVerified := true, resumeEligible := true } : Proc Unit) u = .ok () t ∧
          Wired s [s.link.select] rest t := by
    intro r u hf hsp hdu htr
    refine ⟨{ u.afterEvent (.select u.rom r true) (.oracle rest) u.draws with
      speedVerified := true, resumeEligible := true }, ?_, ?_⟩
    · rw [bind_ok (tSelect_oracle r (hf.quiet hq) hdu)]; rfl
    · have h1 := hf.trans (afterEvent_frame u (.select u.rom r true) (.oracle rest) u.draws)
      have hrom := hf.rom
      refine ⟨⟨⟨⟨h1.1.1, h1.1.2, h1.1.3, h1.1.4, h1.1.5, h1.1.6, h1.1.7, h1.1.8, h1.1.9, h1.1.10, h1.1.11, h1.1.12,
        h1.1.13, h1.1.14, h1.1.15, h1.1.16, h1.1.17, h1.1.18, h1.1.19⟩, h1.2, h1.3⟩, rfl, ?_, ?_, ?_, ?_⟩, hsp⟩
      · rw [← htr, ← hrom]; rfl
      · simp [Link.select, Event.selects]
      · simp [Link.select, Event.selects]
      · simp [State.afterEvent]
  unfold selectDevice
  rw [get_bind]
  dsimp only
  split
  · rename_i hv
    refine hgo _ s (QuietFrame.refl s) rfl hd ?_
    simp [State.wire, Machine.wire, Link.select, Event.inSession, State.link, hv]
  · rename_i hv
    rw [bind_ok (tReset_oracle hq hd)]
    refine hgo _ _ (afterEvent_frame _ _ _ _) rfl rfl ?_
    simp [State.wire, Machine.wire, Link.select, Event.inSession, State.link, hv, State.afterEvent]

@[simp] theorem wireAddr_length (a : Nat) : (wireAddr a).length = 2 := rfl

@[simp] theorem ff_length (n : Nat) : (ff n).length = n := by simp [ff, rep]

@[simp] theorem frameHead_length (op : Byte) (a : Nat) : (frameHead op a).length = 3 := rfl

theorem frameHead_eq (op : Byte) (a : Nat) : [op] ++ wireAddr a = frameHead op a := by
  simp only [wireAddr, wire16, frameHead, lo, hi, List.cons_append, List.nil_append]
  congr 1
  congr 1
  · apply BitVec.eq_of_toNat_eq
    simp [BitVec.extractLsb'_toNat]
  · congr 1
    apply BitVec.eq_of_toNat_eq
    simp [BitVec.extractLsb'_toNat, Nat.shiftRight_eq_div_pow]
    omega

/-- A device address has 16 bits on the wire. -/
theorem frameHead_mod (op : Byte) (a : Nat) : frameHead op (BitVec.ofNat 16 a).toNat = frameHead op a := by
  rw [← frameHead_eq, ← frameHead_eq, wireAddr, wireAddr, BitVec.ofNat_toNat, BitVec.setWidth_eq]

theorem ensure_pass {ok : Bool} {c : Cause} {s : State} (h : ok = true) : ensure ok c s = .ok () s := by
  rw [h]; rfl

theorem ensure_stop {ok : Bool} {c : Cause} {s : State} (h : ok = false) : ensure ok c s = .error (.raised .bus c) s := by
  rw [h]; rfl

/-- A selection, then an exchange with its answer. -/
theorem selectExchange_served {w : Link} {s : State} {out a : List Byte} {rest : Oracle} (hw : s.link = w)
    (hq : s.quiet = true) (hd : s.dev = .oracle (answering [w.select, .exchange out a] rest)) (hl : a.length = out.length) :
    ∃ t u, selectDevice s = .ok () t ∧ Wired s [w.select] (answering [.exchange out a] rest) t ∧
      tExchange out t = .ok a u ∧ Wired s [w.select, .exchange out a] rest u := by
  obtain ⟨t, ht, hto⟩ := selectDevice_served (rest := answering [.exchange out a] rest) hw hq hd
  obtain ⟨u, hu, huo⟩ := exchange_served (hto.quiet hq) hto.dev hl
  exact ⟨t, u, ht, hto, hu, hto.trans huo⟩

/-! Page reads (20_memory.md R82 to R84; 42_paged_memory.md R162 to R164). -/

theorem contOk_eq (s : State) (b : Nat) (kind : ReadKind) (r : Nat) : contOk s b kind r = continues s b kind r := by
  unfold contOk continues
  cases s.cont
  rw [Bool.eq_iff_iff]
  simp [and_assoc]

theorem contFrame_served {w : Link} {b : Nat} {pg : List Byte × List Byte} {es : List Event} {rest : Oracle} {s : State}
    (hw : s.link = w) (h : PageContServed w b pg es) (hq : s.quiet = true) (hd : s.dev = .oracle (answering es rest)) :
    ∃ t, frameReadCrcCont (s.bank b) s = .ok pg t ∧ Wired s es rest t := by
  subst hw
  obtain ⟨a, rfl, hl, hc, rfl⟩ := h
  obtain ⟨t, ht, hto⟩ := exchange_served hq hd (by simp [hl])
  refine ⟨t, ?_, hto⟩
  unfold frameReadCrcCont
  exact (bind_ok ht).trans ((bind_ok (ensure_pass hc)).trans rfl)

theorem page_served {w : Link} {b p : Nat} {pg : List Byte × List Byte} {es : List Event} {rest : Oracle} {s : State}
    (hw : s.link = w) (h : PageServed w b p pg es) (hq : s.quiet = true) (hd : s.dev = .oracle (answering es rest)) :
    ∃ t, pageRead b p false s = .ok pg t ∧ Wired s es rest t := by
  unfold pageRead
  rw [get_bind]
  simp only [Bool.false_eq_true, if_false]
  subst hw
  unfold PageServed at h
  dsimp only at h
  split at h
  · rename_i haa
    obtain ⟨a1, a2, rfl, h1, hc1, h2, hc2, rfl⟩ := h
    obtain ⟨t, u, ht, hto, hu, huo⟩ := selectExchange_served
      (rest := answering [.exchange (List.replicate (pageFrameLength (s.bank b)) 0xFF) a2] rest) rfl hq hd (by simp [h1])
    obtain ⟨v, hv, hvo⟩ := contFrame_served (w := s.link) (pg := splitPage (s.bank b) 0 a2) huo.link ⟨a2, rfl, h2, hc2, rfl⟩
      (huo.quiet hq) huo.dev
    refine ⟨v, ?_, huo.trans hvo⟩
    rw [bind_ok ht, if_pos (show (s.bank b).crcAfterAddress = true from haa)]
    unfold frameReadCrcAa
    rw [frameHead_eq]
    rw [huo.bank] at hv
    exact (bind_ok hu).trans ((bind_ok (ensure_pass hc1)).trans hv)
  · rename_i haa
    obtain ⟨a, rfl, h1, hc1, rfl⟩ := h
    obtain ⟨t, u, ht, hto, hu, huo⟩ := selectExchange_served (rest := rest) rfl hq hd (by simp [h1])
    refine ⟨u, ?_, huo⟩
    rw [bind_ok ht, if_neg (show ¬ (s.bank b).crcAfterAddress = true from haa)]
    unfold frameReadCrc
    rw [frameHead_eq]
    exact (bind_ok hu).trans ((bind_ok (ensure_pass hc1)).trans rfl)

theorem pageRead_served {w : Link} {b p : Nat} {cok : Bool} {pg : List Byte × List Byte} {es : List Event} {rest : Oracle}
    {s : State} (hw : s.link = w) (h : PageReadServed w b p cok pg es) (hq : s.quiet = true)
    (hd : s.dev = .oracle (answering es rest)) : ∃ t, pageRead b p cok s = .ok pg t ∧ Wired s es rest t := by
  cases cok with
  | true =>
    obtain ⟨t, ht, hto⟩ := contFrame_served hw h hq hd
    exact ⟨t, ht, hto⟩
  | false => exact page_served hw h hq hd

theorem rawRead_served {w : Link} {b r n : Nat} {cok : Bool} {data : List Byte} {es : List Event} {rest : Oracle}
    {s : State} (hw : s.link = w) (h : RawReadServed w b r n cok data es) (hq : s.quiet = true)
    (hd : s.dev = .oracle (answering es rest)) : ∃ t, rawRead b r n cok s = .ok data t ∧ Wired s es rest t := by
  subst hw
  cases cok with
  | true =>
    obtain ⟨a, rfl, hl, rfl⟩ := h
    obtain ⟨t, ht, hto⟩ := exchange_served hq hd (by simp [hl])
    exact ⟨t, ht, hto⟩
  | false =>
    obtain ⟨a, rfl, hl, rfl⟩ := h
    obtain ⟨t, u, ht, hto, hu, huo⟩ := selectExchange_served rfl hq hd (by simp [hl])
    refine ⟨u, ?_, huo⟩
    unfold rawRead
    rw [get_bind]
    simp only [Bool.false_eq_true, if_false]
    rw [bind_ok ht]
    unfold frameReadRaw
    rw [frameHead_eq]
    exact (bind_ok hu).trans rfl

/-- The page read of READ_PAGE and READ_PAGE_PACKET (42_paged_memory.md R166). -/
theorem wholePage_served {s : State} {b p : Nat} {c : Bool} {pg : List Byte × List Byte} {es : List Event} {rest : Oracle}
    (h : WholePageServed s b p c pg es) (hq : s.quiet = true) (hd : s.dev = .oracle (answering es rest)) :
    ∃ t, readWholePage b p c s = .ok (pg.1, pg.2, pageReadKind (s.bank b)) t ∧ Wired s es rest t := by
  unfold WholePageServed wholePageContinues pageReadKind at h
  unfold readWholePage pageReadKind
  rw [get_bind]
  dsimp only at h ⊢
  split at h
  · rename_i hp
    simp only [if_pos hp] at h ⊢
    obtain ⟨t, ht, hto⟩ := pageRead_served rfl h hq hd
    rw [← contOk_eq] at ht
    exact ⟨t, by rw [bind_ok ht]; rfl, hto⟩
  · rename_i hp
    simp only [if_neg hp] at h ⊢
    obtain ⟨t, ht, hto⟩ := rawRead_served rfl h.1 hq hd
    rw [← contOk_eq] at ht
    exact ⟨t, by rw [bind_ok ht, h.2]; rfl, hto⟩

/-- Continuation pages (42_paged_memory.md R169). -/
theorem readMorePages_served {w : Link} (b n : Nat) : ∀ (p : Nat) (data : List Byte) (es : List Event) (rest : Oracle)
    (s : State), s.link = w → MorePagesServed w b n data es → s.quiet = true → s.dev = .oracle (answering es rest) →
    ∃ t, readMorePages b p n s = .ok data t ∧ Wired s es rest t := by
  induction n with
  | zero =>
    rintro p data es rest s - ⟨rfl, rfl⟩ - hd
    exact ⟨s, rfl, Wired.refl hd⟩
  | succ n ih =>
    rintro p data es rest s hw ⟨pg, more, e1, e2, rfl, rfl, h1, h2⟩ hq hd
    rw [answering_append] at hd
    obtain ⟨t, ht, hto⟩ := pageRead_served (p := p) (cok := true) hw h1 hq hd
    obtain ⟨u, hu, huo⟩ := ih (p + 1) more e2 rest t (hto.link.trans hw) h2 (hto.quiet hq) hto.dev
    refine ⟨u, ?_, hto.trans huo⟩
    unfold readMorePages
    rw [bind_ok ht, bind_ok hu]
    rfl

/-! Control bits (44_otp.md R230, R231, R233; 42_paged_memory.md R170). -/

/-- Testing a bit by its mask. -/
theorem testMask (v : Byte) (q : Nat) : (v &&& bitMask q == 0) = !v.getLsbD (q % 8) := by
  have h : q % 8 < 8 := Nat.mod_lt _ (by decide)
  unfold bitMask
  generalize q % 8 = j at h
  revert v
  interval_cases j <;> decide

theorem testBit_served {w : Link} {l q : Nat} {cleared : Bool} {es : List Event} {rest : Oracle} {s : State}
    (hw : s.link = w) (h : BitRead w l q cleared es) (hq : s.quiet = true) (hd : s.dev = .oracle (answering es rest)) :
    ∃ t, testBit l q s = .ok cleared t ∧ Wired s es rest t := by
  obtain ⟨pg, hpg, rfl⟩ := h
  subst hw
  obtain ⟨t, ht, hto⟩ := page_served rfl hpg hq hd
  refine ⟨t, ?_, hto⟩
  unfold testBit readCtl
  rw [get_bind]
  simp only [bind_assoc, ctlPage, ctlByte, byteIndex, Nat.shiftRight_eq_div_pow, testMask]
  exact (bind_ok ht).trans rfl

/-- The test of a bit of a control bank that may be absent. -/
theorem linkTest_served {w : Link} {link : Option Nat} {q : Nat} {cleared : Bool} {d : Cause} {es : List Event} {rest : Oracle}
    {s : State} (hw : s.link = w) (h : LinkTested w link q cleared es) (hq : s.quiet = true)
    (hd : s.dev = .oracle (answering es rest)) :
    ∃ t, (match link with
      | none => pure ()
      | some l => do
        let set ← testBit l q
        ensure (!set) d : Proc Unit) s = (if cleared then .error (.raised .bus d) t else .ok () t) ∧ Wired s es rest t := by
  cases link with
  | none =>
    obtain ⟨rfl, rfl⟩ := h
    exact ⟨s, rfl, Wired.refl hd⟩
  | some l =>
    obtain ⟨t, ht, hto⟩ := testBit_served hw h hq hd
    refine ⟨t, ?_, hto⟩
    simp only
    rw [bind_ok ht, ensure_run]
    cases cleared <;> rfl

theorem lockCheck_served {w : Link} {b p : Nat} {locked : Bool} {es : List Event} {rest : Oracle} {s : State}
    (hw : s.link = w) (h : LockTested w b p locked es) (hq : s.quiet = true) (hd : s.dev = .oracle (answering es rest)) :
    ∃ t, lockCheck b p s = (if locked then .error (.raised .bus .locked) t else .ok () t) ∧ Wired s es rest t := by
  subst hw
  exact linkTest_served (d := .locked) rfl h hq hd

theorem redirectLockCheck_served {w : Link} {b p : Nat} {frozen : Bool} {es : List Event} {rest : Oracle} {s : State}
    (hw : s.link = w) (h : LinkTested w (w.bank b).rlockBank ((w.bank b).rlockOffset + p) frozen es) (hq : s.quiet = true)
    (hd : s.dev = .oracle (answering es rest)) :
    ∃ t, redirectLockCheck (s.bank b) p s = (if frozen then .error (.raised .bus .redirlocked) t else .ok () t) ∧
      Wired s es rest t := by
  subst hw
  exact linkTest_served (d := .redirlocked) rfl h hq hd

theorem lockCheckPages_served {w : Link} (b n : Nat) : ∀ (p : Nat) (es : List Event) (rest : Oracle) (s : State), s.link = w →
    LocksServed w b p n es → s.quiet = true → s.dev = .oracle (answering es rest) →
    ∃ t, lockCheckPages b p n s = .ok () t ∧ Wired s es rest t := by
  induction n with
  | zero =>
    rintro p es rest s - rfl - hd
    exact ⟨s, rfl, Wired.refl hd⟩
  | succ n ih =>
    rintro p es rest s hw ⟨e1, e2, rfl, h1, h2⟩ hq hd
    rw [answering_append] at hd
    obtain ⟨t, ht, hto⟩ := lockCheck_served hw h1 hq hd
    obtain ⟨u, hu, huo⟩ := ih (p + 1) e2 rest t (hto.link.trans hw) h2 (hto.quiet hq) hto.dev
    exact ⟨u, (bind_ok ht).trans hu, hto.trans huo⟩

/-- The first locked page ends the check. -/
theorem lockCheckPages_found {w : Link} (b : Nat) : ∀ (j n p : Nat) (e1 e2 : List Event) (rest : Oracle) (s : State), j < n →
    s.link = w → LocksServed w b p j e1 → LockTested w b (p + j) true e2 → s.quiet = true →
    s.dev = .oracle (answering (e1 ++ e2) rest) →
    ∃ t, lockCheckPages b p n s = .error (.raised .bus .locked) t ∧ Wired s (e1 ++ e2) rest t := by
  intro j
  induction j with
  | zero =>
    rintro n p e1 e2 rest s hj hw rfl h2 hq hd
    obtain ⟨n, rfl⟩ : ∃ m, n = m + 1 := ⟨n - 1, by omega⟩
    obtain ⟨t, ht, hto⟩ := lockCheck_served hw h2 hq hd
    exact ⟨t, bind_error ht, hto⟩
  | succ j ih =>
    rintro n p e1 e2 rest s hj hw ⟨f1, f2, rfl, h1, h3⟩ h2 hq hd
    obtain ⟨n, rfl⟩ : ∃ m, n = m + 1 := ⟨n - 1, by omega⟩
    rw [List.append_assoc, answering_append] at hd
    obtain ⟨t, ht, hto⟩ := lockCheck_served hw h1 hq hd
    obtain ⟨u, hu, huo⟩ := ih n (p + 1) f2 e2 rest t (by omega) (hto.link.trans hw) h3
      (by rw [show p + 1 + j = p + (j + 1) by omega]; exact h2) (hto.quiet hq) hto.dev
    exact ⟨u, (bind_ok ht).trans hu, by rw [List.append_assoc]; exact hto.trans huo⟩

end Sys2Proof.Machine
end

