-- ==== Sys2Proof/Laws/ServedWrite.lean ====
section
/-! SUPPORT. The scratchpad procedures, the write path and the secret-engine steps under events that serve them, and how each
ends under events that make it fail. -/

namespace Sys2Proof.Machine

/-! The scratchpad (43_scratchpad.md R201 to R205). -/

theorem stage_served {w : Link} {b ta : Nat} {d : List Byte} {es : List Event} {rest : Oracle} {s : State} (hw : s.link = w)
    (h : StageServed w b ta d es) (hq : s.quiet = true) (hd : s.dev = .oracle (answering es rest)) :
    ∃ t, stage b ta d s = .ok () t ∧ Ran s es rest t ∧ t.sp = stagedRecord w b ta d := by
  subst hw
  obtain ⟨a, rfl, hl, hc⟩ := h
  obtain ⟨t, u, ht, hto, hu, huo⟩ := selectExchange_served (s := { s with sp := { s.sp with phase := .unknown } }) (w := s.link) rfl hq hd
    (by simp [hl]; omega)
  refine ⟨{ u with sp := stagedRecord s.link b ta d }, ?_, huo.toRan.ofSp.withSp _, rfl⟩
  unfold stage
  rw [bind_ok (setPhase_run _ s), bind_ok ht, get_bind, hto.bank, hto.cfg]
  unfold frameWriteSp
  simp only [frameHead_eq, bind_assoc]
  exact (bind_ok hu).trans ((bind_ok (ensure_pass hc)).trans rfl)

theorem confirms_iff {w : Link} {p : Scratch} {a : List Byte} (hc : crcOk (w.bank p.bank).crcBytes 0 a = true) :
    confirms w.cfg p ⟨ofWire16 (byteAt a 1) (byteAt a 2), byteAt a 3, slice a 4 (4 + p.n)⟩ = true ↔ ReadsBack w p a := by
  simp only [confirms, ReadsBack, hc, true_and, Bool.and_eq_true, beq_iff_eq, Bool.not_eq_true', and_assoc, Scratch.n, expE,
    ofWire16]

/-- `Confirm` up to its read-back. -/
theorem readback_served {w : Link} {a : List Byte} {es : List Event} {rest : Oracle} {s : State} (hw : s.link = w)
    (h : ReadbackSent w s.sp a es) (hq : s.quiet = true) (hd : s.dev = .oracle (answering es rest)) :
    ∃ u, Ran s es rest u ∧ u.sp = { s.sp with phase := .unknown } ∧
      confirm s = (do
        ensure (crcOk (w.bank s.sp.bank).crcBytes 0 a) .confirm
        ensure (confirms w.cfg s.sp ⟨ofWire16 (byteAt a 1) (byteAt a 2), byteAt a 3, slice a 4 (4 + s.sp.n)⟩) .confirm
        setScratch { s.sp with phase := .confirmed, es := byteAt a 3 } : Proc Unit) u := by
  subst hw
  obtain ⟨rfl, hl⟩ := h
  obtain ⟨t, u, ht, hto, hu, huo⟩ := selectExchange_served (s := { s with sp := { s.sp with phase := .unknown } }) (w := s.link) rfl hq hd
    (by simp [hl]; omega)
  refine ⟨u, huo.toRan.ofSp, huo.sp, ?_⟩
  unfold confirm
  rw [get_bind, bind_ok (setPhase_run _ s), bind_ok ht]
  unfold frameReadSp
  simp only [bind_assoc, pure_bind]
  exact (bind_ok hu).trans rfl

theorem confirm_served {w : Link} {e : Byte} {es : List Event} {rest : Oracle} {s : State} (hw : s.link = w)
    (h : ConfirmServed w s.sp e es) (hq : s.quiet = true) (hd : s.dev = .oracle (answering es rest)) :
    ∃ t, confirm s = .ok () t ∧ Ran s es rest t ∧ t.sp = { s.sp with phase := .confirmed, es := e } := by
  obtain ⟨a, h1, h2, rfl⟩ := h
  obtain ⟨u, hu, -, hrun⟩ := readback_served hw h1 hq hd
  refine ⟨_, ?_, hu.withSp _, rfl⟩
  rw [hrun, bind_ok (ensure_pass h2.1), bind_ok (ensure_pass ((confirms_iff h2.1).2 h2))]
  rfl

theorem confirm_fails {w : Link} {es : List Event} {rest : Oracle} {s : State} (hw : s.link = w) (h : ConfirmFails w s.sp es)
    (hq : s.quiet = true) (hd : s.dev = .oracle (answering es rest)) :
    ∃ t, confirm s = .error (.raised .bus .confirm) t ∧ Ran s es rest t ∧ t.sp = { s.sp with phase := .unknown } := by
  obtain ⟨a, h1, h2⟩ := h
  obtain ⟨u, hu, hsp, hrun⟩ := readback_served hw h1 hq hd
  refine ⟨u, ?_, hu, hsp⟩
  rw [hrun]
  cases hc : crcOk (w.bank s.sp.bank).crcBytes 0 a with
  | false => exact bind_error (ensure_stop rfl)
  | true =>
    rw [bind_ok (ensure_pass rfl)]
    exact bind_error (ensure_stop (by rw [← Bool.not_eq_true, confirms_iff hc]; exact h2))

theorem isAlternating_iff (v : Byte) : isAlternating v = true ↔ v = 0xAA ∨ v = 0x55 := by simp [isAlternating]

/-- The poll over busy bytes. -/
theorem poll_busy {k : Bank} {N : Nat} : ∀ (n : Nat) (s : State) (rest : Oracle), s.quiet = true →
    s.dev = .oracle (answering ((List.replicate n 0xFF).map .getByte) rest) →
    ∃ t, poll k (N + n) s = poll k N t ∧ Wired s ((List.replicate n 0xFF).map .getByte) rest t := by
  intro n
  induction n with
  | zero => exact fun s rest _ hd => ⟨s, rfl, Wired.refl hd⟩
  | succ n ih =>
    intro s rest hq hd
    rw [List.replicate_succ, List.map_cons, ← List.singleton_append, answering_append] at hd
    obtain ⟨t, ht, hto⟩ := getByte_served hq hd
    obtain ⟨u, hu, huo⟩ := ih t rest (hto.quiet hq) hto.dev
    refine ⟨u, ?_, ?_⟩
    · rw [← hu, ← Nat.add_assoc]
      conv_lhs => unfold poll
      rw [bind_ok ht]
      simp [isAlternating]
    · rw [List.replicate_succ, List.map_cons, ← List.singleton_append]
      exact hto.trans huo

/-- The poll over busy bytes and one that is not. -/
theorem poll_last {k : Bank} {N n : Nat} {v : Byte} {s : State} {rest : Oracle} (hn : n < N) (hq : s.quiet = true)
    (hd : s.dev = .oracle (answering ((List.replicate n 0xFF ++ [v]).map .getByte) rest)) :
    ∃ t, Wired s ((List.replicate n 0xFF ++ [v]).map .getByte) rest t ∧
      poll k N s = (if isAlternating v then .ok () t else
        if v = 0xFF then poll k (N - n - 1) t else .error (.raised .bus (if k.authenticated then .rejected else .commit)) t) := by
  rw [List.map_append, answering_append] at hd
  obtain ⟨m, rfl⟩ : ∃ m, N = m + 1 + n := ⟨N - n - 1, by omega⟩
  obtain ⟨t, ht, hto⟩ := poll_busy (k := k) (N := m + 1) n s _ hq hd
  obtain ⟨u, hu, huo⟩ := getByte_served (hto.quiet hq) hto.dev
  refine ⟨u, by rw [List.map_append]; exact hto.trans huo, ?_⟩
  rw [ht, show m + 1 + n - n - 1 = m by omega]
  conv_lhs => unfold poll
  rw [bind_ok hu]
  split
  · rfl
  · split <;> rfl

theorem frameCopySp_eq (k : Bank) (ta : HWord) (e : Byte) (mac : List Byte) :
    frameCopySp k ta e mac = frameHead k.opcCopySp ta.toNat ++ e :: mac := by
  rw [← frameHead_eq, wireAddr, BitVec.ofNat_toNat, BitVec.setWidth_eq]; rfl

/-- `Commit` up to its poll. -/
theorem commit_sent {w : Link} {mac polls : List Byte} {es : List Event} {rest : Oracle} {s : State} (hw : s.link = w)
    (h : CommitSent w s.sp.bank s.sp.ta.toNat s.sp.es mac polls es) (hq : s.quiet = true)
    (hd : s.dev = .oracle (answering es rest)) :
    ∃ es1 u, es = es1 ++ polls.map .getByte ∧ Ran s es1 (answering (polls.map .getByte) rest) u ∧
      u.sp = { s.sp with phase := .unknown } ∧
      commit mac s = (poll (s.bank s.sp.bank) s.cfg.pollMax >>= fun _ => setPhase .idle) u := by
  subst hw
  unfold CommitSent at h
  dsimp only at h
  unfold commit
  rw [get_bind]
  dsimp only
  rw [bind_ok (setPhase_run _ s), frameCopySp_eq]
  unfold sendCommit
  generalize hout : frameHead (s.bank s.sp.bank).opcCopySp s.sp.ta.toNat ++ s.sp.es :: mac = out
  have hout' : frameHead (s.link.bank s.sp.bank).opcCopySp s.sp.ta.toNat ++ s.sp.es :: mac = out := hout
  rw [hout'] at h
  split at h
  · rename_i hp
    obtain ⟨a, hl, rfl⟩ := h
    rw [if_pos (show s.cfg.commitPower = true from hp)]
    rw [show ([s.link.select, .exchange out.dropLast a, .setPowerMode s.link.cfg.tCommitMs .afterNextByte, .startPowerDelivery,
        .putByte (out.getLastD 0), .sleep s.link.cfg.tCommitMs] ++ polls.map .getByte : List Event) =
      [s.link.select, .exchange out.dropLast a] ++ ([.setPowerMode s.link.cfg.tCommitMs .afterNextByte] ++
        ([.startPowerDelivery] ++ ([.putByte (out.getLastD 0)] ++ ([.sleep s.link.cfg.tCommitMs] ++ polls.map .getByte))))
      from rfl] at hd ⊢
    rw [answering_append] at hd
    obtain ⟨t, u, ht, hto, hu, huo⟩ := selectExchange_served (s := { s with sp := { s.sp with phase := .unknown } }) (w := s.link) rfl hq hd
      (by rw [List.length_dropLast]; omega)
    obtain ⟨v1, hv1, hvo1⟩ := event_served (e := .setPowerMode s.cfg.tCommitMs .afterNextByte) (huo.quiet hq) huo.dev
      (fun _ _ => rfl) rfl
    have ho1 := huo.trans hvo1
    obtain ⟨v2, hv2, hvo2⟩ := event_served (e := .startPowerDelivery) (ho1.quiet hq) ho1.dev (fun _ _ => rfl) rfl
    have ho2 := ho1.trans hvo2
    obtain ⟨v3, hv3, hvo3⟩ := putByte_served (out.getLastD 0) (ho2.quiet hq) ho2.dev
    have ho3 := ho2.trans hvo3
    obtain ⟨v4, hv4, hvo4⟩ := sleep_served s.cfg.tCommitMs (ho3.quiet hq) (rest := answering (polls.map .getByte) rest) ho3.dev
    have ho4 := ho3.trans hvo4
    refine ⟨_, v4, ?_, ho4.toRan.ofSp, ho4.sp, ?_⟩
    · simp only [List.append_assoc]; rfl
    · rw [bind_ok ht]
      simp only [bind_assoc]
      exact (bind_ok hu).trans ((bind_ok hv1).trans ((bind_ok hv2).trans ((bind_ok hv3).trans (bind_ok hv4))))
  · rename_i hp
    obtain ⟨a, hl, rfl⟩ := h
    rw [if_neg (show ¬ s.cfg.commitPower = true from hp)]
    rw [show ([s.link.select, .exchange out a, .sleep s.link.cfg.tCommitMs] ++ polls.map .getByte : List Event) =
      [s.link.select, .exchange out a] ++ ([.sleep s.link.cfg.tCommitMs] ++ polls.map .getByte) from rfl] at hd ⊢
    rw [answering_append] at hd
    obtain ⟨t, u, ht, hto, hu, huo⟩ := selectExchange_served (s := { s with sp := { s.sp with phase := .unknown } }) (w := s.link) rfl hq hd hl
    obtain ⟨v4, hv4, hvo4⟩ := sleep_served s.cfg.tCommitMs (huo.quiet hq) (rest := answering (polls.map .getByte) rest) huo.dev
    have ho4 := huo.trans hvo4
    refine ⟨_, v4, ?_, ho4.toRan.ofSp, ho4.sp, ?_⟩
    · simp only [List.append_assoc]; rfl
    · rw [bind_ok ht]
      simp only [bind_assoc]
      exact (bind_ok hu).trans (bind_ok hv4)

theorem commit_served {w : Link} {mac : List Byte} {es : List Event} {rest : Oracle} {s : State} (hw : s.link = w)
    (h : CommitServed w s.sp.bank s.sp.ta.toNat s.sp.es mac es) (hq : s.quiet = true)
    (hd : s.dev = .oracle (answering es rest)) :
    ∃ t, commit mac s = .ok () t ∧ Ran s es rest t ∧ t.sp = { s.sp with phase := .idle } := by
  obtain ⟨n, v, hn, hv, h⟩ := h
  obtain ⟨es1, u, rfl, hu, hsp, hrun⟩ := commit_sent hw h hq hd
  subst hw
  obtain ⟨t, ht, hpoll⟩ := poll_last (k := s.bank s.sp.bank) (N := s.cfg.pollMax) hn (hu.quiet hq) hu.dev
  rw [if_pos ((isAlternating_iff v).2 hv)] at hpoll
  refine ⟨{ t with sp := { t.sp with phase := .idle } }, ?_, (hu.trans ht.toRan).withSp _, ?_⟩
  · rw [hrun, bind_ok hpoll]; rfl
  · simp only [ht.sp, hsp]

/-- POLL_MAX busy bytes. -/
theorem commit_busy {w : Link} {mac : List Byte} {es : List Event} {rest : Oracle} {s : State} (hw : s.link = w)
    (h : CommitSent w s.sp.bank s.sp.ta.toNat s.sp.es mac (List.replicate s.cfg.pollMax 0xFF) es) (hq : s.quiet = true)
    (hd : s.dev = .oracle (answering es rest)) :
    ∃ t, commit mac s = .error (.raised .bus .poll) t ∧ Ran s es rest t ∧ t.sp = { s.sp with phase := .unknown } := by
  obtain ⟨es1, u, rfl, hu, hsp, hrun⟩ := commit_sent hw h hq hd
  obtain ⟨t, ht, hto⟩ := poll_busy (k := s.bank s.sp.bank) (N := 0) s.cfg.pollMax u _ (hu.quiet hq) hu.dev
  rw [Nat.zero_add] at ht
  exact ⟨t, by rw [hrun]; exact bind_error ht, hu.trans hto.toRan, hto.sp.trans hsp⟩

/-- A byte that is neither busy nor done. -/
theorem commit_refused {w : Link} {mac : List Byte} {n : Nat} {v : Byte} {es : List Event} {rest : Oracle} {s : State}
    (hw : s.link = w) (hn : n < s.cfg.pollMax) (hv : v ≠ 0xFF ∧ v ≠ 0xAA ∧ v ≠ 0x55)
    (h : CommitSent w s.sp.bank s.sp.ta.toNat s.sp.es mac (List.replicate n 0xFF ++ [v]) es) (hq : s.quiet = true)
    (hd : s.dev = .oracle (answering es rest)) :
    ∃ t, commit mac s = .error (.raised .bus (if (s.bank s.sp.bank).authenticated then .rejected else .commit)) t ∧
      Ran s es rest t ∧ t.sp = { s.sp with phase := .unknown } := by
  obtain ⟨es1, u, rfl, hu, hsp, hrun⟩ := commit_sent hw h hq hd
  obtain ⟨t, ht, hpoll⟩ := poll_last (k := s.bank s.sp.bank) (N := s.cfg.pollMax) hn (hu.quiet hq) hu.dev
  rw [if_neg (by rw [isAlternating_iff]; tauto), if_neg hv.1] at hpoll
  exact ⟨t, by rw [hrun]; exact bind_error hpoll, hu.trans ht.toRan, ht.sp.trans hsp⟩

/-- `Stage` and `Confirm` of the same bytes. -/
theorem staged_served {w : Link} {b ta : Nat} {d : List Byte} {e : Byte} {es : List Event} {rest : Oracle} {s : State}
    (hw : s.link = w) (h : StagedServed w b ta d e es) (hq : s.quiet = true) (hd : s.dev = .oracle (answering es rest)) :
    ∃ t u, stage b ta d s = .ok () t ∧ confirm t = .ok () u ∧ Ran s es rest u ∧
      u.sp = ⟨.confirmed, b, BitVec.ofNat 16 ta, e, d⟩ := by
  obtain ⟨e1, e2, rfl, h1, h2⟩ := h
  rw [answering_append] at hd
  obtain ⟨t, ht, hto, htsp⟩ := stage_served hw h1 hq hd
  obtain ⟨u, hu, huo, husp⟩ := confirm_served (s := t) (hto.link.trans hw) (by rw [htsp]; exact h2) (hto.quiet hq) hto.dev
  exact ⟨t, u, ht, hu, hto.trans huo, by rw [husp, htsp]; rfl⟩

/-- A commit frame depends on its address as 16 bits. -/
theorem commitSent_mod {w : Link} {b ta : Nat} {e : Byte} {mac polls : List Byte} {es : List Event} :
    CommitSent w b (BitVec.ofNat 16 ta).toNat e mac polls es ↔ CommitSent w b ta e mac polls es := by
  unfold CommitSent
  rw [frameHead_mod]

/-- `Stage`, `Confirm` and `Commit` of the same bytes. -/
theorem transfer_served {w : Link} {b ta : Nat} {d mac : List Byte} {es : List Event} {rest : Oracle} {s : State}
    (hw : s.link = w) (h : TransferServed w b ta d mac es) (hq : s.quiet = true)
    (hd : s.dev = .oracle (answering es rest)) :
    ∃ t u v, stage b ta d s = .ok () t ∧ confirm t = .ok () u ∧ commit mac u = .ok () v ∧ Ran s es rest v ∧
      v.sp.phase = .idle := by
  obtain ⟨e1, e2, e, rfl, h1, n, v, hn, hv, h2⟩ := h
  rw [answering_append] at hd
  obtain ⟨t, u, ht, hu, huo, husp⟩ := staged_served hw h1 hq hd
  obtain ⟨x, hx, hxo, hxsp⟩ := commit_served (s := u) (mac := mac) (huo.link.trans hw)
    (by rw [husp]; exact ⟨n, v, hn, hv, commitSent_mod.2 h2⟩) (huo.quiet hq) huo.dev
  exact ⟨t, u, x, ht, hu, hx, huo.trans hxo, by rw [hxsp]⟩

/-! Chunks (42_paged_memory.md R172 to R174; 45_auth.md R269). -/

/-- The read-back of `Verify`. -/
theorem verify_sent {w : Link} {b ta : Nat} {d got : List Byte} {es : List Event} {rest : Oracle} {s : State}
    (hw : s.link = w) (h : VerifySent w b ta d.length got es) (hq : s.quiet = true)
    (hd : s.dev = .oracle (answering es rest)) :
    ∃ t, verify b ta d s = (if got = d then .ok () t else .error (.raised .bus .verify) t) ∧ Wired s es rest t := by
  subst hw
  unfold verify
  rw [get_bind]
  unfold VerifySent at h
  dsimp only at h
  split at h
  · rename_i hp
    obtain ⟨pg, hpg, rfl⟩ := h
    obtain ⟨t, ht, hto⟩ := page_served rfl hpg hq hd
    refine ⟨t, ?_, hto⟩
    rw [if_pos (show (s.bank b).pageAutoCrc = true from hp)]
    refine (bind_ok ht).trans ?_
    rw [ensure_run]
    simp only [beq_iff_eq]
    rfl
  · rename_i hp
    obtain ⟨t, ht, hto⟩ := rawRead_served rfl h hq hd
    refine ⟨t, ?_, hto⟩
    rw [if_neg (show ¬ (s.bank b).pageAutoCrc = true from hp)]
    refine (bind_ok ht).trans ?_
    rw [ensure_run]
    simp only [beq_iff_eq]

/-- The MAC of a commit, if its bank needs one. -/
theorem mac_served {β : Type} {w : Link} {b ta : Nat} {d mac : List Byte} {es : List Event} {rest : Oracle} {s : State}
    (f : List Byte → Proc β) (hw : s.link = w) (h : MacServed w b ta d mac es) (hq : s.quiet = true)
    (hd : s.dev = .oracle (answering es rest)) :
    ∃ t, (if (s.bank b).authenticated = true then (do let mac ← macFor b ta d; f mac) else (do let mac ← pure []; f mac)) s =
      f mac t ∧ Wired s es rest t := by
  subst hw
  unfold MacServed at h
  split at h
  · rename_i ha
    obtain ⟨pg, hpg, rfl⟩ := h
    obtain ⟨t, ht, hto⟩ := page_served rfl hpg hq hd
    refine ⟨t, ?_, hto⟩
    rw [if_pos (show (s.bank b).authenticated = true from ha)]
    unfold macFor
    rw [bind_assoc, get_bind]
    refine (congrFun (bind_assoc _ _ _) s).trans ((bind_ok ht).trans ?_)
    rfl
  · rename_i ha
    obtain ⟨rfl, rfl⟩ := h
    exact ⟨s, by rw [if_neg (show ¬ (s.bank b).authenticated = true from ha)]; rfl, Wired.refl hd⟩

/-- `WriteChunk`: it fails iff its read-back differs. -/
theorem writeChunk_sent {w : Link} {b ta : Nat} {d got : List Byte} {check : Bool} {es : List Event} {rest : Oracle}
    {s : State} (hw : s.link = w) (h : ChunkSent w b ta d check got es) (hq : s.quiet = true)
    (hd : s.dev = .oracle (answering es rest)) :
    ∃ t, writeChunk b ta d check s = (if check = true ∧ got ≠ d then .error (.raised .bus .verify) t else .ok () t) ∧
      Ran s es rest t ∧ t.sp.phase = .idle := by
  obtain ⟨e1, e2, e3, mac, rfl, h1, h2, h3⟩ := h
  rw [answering_append, answering_append] at hd
  obtain ⟨t, ht, hto⟩ := mac_served (fun mac => do
    stage b ta d
    confirm
    commit mac
    if check then verify b ta d else pure ()) hw h1 hq hd
  obtain ⟨u1, u2, u, hu1, hu2, hu, huo, husp⟩ := transfer_served (hto.link.trans hw) h2 (hto.quiet hq) hto.dev
  have hrun : writeChunk b ta d check s = (if check then verify b ta d else pure () : Proc Unit) u := by
    unfold writeChunk
    rw [get_bind]
    refine ht.trans ?_
    rw [bind_ok hu1, bind_ok hu2, bind_ok hu]
  have ho := hto.toRan.trans huo
  rw [hrun]
  cases check with
  | false =>
    simp only [Bool.false_eq_true, if_false] at h3
    subst h3
    rw [List.append_nil]
    exact ⟨u, by simp, ho, husp⟩
  | true =>
    simp only [if_true] at h3
    obtain ⟨v, hv, hvo⟩ := verify_sent (s := u) (ho.link.trans hw) h3 (ho.quiet hq) ho.dev
    refine ⟨v, ?_, by rw [← List.append_assoc]; exact ho.trans hvo.toRan, by rw [hvo.sp]; exact husp⟩
    simp only [if_true, true_and, hv]
    by_cases hg : got = d <;> simp [hg]

theorem writeChunk_served {w : Link} {b ta : Nat} {d : List Byte} {check : Bool} {es : List Event} {rest : Oracle}
    {s : State} (hw : s.link = w) (h : ChunkServed w b ta d check es) (hq : s.quiet = true)
    (hd : s.dev = .oracle (answering es rest)) :
    ∃ t, writeChunk b ta d check s = .ok () t ∧ Ran s es rest t ∧ t.sp.phase = .idle := by
  obtain ⟨t, ht, hto⟩ := writeChunk_sent hw h hq hd
  exact ⟨t, by simpa using ht, hto⟩

/-- The chunks `cs`, in order, and then those of `more`. -/
theorem writeChunks_served {w : Link} (b : Nat) (d : List Byte) (check : Bool) (more cs : List Chunk) :
    ∀ (es : List Event) (rest : Oracle) (s : State), s.link = w → ChunksServed w b d check cs es → s.quiet = true →
    s.dev = .oracle (answering es rest) →
    ∃ t, writeChunks b d check (cs ++ more) s = writeChunks b d check more t ∧ Ran s es rest t ∧
      (t.sp.phase = .idle ∨ cs = [] ∧ t = s) := by
  induction cs with
  | nil =>
    rintro es rest s - rfl - hd
    exact ⟨s, rfl, (Wired.refl hd).toRan, .inr ⟨rfl, rfl⟩⟩
  | cons ch cs ih =>
    rintro es rest s hw ⟨e1, e2, rfl, h1, h2⟩ hq hd
    rw [answering_append] at hd
    obtain ⟨t, ht, hto, htsp⟩ := writeChunk_served hw h1 hq hd
    obtain ⟨u, hu, huo, husp⟩ := ih e2 rest t (hto.link.trans hw) h2 (hto.quiet hq) hto.dev
    refine ⟨u, (bind_ok ht).trans hu, hto.trans huo, .inl ?_⟩
    rcases husp with h | ⟨-, rfl⟩
    · exact h
    · exact htsp

theorem chunks_ne_nil {c : Config} {k : Bank} {r n : Nat} (h : 1 ≤ n) : chunks c k r n ≠ [] := by
  unfold chunks
  cases n with
  | zero => omega
  | succ n => simp [chunksFrom]

theorem writeRange_served {w : Link} {b r : Nat} {d : List Byte} {check : Bool} {es : List Event} {rest : Oracle}
    {s : State} (hn : 1 ≤ d.length) (hw : s.link = w) (h : WriteServed w b r d check es) (hq : s.quiet = true)
    (hd : s.dev = .oracle (answering es rest)) :
    ∃ t, writeRange b r d check s = .ok () t ∧ Ran s es rest t ∧ t.sp.phase = .idle := by
  obtain ⟨e1, e2, rfl, h1, h2⟩ := h
  subst hw
  rw [answering_append] at hd
  obtain ⟨t, ht, hto⟩ := lockCheckPages_served b _ _ e1 _ s rfl h1 hq hd
  obtain ⟨u, hu, huo, husp⟩ := writeChunks_served b d check [] _ e2 rest t hto.link h2 (hto.quiet hq) hto.dev
  rw [List.append_nil] at hu
  refine ⟨u, ?_, hto.toRan.trans huo, husp.resolve_right fun h => chunks_ne_nil hn h.1⟩
  unfold writeRange
  rw [get_bind]
  exact (bind_ok ht).trans hu

/-- A read-back that differs ends the write. -/
theorem writeRange_differs {w : Link} {b r : Nat} {d : List Byte} {es : List Event} {rest : Oracle} {s : State}
    (hw : s.link = w) (h : WriteDiffers w b r d es) (hq : s.quiet = true) (hd : s.dev = .oracle (answering es rest)) :
    ∃ t, writeRange b r d true s = .error (.raised .bus .verify) t ∧ Ran s es rest t ∧ t.sp.phase = .idle := by
  obtain ⟨pre, ch, post, e1, e2, e3, got, hch, rfl, h1, h2, h3, hg⟩ := h
  subst hw
  rw [answering_append, answering_append] at hd
  obtain ⟨t, ht, hto⟩ := lockCheckPages_served b _ _ e1 _ s rfl h1 hq hd
  obtain ⟨u, hu, huo, -⟩ := writeChunks_served b d true (ch :: post) pre e2 _ t hto.link h2 (hto.quiet hq) hto.dev
  have ho := hto.toRan.trans huo
  obtain ⟨v, hv, hvo, hvsp⟩ := writeChunk_sent ho.link h3 (ho.quiet hq) ho.dev
  rw [if_pos ⟨rfl, hg⟩] at hv
  refine ⟨v, ?_, by rw [← List.append_assoc]; exact ho.trans hvo, hvsp⟩
  unfold writeRange
  rw [get_bind]
  refine (bind_ok ht).trans ?_
  have hch : chunks s.cfg (s.bank b) r d.length = pre ++ ch :: post := hch
  rw [hch, hu]
  exact bind_error hv

/-- A locked page ends the write before any chunk. -/
theorem writeRange_locked {w : Link} {b r : Nat} {d : List Byte} {check : Bool} {es : List Event} {rest : Oracle} {s : State}
    (hw : s.link = w) (h : LockFound w b (r / (w.bank b).pageLength) (pagesTouched (w.bank b) r d.length) es)
    (hq : s.quiet = true) (hd : s.dev = .oracle (answering es rest)) :
    ∃ t, writeRange b r d check s = .error (.raised .bus .locked) t ∧ Wired s es rest t := by
  obtain ⟨j, e1, e2, hj, rfl, h1, h2⟩ := h
  subst hw
  obtain ⟨t, ht, hto⟩ := lockCheckPages_found b j _ _ e1 e2 rest s hj rfl h1 h2 hq hd
  refine ⟨t, ?_, hto⟩
  unfold writeRange
  rw [get_bind]
  exact bind_error ht

/-! Control bits (44_otp.md R232). -/

theorem bitClear_sent {w : Link} {l q : Nat} {cleared : Bool} {es : List Event} {rest : Oracle} {s : State}
    (hw : s.link = w) (h : BitClearSent w l q cleared es) (hq : s.quiet = true) (hd : s.dev = .oracle (answering es rest)) :
    ∃ t, bitClear l q s = (if cleared then .ok () t else .error (.raised .bus .lockbit) t) ∧ Ran s es rest t ∧
      t.sp.phase = .idle := by
  obtain ⟨e1, e2, rfl, h1, pg, hpg, rfl⟩ := h
  subst hw
  rw [answering_append] at hd
  obtain ⟨t, ht, hto, htsp⟩ := writeChunk_served rfl h1 hq hd
  obtain ⟨u, hu, huo⟩ := page_served hto.link hpg (hto.quiet hq) hto.dev
  refine ⟨u, ?_, hto.trans huo.toRan, by rw [huo.sp]; exact htsp⟩
  unfold bitClear readCtl
  rw [get_bind]
  simp only [bind_assoc, devAddr, ctlPage, ctlByte, byteIndex, Nat.shiftRight_eq_div_pow, testMask]
  refine (bind_ok ht).trans ((bind_ok hu).trans ?_)
  exact ensure_run _ _ _

/-! The secret engine (45_auth.md R261, R264, R265). -/

/-- `ShaRound` in the two halves the commands call. -/
theorem sha_served {w : Link} {b p : Nat} {sp15 : List Byte} {fn : Byte} {es : List Event} {rest : Oracle} {s : State}
    (hw : s.link = w) (h : ShaServed w b p sp15 fn es) (hq : s.quiet = true) (hd : s.dev = .oracle (answering es rest)) :
    ∃ t u, shaStage b p sp15 s = .ok () t ∧ shaStep b p fn t = .ok () u ∧ Ran s es rest u ∧ u.sp.phase = .idle := by
  obtain ⟨e1, e, x, v, rfl, h1, hx, hv⟩ := h
  subst hw
  rw [answering_append] at hd
  obtain ⟨t, u, ht, hu, huo, -⟩ := staged_served rfl h1 hq hd
  obtain ⟨y, hy, hyo⟩ := selectDevice_served (s := { u with sp := { u.sp with phase := .unknown } }) (w := s.link) huo.link
    (huo.quiet hq) (rest := answering [.exchange (frameHead (s.link.bank b).opcSha
      ((s.link.bank b).base + p * (s.link.bank b).pageLength) ++ [fn]) x, .sleep s.link.cfg.tShaMs, .getByte v] rest) huo.dev
  have ho1 := huo.trans hyo.toRan.ofSp
  obtain ⟨z1, hz1, hzo1⟩ := exchange_served (ho1.quiet hq)
    (rest := answering [.sleep s.link.cfg.tShaMs, .getByte v] rest) ho1.dev (by simp [hx])
  have ho2 := ho1.trans hzo1.toRan
  obtain ⟨z2, hz2, hzo2⟩ := sleep_served s.cfg.tShaMs (ho2.quiet hq) (rest := answering [.getByte v] rest) ho2.dev
  have ho3 := ho2.trans hzo2.toRan
  obtain ⟨z3, hz3, hzo3⟩ := getByte_served (ho3.quiet hq) ho3.dev
  have ho4 := ho3.trans hzo3.toRan
  refine ⟨y, { z3 with sp := { z3.sp with phase := .idle } }, ?_, ?_, ?_, rfl⟩
  · unfold shaStage
    rw [get_bind]
    exact (bind_ok ht).trans ((bind_ok hu).trans ((bind_ok (setPhase_run _ u)).trans hy))
  · unfold shaStep frameSha
    rw [get_bind]
    dsimp only
    rw [bind_assoc, get_bind, ho1.bank, ho1.cfg, frameHead_eq]
    simp only [bind_assoc]
    exact (bind_ok hz1).trans ((bind_ok hz2).trans ((bind_ok hz3).trans
      ((bind_ok (ensure_pass ((isAlternating_iff v).2 hv))).trans rfl)))
  · have := ho4.withSp { z3.sp with phase := .idle }
    simp only [List.append_assoc] at this
    exact this

theorem slotCopy_served {w : Link} {b slot : Nat} {secret : List Byte} {es : List Event} {rest : Oracle} {s : State}
    (hw : s.link = w) (hs : s.hostSecret = secret) (h : SlotServed w b slot secret es) (hq : s.quiet = true)
    (hd : s.dev = .oracle (answering es rest)) :
    ∃ t, slotCopy b slot s = .ok () t ∧ Ran s es rest t ∧ t.sp.phase = .idle := by
  subst hw hs
  obtain ⟨t, u, v, ht, hu, hv, hvo, hvsp⟩ := transfer_served rfl h hq hd
  refine ⟨v, ?_, hvo, hvsp⟩
  unfold slotCopy
  rw [get_bind]
  exact (bind_ok ht).trans ((bind_ok hu).trans hv)

/-- Bit b of WVERIFY, of a bank that exists (10_state.md R37). -/
theorem writeVerify_eq {s : State} {b : Nat} (hb : b < s.cfg.nbanks) : writeVerify s b = s.wverify.getLsbD b := by
  unfold writeVerify
  rw [BitVec.getLsbD_and]
  by_cases h : b < 32
  · simp [wverifyMask_bit _ _ h, hb]
  · simp [BitVec.getLsbD_of_ge _ _ (show 32 ≤ b by omega)]

theorem writeVerify_congr {s t : State} (h : QuietFrame s t) (b : Nat) : writeVerify t b = writeVerify s b := by
  unfold writeVerify; rw [h.wverify, h.cfg]

theorem installChunks_served {w : Link} {check : Bool} (b p : Nat) (S : List Byte) (n : Nat) : ∀ (j : Nat) (sec : List Byte)
    (es : List Event) (rest : Oracle) (s : State), 47 * (j + n) ≤ S.length → s.link = w → writeVerify s b = check →
    InstallServed w b p S check n j es → s.quiet = true → s.dev = .oracle (answering es rest) →
    ∃ t, installChunks b p S n j sec s = .ok (installedSecret w.cfg S n j sec) t ∧ Ran s es rest t := by
  induction n with
  | zero =>
    rintro j sec es rest s - - - rfl - hd
    exact ⟨s, rfl, (Wired.refl hd).toRan⟩
  | succ n ih =>
    rintro j sec es rest s hS hw hv ⟨e1, e2, e3, rfl, h1, h2, h3⟩ hq hd
    rw [answering_append, answering_append] at hd
    have hl : (slice (slice S (47 * j) (47 * j + 47)) 0 32).length = 32 := by simp [slice]; omega
    obtain ⟨t, ht, hto, -⟩ := writeRange_served (by rw [hl]; decide) hw h1 hq hd
    obtain ⟨u1, u, hu1, hu, huo, -⟩ := sha_served (hto.link.trans hw) h2 (hto.quiet hq) hto.dev
    have ho := hto.trans huo
    obtain ⟨v, hv', hvo⟩ := ih (j + 1) (devSecret w.cfg sec (slice (slice S (47 * j) (47 * j + 47)) 0 32)
      (slice (slice S (47 * j) (47 * j + 47)) 32 47)) e3 rest u (by omega) (ho.link.trans hw)
      ((writeVerify_congr ho.toQuietFrame b).trans hv) h3 (ho.quiet hq) ho.dev
    subst hw
    refine ⟨v, ?_, by rw [← List.append_assoc]; exact ho.trans hvo⟩
    unfold installChunks
    rw [get_bind, hv]
    refine (bind_ok ht).trans ?_
    unfold shaRound
    rw [bind_assoc]
    exact (bind_ok hu1).trans ((bind_ok hu).trans hv')

/-- AUTH_READ up to its MAC check (45_auth.md R268). -/
theorem authRead_served {w : Link} {b p : Nat} {chal : List Byte} {r : AuthPage} {es : List Event} {rest : Oracle} {s : State}
    (hw : s.link = w) (h : AuthReadServed w b p chal r es) (hq : s.quiet = true) (hd : s.dev = .oracle (answering es rest)) :
    ∃ t u v x, stage b (pageAddr (w.bank b) p + w.cfg.chalOffset) chal s = .ok () t ∧ confirm t = .ok () u ∧
      selectDevice { u with sp := { u.sp with phase := .unknown } } = .ok () v ∧
      frameReadAuth (w.bank b) (pageAddr (w.bank b) p) v = .ok r x ∧ Ran s es rest x := by
  obtain ⟨e1, e, a1, a2, rfl, h1, hl1, hc1, hl2, hc2, rfl⟩ := h
  subst hw
  rw [answering_append] at hd
  obtain ⟨t, u, ht, hu, huo, -⟩ := staged_served rfl h1 hq hd
  obtain ⟨y, hy, hyo⟩ := selectDevice_served (s := { u with sp := { u.sp with phase := .unknown } }) (w := s.link) huo.link
    (huo.quiet hq) (rest := answering [.exchange (frameHead (s.link.bank b).opcReadAuth
      ((s.link.bank b).base + p * (s.link.bank b).pageLength) ++
        List.replicate (32 + (s.link.bank b).extraInfoLength + 2) 0xFF) a1, .sleep s.link.cfg.tShaMs,
      .exchange (List.replicate 22 0xFF) a2] rest) huo.dev
  have ho1 := huo.trans hyo.toRan.ofSp
  obtain ⟨z1, hz1, hzo1⟩ := exchange_served (ho1.quiet hq)
    (rest := answering [.sleep s.link.cfg.tShaMs, .exchange (List.replicate 22 0xFF) a2] rest) ho1.dev (by simp [hl1]; omega)
  have ho2 := ho1.trans hzo1.toRan
  obtain ⟨z2, hz2, hzo2⟩ := sleep_served s.cfg.tShaMs (ho2.quiet hq)
    (rest := answering [.exchange (List.replicate 22 0xFF) a2] rest) ho2.dev
  have ho3 := ho2.trans hzo2.toRan
  obtain ⟨z3, hz3, hzo3⟩ := exchange_served (ho3.quiet hq) ho3.dev (by simp [hl2])
  have ho4 := ho3.trans hzo3.toRan
  refine ⟨t, u, y, z3, ht, hu, hy, ?_, ?_⟩
  · unfold frameReadAuth
    rw [get_bind, ho1.cfg, frameHead_eq]
    exact (bind_ok hz1).trans ((bind_ok (ensure_pass hc1)).trans ((bind_ok hz2).trans ((bind_ok hz3).trans
      ((bind_ok (ensure_pass hc2)).trans rfl))))
  · simp only [List.append_assoc] at ho4
    exact ho4

end Sys2Proof.Machine
end

