-- ==== Sys2Proof/Laws/Complete.lean ====
section
/-! SUPPORT. From a body that runs to a command that completes: past the check phase, and the frame of a completion. -/

namespace Sys2Proof.Machine

theorem require_pass {checks : List (Bool × Cause)} {s : State} (h : firstFailing checks = none) :
    require checks s = .ok () s := by
  rw [require_run, h]

/-- An allowed command passes its check phase. -/
theorem allowed_pass {i : Instr} {s : State} (h : Allowed i s) : require (checksOf i s) (start s) = .ok () (start s) :=
  require_pass ((allowed_iff i s).1 h)

/-- What a body that ended normally makes of the command. -/
theorem completed_of {s u : State} {es : List Event} {rest : Oracle} (h : Ran (start s) es rest u) (d : Memory) (k : Cont)
    (r : Word) (a : AuthState) (v : List Byte) (p : Scratch) :
    Completed s (completeOk { u with data := d, cont := k, result := r, auth := a, hostSecret := v, sp := p }) es rest :=
  ⟨⟨rfl, rfl, h.cfg, h.arg0, h.arg1, h.arg2, h.arg3, h.crc8, h.crc16, h.wverify, h.romLo, h.romHi, h.romValid, h.host,
    h.answers⟩, rfl, h.trace, h.dev⟩

/-- The session flags after an error completion of the bus phase. -/
theorem completeError_flags (c : Cause) (s : State) : (completeError .bus c s).speedVerified = (!c.kind.unverifies && s.speedVerified) ∧
    (completeError .bus c s).resumeEligible = (!c.kind.unverifies && s.resumeEligible) := by
  unfold completeError forceVerify
  cases c.kind.unverifies <;> simp

/-- What a body that raised in its bus phase makes of the command. -/
theorem failed_of {s u : State} {es : List Event} {rest : Oracle} (h : Ran (start s) es rest u) (hne : es ≠ []) (c : Cause)
    (hc : c ≠ .illegal) (a : AuthState) (v : List Byte) (p : Scratch) :
    Failed s (completeError .bus c { u with auth := a, hostSecret := v, sp := p }) c.kind c.info es rest := by
  have hk : c.kind.unverifies = !decide (c.kind = .policy) := by
    revert hc; cases c <;> decide
  have hf := completeError_flags c { u with auth := a, hostSecret := v, sp := p }
  have hcont : es.isEmpty = false := by cases es with
    | nil => exact absurd rfl hne
    | cons e es => rfl
  refine ⟨⟨rfl, rfl, ?_, ?_, ?_, ?_, ?_, ?_, ?_, ?_, ?_, ?_, ?_, ?_, ?_⟩, rfl, rfl, ?_, ?_, fun x => ?_, ?_, ?_, ?_⟩
  case refine_18 => rw [hf.1, hk, Bool.not_not]; exact congrArg _ h.speed
  case refine_19 => rw [hf.2, hk, Bool.not_not]; exact congrArg _ h.resume
  case refine_17 =>
    have := h.cont
    rw [hcont, Bool.and_false] at this
    unfold completeError
    split <;> exact this
  case refine_16 => exact dataByte_congr (by unfold completeError; split <;> exact h.data) x
  all_goals
    unfold completeError
    split
    all_goals first
      | exact h.cfg | exact h.arg0 | exact h.arg1 | exact h.arg2 | exact h.arg3 | exact h.crc8 | exact h.crc16
      | exact h.wverify | exact h.romLo | exact h.romHi | exact h.romValid | exact h.host | exact h.answers
      | exact h.trace | exact h.dev

/-- DATA after a completed write of `bs` at `o` (20_memory.md R72). -/
theorem dataWritten_of {s u t : State} (h : u.data = s.data) (o : Nat) (bs : List Byte) (ht : t.data = (u.putData o bs).data) :
    DataWritten s t o bs := by
  intro a
  rw [dataByte_congr ht a, dataByte_putData, dataByte_congr h a]
  rfl

theorem sameData_of {s t : State} (h : t.data = s.data) : SameData s t := fun a => dataByte_congr h a

/-- A body that ended normally is not touched by `onBusError`. -/
theorem onBusError_ok {α : Type} {f : State → State} {p : Proc α} {s t : State} {a : α} (h : p s = .ok a t) :
    onBusError f p s = .ok a t := by
  unfold onBusError; rw [h]

/-- The events of a write are not none: one selects the device. -/
theorem transfer_selects {w : Link} {b ta : Nat} {d mac : List Byte} {es : List Event} (h : TransferServed w b ta d mac es) :
    es.any Event.selects = true := by
  obtain ⟨e1, e2, e, rfl, ⟨f1, f2, rfl, ⟨a, rfl, -⟩, -⟩, -⟩ := h
  rfl

theorem chunk_selects {w : Link} {b ta : Nat} {d got : List Byte} {check : Bool} {es : List Event}
    (h : ChunkSent w b ta d check got es) : es.any Event.selects = true := by
  obtain ⟨e1, e2, e3, mac, rfl, -, h, -⟩ := h
  simp only [List.any_append, transfer_selects h, Bool.true_or, Bool.or_true]

theorem write_selects {w : Link} {b r : Nat} {d : List Byte} {check : Bool} {es : List Event} (hn : 1 ≤ d.length)
    (h : WriteServed w b r d check es) : es.any Event.selects = true := by
  obtain ⟨e1, e2, rfl, -, h⟩ := h
  cases hc : chunks w.cfg (w.bank b) r d.length with
  | nil => exact absurd hc (chunks_ne_nil hn)
  | cons ch cs =>
    rw [hc] at h
    obtain ⟨f1, f2, rfl, h, -⟩ := h
    simp only [List.any_append, chunk_selects h, Bool.true_or, Bool.or_true]

theorem differs_selects {w : Link} {b r : Nat} {d : List Byte} {es : List Event} (h : WriteDiffers w b r d es) :
    es.any Event.selects = true := by
  obtain ⟨pre, ch, post, e1, e2, e3, got, -, rfl, -, -, h, -⟩ := h
  simp only [List.any_append, chunk_selects h, Bool.or_true]

theorem page_selects {w : Link} {b p : Nat} {pg : List Byte × List Byte} {es : List Event} (h : PageServed w b p pg es) :
    es.any Event.selects = true := by
  unfold PageServed at h
  dsimp only at h
  split at h
  · obtain ⟨a1, a2, rfl, -⟩ := h; rfl
  · obtain ⟨a, rfl, -⟩ := h; rfl

theorem lockFound_selects {w : Link} {b p n : Nat} {es : List Event} (h : LockFound w b p n es) :
    es.any Event.selects = true := by
  obtain ⟨j, e1, e2, -, rfl, -, h⟩ := h
  unfold LockTested LinkTested at h
  split at h
  · exact absurd h.2 (by decide)
  · obtain ⟨pg, hpg, -⟩ := h
    simp only [List.any_append, page_selects hpg, Bool.or_true]

theorem ne_nil_of_selects {es : List Event} (h : es.any Event.selects = true) : es ≠ [] := by
  rintro rfl; cases h

/-- A page read selects the device unless it continues; it is never empty. -/
theorem pageRead_selects {w : Link} {b p : Nat} {cok : Bool} {pg : List Byte × List Byte} {es : List Event}
    (h : PageReadServed w b p cok pg es) : es.any Event.selects = !cok ∧ es ≠ [] := by
  cases cok with
  | true => obtain ⟨a, rfl, -⟩ := h; exact ⟨rfl, by simp⟩
  | false => have := page_selects h; exact ⟨this, ne_nil_of_selects this⟩

theorem rawRead_selects {w : Link} {b r n : Nat} {cok : Bool} {data : List Byte} {es : List Event}
    (h : RawReadServed w b r n cok data es) : es.any Event.selects = !cok ∧ es ≠ [] := by
  cases cok with
  | true => obtain ⟨a, rfl, -⟩ := h; exact ⟨rfl, by simp⟩
  | false => obtain ⟨a, rfl, -⟩ := h; exact ⟨rfl, by simp⟩

theorem wholePage_selects {s : State} {b p : Nat} {c : Bool} {pg : List Byte × List Byte} {es : List Event}
    (h : WholePageServed s b p c pg es) : es.any Event.selects = !wholePageContinues s b p c ∧ es ≠ [] := by
  unfold WholePageServed at h
  dsimp only at h
  split at h
  · exact pageRead_selects h
  · exact rawRead_selects h.1

theorem morePages_selects {w : Link} {b : Nat} : ∀ (n : Nat) (data : List Byte) (es : List Event),
    MorePagesServed w b n data es → es.any Event.selects = false := by
  intro n
  induction n with
  | zero => rintro data es ⟨rfl, -⟩; rfl
  | succ n ih =>
    rintro data es ⟨pg, rest, e1, e2, rfl, -, ⟨a, rfl, -⟩, h⟩
    simpa [Event.selects] using ih _ _ h

theorem readback_selects {w : Link} {p : Scratch} {a : List Byte} {es : List Event} (h : ReadbackSent w p a es) :
    es.any Event.selects = true := by
  obtain ⟨rfl, -⟩ := h; rfl

theorem commit_selects {w : Link} {b ta : Nat} {e : Byte} {mac polls : List Byte} {es : List Event}
    (h : CommitSent w b ta e mac polls es) : es.any Event.selects = true := by
  unfold CommitSent at h
  dsimp only at h
  split at h <;> (obtain ⟨a, -, rfl⟩ := h; rfl)

theorem bitRead_selects {w : Link} {l q : Nat} {cleared : Bool} {es : List Event} (h : BitRead w l q cleared es) :
    es.any Event.selects = true := by
  obtain ⟨pg, h, -⟩ := h; exact page_selects h

theorem bitClear_selects {w : Link} {l q : Nat} {cleared : Bool} {es : List Event} (h : BitClearSent w l q cleared es) :
    es.any Event.selects = true := by
  obtain ⟨e1, e2, rfl, h, -⟩ := h
  rw [List.any_append, chunk_selects h, Bool.true_or]

theorem linkTested_selects {w : Link} {link : Option Nat} {q : Nat} {es : List Event} (h : LinkTested w link q true es) :
    es.any Event.selects = true := by
  unfold LinkTested at h
  split at h
  · exact absurd h.2 (by decide)
  · exact bitRead_selects h

theorem sha_selects {w : Link} {b p : Nat} {sp15 : List Byte} {fn : Byte} {es : List Event} (h : ShaServed w b p sp15 fn es) :
    es.any Event.selects = true := by
  obtain ⟨e1, e, x, v, rfl, -⟩ := h
  simp [Link.select, Event.selects]

theorem authRead_selects {w : Link} {b p : Nat} {chal : List Byte} {r : AuthPage} {es : List Event}
    (h : AuthReadServed w b p chal r es) : es.any Event.selects = true := by
  obtain ⟨e1, e, a1, a2, rfl, -⟩ := h
  simp [Link.select, Event.selects]

/-- The session flags after a run whose events are known to select the device or not. -/
theorem Ran.flags {s t : State} {es : List Event} {rest : Oracle} {v : Bool} (h : Ran s es rest t)
    (ha : es.any Event.selects = v) :
    t.speedVerified = (v || s.speedVerified) ∧ t.resumeEligible = (v || s.resumeEligible) := by
  rw [h.speed, h.resume, ha]; exact ⟨Bool.or_comm _ _, Bool.or_comm _ _⟩

/-- Bytes from the start of a page on, no more than the page holds, touch that page alone. -/
theorem pagesTouched_page {k : Bank} {p n : Nat} (h1 : 1 ≤ n) (h : n ≤ k.pageLength) :
    p * k.pageLength / k.pageLength = p ∧ pagesTouched k (p * k.pageLength) n = 1 := by
  have hpos : 0 < k.pageLength := by omega
  have h2 : (p * k.pageLength + n - 1) / k.pageLength = p := by
    rw [Nat.div_eq_iff hpos]; constructor <;> omega
  refine ⟨Nat.mul_div_cancel _ hpos, ?_⟩
  unfold pagesTouched
  rw [h2, Nat.mul_div_cancel _ hpos]; omega

end Sys2Proof.Machine
end

