-- ==== Sys2Proof/Laws/Crc.lean ====
section
/-! SUPPORT. The CRC generators are injective in the accumulator and in the byte (41_crc.md R140 to R143): no step forgets
anything, so a flipped bit shows (R147). -/

namespace Sys2Proof.Machine

theorem crc8Bit_injective : Function.Injective crc8Bit := by
  refine Function.LeftInverse.injective (g := fun y => if y.msb then ((y ^^^ 0x8C) <<< 1) ||| 1 else y <<< 1) ?_
  intro c
  revert c
  decide

theorem crc16Bit_injective : Function.Injective crc16Bit := by
  intro a b h
  have hm : (crc16Bit a).getLsbD 15 = a.getLsbD 0 := by unfold crc16Bit; split <;> simp_all
  have hn : (crc16Bit b).getLsbD 15 = b.getLsbD 0 := by unfold crc16Bit; split <;> simp_all
  have h0 : a.getLsbD 0 = b.getLsbD 0 := by rw [← hm, ← hn, h]
  have hs : a >>> 1 = b >>> 1 := by
    unfold crc16Bit at h
    rw [h0] at h
    split at h
    · exact (BitVec.xor_left_inj _).1 h
    · exact h
  refine BitVec.eq_of_getLsbD_eq fun i hi => ?_
  rcases i with _ | i
  · exact h0
  · have := congrArg (fun v : HWord => v.getLsbD i) hs
    simpa [Nat.add_comm] using this

theorem repeat_injective {α : Type} {f : α → α} (h : Function.Injective f) (n : Nat) :
    Function.Injective (Nat.repeat f n) := by
  induction n with
  | zero => exact fun _ _ h => h
  | succ n ih => exact fun _ _ e => ih (h e)


/-- One byte of CRC-8 tells the accumulator before it, and the byte (41_crc.md R140). -/
theorem crc8Step_injective (d : Byte) : Function.Injective (crc8Step · d) := fun _ _ h =>
  (BitVec.xor_left_inj _).1 (repeat_injective crc8Bit_injective 8 h)

theorem crc8Step_injective_byte (c : Byte) : Function.Injective (crc8Step c) := fun _ _ h =>
  (BitVec.xor_right_inj _).1 (repeat_injective crc8Bit_injective 8 h)

theorem crc16Step_injective (d : Byte) : Function.Injective (crc16Step · d) := fun _ _ h =>
  (BitVec.xor_left_inj _).1 (repeat_injective crc16Bit_injective 8 h)

theorem crc16Step_injective_byte (c : HWord) : Function.Injective (crc16Step c) := fun a b h => by
  have := (BitVec.xor_right_inj _).1 (repeat_injective crc16Bit_injective 8 h)
  have e := congrArg (BitVec.setWidth 8) this
  simpa using e

theorem crc8_injective (s : List Byte) : Function.Injective (crc8 · s) := by
  induction s with
  | nil => exact fun _ _ h => h
  | cons d s ih => exact fun a b h => crc8Step_injective d (ih h)

theorem crc16_injective (s : List Byte) : Function.Injective (crc16 · s) := by
  induction s with
  | nil => exact fun _ _ h => h
  | cons d s ih => exact fun a b h => crc16Step_injective d (ih h)

/-- Eight shifts, one after the other. -/
theorem repeat_fold {α : Type} (f : α → α) : ∀ n (c : α), Nat.repeat f n c = (List.range n).foldl (fun x _ => f x) c := by
  intro n; induction n with
  | zero => intro c; rfl
  | succ n ih => intro c; rw [List.range_succ, List.foldl_append, ← ih]; rfl

theorem flip_ne (v : Byte) (j : Nat) (h : j < 8) : v ^^^ (1#8 <<< j) ≠ v := by
  intro e
  have := congrArg (fun x : Byte => x.getLsbD j) e
  simp [h] at this

theorem crc8_flip (f : List Byte) : ∀ (seed : Byte) (i j : Nat), i < f.length → j < 8 → crc8 seed (flipBit f i j) ≠ crc8 seed f := by
  induction f with
  | nil => intro _ i j h; simp at h
  | cons d f ih =>
    intro seed i j hi hj
    cases i with
    | zero => exact fun e => flip_ne d j hj (crc8Step_injective_byte seed (crc8_injective f e))
    | succ i => exact ih (crc8Step seed d) i j (by simpa using hi) hj

theorem crc16_flip (f : List Byte) : ∀ (seed : HWord) (i j : Nat), i < f.length → j < 8 → crc16 seed (flipBit f i j) ≠ crc16 seed f := by
  induction f with
  | nil => intro _ i j h; simp at h
  | cons d f ih =>
    intro seed i j hi hj
    cases i with
    | zero => exact fun e => flip_ne d j hj (crc16Step_injective_byte seed (crc16_injective f e))
    | succ i => exact ih (crc16Step seed d) i j (by simpa using hi) hj

theorem crcOk_flip (k : Nat) (seed : HWord) (f : List Byte) (i j : Nat) (hi : i < f.length) (hj : j < 8) (h : crcOk k seed f = true) : crcOk k seed (flipBit f i j) = false := by
  unfold crcOk crcK crcResidual at *
  split
  · simp_all
    intro e
    have h1 : crc8 (lo seed) f = 0 := by
      have := congrArg (BitVec.setWidth 8) h; simpa using this
    have h2 : crc8 (lo seed) (flipBit f i j) = 0 := by
      have := congrArg (BitVec.setWidth 8) e; simpa using this
    exact crc8_flip f _ i j hi hj (h2.trans h1.symm)
  · simp_all
    exact fun e => crc16_flip f _ i j hi hj (e.trans h.symm)

end Sys2Proof.Machine
end

