-- ==== Sys2Proof/Laws/Issued.lean ====
section
/-! SUPPORT. On a quiet state, whatever the device answers: the one event each transport primitive issues. -/

namespace Sys2Proof.Machine

theorem Issued.event (s : State) (e : Event) (d : Device) (n : Nat) : Issued s (s.afterEvent e d n) [e] :=
  ⟨afterEvent_frame _ _ _ _, rfl, rfl, rfl, rfl, rfl⟩

theorem Issued.trans {s t u : State} {a b : List Event} (h : Issued s t a) (k : Issued t u b) : Issued s u (a ++ b) :=
  ⟨h.toQuietFrame.trans k.toQuietFrame, by rw [k.exactly, h.exactly, List.append_assoc], k.sp.trans h.sp,
    k.speed.trans h.speed, k.resume.trans h.resume, k.cont⟩

theorem Issued.quiet {s t : State} {es : List Event} (h : Issued s t es) (hq : s.quiet = true) : t.quiet = true :=
  h.toQuietFrame.quiet hq

theorem fit_length (n : Nat) (a : List Byte) (p : Nat → Byte) : (fit n a p).length = n := by
  simp [fit]
  omega

theorem tExchange_issues {s : State} (out : List Byte) (hq : s.quiet = true) :
    ∃ ans t, ans.length = out.length ∧ Issued s t [.exchange out ans] ∧ tExchange out s = .ok ans t := by
  refine ⟨(exchangeAnswer s out).1, s.afterEvent (.exchange out (exchangeAnswer s out).1) (exchangeAnswer s out).2.1
    (exchangeAnswer s out).2.2, ?_, Issued.event _ _ _ _, ?_⟩
  · simp only [exchangeAnswer]
    split <;> [split; skip] <;> simp [fit_length, Rdm.exchange, flipByte] <;> split <;> simp [fit_length]
  · show (match Machine.event _ _ _ s with | .ok _ s' => _ | .error e s' => _) = _
    rw [event_quiet _ _ _ _ hq]

theorem tGetByte_issues {s : State} (hq : s.quiet = true) : ∃ v t, Issued s t [.getByte v] ∧ tGetByte s = .ok v t := by
  refine ⟨(getByteAnswer s).1, s.afterEvent (.getByte (getByteAnswer s).1) (getByteAnswer s).2.1 (getByteAnswer s).2.2,
    Issued.event _ _ _ _, ?_⟩
  show (match Machine.event _ _ _ s with | .ok _ s' => _ | .error e s' => _) = _
  rw [event_quiet _ _ _ _ hq]

theorem tPutByte_issues {s : State} (b : Byte) (hq : s.quiet = true) :
    ∃ t, Issued s t [.putByte b] ∧ tPutByte b s = .ok () t := by
  unfold tPutByte
  split <;> exact ⟨_, Issued.event _ _ _ _, event_quiet _ _ _ _ hq⟩

theorem tSleep_issues {s : State} (ms : Nat) (hq : s.quiet = true) : ∃ t, Issued s t [.sleep ms] ∧ tSleep ms s = .ok () t :=
  ⟨_, Issued.event _ _ _ _, event_quiet _ _ _ _ hq⟩

theorem ensure_bind {ok : Bool} {c : Cause} {β : Type} {f : Unit → Proc β} {s : State} :
    (ensure ok c >>= f) s = if ok = true then f () s else .error (.raised .bus c) s := by
  cases ok <;> rfl

end Sys2Proof.Machine
end

