-- ==== Sys2Proof/Laws/PerInstr.lean ====
section
/-! SUPPORT. One statement about every command, lemma by lemma: its word is a word of its own opcode-table row
(30_encoding.md R123, R124). -/

namespace Sys2Proof.Laws

open Sys2Proof

/-- The encoding of `i` matches the opcode-table row of `i`'s mnemonic. -/
def EncodesItsRow.Statement (i : Instr) : Prop :=
  ∃ row ∈ opcodeTable, row.mnemonic = i.mnemonic ∧ encode i &&& row.mask = row.pattern

/-- The masked word, field by field: a bank command. -/
theorem bankWord_row (opc : Byte) (b : Nat) (imm m : HWord) (h : imm &&& m = 0) :
    word opc b imm &&& (0xFF#8 ++ 0x00#8 ++ m) = opc ++ 0x00#8 ++ 0x0000#16 := by
  unfold word
  rw [BitVec.and_append, BitVec.and_append, h]
  have h1 : opc &&& 0xFF#8 = opc := BitVec.and_allOnes
  have h2 : BitVec.ofNat 8 b &&& 0x00#8 = 0x00#8 := BitVec.and_zero
  rw [h1, h2]
  rfl

/-- A CRC command, whose BANK is 0. -/
theorem crcWord_row (opc : Byte) (imm m : HWord) (h : imm &&& m = 0) :
    word opc 0 imm &&& (0xFF#8 ++ 0xFF#8 ++ m) = opc ++ 0x00#8 ++ 0x0000#16 := by
  unfold word
  rw [BitVec.and_append, BitVec.and_append, h]
  have h1 : opc &&& 0xFF#8 = opc := BitVec.and_allOnes
  rw [h1]
  rfl

theorem byteImm_high (v : Byte) : byteImm v &&& 0xFF00#16 = 0 := by revert v; decide

theorem slotImm_high (s : Nat) (af : Bool) : (slotImm s ||| flagImm af 3) &&& 0xFFF0#16 = 0 := by
  unfold slotImm
  generalize BitVec.ofNat 3 s = v
  revert v; cases af <;> decide

theorem slotImm_high3 (s : Nat) : slotImm s &&& 0xFFF8#16 = 0 := by
  unfold slotImm
  generalize BitVec.ofNat 3 s = v
  revert v; decide

theorem EncodesItsRow.crc8Seed (v : Byte) : EncodesItsRow.Statement (.crc8Seed v) :=
  ⟨⟨"CRC8_SEED", 0x01000000, 0xFFFFFF00⟩, by decide, rfl, crcWord_row 0x01 _ 0xFF00 (byteImm_high v)⟩

theorem EncodesItsRow.crc8Byte (v : Byte) : EncodesItsRow.Statement (.crc8Byte v) :=
  ⟨⟨"CRC8_BYTE", 0x02000000, 0xFFFFFF00⟩, by decide, rfl, crcWord_row 0x02 _ 0xFF00 (byteImm_high v)⟩

theorem EncodesItsRow.crc8Block : EncodesItsRow.Statement .crc8Block :=
  ⟨⟨"CRC8_BLOCK", 0x03000000, 0xFFFFFFFF⟩, by decide, rfl, crcWord_row 0x03 _ 0xFFFF (by decide)⟩

theorem EncodesItsRow.crc8Check : EncodesItsRow.Statement .crc8Check :=
  ⟨⟨"CRC8_CHECK", 0x04000000, 0xFFFFFFFF⟩, by decide, rfl, crcWord_row 0x04 _ 0xFFFF (by decide)⟩

theorem EncodesItsRow.crc16Seed (v : HWord) : EncodesItsRow.Statement (.crc16Seed v) :=
  ⟨⟨"CRC16_SEED", 0x05000000, 0xFFFF0000⟩, by decide, rfl, crcWord_row 0x05 _ 0x0000 BitVec.and_zero⟩

theorem EncodesItsRow.crc16Byte (v : Byte) : EncodesItsRow.Statement (.crc16Byte v) :=
  ⟨⟨"CRC16_BYTE", 0x06000000, 0xFFFFFF00⟩, by decide, rfl, crcWord_row 0x06 _ 0xFF00 (byteImm_high v)⟩

theorem EncodesItsRow.crc16Block : EncodesItsRow.Statement .crc16Block :=
  ⟨⟨"CRC16_BLOCK", 0x07000000, 0xFFFFFFFF⟩, by decide, rfl, crcWord_row 0x07 _ 0xFFFF (by decide)⟩

theorem EncodesItsRow.crc16Check : EncodesItsRow.Statement .crc16Check :=
  ⟨⟨"CRC16_CHECK", 0x08000000, 0xFFFFFFFF⟩, by decide, rfl, crcWord_row 0x08 _ 0xFFFF (by decide)⟩

theorem EncodesItsRow.readPage (b : Nat) (c : Bool) (x : Bool) : EncodesItsRow.Statement (.readPage b c x) :=
  ⟨⟨"READ_PAGE", 0x10000000, 0xFF00FFFC⟩, by decide, rfl, bankWord_row 0x10 b _ 0xFFFC (by cases c <;> cases x <;> decide)⟩

theorem EncodesItsRow.readBytes (b : Nat) (c : Bool) : EncodesItsRow.Statement (.readBytes b c) :=
  ⟨⟨"READ_BYTES", 0x11000000, 0xFF00FFFE⟩, by decide, rfl, bankWord_row 0x11 b _ 0xFFFE (by cases c <;> decide)⟩

theorem EncodesItsRow.write (b : Nat) : EncodesItsRow.Statement (.write b) :=
  ⟨⟨"WRITE", 0x12000000, 0xFF00FFFF⟩, by decide, rfl, bankWord_row 0x12 b _ 0xFFFF (by decide)⟩

theorem EncodesItsRow.readPagePacket (b : Nat) (c : Bool) : EncodesItsRow.Statement (.readPagePacket b c) :=
  ⟨⟨"READ_PAGE_PACKET", 0x13000000, 0xFF00FFFE⟩, by decide, rfl, bankWord_row 0x13 b _ 0xFFFE (by cases c <;> decide)⟩

theorem EncodesItsRow.writePagePacket (b : Nat) : EncodesItsRow.Statement (.writePagePacket b) :=
  ⟨⟨"WRITE_PAGE_PACKET", 0x14000000, 0xFF00FFFF⟩, by decide, rfl, bankWord_row 0x14 b _ 0xFFFF (by decide)⟩

theorem EncodesItsRow.spStage (b : Nat) : EncodesItsRow.Statement (.spStage b) :=
  ⟨⟨"SP_STAGE", 0x20000000, 0xFF00FFFF⟩, by decide, rfl, bankWord_row 0x20 b _ 0xFFFF (by decide)⟩

theorem EncodesItsRow.spConfirm (b : Nat) : EncodesItsRow.Statement (.spConfirm b) :=
  ⟨⟨"SP_CONFIRM", 0x21000000, 0xFF00FFFF⟩, by decide, rfl, bankWord_row 0x21 b _ 0xFFFF (by decide)⟩

theorem EncodesItsRow.spCommit (b : Nat) : EncodesItsRow.Statement (.spCommit b) :=
  ⟨⟨"SP_COMMIT", 0x22000000, 0xFF00FFFF⟩, by decide, rfl, bankWord_row 0x22 b _ 0xFFFF (by decide)⟩

theorem EncodesItsRow.lockPage (b : Nat) : EncodesItsRow.Statement (.lockPage b) :=
  ⟨⟨"LOCK_PAGE", 0x30000000, 0xFF00FFFF⟩, by decide, rfl, bankWord_row 0x30 b _ 0xFFFF (by decide)⟩

theorem EncodesItsRow.isPageLocked (b : Nat) : EncodesItsRow.Statement (.isPageLocked b) :=
  ⟨⟨"IS_PAGE_LOCKED", 0x31000000, 0xFF00FFFF⟩, by decide, rfl, bankWord_row 0x31 b _ 0xFFFF (by decide)⟩

theorem EncodesItsRow.redirectPage (b : Nat) : EncodesItsRow.Statement (.redirectPage b) :=
  ⟨⟨"REDIRECT_PAGE", 0x32000000, 0xFF00FFFF⟩, by decide, rfl, bankWord_row 0x32 b _ 0xFFFF (by decide)⟩

theorem EncodesItsRow.getRedirectedPage (b : Nat) : EncodesItsRow.Statement (.getRedirectedPage b) :=
  ⟨⟨"GET_REDIRECTED_PAGE", 0x33000000, 0xFF00FFFF⟩, by decide, rfl, bankWord_row 0x33 b _ 0xFFFF (by decide)⟩

theorem EncodesItsRow.lockRedirectPage (b : Nat) : EncodesItsRow.Statement (.lockRedirectPage b) :=
  ⟨⟨"LOCK_REDIRECT_PAGE", 0x34000000, 0xFF00FFFF⟩, by decide, rfl, bankWord_row 0x34 b _ 0xFFFF (by decide)⟩

theorem EncodesItsRow.isRedirectPageLocked (b : Nat) : EncodesItsRow.Statement (.isRedirectPageLocked b) :=
  ⟨⟨"IS_REDIRECT_PAGE_LOCKED", 0x35000000, 0xFF00FFFF⟩, by decide, rfl, bankWord_row 0x35 b _ 0xFFFF (by decide)⟩

theorem EncodesItsRow.installSecret (b : Nat) (slot : Nat) : EncodesItsRow.Statement (.installSecret b slot) :=
  ⟨⟨"INSTALL_SECRET", 0x40000000, 0xFF00FFF8⟩, by decide, rfl, bankWord_row 0x40 b _ 0xFFF8 (slotImm_high3 slot)⟩

theorem EncodesItsRow.bindSecret (b : Nat) (slot : Nat) (af : Bool) : EncodesItsRow.Statement (.bindSecret b slot af) :=
  ⟨⟨"BIND_SECRET", 0x41000000, 0xFF00FFF0⟩, by decide, rfl, bankWord_row 0x41 b _ 0xFFF0 (slotImm_high slot af)⟩

theorem EncodesItsRow.computeNextSecret (b : Nat) : EncodesItsRow.Statement (.computeNextSecret b) :=
  ⟨⟨"COMPUTE_NEXT_SECRET", 0x42000000, 0xFF00FFFF⟩, by decide, rfl, bankWord_row 0x42 b _ 0xFFFF (by decide)⟩

theorem EncodesItsRow.authRead (b : Nat) : EncodesItsRow.Statement (.authRead b) :=
  ⟨⟨"AUTH_READ", 0x43000000, 0xFF00FFFF⟩, by decide, rfl, bankWord_row 0x43 b _ 0xFFFF (by decide)⟩

end Sys2Proof.Laws
end

