-- ==== Sys2Proof/Laws/Raises.lean ====
section
/-! SUPPORT. Which causes a procedure may raise: none raises `illegal`, and only the device SHA step raises `sha`. -/

namespace Sys2Proof.Machine

/-- Every cause `p` raises meets `P`. -/
def Raises {α : Type} (P : Cause → Prop) (p : Proc α) : Prop := ∀ s ph c t, p s = .error (.raised ph c) t → P c

/-- Neither `illegal` nor `sha`. -/
abbrev NotSha (c : Cause) : Prop := c ≠ .illegal ∧ c ≠ .sha

section Closure

variable {α β : Type} {P : Cause → Prop}

theorem Raises.pure (a : α) : Raises P (pure a : Proc α) := by
  intro s ph c t h; cases h

theorem Raises.bind {p : Proc α} {f : α → Proc β} (hp : Raises P p) (hf : ∀ a, Raises P (f a)) : Raises P (p >>= f) := by
  intro s ph c t h
  cases hr : p s with
  | ok a u => rw [bind_ok hr] at h; exact hf a u ph c t h
  | error e u => rw [bind_error hr] at h; cases h; exact hp s ph c t hr

theorem Raises.get_bind {f : State → Proc β} (hf : ∀ s, Raises P (f s)) : Raises P (get >>= f) :=
  fun s ph c t h => hf s s ph c t h

theorem Raises.ite {q : Prop} [Decidable q] {p p' : Proc α} (h : Raises P p) (h' : Raises P p') :
    Raises P (if q then p else p') := by
  split
  · exact h
  · exact h'

theorem Raises.modify (f : State → State) : Raises P (modify f : Proc Unit) := by
  intro s ph c t h; cases h

theorem Raises.ensure {ok : Bool} {d : Cause} (hd : P d) : Raises P (ensure ok d) := by
  intro s ph c t h
  rw [ensure_run] at h
  split at h
  · cases h
  · cases h; exact hd

theorem Raises.fail {d : Cause} (hd : P d) : Raises P (fail d : Proc α) := by
  intro s ph c t h; cases h; exact hd

theorem Raises.imp {Q : Cause → Prop} {p : Proc α} (hp : Raises P p) (h : ∀ c, P c → Q c) : Raises Q p :=
  fun s ph c t he => h c (hp s ph c t he)

theorem Raises.onBusError {f : State → State} {p : Proc α} (hp : Raises P p) : Raises P (onBusError f p) := by
  intro s ph c t h
  unfold Sys2Proof.Machine.onBusError at h
  cases hr : p s with
  | ok a u => rw [hr] at h; cases h
  | error e u =>
    rw [hr] at h
    cases e with
    | raised ph' c' => cases ph' <;> (cases h; exact hp s _ _ _ hr)
    | abandoned => cases h
    | fault d => cases h
    | refused d => cases h

/-! The primitives raise nothing. -/

theorem Raises.event (e : Event) (d : Device) (n : Nat) : Raises P (event e d n) :=
  fun _ ph c t h => absurd h (land_raises _ t ph c)

theorem Raises.answer {f : State → Proc Unit} {g : State → α} (hf : ∀ s, Raises P (f s)) :
    Raises P (fun s => match f s s with | .ok _ s' => EStateM.Result.ok (g s) s' | .error e s' => .error e s') := by
  intro s ph c t h
  cases hr : f s s with
  | ok a u => simp only [hr] at h; cases h
  | error e u => simp only [hr] at h; cases h; exact hf s s ph c t hr

theorem Raises.tReset : Raises P tReset := by
  intro s ph c t h
  unfold Sys2Proof.Machine.tReset at h
  split at h <;> exact Raises.event _ _ _ s ph c t h

theorem Raises.tSelect (r : Bool) : Raises P (tSelect r) := Raises.answer fun _ => Raises.event _ _ _

theorem Raises.tExchange (out : List Byte) : Raises P (tExchange out) := Raises.answer fun _ => Raises.event _ _ _

theorem Raises.tGetByte : Raises P tGetByte := Raises.answer fun _ => Raises.event _ _ _

theorem Raises.tPutByte (b : Byte) : Raises P (tPutByte b) := by
  intro s ph c t h
  unfold Sys2Proof.Machine.tPutByte at h
  split at h <;> exact Raises.event _ _ _ s ph c t h

theorem Raises.tSetPowerMode (ms : Nat) : Raises P (tSetPowerMode ms) := fun s => Raises.event _ _ _ s

theorem Raises.tStartPowerDelivery : Raises P tStartPowerDelivery := fun s => Raises.event _ _ _ s

theorem Raises.tSleep (ms : Nat) : Raises P (tSleep ms) := fun s => Raises.event _ _ _ s

end Closure

/-! The procedures, the device SHA step apart. -/

theorem raises_selectDevice : Raises NotSha selectDevice := by
  have h : ∀ r : Bool, Raises NotSha (do
      let ok ← tSelect r
      ensure ok .select
      modify fun s => { s with speedVerified := true, resumeEligible := true }) := fun r =>
    Raises.bind (Raises.tSelect _) fun _ => Raises.bind (Raises.ensure (by decide)) fun _ => Raises.modify _
  refine Raises.get_bind fun _ => ?_
  dsimp only
  split
  · exact h _
  · exact Raises.bind Raises.tReset fun _ => h _

theorem raises_frameReadCrcCont (k : Bank) : Raises NotSha (frameReadCrcCont k) :=
  Raises.bind (Raises.tExchange _) fun _ => Raises.bind (Raises.ensure (by decide)) fun _ => Raises.pure _

theorem raises_pageRead (b p : Nat) (cok : Bool) : Raises NotSha (pageRead b p cok) :=
  Raises.get_bind fun _ => Raises.ite (raises_frameReadCrcCont _) (Raises.bind raises_selectDevice fun _ =>
    Raises.ite (Raises.bind (Raises.tExchange _) fun _ => Raises.bind (Raises.ensure (by decide)) fun _ =>
        raises_frameReadCrcCont _)
      (Raises.bind (Raises.tExchange _) fun _ => Raises.bind (Raises.ensure (by decide)) fun _ => Raises.pure _))

theorem raises_rawRead (b r n : Nat) (cok : Bool) : Raises NotSha (rawRead b r n cok) :=
  Raises.get_bind fun _ => Raises.ite (Raises.tExchange _) (Raises.bind raises_selectDevice fun _ =>
    Raises.bind (Raises.tExchange _) fun _ => Raises.pure _)

theorem raises_readCtl (l cp : Nat) : Raises NotSha (readCtl l cp) :=
  Raises.bind (raises_pageRead _ _ _) fun _ => Raises.pure _

theorem raises_testBit (l q : Nat) : Raises NotSha (testBit l q) :=
  Raises.get_bind fun _ => Raises.bind (raises_readCtl _ _) fun _ => Raises.pure _

theorem raises_lockCheck (b p : Nat) : Raises NotSha (lockCheck b p) := by
  refine Raises.get_bind fun _ => ?_
  split
  · exact Raises.pure _
  · exact Raises.bind (raises_testBit _ _) fun _ => Raises.ensure (by decide)

theorem raises_lockCheckPages (b n : Nat) : ∀ p, Raises NotSha (lockCheckPages b p n) := by
  induction n with
  | zero => exact fun _ => Raises.pure _
  | succ n ih => exact fun p => Raises.bind (raises_lockCheck _ _) fun _ => ih _

theorem raises_redirectLockCheck (k : Bank) (p : Nat) : Raises NotSha (redirectLockCheck k p) := by
  unfold redirectLockCheck
  split
  · exact Raises.pure _
  · exact Raises.bind (raises_testBit _ _) fun _ => Raises.ensure (by decide)

theorem raises_stage (b ta : Nat) (d : List Byte) : Raises NotSha (stage b ta d) :=
  Raises.bind (Raises.modify _) fun _ => Raises.bind raises_selectDevice fun _ => Raises.get_bind fun _ =>
    Raises.bind (Raises.bind (Raises.tExchange _) fun _ => Raises.ensure (by decide)) fun _ => Raises.modify _

theorem raises_confirm : Raises NotSha confirm :=
  Raises.get_bind fun _ => Raises.bind (Raises.modify _) fun _ => Raises.bind raises_selectDevice fun _ =>
    Raises.bind (Raises.bind (Raises.tExchange _) fun _ => Raises.bind (Raises.ensure (by decide)) fun _ => Raises.pure _)
      fun _ => Raises.bind (Raises.ensure (by decide)) fun _ => Raises.modify _

theorem raises_poll (k : Bank) (n : Nat) : Raises NotSha (poll k n) := by
  induction n with
  | zero => exact Raises.fail (by decide)
  | succ n ih =>
    exact Raises.bind Raises.tGetByte fun _ => Raises.ite (Raises.pure _) (Raises.ite ih
      (Raises.fail (by split <;> decide)))

theorem raises_commit (mac : List Byte) : Raises NotSha (commit mac) :=
  Raises.get_bind fun _ => Raises.bind (Raises.modify _) fun _ => Raises.bind raises_selectDevice fun _ =>
    Raises.bind (Raises.ite (Raises.bind (Raises.tExchange _) fun _ => Raises.bind (Raises.tSetPowerMode _) fun _ =>
        Raises.bind Raises.tStartPowerDelivery fun _ => Raises.tPutByte _)
      (Raises.bind (Raises.tExchange _) fun _ => Raises.pure _)) fun _ =>
    Raises.bind (Raises.tSleep _) fun _ => Raises.bind (raises_poll _ _) fun _ => Raises.modify _

theorem raises_macFor (b ta : Nat) (d : List Byte) : Raises NotSha (macFor b ta d) :=
  Raises.get_bind fun _ => Raises.bind (raises_pageRead _ _ _) fun _ => Raises.pure _

theorem raises_verify (b ta : Nat) (d : List Byte) : Raises NotSha (verify b ta d) :=
  Raises.get_bind fun _ => Raises.ite (Raises.bind (raises_pageRead _ _ _) fun _ => Raises.ensure (by decide))
    (Raises.bind (raises_rawRead _ _ _ _) fun _ => Raises.ensure (by decide))

theorem raises_writeChunk (b ta : Nat) (d : List Byte) (check : Bool) : Raises NotSha (writeChunk b ta d check) :=
  Raises.get_bind fun _ => by
    have h : ∀ mac : List Byte, Raises NotSha (do
        stage b ta d
        confirm
        commit mac
        if check then verify b ta d else pure ()) := fun mac =>
      Raises.bind (raises_stage _ _ _) fun _ => Raises.bind raises_confirm fun _ =>
        Raises.bind (raises_commit _) fun _ => Raises.ite (raises_verify _ _ _) (Raises.pure _)
    exact Raises.ite (Raises.bind (raises_macFor _ _ _) h) (Raises.bind (Raises.pure _) h)

theorem raises_writeChunks (b : Nat) (d : List Byte) (check : Bool) (cs : List Chunk) :
    Raises NotSha (writeChunks b d check cs) := by
  induction cs with
  | nil => exact Raises.pure _
  | cons ch rest ih => exact Raises.bind (raises_writeChunk _ _ _ _) fun _ => ih

theorem raises_writeRange (b r : Nat) (d : List Byte) (check : Bool) : Raises NotSha (writeRange b r d check) :=
  Raises.get_bind fun _ => Raises.bind (raises_lockCheckPages _ _ _) fun _ => raises_writeChunks _ _ _ _

theorem raises_bitClear (l q : Nat) : Raises NotSha (bitClear l q) :=
  Raises.get_bind fun _ => Raises.bind (raises_writeChunk _ _ _ _) fun _ => Raises.bind (raises_readCtl _ _) fun _ =>
    Raises.ensure (by decide)

theorem raises_readWholePage (b p : Nat) (c : Bool) : Raises NotSha (readWholePage b p c) :=
  Raises.get_bind fun _ => Raises.ite (Raises.bind (raises_pageRead _ _ _) fun _ => Raises.pure _)
    (Raises.bind (raises_rawRead _ _ _ _) fun _ => Raises.pure _)

theorem raises_readMorePages (b n : Nat) : ∀ p, Raises NotSha (readMorePages b p n) := by
  induction n with
  | zero => exact fun _ => Raises.pure _
  | succ n ih => exact fun p => Raises.bind (raises_pageRead _ _ _) fun _ => Raises.bind (ih _) fun _ => Raises.pure _

theorem raises_shaStage (b p : Nat) (sp15 : List Byte) : Raises NotSha (shaStage b p sp15) :=
  Raises.get_bind fun _ => Raises.bind (raises_stage _ _ _) fun _ => Raises.bind raises_confirm fun _ =>
    Raises.bind (Raises.modify _) fun _ => raises_selectDevice

theorem raises_slotCopy (b slot : Nat) : Raises NotSha (slotCopy b slot) :=
  Raises.get_bind fun _ => Raises.bind (raises_stage _ _ _) fun _ => Raises.bind raises_confirm fun _ => raises_commit _

/-- The device SHA step raises `sha` only (20_memory.md R92). -/
theorem raises_shaStep (b p : Nat) (fn : Byte) : Raises (· = .sha) (shaStep b p fn) :=
  Raises.get_bind fun _ => Raises.bind (Raises.get_bind fun _ => Raises.bind (Raises.tExchange _) fun _ =>
    Raises.bind (Raises.tSleep _) fun _ => Raises.bind Raises.tGetByte fun _ => Raises.ensure rfl) fun _ => Raises.modify _

theorem raises_installChunks (b p : Nat) (S : List Byte) (n : Nat) :
    ∀ j sec, Raises (· ≠ .illegal) (installChunks b p S n j sec) := by
  induction n with
  | zero => exact fun _ _ => Raises.pure _
  | succ n ih =>
    exact fun j sec => Raises.get_bind fun _ => Raises.bind ((raises_writeRange _ _ _ _).imp fun _ h => h.1) fun _ =>
      Raises.bind (Raises.bind ((raises_shaStage _ _ _).imp fun _ h => h.1) fun _ =>
        (raises_shaStep _ _ _).imp fun _ h => by rw [h]; decide) fun _ => ih _ _

/-! Every bus command: the checks, then the bus phase, neither of which raises `illegal`. -/

theorem raises_require {checks : List (Bool × Cause)} {P : Cause → Prop} (h : ∀ k ∈ checks, P k.2) :
    Raises P (require checks) := by
  intro s ph c t he
  rw [require_run] at he
  cases hf : firstFailing checks with
  | none => rw [hf] at he; cases he
  | some d => rw [hf] at he; cases he; exact h _ (firstFailing_mem _ _ hf)

/-- What a command that raises only causes of `P` can report. -/
theorem runCommand_cause {P : Cause → Prop} {p : Proc Unit} {s t : State} (h : Raises P p)
    (hr : runCommand p s = .next t) (he : t.err ≠ .none) : ∃ c, P c ∧ t.err = c.kind ∧ t.result = c.info := by
  unfold runCommand at hr
  have hb : Raises P (do let _ ← land; p) := Raises.bind (fun s ph c t h => absurd h (land_raises s t ph c)) fun _ => h
  cases hp : (land >>= fun _ => p) (start s) with
  | ok _ u => rw [hp] at hr; cases hr; exact absurd rfl he
  | error e u =>
    rw [hp] at hr
    cases e with
    | raised ph c => cases hr; exact ⟨c, hb _ _ _ _ hp, by simp, by simp⟩
    | abandoned => cases hr; exact absurd rfl he
    | fault f => cases hr
    | refused r => cases hr

theorem raises_bankChecks {s : State} {b : Nat} {rest : List (Bool × Cause)} (h : ∀ k ∈ rest, k.2 ≠ .illegal) :
    Raises (· ≠ .illegal) (require (bankChecks s b ++ rest)) :=
  raises_require fun k hk => by
    simp only [bankChecks, List.cons_append, List.nil_append, List.mem_cons] at hk
    rcases hk with rfl | rfl | hk
    · simp
    · simp
    · exact h k hk

theorem legal_cause {α : Type} {p : Proc α} (h : Raises NotSha p) : Raises (· ≠ .illegal) p := h.imp fun _ h => h.1

theorem raises_frameReadAuth (k : Bank) (a : Nat) : Raises NotSha (frameReadAuth k a) :=
  Raises.get_bind fun _ => Raises.bind (Raises.tExchange _) fun _ => Raises.bind (Raises.ensure (by decide)) fun _ =>
    Raises.bind (Raises.tSleep _) fun _ => Raises.bind (Raises.tExchange _) fun _ =>
      Raises.bind (Raises.ensure (by decide)) fun _ => Raises.pure _

theorem raises_readRange (b r n : Nat) (c : Bool) :
    Raises NotSha (readRawRange b r n c) ∧ Raises NotSha (readCovered b r n c) :=
  ⟨Raises.get_bind fun _ => Raises.bind (raises_rawRead _ _ _ _) fun _ => Raises.bind (Raises.modify _) fun _ => Raises.pure _,
   Raises.get_bind fun _ => Raises.bind (raises_pageRead _ _ _) fun _ => Raises.bind (raises_readMorePages _ _ _) fun _ =>
    Raises.bind (Raises.modify _) fun _ => Raises.pure _⟩

/-- A command never reports `illegal`, which is for words that decode to no command (60_exceptions.md R310). -/
theorem exec_cause (i : Instr) (s t : State) (h : exec i s = .next t) (he : t.err ≠ .none) :
    ∃ c : Cause, c ≠ .illegal ∧ t.err = c.kind ∧ t.result = c.info := by
  have hsha : ∀ b p fn, Raises (· ≠ .illegal) (shaStep b p fn) := fun b p fn =>
    (raises_shaStep b p fn).imp fun _ h => by rw [h]; decide
  cases i with
  | crc8Seed v => exact runCommand_cause (P := (· ≠ .illegal)) (Raises.modify _) h he
  | crc8Byte v => exact runCommand_cause (P := (· ≠ .illegal)) (Raises.get_bind fun _ => Raises.modify _) h he
  | crc8Block =>
    exact runCommand_cause (P := (· ≠ .illegal)) (Raises.get_bind fun _ => Raises.bind
      (raises_require (by simp [bufferCheck])) fun _ => Raises.modify _) h he
  | crc8Check => exact runCommand_cause (P := (· ≠ .illegal)) (Raises.get_bind fun _ => Raises.modify _) h he
  | crc16Seed v => exact runCommand_cause (P := (· ≠ .illegal)) (Raises.modify _) h he
  | crc16Byte v => exact runCommand_cause (P := (· ≠ .illegal)) (Raises.get_bind fun _ => Raises.modify _) h he
  | crc16Block =>
    exact runCommand_cause (P := (· ≠ .illegal)) (Raises.get_bind fun _ => Raises.bind
      (raises_require (by simp [bufferCheck])) fun _ => Raises.modify _) h he
  | crc16Check => exact runCommand_cause (P := (· ≠ .illegal)) (Raises.get_bind fun _ => Raises.modify _) h he
  | readPage b c x =>
    exact runCommand_cause (Raises.get_bind fun _ => Raises.bind (raises_bankChecks (by
      simp [readableCheck, pageCheck, bufferCheck, romCheck])) fun _ =>
      Raises.bind (legal_cause (raises_readWholePage _ _ _)) fun _ => Raises.bind (Raises.modify _) fun _ =>
        Raises.bind (Raises.modify _) fun _ => Raises.modify _) h he
  | readBytes b c =>
    refine runCommand_cause (Raises.get_bind fun s0 => Raises.bind (raises_bankChecks (by
      simp [readableCheck, rangeCheck, bufferCheck, romCheck])) fun _ => Raises.ite (Raises.modify _) ?_) h he
    have hk : ∀ d : List Byte, Raises (· ≠ .illegal) (do
        memWrite s0.x2 d
        setResult (BitVec.ofNat 32 s0.x1)) := fun d => Raises.bind (Raises.modify _) fun _ => Raises.modify _
    exact Raises.ite (Raises.bind (legal_cause (raises_readRange _ _ _ _).1) hk)
      (Raises.bind (legal_cause (raises_readRange _ _ _ _).2) hk)
  | write b =>
    exact runCommand_cause (Raises.get_bind fun _ => Raises.bind (raises_bankChecks (by
      simp [rangeCheck, bufferCheck, romCheck, commitAuthCheck])) fun _ => Raises.ite (Raises.modify _)
        (Raises.bind (legal_cause (raises_writeRange _ _ _ _)) fun _ => Raises.modify _)) h he
  | readPagePacket b c =>
    exact runCommand_cause (Raises.get_bind fun _ => Raises.bind (raises_bankChecks (by
      simp [readableCheck, pageCheck, bufferCheck, romCheck])) fun _ =>
      Raises.bind (legal_cause (raises_readWholePage _ _ _)) fun _ => Raises.bind (Raises.ensure (by decide)) fun _ =>
        Raises.bind (Raises.ensure (by decide)) fun _ => Raises.bind (Raises.modify _) fun _ =>
        Raises.bind (Raises.modify _) fun _ => Raises.modify _) h he
  | writePagePacket b =>
    exact runCommand_cause (Raises.get_bind fun _ => Raises.bind (raises_bankChecks (by
      simp [pageCheck, bufferCheck, romCheck, commitAuthCheck])) fun _ =>
        Raises.bind (legal_cause (raises_writeRange _ _ _ _)) fun _ => Raises.modify _) h he
  | spStage b =>
    exact runCommand_cause (Raises.get_bind fun _ => Raises.bind (raises_bankChecks (by
      simp [rangeCheck, bufferCheck, romCheck])) fun _ => Raises.bind (legal_cause (raises_lockCheck _ _)) fun _ =>
        Raises.bind (legal_cause (raises_stage _ _ _)) fun _ => Raises.modify _) h he
  | spConfirm b =>
    exact runCommand_cause (Raises.get_bind fun _ => Raises.bind (raises_bankChecks (by
      simp [bufferCheck, romCheck])) fun _ => Raises.bind (legal_cause raises_confirm) fun _ =>
        Raises.get_bind fun _ => Raises.bind (Raises.modify _) fun _ => Raises.modify _) h he
  | spCommit b =>
    refine runCommand_cause (Raises.get_bind fun s0 => Raises.bind (raises_bankChecks (by
      simp [romCheck, commitAuthCheck])) fun _ => ?_) h he
    have hk : ∀ mac : List Byte, Raises (· ≠ .illegal) (do
        commit mac
        setResult (BitVec.ofNat 32 s0.sp.n)) := fun d => Raises.bind (legal_cause (raises_commit _)) fun _ => Raises.modify _
    exact Raises.ite (Raises.bind (legal_cause (raises_macFor _ _ _)) hk) (Raises.bind (Raises.pure _) hk)
  | lockPage b =>
    exact runCommand_cause (Raises.get_bind fun _ => Raises.bind (raises_bankChecks (by
      simp [pageCheck, romCheck])) fun _ => Raises.bind (legal_cause (raises_bitClear _ _)) fun _ => Raises.modify _) h he
  | isPageLocked b =>
    exact runCommand_cause (Raises.get_bind fun _ => Raises.bind (raises_bankChecks (by
      simp [pageCheck, romCheck])) fun _ => Raises.bind (legal_cause (raises_testBit _ _)) fun _ => Raises.modify _) h he
  | redirectPage b =>
    exact runCommand_cause (Raises.get_bind fun _ => Raises.bind (raises_bankChecks (by
      simp [pageCheck, romCheck])) fun _ => Raises.bind (legal_cause (raises_redirectLockCheck _ _)) fun _ =>
        Raises.bind (legal_cause (raises_writeChunk _ _ _ _)) fun _ => Raises.modify _) h he
  | getRedirectedPage b =>
    exact runCommand_cause (Raises.get_bind fun _ => Raises.bind (raises_bankChecks (by
      simp [pageCheck, romCheck])) fun _ => Raises.bind (legal_cause (raises_readCtl _ _)) fun _ => Raises.modify _) h he
  | lockRedirectPage b =>
    exact runCommand_cause (Raises.get_bind fun _ => Raises.bind (raises_bankChecks (by
      simp [pageCheck, romCheck])) fun _ => Raises.bind (legal_cause (raises_bitClear _ _)) fun _ => Raises.modify _) h he
  | isRedirectPageLocked b =>
    exact runCommand_cause (Raises.get_bind fun _ => Raises.bind (raises_bankChecks (by
      simp [pageCheck, romCheck])) fun _ => Raises.bind (legal_cause (raises_testBit _ _)) fun _ => Raises.modify _) h he
  | installSecret b slot =>
    exact runCommand_cause (Raises.get_bind fun _ => Raises.bind (raises_bankChecks (by
      simp [pageCheck, bufferCheck, romCheck])) fun _ => Raises.bind (Raises.modify _) fun _ => Raises.onBusError
        (Raises.get_bind fun _ => Raises.bind (raises_installChunks _ _ _ _ _ _) fun _ =>
          Raises.bind (legal_cause (raises_writeRange _ _ _ _)) fun _ => Raises.bind (Raises.modify _) fun _ =>
          Raises.bind (legal_cause (raises_slotCopy _ _)) fun _ => Raises.bind (Raises.modify _) fun _ =>
          Raises.modify _)) h he
  | bindSecret b slot af =>
    exact runCommand_cause (Raises.get_bind fun _ => Raises.bind (raises_bankChecks (by
      simp [pageCheck, bufferCheck, romCheck])) fun _ => Raises.bind (legal_cause (raises_writeRange _ _ _ _)) fun _ =>
        Raises.bind (legal_cause (raises_shaStage _ _ _)) fun _ => Raises.bind (Raises.onBusError
          (Raises.bind (hsha _ _ _) fun _ => Raises.bind (Raises.modify _) fun _ => legal_cause (raises_slotCopy _ _)))
          fun _ => Raises.bind (Raises.modify _) fun _ => Raises.modify _) h he
  | computeNextSecret b =>
    exact runCommand_cause (Raises.get_bind fun _ => Raises.bind (raises_bankChecks (by
      simp [pageCheck, bufferCheck, romCheck])) fun _ => Raises.bind (legal_cause (raises_pageRead _ _ _)) fun _ =>
        Raises.bind (legal_cause (raises_shaStage _ _ _)) fun _ => Raises.bind (Raises.onBusError (hsha _ _ _))
          fun _ => Raises.bind (Raises.modify _) fun _ => Raises.bind (Raises.modify _) fun _ => Raises.modify _) h he
  | authRead b =>
    exact runCommand_cause (Raises.get_bind fun _ => Raises.bind (raises_bankChecks (by
      simp [pageCheck, bufferCheck, romCheck])) fun _ => Raises.bind (legal_cause (raises_stage _ _ _)) fun _ =>
        Raises.bind (legal_cause raises_confirm) fun _ => Raises.bind (Raises.modify _) fun _ =>
        Raises.bind (legal_cause raises_selectDevice) fun _ => Raises.bind (legal_cause (raises_frameReadAuth _ _)) fun _ =>
        Raises.bind (Raises.modify _) fun _ => Raises.bind (Raises.ensure (by decide)) fun _ =>
        Raises.bind (Raises.modify _) fun _ => Raises.modify _) h he

end Sys2Proof.Machine
end

