-- ==== Sys2Proof/Laws/Secret.lean ====
section
/-! SUPPORT. What the three secret commands make of `auth_state` and `host_secret` (45_auth.md R260), by pre- and
postconditions over the procedures they are made of. -/

namespace Sys2Proof.Machine

/-- From a state of `P`, `p` ends normally in `R`, or raises in `E`, or leaves the command. -/
def Triple {α : Type} (P : State → Prop) (p : Proc α) (R : α → State → Prop) (E : Phase → Cause → State → Prop) : Prop :=
  ∀ s, P s → match p s with
    | .ok a t => R a t
    | .error (.raised ph c) t => E ph c t
    | .error .abandoned _ => True
    | .error (.fault _) _ => True
    | .error (.refused _) _ => True

section Closure

variable {α β : Type} {P Q : State → Prop} {R : α → State → Prop} {R' : β → State → Prop} {E E' : Phase → Cause → State → Prop}

theorem Triple.bind {p : Proc α} {f : α → Proc β} (hp : Triple P p R E) (hf : ∀ a, Triple (R a) (f a) R' E) :
    Triple P (p >>= f) R' E := by
  intro s hs
  have h := hp s hs
  cases hr : p s with
  | ok a t => rw [hr] at h; rw [bind_ok hr]; exact hf a t h
  | error e t => rw [hr] at h; rw [bind_error hr]; cases e <;> exact h

theorem Triple.get_bind {f : State → Proc β} (hf : ∀ s0, Triple (fun s => P s ∧ s = s0) (f s0) R' E) :
    Triple P (get >>= f) R' E := fun s hs => hf s s ⟨hs, rfl⟩

theorem Triple.imp {p : Proc α} {R1 : α → State → Prop} (hp : Triple P p R E) (hP : ∀ s, Q s → P s)
    (hR : ∀ a t, R a t → R1 a t) (hE : ∀ ph c t, E ph c t → E' ph c t) : Triple Q p R1 E' := by
  intro s hs
  have h := hp s (hP s hs)
  revert h
  cases p s with
  | ok a t => exact hR a t
  | error e t => cases e with
    | raised ph c => exact hE ph c t
    | abandoned => exact id
    | fault f => exact id
    | refused r => exact id

/-- What is raised, besides. -/
theorem Triple.raises {p : Proc α} {C : Cause → Prop} (hp : Triple P p R E) (hC : Raises C p) :
    Triple P p R (fun ph c t => E ph c t ∧ C c) := by
  intro s hs
  have h := hp s hs
  cases hr : p s with
  | ok a t => rw [hr] at h; exact h
  | error e t =>
    rw [hr] at h
    cases e with
    | raised ph c => exact ⟨h, hC s ph c t hr⟩
    | abandoned => trivial
    | fault f => trivial
    | refused r => trivial

/-- What is handed back, besides. -/
theorem Triple.returns {p : Proc α} {V : α → Prop} (hp : Triple P p R E) (hV : ∀ s, Returns V p s) :
    Triple P p (fun a t => R a t ∧ V a) E := by
  intro s hs
  have h := hp s hs
  cases hr : p s with
  | ok a t => rw [hr] at h; exact ⟨h, hV s a t hr⟩
  | error e t => rw [hr] at h; cases e <;> exact h

end Closure

/-- A running command with `auth_state` `a`; if `L`, the secret has eight bytes. -/
structure Holds (c : Config) (L : Prop) (a : AuthState) (s : State) : Prop where
  busy : s.busy = true
  cfg : s.cfg = c
  length : L → s.hostSecret.length = 8
  auth : s.auth = a

section Holds

variable {c : Config} {L : Prop} {a : AuthState}

theorem Holds.rel {s t : State} (h : Holds c L a s) (k : Rel busView s t) : Holds c L a t := by
  have hv := k.view
  simp only [busView, Prod.mk.injEq] at hv
  obtain ⟨-, -, -, -, -, -, -, -, -, -, -, -, -, h1, h2⟩ := hv
  exact ⟨k.busy.trans h.busy, k.cfg.trans h.cfg, fun hl => by rw [h2]; exact h.length hl, h1.trans h.auth⟩

/-- A procedure that keeps what `busView` sees. -/
theorem Triple.of_bus {α : Type} {p : Proc α} (hp : Bus busView c p) :
    Triple (Holds c L a) p (fun _ => Holds c L a) (fun ph _ t => ph = .bus ∧ Holds c L a t) := by
  intro s hs
  have h := hp s hs.busy hs.cfg
  revert h
  cases p s with
  | ok x t => exact hs.rel
  | error e t =>
    cases e with
    | raised ph d => exact fun h => ⟨h.1, hs.rel h.2.1⟩
    | abandoned => exact fun _ => trivial
    | fault f => exact fun _ => trivial
    | refused r => exact fun _ => trivial

theorem Triple.setAuth (a' : AuthState) {E : Phase → Cause → State → Prop} :
    Triple (Holds c L a) (setAuth a') (fun _ => Holds c L a') E := fun _ h => ⟨h.busy, h.cfg, h.length, rfl⟩

theorem Triple.setResult (v : Word) {E : Phase → Cause → State → Prop} :
    Triple (Holds c L a) (setResult v) (fun _ => Holds c L a) E := fun _ h => ⟨h.busy, h.cfg, h.length, h.auth⟩

theorem Triple.setHostSecret {v : List Byte} (hv : v.length = 8) {E : Phase → Cause → State → Prop} :
    Triple (Holds c L a) (setHostSecret v) (fun _ t => Holds c L a t ∧ t.hostSecret.length = 8) E :=
  fun _ h => ⟨⟨h.busy, h.cfg, fun _ => hv, h.auth⟩, hv⟩

/-- Dropping the secret on an error. -/
theorem Triple.dropSecret {α : Type} {P : State → Prop} {p : Proc α} {R : α → State → Prop}
    (hp : Triple P p R (fun ph _ t => ph = .bus ∧ Holds c L a t)) :
    Triple P (onBusError dropSecret p) R (fun ph _ t => ph = .bus ∧ Holds c L .noSecret t) := by
  intro s hs
  have h := hp s hs
  unfold onBusError
  cases hr : p s with
  | ok x t => rw [hr] at h; exact h
  | error e t =>
    rw [hr] at h
    cases e with
    | raised ph d =>
      obtain ⟨rfl, h2⟩ := h
      exact ⟨rfl, h2.busy, h2.cfg, h2.length, rfl⟩
    | abandoned => trivial
    | fault f => trivial
    | refused r => trivial

/-- Storing a secret of eight bytes and copying it into a slot. -/
theorem Triple.setSecret_slotCopy (h : c.wf = true) {b slot : Nat} (hb : b < c.nbanks)
    (hs : (c.bank b).shaCapable = true) (hslot : slot < 8) {v : List Byte} (hv : v.length = 8) :
    Triple (Holds c L a) (do Sys2Proof.Machine.setHostSecret v; slotCopy b slot) (fun _ => Holds c L a)
      (fun ph _ t => ph = .bus ∧ Holds c L a t) := by
  refine Triple.bind (Triple.setHostSecret hv) fun _ => ?_
  intro s hP
  have h1 := slotCopy_ends (b := b) (slot := slot) s hP.1.busy
    (by rw [hP.1.cfg]; exact slot_fits h hb hs hslot hP.2)
  revert h1
  cases slotCopy b slot s with
  | ok x t => exact fun h => hP.1.rel h.1
  | error e t =>
    cases e with
    | raised ph d => exact fun h => ⟨h.1, hP.1.rel h.2.1⟩
    | abandoned => exact fun _ => trivial
    | fault f => exact fun _ => trivial
    | refused r => exact fun _ => trivial

end Holds

/-- A page of a SHA-capable bank can be written whole. -/
theorem shaPage_bus {c : Config} (h : c.wf = true) {b p : Nat} (hb : b < c.nbanks) (hs : (c.bank b).shaCapable = true)
    (hp : p < (c.bank b).pageCount) {d : List Byte} (hd : d.length = 32) (check : Bool) :
    Bus busView c (writeRange b (p * 32) d check) := by
  refine writeRange_bus _ _ _ _ (chunks_fit h hb _ _ ?_)
  have hpl := (wf_sha h hb hs).1
  have := page_range (k := c.bank b) (n := 32) hp (by omega)
  rw [hpl] at this ⊢
  rw [hd]; exact this

theorem installBus_triple {c : Config} {L : Prop} {a : AuthState} (h : c.wf = true) {b slot p : Nat} (hb : b < c.nbanks)
    (hs : (c.bank b).shaCapable = true) (hp : p < (c.bank b).pageCount) (hslot : slot < 8) (secret : List Byte) :
    Triple (Holds c L a) (installBus b slot p secret) (fun _ => Holds c L .secretBound)
      (fun ph _ t => ph = .bus ∧ Holds c L a t) := by
  have hS : (secret ++ rep padByte (47 * installCount secret.length - secret.length)).length =
      47 * installCount secret.length := by
    simp only [List.length_append, rep, List.length_replicate, installCount]; omega
  unfold installBus
  refine Triple.get_bind fun s0 => ?_
  refine Triple.imp (P := Holds c L a) ?_ (fun s h => h.1) (fun _ _ h => h) (fun _ _ _ h => h)
  refine Triple.bind ((Triple.of_bus (installChunks_bus h hb hs hp _ _ 0 (rep 0x00 8) (by rw [hS]; omega))).returns
    fun s => installChunks_returns _ _ _ _ _ _ _ (by simp [rep])) fun sec => ?_
  intro s hP
  revert s
  have hrest : sec.length = 8 → Triple (Holds c L a) (do
      writeRange b (p * 32) (rep wipeByte 32) (writeVerify s0 b)
      setHostSecret sec
      slotCopy b slot
      setAuth .secretBound
      setResult (BitVec.ofNat 32 (installCount secret.length))) (fun _ => Holds c L .secretBound)
      (fun ph _ t => ph = .bus ∧ Holds c L a t) := by
    intro hsec
    have h1 := Triple.bind (Triple.of_bus (L := L) (a := a)
      (shaPage_bus h hb hs hp (d := rep wipeByte 32) (by simp [rep]) (writeVerify s0 b)))
      fun _ => Triple.bind (Triple.setSecret_slotCopy h hb hs hslot hsec) fun _ =>
        Triple.bind (Triple.setAuth .secretBound) fun _ =>
          Triple.setResult (BitVec.ofNat 32 (installCount secret.length))
    simpa only [bind_assoc] using h1
  intro s hP
  exact hrest hP.2 s hP.1

/-- How a secret command that began with `auth_state` `a` in state `s0` may raise: a check, or in the bus phase with the
secret dropped, or, where `keep`, kept and not by the device SHA step. -/
def SecretRaise (c : Config) (L : Prop) (a : AuthState) (keep : Bool) (s0 : State) (ph : Phase) (d : Cause) (t : State) :
    Prop :=
  (ph = .check ∧ NotSha d ∧ t = s0) ∨
    (ph = .bus ∧ (Holds c L .noSecret t ∨ (keep = true ∧ NotSha d ∧ Holds c L a t)))

theorem triple_require {α : Type} {c : Config} {L : Prop} {a : AuthState} {keep : Bool} {s0 : State}
    {checks : List (Bool × Cause)} {f : Unit → Proc α} {R : α → State → Prop} (hn : ∀ k ∈ checks, NotSha k.2)
    (hf : (∀ k ∈ checks, k.1 = true) → Triple (Holds c L a) (f ()) R (SecretRaise c L a keep s0)) :
    Triple (fun s => Holds c L a s ∧ s = s0) (require checks >>= f) R (SecretRaise c L a keep s0) := by
  intro s hs
  obtain ⟨hs, rfl⟩ := hs
  have hr := require_run checks s
  cases hc : firstFailing checks with
  | some d =>
    rw [hc] at hr; rw [bind_error hr]
    exact .inl ⟨rfl, hn _ (firstFailing_mem _ _ hc), rfl⟩
  | none =>
    rw [hc] at hr; rw [bind_ok hr]
    exact hf ((firstFailing_none checks).1 hc) s hs

theorem raise_keep {c : Config} {L : Prop} {a : AuthState} {s0 : State} (ph : Phase) (d : Cause) (t : State)
    (h : (ph = .bus ∧ Holds c L a t) ∧ NotSha d) : SecretRaise c L a true s0 ph d t :=
  .inr ⟨h.1.1, .inr ⟨rfl, h.2, h.1.2⟩⟩

theorem raise_drop {c : Config} {L : Prop} {a : AuthState} {keep : Bool} {s0 : State} (ph : Phase) (d : Cause) (t : State)
    (h : ph = .bus ∧ Holds c L .noSecret t) : SecretRaise c L a keep s0 ph d t := .inr ⟨h.1, .inl h.2⟩

/-- How a secret command ends (45_auth.md R260), from a state `s0` where it runs. -/
structure SecretBody (c : Config) (keep : Bool) (done : AuthState) (p : Proc Unit) : Prop where
  ends : ∀ (L : Prop) (a : AuthState) (s0 : State),
    Triple (fun s => Holds c L a s ∧ s = s0) p (fun _ => Holds c L done) (SecretRaise c L a keep s0)

/-- How a secret command ends, as a whole. -/
inductive SecretCases (s : State) (keep : Bool) (done : AuthState) (t : State) : Prop where
  | left (u : State) : t = softReset u → SecretCases s keep done t
  | check (d : Cause) (u : State) : Rel wireView (start s) u → (s.quiet = true → u = start s) → NotSha d →
    t = completeError .check d u → SecretCases s keep done t
  | drop (d : Cause) (u : State) : u.auth = .noSecret → (s.hostSecret.length = 8 → u.hostSecret.length = 8) →
    t = completeError .bus d u → SecretCases s keep done t
  | keep (d : Cause) (u : State) : keep = true → NotSha d → u.auth = s.auth →
    (s.hostSecret.length = 8 → u.hostSecret.length = 8) → t = completeError .bus d u → SecretCases s keep done t
  | done (u : State) : u.auth = done → (s.hostSecret.length = 8 → u.hostSecret.length = 8) → t = completeOk u →
    SecretCases s keep done t

theorem secretCases_of {s t : State} {keep : Bool} {done : AuthState} {p : Proc Unit}
    (h : SecretBody s.cfg keep done p) (hr : runCommand p s = .next t) : SecretCases s keep done t := by
  have h1 := land_bus s.cfg (start s) rfl rfl
  have hq : s.quiet = true → land (start s) = .ok () (start s) := fun hq => land_quiet (s := start s) hq
  unfold runCommand at hr
  cases hl : land (start s) with
  | error e u =>
    rw [hl] at h1
    rw [bind_error hl] at hr
    cases e with
    | raised ph c => exact absurd hl (land_raises _ _ _ _)
    | abandoned => cases hr; exact .left u rfl
    | fault f => cases hr
    | refused r => cases hr
  | ok _ s0 =>
    rw [hl] at h1
    have hR : Rel wireView (start s) s0 := h1
    have hu : s.quiet = true → s0 = start s := fun hqs => by have := hq hqs; rw [hl] at this; cases this; rfl
    rw [bind_ok hl] at hr
    have hH : Holds s.cfg (s.hostSecret.length = 8) s.auth s0 :=
      Holds.rel (s := start s) ⟨rfl, rfl, id, rfl⟩ hR.toBus
    have hb := h.ends (s.hostSecret.length = 8) s.auth s0 s0 ⟨hH, rfl⟩
    cases hp : p s0 with
    | ok _ u => rw [hp] at hb hr; cases hr; exact .done u hb.auth hb.length rfl
    | error e u =>
      rw [hp] at hb hr
      cases e with
      | raised ph c =>
        cases hr
        rcases hb with ⟨rfl, hn, rfl⟩ | ⟨rfl, hb | ⟨hk, hn, hb⟩⟩
        · exact .check c _ hR hu hn rfl
        · exact .drop c u hb.auth hb.length rfl
        · exact .keep c u hk hn hb.auth hb.length rfl
      | abandoned => cases hr; exact .left u rfl
      | fault f => cases hr
      | refused r => cases hr

theorem triple_start {α : Type} {c : Config} {L : Prop} {a : AuthState} {s0 : State} {f : State → Proc α}
    {R : α → State → Prop} {E : Phase → Cause → State → Prop}
    (h : ∀ s1, Holds c L a s1 → Triple (fun s => Holds c L a s ∧ s = s0) (f s1) R E) :
    Triple (fun s => Holds c L a s ∧ s = s0) (get >>= f) R E := fun s hs => h s hs.1 s hs

theorem installSecret_secret (b slot : Nat) (s t : State) (hw : s.cfg.wf = true) (hslot : slot < 8)
    (h : exec (.installSecret b slot) s = .next t) : SecretCases s false .secretBound t := by
  refine secretCases_of (keep := false) ⟨fun L a s0 => triple_start fun s1 h1 => ?_⟩ h
  refine triple_require (by simp [installChecks, bankChecks, pageCheck, bufferCheck, romCheck, NotSha]) fun hk => ?_
  obtain ⟨hbank, -, hk⟩ := bankChecks_pass hk
  simp only [List.forall_mem_cons, pageCheck, decide_eq_true_eq, Bool.and_eq_true] at hk
  have hc : s1.cfg = s.cfg := h1.cfg
  have hsha : (s.cfg.bank b).shaCapable = true := by rw [← hc]; exact hk.1.1
  have hpg : s1.x0 < (s.cfg.bank b).pageCount := by rw [← hc]; exact hk.2.1
  rw [hc] at hbank
  exact Triple.bind (Triple.setAuth _) fun _ =>
    (Triple.dropSecret (installBus_triple hw hbank hsha hpg hslot _)).imp (fun _ h => h) (fun _ _ h => h) raise_drop

theorem shaStage_triple {c : Config} {L : Prop} {a : AuthState} {s0 : State} (b p : Nat) (sp15 : List Byte) :
    Triple (Holds c L a) (shaStage b p sp15) (fun _ => Holds c L a) (SecretRaise c L a true s0) :=
  ((Triple.of_bus (shaStage_event b p sp15).bus).raises (raises_shaStage _ _ _)).imp (fun _ h => h) (fun _ _ h => h)
    raise_keep

theorem bindSecret_secret (b slot : Nat) (af : Bool) (s t : State) (hw : s.cfg.wf = true) (hslot : slot < 8)
    (h : exec (.bindSecret b slot af) s = .next t) : SecretCases s true .secretActive t := by
  refine secretCases_of (keep := true) ⟨fun L a s0 => triple_start fun s1 h1 => ?_⟩ h
  refine triple_require (by simp [bindChecks, bankChecks, pageCheck, bufferCheck, romCheck, NotSha]) fun hk => ?_
  obtain ⟨hbank, -, hk⟩ := bankChecks_pass hk
  simp only [List.forall_mem_cons, pageCheck, decide_eq_true_eq] at hk
  have hc : s1.cfg = s.cfg := h1.cfg
  have hsha : (s.cfg.bank b).shaCapable = true := by rw [← hc]; exact hk.1
  have hpg : s1.x0 < (s.cfg.bank b).pageCount := by rw [← hc]; exact hk.2.1
  rw [hc] at hbank
  refine Triple.bind (((Triple.of_bus (shaPage_bus hw hbank hsha hpg (dataRun_length _ _ _) _)).raises
    (raises_writeRange _ _ _ _)).imp (fun _ h => h) (fun _ _ h => h) raise_keep) fun _ =>
    Triple.bind (shaStage_triple _ _ _) fun _ => Triple.bind (R := fun _ => Holds s.cfg L a) ?_ fun _ =>
      Triple.bind (Triple.setAuth _) fun _ => Triple.setResult _
  exact (Triple.dropSecret (Triple.bind (Triple.of_bus (shaStep_event _ _ _).bus) fun _ =>
    Triple.setSecret_slotCopy hw hbank hsha hslot (devSecret_length _ _ _ _))).imp (fun _ h => h) (fun _ _ h => h) raise_drop

theorem computeNextSecret_secret (b : Nat) (s t : State)
    (h : exec (.computeNextSecret b) s = .next t) : SecretCases s true .secretActive t := by
  refine secretCases_of (keep := true) ⟨fun L a s0 => triple_start fun s1 h1 => ?_⟩ h
  refine triple_require (by simp [nextSecretChecks, bankChecks, pageCheck, bufferCheck, romCheck, NotSha]) fun hk => ?_
  refine Triple.bind (((Triple.of_bus (pageRead_event _ _ _).toBus.bus).raises
    (raises_pageRead _ _ _)).imp (fun _ h => h) (fun _ _ h => h) raise_keep) fun pg =>
    Triple.bind (shaStage_triple _ _ _) fun _ => Triple.bind (R := fun _ => Holds s.cfg L a) ?_ fun _ =>
      Triple.bind (R := fun _ => Holds s.cfg L a) ((Triple.setHostSecret (devSecret_length _ _ _ _)).imp (fun _ h => h)
        (fun _ _ h => h.1) (fun _ _ _ h => h)) fun _ => Triple.bind (Triple.setAuth _) fun _ => Triple.setResult _
  exact (Triple.dropSecret (Triple.of_bus (shaStep_event _ _ _).bus)).imp (fun _ h => h) (fun _ _ h => h) raise_drop

end Sys2Proof.Machine
end

