-- ==== Sys2Proof/Laws/Record.lean ====
section
/-! SUPPORT. What an error of the bus phase leaves of the scratchpad record, and which causes it may have (43_scratchpad.md
R200, 60_exceptions.md R304.5): inside the scratchpad procedures and the secret-engine steps the record is UNKNOWN. -/

namespace Sys2Proof.Machine

/-- A cause the bus phase may raise. -/
abbrev Tame (c : Cause) : Prop := c ≠ .illegal ∧ (c.kind = .policy → c = .locked ∨ c = .redirlocked)

/-- A cause raised outside the scratchpad procedures and the secret-engine steps. -/
abbrev Neutral (c : Cause) : Prop := Tame c ∧ c.info.toNat ∉ [4, 5, 6, 7, 8, 9, 10, 33]

section Causes

variable {P : Cause → Prop}

theorem neutral_selectDevice : Raises Neutral selectDevice := by
  have h : ∀ r : Bool, Raises Neutral (do
      let ok ← tSelect r
      ensure ok .select
      modify fun s => { s with speedVerified := true, resumeEligible := true }) := fun r =>
    Raises.bind (Raises.tSelect _) fun _ => Raises.bind (Raises.ensure (by decide)) fun _ => Raises.modify _
  refine Raises.get_bind fun _ => ?_
  dsimp only
  split
  · exact h _
  · exact Raises.bind Raises.tReset fun _ => h _

theorem neutral_frameReadCrcCont (k : Bank) : Raises Neutral (frameReadCrcCont k) :=
  Raises.bind (Raises.tExchange _) fun _ => Raises.bind (Raises.ensure (by decide)) fun _ => Raises.pure _

theorem neutral_pageRead (b p : Nat) (cok : Bool) : Raises Neutral (pageRead b p cok) :=
  Raises.get_bind fun _ => Raises.ite (neutral_frameReadCrcCont _) (Raises.bind neutral_selectDevice fun _ =>
    Raises.ite (Raises.bind (Raises.tExchange _) fun _ => Raises.bind (Raises.ensure (by decide)) fun _ =>
        neutral_frameReadCrcCont _)
      (Raises.bind (Raises.tExchange _) fun _ => Raises.bind (Raises.ensure (by decide)) fun _ => Raises.pure _))

theorem neutral_rawRead (b r n : Nat) (cok : Bool) : Raises Neutral (rawRead b r n cok) :=
  Raises.get_bind fun _ => Raises.ite (Raises.tExchange _) (Raises.bind neutral_selectDevice fun _ =>
    Raises.bind (Raises.tExchange _) fun _ => Raises.pure _)

theorem neutral_readCtl (l cp : Nat) : Raises Neutral (readCtl l cp) :=
  Raises.bind (neutral_pageRead _ _ _) fun _ => Raises.pure _

theorem neutral_testBit (l q : Nat) : Raises Neutral (testBit l q) :=
  Raises.get_bind fun _ => Raises.bind (neutral_readCtl _ _) fun _ => Raises.pure _

theorem neutral_lockCheck (b p : Nat) : Raises Neutral (lockCheck b p) := by
  refine Raises.get_bind fun _ => ?_
  split
  · exact Raises.pure _
  · exact Raises.bind (neutral_testBit _ _) fun _ => Raises.ensure (by decide)

theorem neutral_lockCheckPages (b n : Nat) : ∀ p, Raises Neutral (lockCheckPages b p n) := by
  induction n with
  | zero => exact fun _ => Raises.pure _
  | succ n ih => exact fun p => Raises.bind (neutral_lockCheck _ _) fun _ => ih _

theorem neutral_redirectLockCheck (k : Bank) (p : Nat) : Raises Neutral (redirectLockCheck k p) := by
  unfold redirectLockCheck
  split
  · exact Raises.pure _
  · exact Raises.bind (neutral_testBit _ _) fun _ => Raises.ensure (by decide)

theorem neutral_macFor (b ta : Nat) (d : List Byte) : Raises Neutral (macFor b ta d) :=
  Raises.get_bind fun _ => Raises.bind (neutral_pageRead _ _ _) fun _ => Raises.pure _

theorem neutral_verify (b ta : Nat) (d : List Byte) : Raises Neutral (verify b ta d) :=
  Raises.get_bind fun _ => Raises.ite (Raises.bind (neutral_pageRead _ _ _) fun _ => Raises.ensure (by decide))
    (Raises.bind (neutral_rawRead _ _ _ _) fun _ => Raises.ensure (by decide))

theorem neutral_readWholePage (b p : Nat) (c : Bool) : Raises Neutral (readWholePage b p c) :=
  Raises.get_bind fun _ => Raises.ite (Raises.bind (neutral_pageRead _ _ _) fun _ => Raises.pure _)
    (Raises.bind (neutral_rawRead _ _ _ _) fun _ => Raises.pure _)

theorem neutral_readMorePages (b n : Nat) : ∀ p, Raises Neutral (readMorePages b p n) := by
  induction n with
  | zero => exact fun _ => Raises.pure _
  | succ n ih => exact fun p => Raises.bind (neutral_pageRead _ _ _) fun _ => Raises.bind (ih _) fun _ => Raises.pure _

theorem tame_selectDevice : Raises Tame selectDevice := neutral_selectDevice.imp fun _ h => h.1

theorem tame_poll (k : Bank) (n : Nat) : Raises Tame (poll k n) := by
  induction n with
  | zero => exact Raises.fail (by decide)
  | succ n ih =>
    exact Raises.bind Raises.tGetByte fun _ => Raises.ite (Raises.pure _) (Raises.ite ih
      (Raises.fail (by split <;> decide)))

theorem tame_sendCommit (c : Config) (out : List Byte) : Raises Tame (sendCommit c out) :=
  Raises.ite (Raises.bind (Raises.tExchange _) fun _ => Raises.bind (Raises.tSetPowerMode _) fun _ =>
        Raises.bind Raises.tStartPowerDelivery fun _ => Raises.tPutByte _)
      (Raises.bind (Raises.tExchange _) fun _ => Raises.pure _)

theorem tame_frameWriteSp (k : Bank) (ta : Nat) (d : List Byte) : Raises Tame (frameWriteSp k ta d) :=
  Raises.bind (Raises.tExchange _) fun _ => Raises.ensure (by decide)

theorem tame_frameReadSp (k : Bank) (n : Nat) : Raises Tame (frameReadSp k n) :=
  Raises.bind (Raises.tExchange _) fun _ => Raises.bind (Raises.ensure (by decide)) fun _ => Raises.pure _

theorem tame_frameSha (k : Bank) (a : Nat) (fn : Byte) : Raises Tame (frameSha k a fn) :=
  Raises.get_bind fun _ => Raises.bind (Raises.tExchange _) fun _ =>
    Raises.bind (Raises.tSleep _) fun _ => Raises.bind Raises.tGetByte fun _ => Raises.ensure (by decide)

theorem tame_frameReadAuth (k : Bank) (a : Nat) : Raises Tame (frameReadAuth k a) :=
  Raises.get_bind fun _ => Raises.bind (Raises.tExchange _) fun _ => Raises.bind (Raises.ensure (by decide)) fun _ =>
    Raises.bind (Raises.tSleep _) fun _ => Raises.bind (Raises.tExchange _) fun _ =>
      Raises.bind (Raises.ensure (by decide)) fun _ => Raises.pure _

end Causes

/-- A running command whose scratchpad record meets `Q`. -/
structure Rec (c : Config) (Q : Scratch → Prop) (s : State) : Prop where
  busy : s.busy = true
  cfg : s.cfg = c
  sp : Q s.sp

/-- The record is what it was at the start of the command, or IDLE. -/
abbrev Kept (p0 p : Scratch) : Prop := p = p0 ∨ p.phase = .idle

/-- The record is UNKNOWN. -/
abbrev Unknown (p : Scratch) : Prop := p.phase = .unknown

/-- The record is IDLE. -/
abbrev Idle (p : Scratch) : Prop := p.phase = .idle

/-- An error inside a scratchpad procedure. -/
def Lost (ph : Phase) (d : Cause) (t : State) : Prop := ph = .bus ∧ Tame d ∧ Unknown t.sp

/-- An error of the bus phase of a command that began with the record `p0`. -/
def BusError (p0 : Scratch) (ph : Phase) (d : Cause) (t : State) : Prop :=
  ph = .bus ∧ Tame d ∧ (Unknown t.sp ∨ Kept p0 t.sp ∧ Neutral d)

theorem Lost.busError {p0 : Scratch} (ph : Phase) (d : Cause) (t : State) (h : Lost ph d t) : BusError p0 ph d t :=
  ⟨h.1, h.2.1, .inl h.2.2⟩

section Record

variable {c : Config} {α β : Type} {Q Q' : Scratch → Prop} {p0 : Scratch} {E : Phase → Cause → State → Prop}

/-- A wire procedure keeps the record. -/
theorem Triple.wire {p : Proc α} {C : Cause → Prop} (hp : BusAfter wireView c p) (hC : Raises C p) :
    Triple (Rec c Q) p (fun _ => Rec c Q) (fun ph d t => ph = .bus ∧ C d ∧ Q t.sp) := by
  have key : ∀ s t, Rec c Q s → Rel wireView s t → Rec c Q t := by
    intro s t hs k
    have hv := k.view
    simp only [wireView, Prod.mk.injEq] at hv
    obtain ⟨-, -, -, -, -, -, -, -, -, -, -, -, -, -, -, h⟩ := hv
    exact ⟨k.busy.trans hs.busy, k.cfg.trans hs.cfg, by rw [h]; exact hs.sp⟩
  intro s hs
  have h := hp s hs.busy hs.cfg
  cases hr : p s with
  | ok x t => rw [hr] at h; exact key s t hs h
  | error e t =>
    rw [hr] at h
    cases e with
    | raised ph d => exact ⟨h.1, hC s ph d t hr, (key s t hs h.2).sp⟩
    | abandoned => trivial
    | fault f => trivial
    | refused r => trivial

theorem Triple.neutral {p : Proc α} (hp : BusAfter wireView c p) (hC : Raises Neutral p) :
    Triple (Rec c (Kept p0)) p (fun _ => Rec c (Kept p0)) (BusError p0) :=
  (Triple.wire hp hC).imp (fun _ h => h) (fun _ _ h => h) fun _ _ _ h => ⟨h.1, h.2.1.1, .inr ⟨h.2.2, h.2.1⟩⟩

theorem Triple.lost {p : Proc α} (hp : BusAfter wireView c p) (hC : Raises Tame p) :
    Triple (Rec c Unknown) p (fun _ => Rec c Unknown) Lost :=
  (Triple.wire hp hC).imp (fun _ h => h) (fun _ _ h => h) fun _ _ _ h => h

theorem Triple.phase (x : SpPhase) : Triple (Rec c Q) (setPhase x) (fun _ => Rec c (·.phase = x)) E :=
  fun _ h => ⟨h.busy, h.cfg, rfl⟩

theorem Triple.scratch (p : Scratch) : Triple (Rec c Q) (setScratch p) (fun _ => Rec c fun _ => True) E :=
  fun _ h => ⟨h.busy, h.cfg, trivial⟩

/-- A write that leaves the record alone. -/
theorem Triple.keeps {f : State → State} (hb : ∀ s, (f s).busy = s.busy) (hc : ∀ s, (f s).cfg = s.cfg)
    (hs : ∀ s, (f s).sp = s.sp) : Triple (Rec c Q) (modify f : Proc Unit) (fun _ => Rec c Q) E :=
  fun s h => ⟨(hb s).trans h.busy, (hc s).trans h.cfg, by rw [hs s]; exact h.sp⟩

theorem Triple.skip (a : α) : Triple (Rec c Q) (pure a : Proc α) (fun _ => Rec c Q) E := fun _ h => h

theorem Rec.mono (h : ∀ p, Q p → Q' p) (s : State) (hs : Rec c Q s) : Rec c Q' s := ⟨hs.busy, hs.cfg, h _ hs.sp⟩

theorem Triple.from_get {P : State → Prop} {f : State → Proc β} {R : β → State → Prop} (hf : ∀ s0, Triple P (f s0) R E) :
    Triple P (get >>= f) R E := fun s hs => hf s s hs

theorem Triple.branch {P : State → Prop} {q : Prop} [Decidable q] {p p' : Proc α} {R : α → State → Prop} (h : Triple P p R E)
    (h' : Triple P p' R E) : Triple P (if q then p else p') R E := by
  split
  · exact h
  · exact h'

theorem stage_record (b ta : Nat) (d : List Byte) :
    Triple (Rec c Q) (stage b ta d) (fun _ => Rec c fun _ => True) Lost :=
  Triple.bind (Triple.phase _) fun _ => Triple.bind (Triple.lost selectDevice_event.bus.after tame_selectDevice) fun _ =>
    Triple.from_get fun _ => Triple.bind (Triple.lost (frameWriteSp_event _ _ _).bus.after (tame_frameWriteSp _ _ _)) fun _ =>
      Triple.scratch _

theorem confirm_record_lost : Triple (Rec c Q) confirm (fun _ => Rec c fun _ => True) Lost :=
  Triple.from_get fun _ => Triple.bind (Triple.phase _) fun _ =>
    Triple.bind (Triple.lost selectDevice_event.bus.after tame_selectDevice) fun _ =>
      Triple.bind (Triple.lost (frameReadSp_event _ _).bus.after (tame_frameReadSp _ _)) fun _ =>
        Triple.bind (Triple.lost (ensure_after _ _) (Raises.ensure (by decide))) fun _ => Triple.scratch _

theorem commit_record (mac : List Byte) : Triple (Rec c Q) (commit mac) (fun _ => Rec c Idle) Lost := by
  intro s hs
  have hc := hs.cfg
  subst hc
  exact (Triple.bind (R' := fun _ => Rec s.cfg Idle) (E := Lost) (Triple.phase (c := s.cfg) (Q := Q) .unknown) fun _ =>
    Triple.bind (Triple.lost selectDevice_event.bus.after tame_selectDevice) fun _ =>
      Triple.bind (Triple.lost (sendCommit_event (frameCopySp (s.bank s.sp.bank) s.sp.ta s.sp.es mac)).bus.after
        (tame_sendCommit _ _)) fun _ =>
        Triple.bind (Triple.lost (tSleep_event _ s.cfg.tCommitMs).bus.after (Raises.tSleep _)) fun _ =>
          Triple.bind (Triple.lost (poll_after (s.bank s.sp.bank) s.cfg.pollMax) (tame_poll _ _)) fun _ =>
            Triple.phase .idle) s hs

theorem Triple.lostToBus {P : State → Prop} {p : Proc α} {R : α → State → Prop} (h : Triple P p R Lost) :
    Triple P p R (BusError p0) := h.imp (fun _ h => h) (fun _ _ h => h) Lost.busError

theorem Triple.idleToKept {P : State → Prop} {p : Proc α} (h : Triple P p (fun _ => Rec c Idle) E) :
    Triple P p (fun _ => Rec c (Kept p0)) E := h.imp (fun _ h => h) (fun _ t h => Rec.mono (fun _ h => .inr h) t h) (fun _ _ _ h => h)

theorem writeChunk_record (b ta : Nat) (d : List Byte) (check : Bool) :
    Triple (Rec c (Kept p0)) (writeChunk b ta d check) (fun _ => Rec c (Kept p0)) (BusError p0) := by
  have h : ∀ mac : List Byte, Triple (Rec c (Kept p0)) (do
      stage b ta d
      confirm
      commit mac
      if check then verify b ta d else pure ()) (fun _ => Rec c (Kept p0)) (BusError p0) := fun mac =>
    Triple.bind (Triple.lostToBus (stage_record _ _ _)) fun _ => Triple.bind (Triple.lostToBus confirm_record_lost) fun _ =>
      Triple.bind (Triple.idleToKept (Triple.lostToBus (commit_record mac))) fun _ =>
        Triple.branch (Triple.neutral (verify_event _ _ _).bus.after (neutral_verify _ _ _)) (Triple.skip _)
  exact Triple.from_get fun _ => Triple.branch
    (Triple.bind (Triple.neutral (macFor_event _ _ _).bus.after (neutral_macFor _ _ _)) h) (Triple.bind (Triple.skip _) h)

theorem writeChunks_record (b : Nat) (d : List Byte) (check : Bool) (cs : List Chunk) :
    Triple (Rec c (Kept p0)) (writeChunks b d check cs) (fun _ => Rec c (Kept p0)) (BusError p0) := by
  induction cs with
  | nil => exact Triple.skip _
  | cons ch rest ih => exact Triple.bind (writeChunk_record _ _ _ _) fun _ => ih

theorem writeRange_record (b r : Nat) (d : List Byte) (check : Bool) :
    Triple (Rec c (Kept p0)) (writeRange b r d check) (fun _ => Rec c (Kept p0)) (BusError p0) :=
  Triple.from_get fun _ => Triple.bind (Triple.neutral (lockCheckPages_bus _ _ _).after (neutral_lockCheckPages _ _ _)) fun _ =>
    writeChunks_record _ _ _ _

theorem bitClear_record (l q : Nat) :
    Triple (Rec c (Kept p0)) (bitClear l q) (fun _ => Rec c (Kept p0)) (BusError p0) :=
  Triple.from_get fun _ => Triple.bind (writeChunk_record _ _ _ _) fun _ =>
    Triple.bind (Triple.neutral (readCtl_event _ _).bus.after (neutral_readCtl _ _)) fun _ =>
      Triple.neutral (ensure_after _ _) (Raises.ensure (by decide))

theorem shaStage_record (b p : Nat) (sp15 : List Byte) :
    Triple (Rec c Q) (shaStage b p sp15) (fun _ => Rec c Unknown) Lost :=
  Triple.from_get fun _ => Triple.bind (stage_record _ _ _) fun _ => Triple.bind confirm_record_lost fun _ =>
    Triple.bind (Triple.phase _) fun _ => Triple.lost selectDevice_event.bus.after tame_selectDevice

theorem shaStep_record (b p : Nat) (fn : Byte) : Triple (Rec c Unknown) (shaStep b p fn) (fun _ => Rec c Idle) Lost :=
  Triple.from_get fun _ => Triple.bind (Triple.lost (frameSha_event _ _ _).bus.after (tame_frameSha _ _ _)) fun _ =>
    Triple.phase _

theorem slotCopy_record (b slot : Nat) : Triple (Rec c Q) (slotCopy b slot) (fun _ => Rec c Idle) Lost :=
  Triple.from_get fun _ => Triple.bind (stage_record _ _ _) fun _ => Triple.bind confirm_record_lost fun _ => commit_record _

theorem installChunks_record (b p : Nat) (S : List Byte) (n : Nat) : ∀ (j : Nat) (sec : List Byte),
    Triple (Rec c (Kept p0)) (installChunks b p S n j sec) (fun _ => Rec c (Kept p0)) (BusError p0) := by
  induction n with
  | zero => exact fun _ _ => Triple.skip _
  | succ n ih =>
    exact fun j sec => Triple.from_get fun _ => Triple.bind (writeRange_record _ _ _ _) fun _ =>
      Triple.bind (Triple.bind (Triple.lostToBus (shaStage_record _ _ _)) fun _ =>
        Triple.idleToKept (Triple.lostToBus (shaStep_record _ _ _))) fun _ => ih _ _

theorem Triple.dropped {P : State → Prop} {p : Proc α} {R : α → State → Prop} (hp : Triple P p R (BusError p0)) :
    Triple P (onBusError Sys2Proof.Machine.dropSecret p) R (BusError p0) := by
  intro s hs
  have h := hp s hs
  unfold onBusError
  cases hr : p s with
  | ok x t => rw [hr] at h; exact h
  | error e t =>
    rw [hr] at h
    cases e with
    | raised ph d =>
      obtain ⟨rfl, h2⟩ := h
      exact ⟨rfl, h2⟩
    | abandoned => trivial
    | fault f => trivial
    | refused r => trivial

theorem installBus_record (b slot p : Nat) (secret : List Byte) :
    Triple (Rec c (Kept p0)) (installBus b slot p secret) (fun _ => Rec c (Kept p0)) (BusError p0) :=
  Triple.from_get fun _ => Triple.bind (installChunks_record _ _ _ _ _ _) fun _ => Triple.bind (writeRange_record _ _ _ _) fun _ =>
    Triple.bind (Triple.keeps (fun _ => rfl) (fun _ => rfl) fun _ => rfl) fun _ =>
      Triple.bind (Triple.idleToKept (Triple.lostToBus (slotCopy_record _ _))) fun _ =>
        Triple.bind (Triple.keeps (fun _ => rfl) (fun _ => rfl) fun _ => rfl) fun _ =>
          Triple.keeps (fun _ => rfl) (fun _ => rfl) fun _ => rfl

end Record

/-- A command that has issued no event yet. -/
def Begun (c : Config) (Q : Scratch → Prop) (es : List Event) (s : State) : Prop := Rec c Q s ∧ s.events = es

/-- An error of a command that began with the history `es`: in its check phase, or as `E` says. -/
def Fails (es : List Event) (E : Phase → Cause → State → Prop) (ph : Phase) (d : Cause) (t : State) : Prop :=
  ph = .check ∧ t.events = es ∨ E ph d t

theorem Triple.checked {α : Type} {c : Config} {Q : Scratch → Prop} {es : List Event} {checks : List (Bool × Cause)}
    {f : Unit → Proc α} {R : α → State → Prop} {E : Phase → Cause → State → Prop} (hf : Triple (Rec c Q) (f ()) R E) :
    Triple (Begun c Q es) (require checks >>= f) R (Fails es E) := by
  intro s hs
  have hr := require_run checks s
  cases hc : firstFailing checks with
  | some d => rw [hc] at hr; rw [bind_error hr]; exact .inl ⟨rfl, hs.2⟩
  | none =>
    rw [hc] at hr; rw [bind_ok hr]
    exact (hf.imp (fun _ h => h) (fun _ _ h => h) fun _ _ _ h => .inr h) s hs.1

/-- How a quiet command that reports an error with an event behind it failed. -/
theorem fails_of {p : Proc Unit} {s t : State} {c : Config} {Q : Scratch → Prop} {R : Unit → State → Prop}
    {E : Phase → Cause → State → Prop} (hp : Triple (Begun c Q s.events) p R (Fails s.events E)) (hc : s.cfg = c)
    (hQ : Q s.sp) (hq : s.quiet = true) (h : runCommand p s = .next t) (he : t.err ≠ .none) (hn : t.events ≠ s.events) :
    ∃ ph d u, E ph d u ∧ t = completeError ph d u := by
  rw [runCommand_quiet _ hq] at h
  have h1 := hp (start s) ⟨⟨rfl, hc, hQ⟩, rfl⟩
  cases hr : p (start s) with
  | ok x u => rw [hr] at h; cases h; exact absurd rfl he
  | error e u =>
    rw [hr] at h h1
    cases e with
    | raised ph d =>
      cases h
      rcases h1 with ⟨rfl, h1⟩ | h1
      · exact absurd (by simpa using h1) hn
      · exact ⟨ph, d, u, h1, rfl⟩
    | abandoned => cases h; exact absurd rfl he
    | fault f => cases h
    | refused r => cases h

section Exec

variable {c : Config} {p0 : Scratch}

theorem Triple.result (v : Word) {Q : Scratch → Prop} {E : Phase → Cause → State → Prop} :
    Triple (Rec c Q) (Sys2Proof.Machine.setResult v) (fun _ => Rec c Q) E :=
  Triple.keeps (fun _ => rfl) (fun _ => rfl) fun _ => rfl

theorem Triple.authIs (a : AuthState) {Q : Scratch → Prop} {E : Phase → Cause → State → Prop} :
    Triple (Rec c Q) (Sys2Proof.Machine.setAuth a) (fun _ => Rec c Q) E :=
  Triple.keeps (fun _ => rfl) (fun _ => rfl) fun _ => rfl

theorem Triple.secretIs (v : List Byte) {Q : Scratch → Prop} {E : Phase → Cause → State → Prop} :
    Triple (Rec c Q) (Sys2Proof.Machine.setHostSecret v) (fun _ => Rec c Q) E :=
  Triple.keeps (fun _ => rfl) (fun _ => rfl) fun _ => rfl

theorem Triple.stored (o : Nat) (bs : List Byte) {Q : Scratch → Prop} {E : Phase → Cause → State → Prop} :
    Triple (Rec c Q) (memWrite o bs) (fun _ => Rec c Q) E := Triple.keeps (fun _ => rfl) (fun _ => rfl) fun _ => rfl

theorem Triple.stream (k : Cont) {Q : Scratch → Prop} {E : Phase → Cause → State → Prop} :
    Triple (Rec c Q) (setCont k) (fun _ => Rec c Q) E := Triple.keeps (fun _ => rfl) (fun _ => rfl) fun _ => rfl

/-- The error of a bank command with its body. -/
theorem exec_fails (i : Instr) (s t : State) (hb : bankOf i ≠ none) (hq : s.quiet = true) (h : exec i s = .next t)
    (he : t.err ≠ .none) (hn : t.events ≠ s.events) : ∃ ph d u, BusError s.sp ph d u ∧ t = completeError ph d u := by
  have key : ∀ {p : Proc Unit} {R : Unit → State → Prop}, Triple (Begun s.cfg (Kept s.sp) s.events) p R (Fails s.events (BusError s.sp)) →
      runCommand p s = .next t → ∃ ph d u, BusError s.sp ph d u ∧ t = completeError ph d u :=
    fun hp h => fails_of hp rfl (.inl rfl) hq h he hn
  cases i with
  | crc8Seed v => exact absurd rfl hb
  | crc8Byte v => exact absurd rfl hb
  | crc8Block => exact absurd rfl hb
  | crc8Check => exact absurd rfl hb
  | crc16Seed v => exact absurd rfl hb
  | crc16Byte v => exact absurd rfl hb
  | crc16Block => exact absurd rfl hb
  | crc16Check => exact absurd rfl hb
  | readPage b c x =>
    exact key (Triple.from_get fun _ => Triple.checked <| Triple.bind
      (Triple.neutral (readWholePage_event _ _ _).bus.after (neutral_readWholePage _ _ _)) fun _ =>
      Triple.bind (Triple.stored _ _) fun _ => Triple.bind (Triple.stream _) fun _ => Triple.result _) h
  | readBytes b x =>
    refine key (Triple.from_get fun s0 => Triple.checked <| Triple.branch (Triple.result _) ?_) h
    have hk : ∀ d : List Byte, Triple (Rec s.cfg (Kept s.sp)) (do
        memWrite s0.x2 d
        setResult (BitVec.ofNat 32 s0.x1)) (fun _ => Rec s.cfg (Kept s.sp)) (BusError s.sp) := fun d =>
      Triple.bind (Triple.stored _ _) fun _ => Triple.result _
    exact Triple.branch
      (Triple.bind (Triple.from_get fun _ => Triple.bind (Triple.neutral (rawRead_event _ _ _ _).bus.after (neutral_rawRead _ _ _ _))
        fun _ => Triple.bind (Triple.stream _) fun _ => Triple.skip _) hk)
      (Triple.bind (Triple.from_get fun _ => Triple.bind (Triple.neutral (pageRead_event _ _ _).bus.after (neutral_pageRead _ _ _))
        fun _ => Triple.bind (Triple.neutral (readMorePages_bus _ _ _).after (neutral_readMorePages _ _ _))
        fun _ => Triple.bind (Triple.stream _) fun _ => Triple.skip _) hk)
  | write b =>
    exact key (Triple.from_get fun _ => Triple.checked <| Triple.branch (Triple.result _)
      (Triple.bind (writeRange_record _ _ _ _) fun _ => Triple.result _)) h
  | readPagePacket b x =>
    exact key (Triple.from_get fun _ => Triple.checked <| Triple.bind
      (Triple.neutral (readWholePage_event _ _ _).bus.after (neutral_readWholePage _ _ _)) fun _ =>
      Triple.bind (Triple.neutral (ensure_after _ _) (Raises.ensure (by decide))) fun _ =>
      Triple.bind (Triple.neutral (ensure_after _ _) (Raises.ensure (by decide))) fun _ =>
      Triple.bind (Triple.stored _ _) fun _ => Triple.bind (Triple.stream _) fun _ => Triple.result _) h
  | writePagePacket b =>
    exact key (Triple.from_get fun _ => Triple.checked <| 
      (Triple.bind (writeRange_record _ _ _ _) fun _ => Triple.result _)) h
  | spStage b =>
    refine key (Triple.from_get fun _ => Triple.checked <| Triple.bind
      (Triple.neutral (lockCheck_bus _ _).after (neutral_lockCheck _ _)) fun _ =>
      Triple.bind (Triple.lostToBus (stage_record _ _ _)) fun _ => Triple.result _) h
  | spConfirm b =>
    refine key (Triple.from_get fun _ => Triple.checked <| Triple.bind (Triple.lostToBus confirm_record_lost) fun _ =>
      Triple.from_get fun _ => Triple.bind (Triple.stored _ _) fun _ => Triple.result _) h
  | spCommit b =>
    refine key (R := fun _ => Rec s.cfg (Kept s.sp)) (Triple.from_get fun s0 => Triple.checked ?_) h
    have hk : ∀ mac : List Byte, Triple (Rec s.cfg (Kept s.sp)) (do
        commit mac
        setResult (BitVec.ofNat 32 s0.sp.n)) (fun _ => Rec s.cfg (Kept s.sp)) (BusError s.sp) := fun d =>
      Triple.bind (Triple.idleToKept (Triple.lostToBus (commit_record _))) fun _ => Triple.result _
    exact Triple.branch (Triple.bind (Triple.neutral (macFor_event _ _ _).bus.after (neutral_macFor _ _ _)) hk)
      (Triple.bind (Triple.skip _) hk)
  | lockPage b =>
    exact key (Triple.from_get fun _ => Triple.checked <| Triple.bind (bitClear_record _ _) fun _ => Triple.result _) h
  | isPageLocked b =>
    exact key (Triple.from_get fun _ => Triple.checked <| Triple.bind
      (Triple.neutral (testBit_event _ _).bus.after (neutral_testBit _ _)) fun _ => Triple.result _) h
  | redirectPage b =>
    exact key (Triple.from_get fun _ => Triple.checked <| Triple.bind
      (Triple.neutral (redirectLockCheck_bus _ _).after (neutral_redirectLockCheck _ _)) fun _ =>
      Triple.bind (writeChunk_record _ _ _ _) fun _ => Triple.result _) h
  | getRedirectedPage b =>
    exact key (Triple.from_get fun _ => Triple.checked <| Triple.bind
      (Triple.neutral (readCtl_event _ _).bus.after (neutral_readCtl _ _)) fun _ => Triple.result _) h
  | lockRedirectPage b =>
    exact key (Triple.from_get fun _ => Triple.checked <| Triple.bind (bitClear_record _ _) fun _ => Triple.result _) h
  | isRedirectPageLocked b =>
    exact key (Triple.from_get fun _ => Triple.checked <| Triple.bind
      (Triple.neutral (testBit_event _ _).bus.after (neutral_testBit _ _)) fun _ => Triple.result _) h
  | installSecret b slot =>
    refine key (Triple.from_get fun s0 => Triple.checked (checks := installChecks s0 b)
      (Triple.bind (Triple.authIs .secretInstalling) fun _ => Triple.dropped (installBus_record b slot s0.x0
        (dataRun s0 s0.x2 s0.x1)))) h
  | bindSecret b slot af =>
    refine key (Triple.from_get fun s0 => Triple.checked (checks := bindChecks s0 b af) <|
      Triple.bind (writeRange_record _ _ _ _) fun _ =>
      Triple.bind (Triple.lostToBus (shaStage_record _ _ _)) fun _ => Triple.bind (R := fun _ => Rec s.cfg (Kept s.sp)) ?_ fun _ =>
      Triple.bind (Triple.authIs _) fun _ => Triple.result _) h
    exact Triple.dropped (Triple.bind (Triple.lostToBus (shaStep_record _ _ _)) fun _ =>
        Triple.bind (Triple.secretIs _) fun _ => Triple.idleToKept (Triple.lostToBus (slotCopy_record _ _)))
  | computeNextSecret b =>
    refine key (Triple.from_get fun s0 => Triple.checked (checks := nextSecretChecks s0 b) <| Triple.bind
      (Triple.neutral (pageRead_event _ _ _).bus.after (neutral_pageRead _ _ _)) fun _ =>
      Triple.bind (Triple.lostToBus (shaStage_record _ _ _)) fun _ => Triple.bind (R := fun _ => Rec s.cfg (Kept s.sp)) ?_ fun _ =>
      Triple.bind (Triple.secretIs _) fun _ => Triple.bind (Triple.authIs _) fun _ => Triple.result _) h
    exact Triple.dropped (Triple.idleToKept (Triple.lostToBus (shaStep_record _ _ _)))
  | authRead b =>
    exact key (Triple.from_get fun _ => Triple.checked <| Triple.bind (Triple.lostToBus (stage_record _ _ _)) fun _ =>
      Triple.bind (Triple.lostToBus confirm_record_lost) fun _ =>
      Triple.bind (Triple.phase _) fun _ =>
      Triple.bind (Triple.lostToBus (Triple.lost selectDevice_event.bus.after tame_selectDevice)) fun _ =>
      Triple.bind (Triple.lostToBus (Triple.lost (frameReadAuth_event _ _).bus.after (tame_frameReadAuth _ _))) fun _ =>
      Triple.bind (Triple.idleToKept (Triple.phase _)) fun _ =>
      Triple.bind (Triple.neutral (ensure_after _ _) (Raises.ensure (by decide))) fun _ =>
      Triple.bind (Triple.stored _ _) fun _ => Triple.result _) h

/-- Where the bus phase is a scratchpad procedure alone, its errors are inside it. -/
theorem exec_lost (i : Instr) (b : Nat) (s t : State) (hi : i = .spConfirm b ∨ i = .spStage b ∧ (s.cfg.bank b).lockBank = none ∨
    i = .spCommit b ∧ (s.cfg.bank b).authenticated = false) (hq : s.quiet = true) (h : exec i s = .next t)
    (he : t.err ≠ .none) (hn : t.events ≠ s.events) : ∃ ph d u, Lost ph d u ∧ t = completeError ph d u := by
  have key : ∀ {p : Proc Unit} {R : Unit → State → Prop},
      Triple (Begun s.cfg (fun _ => True) s.events) p R (Fails s.events Lost) →
      runCommand p s = .next t → ∃ ph d u, Lost ph d u ∧ t = completeError ph d u :=
    fun hp h => fails_of hp rfl trivial hq h he hn
  rcases hi with rfl | ⟨rfl, hl⟩ | ⟨rfl, ha⟩
  · exact key (Triple.from_get fun _ => Triple.checked <| Triple.bind confirm_record_lost fun _ =>
      Triple.from_get fun _ => Triple.bind (Triple.stored _ _) fun _ => Triple.result _) h
  · refine key (Triple.from_get fun _ => Triple.checked <| Triple.bind (R := fun _ => Rec s.cfg fun _ => True) ?_ fun _ =>
      Triple.bind (stage_record _ _ _) fun _ => Triple.result _) h
    intro u hu
    have : (u.bank b).lockBank = none := by unfold State.bank; rw [hu.cfg]; exact hl
    unfold lockCheck
    rw [Sys2Proof.Machine.get_bind]
    simp only [this]
    exact hu
  · refine key (R := fun _ => Rec s.cfg Idle) (p := do
      let s ← get
      require (spCommitChecks s b)
      let mac ← if (s.bank b).authenticated then macFor b s.sp.ta.toNat s.sp.data else pure []
      commit mac
      setResult (BitVec.ofNat 32 s.sp.n)) ?_ h
    intro u hu
    have hm : (u.bank b).authenticated = false := by unfold State.bank; rw [hu.1.cfg]; exact ha
    rw [Sys2Proof.Machine.get_bind, hm]
    exact (Triple.checked (checks := spCommitChecks u b) (f := fun _ => do
      commit []
      setResult (BitVec.ofNat 32 u.sp.n)) (Triple.bind (commit_record []) fun _ => Triple.result _)) u hu

end Exec

end Sys2Proof.Machine
end

