-- ==== Sys2Proof/Laws/Sha.lean ====
section
/-! SUPPORT. Where the device SHA step of a command begins (45_auth.md R260, R261): no procedure but `Frame_Sha` sends its frame
and sleeps behind it, so a history that holds the two is the history of a command that has reached it. -/

namespace Sys2Proof.Machine

/-- `out` goes out in `es`, with a sleep directly behind it. -/
def SleptAfter (out : List Byte) (es : List Event) : Prop :=
  ∃ before after a ms, es = before ++ [.exchange out a, .sleep ms] ++ after

theorem sleptAfter_snoc {out : List Byte} {es : List Event} {e : Event} (h : SleptAfter out (es ++ [e])) :
    SleptAfter out es ∨ ∃ before a ms, es = before ++ [.exchange out a] ∧ e = .sleep ms := by
  obtain ⟨before, after, a, ms, h⟩ := h
  rcases List.eq_nil_or_concat after with rfl | ⟨l, x, rfl⟩
  · have h' : es ++ [e] = (before ++ [.exchange out a]) ++ [.sleep ms] := by simpa using h
    obtain ⟨h1, h2⟩ := List.append_inj' h' rfl
    exact .inr ⟨before, a, ms, h1, by simpa using h2⟩
  · have h' : es ++ [e] = (before ++ [.exchange out a, .sleep ms] ++ l) ++ [x] := by simpa using h
    exact .inl ⟨before, l, a, ms, (List.append_inj' h' rfl).1⟩

/-- A property of the history that only a sleep right behind `out` can end. -/
structure Closed (out : List Byte) (X : List Event → Prop) : Prop where
  event : ∀ es e, X es → (∀ ms, e ≠ .sleep ms) → X (es ++ [e])
  sleep : ∀ es e ms, X (es ++ [e]) → (∀ a, e ≠ .exchange out a) → X (es ++ [e] ++ [.sleep ms])

/-- The history since `e0` has no sleep behind `out`. -/
theorem closed_before (out : List Byte) (e0 : List Event) : Closed out fun es => ∃ new, es = e0 ++ new ∧ ¬ SleptAfter out new where
  event := by
    rintro _ e ⟨new, rfl, h⟩ he
    refine ⟨new ++ [e], by simp, fun k => ?_⟩
    rcases sleptAfter_snoc k with k | ⟨_, _, ms, _, rfl⟩
    · exact h k
    · exact he ms rfl
  sleep := by
    rintro es e ms ⟨new, hn, h⟩ he
    refine ⟨new ++ [.sleep ms], by rw [hn]; simp, fun k => ?_⟩
    rcases sleptAfter_snoc k with k | ⟨bef, a, _, rfl, _⟩
    · exact h k
    · have h' : es ++ [e] = (e0 ++ bef) ++ [.exchange out a] := by simpa using hn
      exact he a (by simpa using (List.append_inj' h' rfl).2)

/-- `X` held of the history before `out` went out, with a sleep of `ms` directly behind it. -/
def After (X : List Event → Prop) (out : List Byte) (ms : Nat) (es : List Event) : Prop :=
  ∃ l a, X l ∧ l ++ [.exchange out a, .sleep ms] <+: es

theorem closed_after (out : List Byte) (X : List Event → Prop) (f : List Byte) (ms : Nat) : Closed out (After X f ms) where
  event := fun _ _ ⟨l, a, h, hp⟩ _ => ⟨l, a, h, hp.trans (List.prefix_append _ _)⟩
  sleep := fun _ _ _ ⟨l, a, h, hp⟩ _ => ⟨l, a, h, hp.trans (List.prefix_append _ _)⟩

/-- A bank's copy and SHA commands differ (00_scope.md R9, WF10). -/
theorem copySp_ne_sha {c : Config} (h : c.wf = true) {b : Nat} (hb : b < c.nbanks) : (c.bank b).opcCopySp ≠ (c.bank b).opcSha := by
  obtain ⟨-, -, -, -, -, -, -, -, -, -, h10, -⟩ := wf_parts h
  have := List.all_eq_true.1 h10 _ (bank_mem hb)
  intro e
  simp [deviceOpcodes, e] at this

/-- A quiet state whose history meets `X`, secret state `Y` and staged bank `B`. -/
structure Hist (c : Config) (X : List Event → Prop) (Y : AuthState → List Byte → Prop) (B : Nat → Prop) (s : State) : Prop where
  quiet : s.quiet = true
  cfg : s.cfg = c
  events : X s.events
  sec : Y s.auth s.hostSecret
  bank : B s.sp.bank

/-- An error of the bus phase in such a state. -/
def HistErr (c : Config) (X : List Event → Prop) (Y : AuthState → List Byte → Prop) (ph : Phase) (_ : Cause) (t : State) : Prop :=
  ph = .bus ∧ Hist c X Y (fun _ => True) t

section Hist

variable {c : Config} {out : List Byte} {X : List Event → Prop} {Y : AuthState → List Byte → Prop} {B B' : Nat → Prop}
  {α β : Type}

theorem Hist.any {s : State} (h : Hist c X Y B s) : Hist c X Y (fun _ => True) s := ⟨h.quiet, h.cfg, h.events, h.sec, trivial⟩

theorem Hist.issued {s t : State} {es : List Event} (h : Hist c X Y B s) (k : Issued s t es) (hx : X (s.events ++ es)) :
    Hist c X Y B t :=
  ⟨k.quiet h.quiet, k.cfg.trans h.cfg, by rw [k.exactly]; exact hx, by rw [k.auth, k.hostSecret]; exact h.sec, by rw [k.sp]; exact h.bank⟩

/-- In a quiet state `p` issues one event, no sleep, and goes on. -/
def Emits (p : Proc α) : Prop :=
  ∀ s, s.quiet = true → ∃ a t e, Issued s t [e] ∧ p s = .ok a t ∧ ∀ ms, e ≠ .sleep ms

theorem emits_tReset : Emits tReset := by
  intro s hq
  unfold tReset
  cases hd : s.dev with
  | oracle o => exact ⟨(), _, .reset, Issued.event s _ _ _, event_quiet _ _ _ s hq, fun _ => by simp⟩
  | reference r => exact ⟨(), _, .reset, Issued.event s _ _ _, event_quiet _ _ _ s hq, fun _ => by simp⟩

theorem emits_tSelect (r : Bool) : Emits (tSelect r) := by
  intro s hq
  refine ⟨(selectAnswer s).1, _, .select s.rom r (selectAnswer s).1, Issued.event s _ (selectAnswer s).2.1 (selectAnswer s).2.2, ?_,
    fun _ => by simp⟩
  show (match Machine.event _ _ _ s with | .ok _ s' => _ | .error e s' => _) = _
  rw [event_quiet _ _ _ _ hq]

theorem emits_tExchange (o : List Byte) : Emits (tExchange o) := fun s hq =>
  let ⟨a, t, _, h, h'⟩ := tExchange_issues (s := s) o hq
  ⟨a, t, .exchange o a, h, h', fun _ => by simp⟩

theorem emits_tGetByte : Emits tGetByte := fun s hq =>
  let ⟨v, t, h, h'⟩ := tGetByte_issues (s := s) hq
  ⟨v, t, .getByte v, h, h', fun _ => by simp⟩

theorem Triple.emits {p : Proc α} (hX : Closed out X) (hp : Emits p) :
    Triple (Hist c X Y B) p (fun _ => Hist c X Y B) (HistErr c X Y) := by
  intro s h
  obtain ⟨a, t, e, k, hr, he⟩ := hp s h.quiet
  rw [hr]
  exact h.issued k (hX.event _ _ h.events he)

theorem Triple.hensure (ok : Bool) (d : Cause) :
    Triple (Hist c X Y B) (ensure ok d) (fun _ => Hist c X Y B) (HistErr c X Y) := by
  intro s h
  rw [ensure_run]
  cases ok
  · exact ⟨rfl, h.any⟩
  · exact h

theorem Triple.hpure (a : α) : Triple (Hist c X Y B) (pure a : Proc α) (fun _ => Hist c X Y B) (HistErr c X Y) := fun _ h => h

theorem Triple.hphase (x : SpPhase) : Triple (Hist c X Y B) (setPhase x) (fun _ => Hist c X Y B) (HistErr c X Y) :=
  fun _ h => ⟨h.quiet, h.cfg, h.events, h.sec, h.bank⟩

theorem Triple.hscratch (p : Scratch) (hp : B' p.bank) :
    Triple (Hist c X Y B) (setScratch p) (fun _ => Hist c X Y B') (HistErr c X Y) :=
  fun _ h => ⟨h.quiet, h.cfg, h.events, h.sec, hp⟩

theorem hist_select (hX : Closed out X) : Triple (Hist c X Y B) selectDevice (fun _ => Hist c X Y B) (HistErr c X Y) := by
  have hm : Triple (Hist c X Y B) (modify fun s => { s with speedVerified := true, resumeEligible := true } : Proc Unit)
      (fun _ => Hist c X Y B) (HistErr c X Y) := fun _ h => ⟨h.quiet, h.cfg, h.events, h.sec, h.bank⟩
  have hr : ∀ r, Triple (Hist c X Y B) (do
      let ok ← tSelect r
      ensure ok .select
      modify fun s => { s with speedVerified := true, resumeEligible := true }) (fun _ => Hist c X Y B) (HistErr c X Y) := fun r =>
    Triple.bind (Triple.emits hX (emits_tSelect r)) fun _ => Triple.bind (Triple.hensure _ _) fun _ => hm
  unfold selectDevice
  refine Triple.from_get fun s0 => ?_
  dsimp only
  split
  · exact hr _
  · exact Triple.bind (Triple.emits hX emits_tReset) fun _ => hr _

/-- An exchange whose answer is checked, and a value. -/
theorem hist_check (hX : Closed out X) (o : List Byte) (ok : List Byte → Bool) (d : Cause) (f : List Byte → α) :
    Triple (Hist c X Y B) (do
      let a ← tExchange o
      ensure (ok a) d
      pure (f a)) (fun _ => Hist c X Y B) (HistErr c X Y) :=
  Triple.bind (Triple.emits hX (emits_tExchange o)) fun _ => Triple.bind (Triple.hensure _ _) fun _ => Triple.hpure _

theorem hist_pageRead (hX : Closed out X) (b p : Nat) (cok : Bool) :
    Triple (Hist c X Y B) (pageRead b p cok) (fun _ => Hist c X Y B) (HistErr c X Y) := by
  unfold pageRead
  refine Triple.from_get fun s0 => ?_
  dsimp only
  split
  · exact hist_check hX _ _ _ _
  · refine Triple.bind (hist_select hX) fun _ => ?_
    split
    · exact Triple.bind (Triple.emits hX (emits_tExchange _)) fun _ => Triple.bind (Triple.hensure _ _) fun _ => hist_check hX _ _ _ _
    · exact hist_check hX _ _ _ _

theorem hist_rawRead (hX : Closed out X) (b r n : Nat) (cok : Bool) :
    Triple (Hist c X Y B) (rawRead b r n cok) (fun _ => Hist c X Y B) (HistErr c X Y) := by
  unfold rawRead
  refine Triple.from_get fun s0 => ?_
  dsimp only
  split
  · exact Triple.emits hX (emits_tExchange _)
  · exact Triple.bind (hist_select hX) fun _ => Triple.bind (Triple.emits hX (emits_tExchange _)) fun _ => Triple.hpure _

theorem hist_lockCheck (hX : Closed out X) (b p : Nat) :
    Triple (Hist c X Y B) (lockCheck b p) (fun _ => Hist c X Y B) (HistErr c X Y) := by
  unfold lockCheck
  refine Triple.from_get fun s0 => ?_
  split
  · exact Triple.hpure _
  · exact Triple.bind (Triple.from_get fun _ => Triple.bind (Triple.bind (hist_pageRead hX _ _ _) fun _ => Triple.hpure _) fun _ =>
      Triple.hpure _) fun _ => Triple.hensure _ _

theorem hist_lockCheckPages (hX : Closed out X) (b n : Nat) : ∀ p,
    Triple (Hist c X Y B) (lockCheckPages b p n) (fun _ => Hist c X Y B) (HistErr c X Y) := by
  induction n with
  | zero => exact fun _ => Triple.hpure _
  | succ n ih => exact fun p => Triple.bind (hist_lockCheck hX b p) fun _ => ih _

theorem hist_verify (hX : Closed out X) (b ta : Nat) (d : List Byte) :
    Triple (Hist c X Y B) (verify b ta d) (fun _ => Hist c X Y B) (HistErr c X Y) := by
  unfold verify
  refine Triple.from_get fun s0 => ?_
  dsimp only
  split
  · exact Triple.bind (hist_pageRead hX _ _ _) fun _ => Triple.hensure _ _
  · exact Triple.bind (hist_rawRead hX _ _ _ _) fun _ => Triple.hensure _ _

theorem hist_macFor (hX : Closed out X) (b ta : Nat) (d : List Byte) :
    Triple (Hist c X Y B) (macFor b ta d) (fun _ => Hist c X Y B) (HistErr c X Y) :=
  Triple.from_get fun _ => Triple.bind (hist_pageRead hX _ _ _) fun _ => Triple.hpure _

theorem hist_poll (hX : Closed out X) (k : Bank) (n : Nat) :
    Triple (Hist c X Y B) (poll k n) (fun _ => Hist c X Y B) (HistErr c X Y) := by
  induction n with
  | zero => exact fun _ h => ⟨rfl, h.any⟩
  | succ n ih =>
    refine Triple.bind (Triple.emits hX emits_tGetByte) fun v => ?_
    split
    · exact Triple.hpure _
    · split
      · exact ih
      · exact fun _ h => ⟨rfl, h.any⟩

theorem hist_stage (hX : Closed out X) (b ta : Nat) (d : List Byte) :
    Triple (Hist c X Y B) (stage b ta d) (fun _ => Hist c X Y (· = b)) (HistErr c X Y) :=
  Triple.bind (Triple.hphase _) fun _ => Triple.bind (hist_select hX) fun _ => Triple.from_get fun _ =>
    Triple.bind (Triple.bind (Triple.emits hX (emits_tExchange _)) fun _ => Triple.hensure _ _) fun _ => Triple.hscratch _ rfl

theorem hist_confirm (hX : Closed out X) : Triple (Hist c X Y B) confirm (fun _ => Hist c X Y B) (HistErr c X Y) := by
  intro s h
  have hr : ∀ k n, Triple (Hist c X Y B) (frameReadSp k n) (fun _ => Hist c X Y B) (HistErr c X Y) := fun _ _ => hist_check hX _ _ _ _
  exact Triple.bind (R := fun _ => Hist c X Y B) (R' := fun _ => Hist c X Y B) (E := HistErr c X Y) (Triple.hphase .unknown)
    (fun _ => Triple.bind (hist_select hX) fun _ => Triple.bind (hr (s.bank s.sp.bank) s.sp.n) fun r =>
      Triple.bind (Triple.hensure (confirms s.cfg s.sp r) .confirm) fun _ =>
        Triple.hscratch { s.sp with phase := .confirmed, es := r.es } h.bank) s h

/-- A commit frame of bank `b` is not `out`. -/
theorem hist_commit {b : Nat} {sh : Byte} {tl : List Byte} (hX : Closed (sh :: tl) X) (hb : (c.bank b).opcCopySp ≠ sh)
    (mac : List Byte) : Triple (Hist c X Y (· = b)) (commit mac) (fun _ => Hist c X Y (· = b)) (HistErr c X Y) := by
  have hsleep : ∀ (s t : State) (es : List Event) (e : Event) (ms : Nat), Hist c X Y (· = b) s → Issued s t (es ++ [e]) →
      X (s.events ++ (es ++ [e])) → (∀ a, e ≠ .exchange (sh :: tl) a) →
      ∃ u, tSleep ms t = .ok () u ∧ Hist c X Y (· = b) u := by
    intro s t es e ms h k hx he
    obtain ⟨u, k', hu⟩ := tSleep_issues (s := t) ms (k.quiet h.quiet)
    refine ⟨u, hu, (h.issued k hx).issued k' ?_⟩
    rw [k.exactly, ← List.append_assoc]
    exact hX.sleep _ _ _ (by rw [List.append_assoc]; exact hx) he
  have hsend : ∀ (f : List Byte) (ms : Nat), f.head? = some (c.bank b).opcCopySp → 2 ≤ f.length →
      Triple (Hist c X Y (· = b)) (do sendCommit c f; tSleep ms) (fun _ => Hist c X Y (· = b)) (HistErr c X Y) := by
    intro f ms hf hl s h
    have hne : ∀ g : List Byte, g.head? = f.head? → g ≠ sh :: tl := by
      rintro g hg rfl
      rw [hf] at hg
      exact hb (by simpa using hg.symm)
    suffices hs : ∃ w, (do sendCommit c f; tSleep ms : Proc Unit) s = .ok () w ∧ Hist c X Y (· = b) w by
      obtain ⟨w, hw, hh⟩ := hs
      rw [hw]; exact hh
    unfold sendCommit
    split
    · obtain ⟨a, t, -, k1, h1⟩ := tExchange_issues (s := s) f.dropLast h.quiet
      have q1 := k1.quiet h.quiet
      have k2 : Issued t (t.afterEvent (.setPowerMode c.tCommitMs .afterNextByte) t.dev t.draws) _ := Issued.event t _ _ _
      have h2 := event_quiet (.setPowerMode c.tCommitMs .afterNextByte) t.dev t.draws t q1
      generalize t.afterEvent (.setPowerMode c.tCommitMs .afterNextByte) t.dev t.draws = t2 at k2 h2
      have q2 := k2.quiet q1
      have k3 : Issued t2 (t2.afterEvent .startPowerDelivery t2.dev t2.draws) _ := Issued.event t2 _ _ _
      have h3 := event_quiet .startPowerDelivery t2.dev t2.draws t2 q2
      generalize t2.afterEvent .startPowerDelivery t2.dev t2.draws = t3 at k3 h3
      obtain ⟨u, k4, h4⟩ := tPutByte_issues (s := t3) (f.getLastD 0) (k3.quiet q2)
      have k := ((k1.trans k2).trans k3).trans k4
      obtain ⟨w, hw, hh⟩ := hsleep s u _ _ ms h k (by
        have x1 := hX.event _ (.exchange f.dropLast a) h.events (by simp)
        have x2 := hX.event _ (.setPowerMode c.tCommitMs .afterNextByte) x1 (by simp)
        have x3 := hX.event _ .startPowerDelivery x2 (by simp)
        have x4 := hX.event _ (.putByte (f.getLastD 0)) x3 (by simp)
        simpa using x4) (by simp)
      simp only [bind_assoc]
      rw [bind_ok h1, bind_ok (show tSetPowerMode c.tCommitMs t = .ok () t2 from h2),
        bind_ok (show tStartPowerDelivery t2 = .ok () t3 from h3), bind_ok h4]
      exact ⟨w, hw, hh⟩
    · obtain ⟨a, t, -, k, h1⟩ := tExchange_issues (s := s) f h.quiet
      obtain ⟨w, hw, hh⟩ := hsleep s t [] _ ms h k (hX.event _ _ h.events (by simp)) (fun x hx => hne f rfl (by simpa using (congrArg
        (fun e => match e with | .exchange o _ => o | _ => []) hx)))
      simp only [bind_assoc, pure_bind]
      rw [bind_ok h1]
      exact ⟨w, hw, hh⟩
  intro s h
  have hc := h.cfg
  subst hc
  have hbank : s.sp.bank = b := h.bank
  have hall := Triple.bind (R := fun _ => Hist s.cfg X Y (· = b)) (R' := fun _ => Hist s.cfg X Y (· = b)) (E := HistErr s.cfg X Y)
    (Triple.hphase .unknown) (fun _ => Triple.bind (hist_select hX) fun _ =>
      Triple.bind (hsend (frameCopySp (s.bank s.sp.bank) s.sp.ta s.sp.es mac) s.cfg.tCommitMs
        (by rw [hbank]; rfl) (by simp [frameCopySp])) fun _ =>
        Triple.bind (hist_poll hX (s.bank s.sp.bank) s.cfg.pollMax) fun _ => Triple.hphase .idle) s h
  simp only [bind_assoc] at hall
  exact hall

theorem hist_writeChunk {b : Nat} {sh : Byte} {tl : List Byte} (hX : Closed (sh :: tl) X) (hb : (c.bank b).opcCopySp ≠ sh)
    (ta : Nat) (d : List Byte) (check : Bool) :
    Triple (Hist c X Y fun _ => True) (writeChunk b ta d check) (fun _ => Hist c X Y fun _ => True) (HistErr c X Y) := by
  have h : ∀ mac : List Byte, Triple (Hist c X Y fun _ => True) (do
      stage b ta d
      confirm
      commit mac
      if check then verify b ta d else pure ()) (fun _ => Hist c X Y fun _ => True) (HistErr c X Y) := fun mac =>
    Triple.bind (hist_stage hX _ _ _) fun _ => Triple.bind (hist_confirm hX) fun _ =>
      Triple.bind ((hist_commit hX hb mac).imp (fun _ h => h) (fun _ _ h => h.any) fun _ _ _ h => h) fun _ =>
        Triple.branch (hist_verify hX _ _ _) (Triple.hpure _)
  exact Triple.from_get fun _ => Triple.branch (Triple.bind (hist_macFor hX _ _ _) h) (Triple.bind (Triple.hpure _) h)

theorem hist_writeRange {b : Nat} {sh : Byte} {tl : List Byte} (hX : Closed (sh :: tl) X) (hb : (c.bank b).opcCopySp ≠ sh)
    (r : Nat) (d : List Byte) (check : Bool) :
    Triple (Hist c X Y fun _ => True) (writeRange b r d check) (fun _ => Hist c X Y fun _ => True) (HistErr c X Y) := by
  have h : ∀ cs, Triple (Hist c X Y fun _ => True) (writeChunks b d check cs) (fun _ => Hist c X Y fun _ => True)
      (HistErr c X Y) := by
    intro cs
    induction cs with
    | nil => exact Triple.hpure _
    | cons ch rest ih => exact Triple.bind (hist_writeChunk hX hb _ _ _) fun _ => ih
  exact Triple.from_get fun _ => Triple.bind (hist_lockCheckPages hX _ _ _) fun _ => h _

theorem hist_shaStage (hX : Closed out X) (b p : Nat) (sp15 : List Byte) :
    Triple (Hist c X Y fun _ => True) (shaStage b p sp15) (fun _ => Hist c X Y (· = b)) (HistErr c X Y) :=
  Triple.from_get fun _ => Triple.bind (hist_stage hX _ _ _) fun _ => Triple.bind (hist_confirm hX) fun _ =>
    Triple.bind (Triple.hphase _) fun _ => hist_select hX

/-- `Frame_Sha` begins the device SHA step, however it ends. -/
theorem hist_frameSha (k : Bank) (a : Nat) (fn : Byte) :
    Triple (Hist c X Y B) (frameSha k a fn) (fun _ => Hist c (After X (frameHead k.opcSha a ++ [fn]) c.tShaMs) Y B)
      (HistErr c (After X (frameHead k.opcSha a ++ [fn]) c.tShaMs) Y) := by
  intro s h
  have hc := h.cfg
  obtain ⟨x, t, -, k1, h1⟩ := tExchange_issues (s := s) ([k.opcSha] ++ wireAddr a ++ [fn]) h.quiet
  obtain ⟨u, k2, h2⟩ := tSleep_issues (s := t) s.cfg.tShaMs (k1.quiet h.quiet)
  have hu : Hist c (After X (frameHead k.opcSha a ++ [fn]) c.tShaMs) Y B u := by
    refine ⟨k2.quiet (k1.quiet h.quiet), (k2.cfg.trans k1.cfg).trans hc, ⟨s.events, x, h.events, ?_⟩, ?_, ?_⟩
    · rw [k2.exactly, k1.exactly, frameHead_eq, ← hc, List.append_assoc]; exact List.prefix_refl _
    · rw [k2.auth, k2.hostSecret, k1.auth, k1.hostSecret]; exact h.sec
    · rw [k2.sp, k1.sp]; exact h.bank
  unfold frameSha
  rw [get_bind, bind_ok h1, bind_ok h2]
  exact Triple.bind (Triple.emits (closed_after [] X _ _) emits_tGetByte) (fun v => Triple.hensure (isAlternating v) .sha) u hu

/-- A state that only the secret part has changed in. -/
theorem Triple.hsecret (Y' : AuthState → List Byte → Prop) (v : List Byte) (h : ∀ a, Y' a v) :
    Triple (Hist c X Y B) (Machine.setHostSecret v) (fun _ => Hist c X Y' B) (HistErr c X Y') :=
  fun _ k => ⟨k.quiet, k.cfg, k.events, h _, k.bank⟩

theorem hist_slotCopy {b : Nat} {sh : Byte} {tl : List Byte} (hX : Closed (sh :: tl) X) (hb : (c.bank b).opcCopySp ≠ sh)
    (slot : Nat) : Triple (Hist c X Y B) (slotCopy b slot) (fun _ => Hist c X Y (· = b)) (HistErr c X Y) :=
  Triple.from_get fun _ => Triple.bind (hist_stage hX _ _ _) fun _ => Triple.bind (hist_confirm hX) fun _ => hist_commit hX hb _

end Hist

end Sys2Proof.Machine
end

