-- ==== Sys2Proof/Laws/Step.lean ====
section
/-! SUPPORT. What a host access changes, idle or busy; what a soft reset leaves; decoded commands are well-formed. -/

namespace Sys2Proof.Machine

/-- What a host access that is done keeps. -/
structure PortKeeps (s t : State) : Prop where
  cfg : t.cfg = s.cfg
  busy : t.busy = s.busy
  host : t.host = s.host
  dev : t.dev = s.dev
  events : t.events = s.events
  hostSecret : t.hostSecret = s.hostSecret
  data : t.data = s.data ∨ ∃ i w v, i < 0x100 ∧ i % Width.bytes w = 0 ∧
    t.data = Memory.writeRun none s.data i (leBytes v w.bytes)
  wverify : t.wverify = s.wverify ∨ ∃ v, t.wverify = v &&& wverifyMask s.cfg
  auth : t.auth = s.auth ∨ t.auth = .noSecret
  session : (t.speedVerified = s.speedVerified ∧ t.resumeEligible = s.resumeEligible) ∨
    (t.speedVerified = false ∧ t.resumeEligible = false)
  cont : t.cont = s.cont ∨ t.cont.valid = false
  sp : t.sp = s.sp ∨ t.sp.phase = .idle

theorem PortKeeps.refl (s : State) : PortKeeps s s :=
  ⟨rfl, rfl, rfl, rfl, rfl, rfl, .inl rfl, .inl rfl, .inl rfl, .inl ⟨rfl, rfl⟩, .inl rfl, .inl rfl⟩

/-- What a host access may do, apart from stopping the machine. -/
def PortOutcome (s : State) : PortEffect → Prop
  | .done t => PortKeeps s t
  | .start _ t => t = s ∧ s.busy = false
  | .reset t => t = s
  | .fault _ => True
  | .refuse _ => True

theorem portKeeps_answer (s : State) (v : Word) : PortKeeps s (s.answer v) :=
  ⟨rfl, rfl, rfl, rfl, rfl, rfl, .inl rfl, .inl rfl, .inl rfl, .inl ⟨rfl, rfl⟩, .inl rfl, .inl rfl⟩

theorem portKeeps_answerFree (s : State) (w : Width) : PortKeeps s (s.answerFree w) :=
  ⟨rfl, rfl, rfl, rfl, rfl, rfl, .inl rfl, .inl rfl, .inl rfl, .inl ⟨rfl, rfl⟩, .inl rfl, .inl rfl⟩

theorem regWrite_outcome (s : State) (off : Nat) (v : Word) : PortOutcome s (regWrite s off v) := by
  have hrom : ∀ lo hi rv, PortKeeps s { deviceChange s with romLo := lo, romHi := hi, romValid := rv } := fun _ _ _ =>
    ⟨rfl, rfl, rfl, rfl, rfl, rfl, .inl rfl, .inl rfl, .inr rfl, .inr ⟨rfl, rfl⟩, .inr rfl, .inr rfl⟩
  have harg : ∀ a b c d, PortKeeps s { s with arg0 := a, arg1 := b, arg2 := c, arg3 := d } := fun _ _ _ _ =>
    ⟨rfl, rfl, rfl, rfl, rfl, rfl, .inl rfl, .inl rfl, .inl rfl, .inl ⟨rfl, rfl⟩, .inl rfl, .inl rfl⟩
  unfold regWrite
  split
  · split
    · rfl
    · exact PortKeeps.refl s
  · split
    · exact PortKeeps.refl s
    · rename_i hb
      split
      · exact ⟨rfl, by simpa using hb⟩
      · exact harg v _ _ _
      · exact harg _ v _ _
      · exact harg _ _ v _
      · exact harg _ _ _ v
      · exact ⟨rfl, rfl, rfl, rfl, rfl, rfl, .inl rfl, .inr ⟨v, rfl⟩, .inl rfl, .inl ⟨rfl, rfl⟩, .inl rfl, .inl rfl⟩
      · exact hrom v s.romHi false
      · exact hrom s.romLo v true
      · exact PortKeeps.refl s

theorem regAccess_outcome (a : HostAccess) (off : Nat) (s : State) : PortOutcome s (regAccess a off s) := by
  cases a with
  | read o w =>
    simp only [regAccess]
    split
    · exact portKeeps_answer _ _
    · trivial
  | write o w v =>
    simp only [regAccess]
    split
    · exact regWrite_outcome _ _ _
    · trivial

theorem dataAccess_outcome (a : HostAccess) (i : Nat) (s : State) (hi : i < 0x100) : PortOutcome s (dataAccess a i s) := by
  cases a with
  | read o w =>
    simp only [dataAccess]
    by_cases h : i % w.bytes = 0
    · rw [if_pos h]
      cases s.busy
      · exact portKeeps_answer _ _
      · exact portKeeps_answerFree _ _
    · rw [if_neg h]; trivial
  | write o w v =>
    simp only [dataAccess]
    by_cases h : i % w.bytes = 0
    · rw [if_pos h]
      cases s.busy
      · exact ⟨rfl, rfl, rfl, rfl, rfl, rfl, .inr ⟨i, w, v, hi, h, rfl⟩, .inl rfl, .inl rfl,
            .inl ⟨rfl, rfl⟩, .inl rfl, .inl rfl⟩
      · exact PortKeeps.refl s
    · rw [if_neg h]; trivial

theorem portAccess_outcome (a : HostAccess) (off : Nat) (s : State) (h : off < 0x200) : PortOutcome s (portAccess a off s) := by
  unfold portAccess
  split
  · exact regAccess_outcome a off s
  · exact dataAccess_outcome a _ s (by omega)

theorem hostPort_outcome (a : HostAccess) (s : State) : PortOutcome s (hostPort a s) := by
  unfold hostPort
  split
  · rename_i h
    exact portAccess_outcome a _ s h
  · unfold outsideAccess
    split
    · exact portAccess_outcome a _ s (Nat.mod_lt _ (by omega))
    · trivial
    · cases a
      · exact portKeeps_answer _ _
      · exact PortKeeps.refl s
    · cases a
      · exact portKeeps_answerFree _ _
      · exact PortKeeps.refl s

/-! Decoded commands. -/

theorem bankForm_ok {imm used : HWord} {i j : Instr} (h : bankForm imm used i = .ok j) : j = i ∧ imm &&& ~~~used = 0 := by
  unfold bankForm at h
  split at h
  · rename_i hz; cases h; exact ⟨rfl, hz⟩
  · cases h

theorem crcForm_ok {bank : Byte} {imm used : HWord} {i j : Instr} (h : crcForm bank imm used i = .ok j) :
    j = i ∧ bank = 0 ∧ imm &&& ~~~used = 0 := by
  unfold crcForm at h
  split at h
  · rename_i hz
    obtain ⟨h1, h2⟩ := bankForm_ok h
    exact ⟨h1, hz, h2⟩
  · cases h

theorem immSlot_lt (imm : HWord) : immSlot imm < 8 := (imm.extractLsb' 0 3).isLt

/-- A decoded command fits its word. -/
theorem decode_wf {w : Word} {i : Instr} (h : decode w = .ok i) : i.wf = true := by
  unfold decode decodeFields at h
  have hb := (fieldBank w).isLt
  split at h
  all_goals first
    | cases h
    | (first | obtain ⟨rfl, -⟩ := crcForm_ok h | obtain ⟨rfl, -⟩ := bankForm_ok h)
      simp [Instr.wf, bankFits, slotFits, immSlot_lt]
      try omega

/-- An ILLEGAL word is a check that fails (60_exceptions.md R310). -/
theorem execIllegal_cases (s : State) : CrcCases s (execIllegal s) := crcCases_of fun _ => .inl ⟨.illegal, rfl⟩

end Sys2Proof.Machine
end

