-- ==== Sys2Proof/Tests/Slice0.lean ====
section
/-! SUPPORT. The model's own tests: what the well-formedness checks refuse, words written out from the encoding tables, one
step of each command with the values of spec/95_test_vectors.md (each test names its vector), and for every obligation with
hypotheses a state that meets them. -/

namespace Sys2Proof.Tests

open Sys2Proof Sys2Proof.Machine

-- one thread for all tests: each thread of the checker takes its own stack
set_option Elab.async false

/-! Helpers. -/

/-- The state S0 of 95_test_vectors.md section 1.4, with DATA bytes `d` from 0 on and a device. -/
def s0 (d : List Byte) (dev : Device) : State :=
  { State.powerOn refConfig dev with
    romLo := 0x33221133, romHi := 0x1B665544, romValid := true, data := Memory.writeRun none [] 0 d }

def withArgs (s : State) (a0 a1 a2 : Word) : State := { s with arg0 := a0, arg1 := a1, arg2 := a2 }

/-- S0 on the reference device. -/
def s0r (d : List Byte) (a0 a1 a2 : Word) (r : Rdm) : State := withArgs (s0 d (.reference r)) a0 a1 a2

/-- S0 on an oracle. -/
def s0o (d : List Byte) (a0 a1 a2 : Word) (o : Oracle) : State := withArgs (s0 d (.oracle o)) a0 a1 a2

/-- The reference device with `bytes` at `a` of its memory. -/
def rdmWith (a : Nat) (bytes : List Byte) : Rdm := { Rdm.initial with mem := Memory.writeRun (some 0xFF) [] a bytes }

/-- The session already verified. -/
def verified (s : State) : State := { s with speedVerified := true, resumeEligible := true }

/-- The step that writes word `w` to CMD ends with this STATUS and RESULT, and `p` holds of the next state. -/
def steps (w : Nat) (s : State) (status result : Word) (p : State → Bool) : Bool :=
  match step (s.withFetchWord 32 w) with
  | .next t => statusWord t == status && t.result == result && p t
  | .fault _ => false
  | .refused _ => false

def data (t : State) (a : Nat) (d : List Byte) : Bool := dataRun t a d.length == d

/-- The reference device's memory holds `d` at `a`. -/
def mem (t : State) (a : Nat) (d : List Byte) : Bool :=
  match t.dev with
  | .oracle _ => false
  | .reference r => r.memRun a d.length == d

def rom0 : List Byte := [0x33, 0x11, 0x22, 0x33, 0x44, 0x55, 0x66, 0x1B]

def sel : Event := .select rom0 true true

/-- The last event is this exchange. -/
def lastEx (t : State) (out answer : List Byte) : Bool := t.events.getLast? == some (.exchange out answer)

def digits : List Byte := [0x31, 0x32, 0x33, 0x34, 0x35, 0x36, 0x37, 0x38, 0x39]

/-! Well-formedness: each check refuses an ill-formed term. -/

/-- A bank id of 256 fits no command word (30_encoding.md R120). -/
theorem test_wf_bank : [Instr.readPage 256 false false, .readBytes 256 false, .write 256, .readPagePacket 256 false,
    .writePagePacket 256, .spStage 256, .spConfirm 256, .spCommit 256, .lockPage 256, .isPageLocked 256, .redirectPage 256,
    .getRedirectedPage 256, .lockRedirectPage 256, .isRedirectPageLocked 256, .installSecret 256 0, .bindSecret 256 0 true,
    .computeNextSecret 256, .authRead 256].all (fun i => !i.wf) = true := by decide

/-- A slot of 8 fits no `imm[2:0]` (R121). -/
theorem test_wf_slot : [Instr.installSecret 5 8, .bindSecret 5 8 false].all (fun i => !i.wf) = true := by decide

/-- The largest operands are well-formed. -/
theorem test_wf_largest : [Instr.bindSecret 255 7 true, .installSecret 255 7, .readPage 255 true true].all Instr.wf = true := by
  decide

/-- The reference configuration with bank `i` changed. -/
def bankWith (i : Nat) (f : Bank → Bank) : Config := { refConfig with banks := refConfig.banks.set i (f (refConfig.bank i)) }

/-- The reference configuration is well-formed (95_test_vectors.md section 1.2). -/
theorem test_config_reference : refConfig.wf = true := by decide +kernel

/-- R7, R8: page_length is at least 1. -/
theorem test_config_ranges : wfRanges (bankWith 0 fun k => { k with pageLength := 0 }) = false ∧ Config.wf (bankWith 0 fun k => { k with pageLength := 0 }) = false := by
  decide +kernel

/-- WF1: bank 7 ends at 0x0460. -/
theorem test_config_wf1 : wf1 ({ refConfig with memSize := 0x045F }) = false ∧ Config.wf ({ refConfig with memSize := 0x045F }) = false := by
  decide +kernel

/-- WF2. -/
theorem test_config_wf2 : wf2 (bankWith 0 fun k => { k with crcBytes := 3 }) = false ∧ Config.wf (bankWith 0 fun k => { k with crcBytes := 3 }) = false := by
  decide +kernel

/-- WF3. -/
theorem test_config_wf3 : wf3 (bankWith 0 fun k => { k with base := 1 }) = false ∧ Config.wf (bankWith 0 fun k => { k with base := 1 }) = false := by
  decide +kernel

/-- WF4: a lock offset that is no multiple of 8. -/
theorem test_config_wf4 : wf4 (bankWith 1 fun k => { k with lockOffset := 4 }) = false ∧ Config.wf (bankWith 1 fun k => { k with lockOffset := 4 }) = false := by
  decide +kernel

/-- WF5: a redirect bank that is general purpose. -/
theorem test_config_wf5 : wf5 (bankWith 1 fun k => { k with redirBank := some 0 }) = false ∧ Config.wf (bankWith 1 fun k => { k with redirBank := some 0 }) = false := by
  decide +kernel

/-- WF6. -/
theorem test_config_wf6 : wf6 (bankWith 5 fun k => { k with crcBytes := 1 }) = false ∧ Config.wf (bankWith 5 fun k => { k with crcBytes := 1 }) = false := by
  decide +kernel

/-- WF7. -/
theorem test_config_wf7 : wf7 (bankWith 7 fun k => { k with rawRead := false, readOnly := false }) = false ∧ Config.wf (bankWith 7 fun k => { k with rawRead := false, readOnly := false }) = false := by
  decide +kernel

/-- WF8: the challenge ends at 33. -/
theorem test_config_wf8 : wf8 ({ refConfig with chalOffset := 30 }) = false ∧ Config.wf ({ refConfig with chalOffset := 30 }) = false := by
  decide +kernel

/-- WF9: 128 + 109 + 20 is 257. -/
theorem test_config_wf9 : wf9 (bankWith 0 fun k => { k with pageLength := 128, extraInfoLength := 109 }) = false ∧ Config.wf (bankWith 0 fun k => { k with pageLength := 128, extraInfoLength := 109 }) = false := by
  decide +kernel

/-- WF10. -/
theorem test_config_wf10 : wf10 (bankWith 0 fun k => { k with opcSha := 0xF0 }) = false ∧ Config.wf (bankWith 0 fun k => { k with opcSha := 0xF0 }) = false := by
  decide +kernel

/-- WF11: the secret memory overlaps bank 6. -/
theorem test_config_wf11 : wf11 ({ refConfig with secretBase := 0x0380 }) = false ∧ Config.wf ({ refConfig with secretBase := 0x0380 }) = false := by
  decide +kernel

/-- 45_auth.md R262. -/
theorem test_config_defaults : wfDefaults ({ refConfig with chalLen := 4 }) = false ∧ Config.wf ({ refConfig with chalLen := 4 }) = false := by
  decide +kernel

/-! Words written out from the encoding: OPC, BANK, IMM (30_encoding.md R120, R121, R123). -/

theorem test_decode_crc8Seed : decodeTableWord 32 0b00000001000000000000000001011010 = some (.crc8Seed 0x5A) := by decide

theorem test_decode_crc8Byte : decodeTableWord 32 0b00000010000000000000000000110001 = some (.crc8Byte 0x31) := by decide

theorem test_decode_crc8Block : decodeTableWord 32 0b00000011000000000000000000000000 = some (.crc8Block) := by decide

theorem test_decode_crc8Check : decodeTableWord 32 0b00000100000000000000000000000000 = some (.crc8Check) := by decide

theorem test_decode_crc16Seed : decodeTableWord 32 0b00000101000000001010000000000001 = some (.crc16Seed 0xA001) := by decide

theorem test_decode_crc16Byte : decodeTableWord 32 0b00000110000000000000000010000001 = some (.crc16Byte 0x81) := by decide

theorem test_decode_crc16Block : decodeTableWord 32 0b00000111000000000000000000000000 = some (.crc16Block) := by decide

theorem test_decode_crc16Check : decodeTableWord 32 0b00001000000000000000000000000000 = some (.crc16Check) := by decide

theorem test_decode_readPage : decodeTableWord 32 0b00010000000000010000000000000010 = some (.readPage 1 false true) := by decide

theorem test_decode_readBytes : decodeTableWord 32 0b00010001000000110000000000000001 = some (.readBytes 3 true) := by decide

theorem test_decode_write : decodeTableWord 32 0b00010010100000000000000000000000 = some (.write 128) := by decide

theorem test_decode_readPagePacket : decodeTableWord 32 0b00010011000000100000000000000001 = some (.readPagePacket 2 true) := by decide

theorem test_decode_writePagePacket : decodeTableWord 32 0b00010100000001110000000000000000 = some (.writePagePacket 7) := by decide

theorem test_decode_spStage : decodeTableWord 32 0b00100000000000010000000000000000 = some (.spStage 1) := by decide

theorem test_decode_spConfirm : decodeTableWord 32 0b00100001000000100000000000000000 = some (.spConfirm 2) := by decide

theorem test_decode_spCommit : decodeTableWord 32 0b00100010000001000000000000000000 = some (.spCommit 4) := by decide

theorem test_decode_lockPage : decodeTableWord 32 0b00110000000000010000000000000000 = some (.lockPage 1) := by decide

theorem test_decode_isPageLocked : decodeTableWord 32 0b00110001000000010000000000000000 = some (.isPageLocked 1) := by decide

theorem test_decode_redirectPage : decodeTableWord 32 0b00110010000000010000000000000000 = some (.redirectPage 1) := by decide

theorem test_decode_getRedirectedPage : decodeTableWord 32 0b00110011000000010000000000000000 = some (.getRedirectedPage 1) := by decide

theorem test_decode_lockRedirectPage : decodeTableWord 32 0b00110100000000010000000000000000 = some (.lockRedirectPage 1) := by decide

theorem test_decode_isRedirectPageLocked : decodeTableWord 32 0b00110101000000010000000000000000 = some (.isRedirectPageLocked 1) := by decide

theorem test_decode_installSecret : decodeTableWord 32 0b01000000000001010000000000000110 = some (.installSecret 5 6) := by decide

theorem test_decode_bindSecret : decodeTableWord 32 0b01000001000001010000000000001001 = some (.bindSecret 5 1 true) := by decide

theorem test_decode_computeNextSecret : decodeTableWord 32 0b01000010000001010000000000000000 = some (.computeNextSecret 5) := by decide

theorem test_decode_authRead : decodeTableWord 32 0b01000011000001010000000000000000 = some (.authRead 5) := by decide

/-- Words that are ILLEGAL: an opcode outside the map, a must-be-zero bit, a CRC command with a bank (R124, R125). -/
theorem test_decode_illegal : [0x00000000, 0x09000000, 0x44000000, 0xFF000000, 0x01000100, 0x01010000, 0x05FF1234, 0x10000004,
    0x11000002, 0x13000002, 0x20000001, 0x3001000F, 0x40000008, 0x41000010].all
    (fun w => (decodeTableWord 32 w).isNone) = true := by decide

/-- Fewer than four bytes are no word. -/
theorem test_decode_truncated : decodeBytes [0x01, 0x02, 0x03] = .error .truncated := by decide

/-! The host port. -/

/-- The port's effect is a next state with property `p`. -/
def ports (a : HostAccess) (s : State) (p : State → Bool) : Bool :=
  match hostPort a s with
  | .done t => p t
  | .start _ _ => false
  | .reset _ => false
  | .fault _ => false
  | .refuse _ => false

/-- DATA is little-endian (20_memory.md R73, R80). -/
theorem test_port_data : ports (.write 0x100 .b32 0x04030201) (s0 [] (.oracle ⟨[], [], []⟩)) (fun t =>
    data t 0 [1, 2, 3, 4] && ports (.read 0x102 .b16) t (fun u => u.answers == [0x0403])) = true := by decide +kernel

/-- 3.10.4: writing ROM_HI ends the stream and the secret and sets `rom_valid`: STATUS 0x82. -/
theorem test_port_rom : ports (.write 0x02C .b32 0x1B665544)
    { verified (s0 [] (.oracle ⟨[], [], []⟩)) with done := true, auth := .secretBound, cont := ⟨true, 0, .page, 32⟩ }
    (fun t => statusWord t == 0x82) = true := by decide +kernel

/-- A byte access to a register is refused (20_memory.md R73). -/
theorem test_port_narrow : hostPort (.read 0x004 .b8) State.reset = .refuse (.undefinedHostAccess 0x004) := by decide +kernel

/-! One step of each command, with the values of 95_test_vectors.md. -/

/-- 3.8: word 0 from S0. -/
theorem test_illegal :
    steps 0x00000000 (s0r [] 0 0 0 Rdm.initial) 0x9A 35 (fun t => t.events == []) = true := by
  decide +kernel

/-- 3.1.1 -/
theorem test_crc8Seed :
    steps 0x0100005A (s0r [] 0 0 0 Rdm.initial) 0x82 0x5A (fun t => t.crc8 == 0x5A) = true := by
  decide +kernel

/-- 3.1.2 -/
theorem test_crc8Byte :
    steps 0x02000001 (s0r [] 0 0 0 Rdm.initial) 0x82 0x5E (fun t => t.crc8 == 0x5E) = true := by
  decide +kernel

/-- 3.1.3 -/
theorem test_crc8Block :
    steps 0x03000000 (s0r digits 0 9 0 Rdm.initial) 0x82 0xA1 (fun t => t.crc8 == 0xA1) = true := by
  decide +kernel

/-- 3.1.9: the bound sum does not wrap. -/
theorem test_crc8Block_bound :
    steps 0x03000000 { s0r [] 0xFFFFFFFF 2 0 Rdm.initial with crc8 := 0x5A } 0x8A 24 (fun t => t.crc8 == 0x5A) = true := by
  decide +kernel

/-- 3.1.6 -/
theorem test_crc8Check :
    steps 0x04000000 (s0r [] 0 0 0 Rdm.initial) 0x82 1 (fun t => t.crc8 == 0x00) = true := by
  decide +kernel

/-- 3.1.5 -/
theorem test_crc8Check_no :
    steps 0x04000000 { s0r [] 0 0 0 Rdm.initial with crc8 := 0x5E } 0x82 0 (fun t => t.crc8 == 0x5E) = true := by
  decide +kernel

/-- 3.1.10 -/
theorem test_crc16Seed :
    steps 0x05000002 (s0r [] 0 0 0 Rdm.initial) 0x82 2 (fun t => t.crc16 == 0x0002) = true := by
  decide +kernel

/-- 3.1.12 -/
theorem test_crc16Byte :
    steps 0x06000031 (s0r [] 0 0 0 Rdm.initial) 0x82 0xD4C1 (fun t => t.crc16 == 0xD4C1) = true := by
  decide +kernel

/-- 3.1.13 -/
theorem test_crc16Block :
    steps 0x07000000 (s0r digits 0 9 0 Rdm.initial) 0x82 0xBB3D (fun t => t.crc16 == 0xBB3D) = true := by
  decide +kernel

/-- 3.1.18 -/
theorem test_crc16Block_bound :
    steps 0x07000000 (s0r [] 0 257 0 Rdm.initial) 0x8A 24 (fun t => t.crc16 == 0x0000) = true := by
  decide +kernel

/-- 3.1.17 -/
theorem test_crc16Check :
    steps 0x08000000 { s0r [] 0 0 0 Rdm.initial with crc16 := 0xB001 } 0x82 1 (fun t => t.crc16 == 0xB001) = true := by
  decide +kernel

/-- 3.2.1 -/
theorem test_readPage :
    steps 0x10000000 (s0r [] 1 0 0 Rdm.initial) 0x10E2 32 (fun t =>
    data t 0 (ff 32) && t.cont == ⟨true, 0, .page, 64⟩ && t.events == [.reset, .select rom0 false true,
      .exchange ([0xA5, 0x20, 0x00] ++ ff 34) ([0xA5, 0x20, 0x00] ++ ff 32 ++ [0x4A, 0x28])]) = true := by
  decide +kernel

/-- 3.2.7: one bit of the payload flipped. -/
theorem test_readPage_flip :
    steps 0x10000000 (s0r (rep 0 32) 0 0 0 { Rdm.initial with flip := some (10, 1) }) 0x86 2 (fun t =>
    data t 0 (rep 0 32) && lastEx t ([0xA5, 0x00, 0x00] ++ ff 34) ([0xA5, 0x00, 0x00] ++ ff 7 ++ [0xFE] ++ ff 24 ++ [0x47, 0x48])) = true := by
  decide +kernel

/-- 3.2.6 -/
theorem test_readBytes :
    steps 0x11000000 (s0r [] 30 4 0 (rdmWith 0x1E [1, 2, 3, 4])) 0x10E2 4 (fun t =>
    data t 0 [1, 2, 3, 4] && t.cont == ⟨true, 0, .raw, 34⟩ && t.events.length == 3 &&
    lastEx t ([0xF0, 0x1E, 0x00] ++ ff 4) [0xF0, 0x1E, 0x00, 1, 2, 3, 4]) = true := by
  decide +kernel

/-- 3.3.1: two chunks, each verified. -/
theorem test_write :
    steps 0x12000000 (s0r [0xD0, 0xD1, 0xD2, 0xD3] 30 4 0 Rdm.initial) 0xE2 4 (fun t =>
    mem t 0x1E [0xD0, 0xD1, 0xD2, 0xD3] && t.events.length == 21 &&
    lastEx t ([0xA5, 0x20, 0x00] ++ ff 34) ([0xA5, 0x20, 0x00, 0xD2, 0xD3] ++ ff 30 ++ [0x9F, 0xC0])) = true := by
  decide +kernel

/-- The secrets of 3.7.1, 3.7.2 and 3.7.5. -/
def sec1 : List Byte := [0x45, 0xF1, 0xD2, 0xF6, 0x45, 0x20, 0xA3, 0xF4]
def sec2 : List Byte := [0xCD, 0x11, 0x5E, 0xE1, 0x7C, 0xEC, 0xF9, 0x40]
def sec3 : List Byte := [0x1C, 0x1D, 0xB1, 0x78, 0x62, 0xAE, 0x84, 0xEF]

/-- The core and the device hold the secret `v`. -/
def holding (v : List Byte) (a : AuthState) (s : State) : State := { verified s with hostSecret := v, auth := a }

/-- The reference device with page 0 of bank 5 wiped and the current secret `v`. -/
def rdmSecret (v : List Byte) : Rdm := { rdmWith 0x300 (rep 0 32) with dsec := v }

/-- 3.7.4 and program 4.3 step 4: the commit frame carries the MAC. -/
theorem test_write_mac :
    steps 0x12060000 (holding sec2 .secretActive (s0r [0xDE, 0xAD, 0xBE, 0xEF] 0 4 0 (rdmSecret sec2))) 0x3E2 4 (fun t =>
    mem t 0x380 [0xDE, 0xAD, 0xBE, 0xEF, 0xFF] && t.events.length == 12 &&
    (t.events.getD 7 .reset == .exchange ([0x55, 0x80, 0x03, 0x03] ++ [0xE9, 0xAA, 0x6D, 0xBA, 0x6D, 0x06, 0xA9, 0x38, 0xAD, 0x0C,
      0xBF, 0x63, 0xA5, 0x41, 0xA4, 0xF1, 0x6C, 0x2D, 0xF0, 0x4D]) ([0x55, 0x80, 0x03, 0x03] ++ [0xE9, 0xAA, 0x6D, 0xBA, 0x6D, 0x06,
      0xA9, 0x38, 0xAD, 0x0C, 0xBF, 0x63, 0xA5, 0x41, 0xA4, 0xF1, 0x6C, 0x2D, 0xF0, 0x4D]))) = true := by
  decide +kernel

/-- `Pkt(2, "HELLO")` (95_test_vectors.md section 2.3). -/
def hello : List Byte := [0x05, 0x48, 0x45, 0x4C, 0x4C, 0x4F, 0xBF, 0xA9]

/-- 3.4.2 -/
theorem test_readPagePacket :
    steps 0x13000000 (verified (s0r [] 2 0x10 0 (rdmWith 0x40 hello))) 0x10E2 5 (fun t =>
    data t 0x10 [0x48, 0x45, 0x4C, 0x4C, 0x4F] && t.events == [sel,
      .exchange ([0xA5, 0x40, 0x00] ++ ff 34) ([0xA5, 0x40, 0x00] ++ hello ++ ff 24 ++ [0x0B, 0xA1])]) = true := by
  decide +kernel

/-- 3.4.3: the length byte 30. -/
theorem test_readPagePacket_length :
    steps 0x13000000 (verified (s0r [] 2 0x20 0 (rdmWith 0x40 (0x1E :: hello.drop 1)))) 0x86 13 (fun t =>
    lastEx t ([0xA5, 0x40, 0x00] ++ ff 34) ([0xA5, 0x40, 0x00, 0x1E] ++ hello.drop 1 ++ ff 24 ++ [0x07, 0xB5])) = true := by
  decide +kernel

/-- 3.4.1 -/
theorem test_writePagePacket :
    steps 0x14000000 (s0r [0x48, 0x45, 0x4C, 0x4C, 0x4F] 2 5 0 Rdm.initial) 0xE2 5 (fun t =>
    mem t 0x40 (hello ++ [0xFF]) && t.events.length == 11 && (t.events.getD 2 .reset == .exchange ([0x0F, 0x40, 0x00] ++ hello ++ ff 2)
      ([0x0F, 0x40, 0x00] ++ hello ++ [0x4D, 0x56]))) = true := by
  decide +kernel

/-- 3.5.1 -/
theorem test_spStage :
    steps 0x20000000 (s0r [0xD0, 0xD1, 0, 0] 30 4 0 Rdm.initial) 0x4E2 2 (fun t =>
    t.sp == ⟨.staged, 0, 0x001E, 0x1F, [0xD0, 0xD1]⟩ &&
    lastEx t [0x0F, 0x1E, 0x00, 0xD0, 0xD1, 0xFF, 0xFF] [0x0F, 0x1E, 0x00, 0xD0, 0xD1, 0x30, 0x4A]) = true := by
  decide +kernel

/-- The core and the device after 3.5.1. -/
def staged : State :=
  { verified (s0r [0xD0, 0xD1] 0x40 0 0
      { Rdm.initial with spBuf := [(30, 0xD0), (31, 0xD1)], spTa := 0x001E, spEs := 0x1F, spValid := true }) with
    sp := ⟨.staged, 0, 0x001E, 0x1F, [0xD0, 0xD1]⟩ }

/-- The core after 3.5.2. -/
def confirmed : State := { staged with sp := ⟨.confirmed, 0, 0x001E, 0x1F, [0xD0, 0xD1]⟩ }

/-- 3.5.2 -/
theorem test_spConfirm :
    steps 0x21000000 staged 0x8E2 0x1F (fun t =>
    data t 0x40 [0x1E, 0x00, 0x1F, 0xD0, 0xD1] &&
    t.events == [sel, .exchange (0xAA :: ff 7) [0xAA, 0x1E, 0x00, 0x1F, 0xD0, 0xD1, 0xE3, 0xAD]]) = true := by
  decide +kernel

/-- 3.5.3 -/
theorem test_spCommit :
    steps 0x22000000 confirmed 0xE2 2 (fun t =>
    mem t 0x1C [0xFF, 0xFF, 0xD0, 0xD1, 0xFF] &&
    t.events == [sel, .exchange [0x55, 0x1E, 0x00, 0x1F] [0x55, 0x1E, 0x00, 0x1F], .sleep refConfig.tCommitMs, .getByte 0xAA]) = true := by
  decide +kernel

/-- 3.5.12: power delivery is armed before the last byte. -/
theorem test_spCommit_power :
    steps 0x22000000 { confirmed with cfg := { refConfig with commitPower := true } } 0xE2 2 (fun t =>
    mem t 0x1E [0xD0, 0xD1] && t.events == [sel, .exchange [0x55, 0x1E, 0x00] [0x55, 0x1E, 0x00],
      .setPowerMode refConfig.tCommitMs .afterNextByte, .startPowerDelivery, .putByte 0x1F, .sleep refConfig.tCommitMs,
      .getByte 0xAA]) = true := by
  decide +kernel

/-- 3.6.1 -/
theorem test_lockPage :
    steps 0x30010000 (s0r [] 3 0 0 Rdm.initial) 0xE2 1 (fun t =>
    mem t 0x200 [0xF7, 0xFF] && t.events.length == 11 && lastEx t ([0xA5, 0x00, 0x02] ++ ff 9) ([0xA5, 0x00, 0x02, 0xF7] ++ ff 7 ++ [0xAC])) = true := by
  decide +kernel

/-- 3.6.2 -/
theorem test_isPageLocked :
    steps 0x31010000 (verified (s0r [] 3 0 0 (rdmWith 0x200 [0xF7]))) 0xE2 1 (fun t =>
    t.events == [sel, .exchange ([0xA5, 0x00, 0x02] ++ ff 9) ([0xA5, 0x00, 0x02, 0xF7] ++ ff 7 ++ [0xAC])]) = true := by
  decide +kernel

/-- 3.6.3 -/
theorem test_isPageLocked_no :
    steps 0x31010000 (verified (s0r [] 4 0 0 (rdmWith 0x200 [0xF7]))) 0xE2 0 (fun t => t.events.length == 2) = true := by
  decide +kernel

/-- 3.6.5 -/
theorem test_redirectPage :
    steps 0x32010000 (verified (s0r [] 2 5 0 Rdm.initial)) 0xE2 5 (fun t =>
    mem t 0x20A [0xFA] && t.events.length == 12 &&
    lastEx t ([0xA5, 0x08, 0x02] ++ ff 9) ([0xA5, 0x08, 0x02, 0xFF, 0xFF, 0xFA] ++ ff 5 ++ [0x4B])) = true := by
  decide +kernel

/-- 3.6.11 -/
theorem test_redirectPage_frozen :
    steps 0x32010000 (verified (s0r [] 2 5 0 (rdmWith 0x210 [0xFB]))) 0xEA 28 (fun t =>
    t.events == [sel, .exchange ([0xA5, 0x10, 0x02] ++ ff 9) ([0xA5, 0x10, 0x02, 0xFB] ++ ff 7 ++ [0xDF])]) = true := by
  decide +kernel

/-- 3.6.6 -/
theorem test_getRedirectedPage :
    steps 0x33010000 (verified (s0r [] 2 0 0 (rdmWith 0x20A [0xFA]))) 0xE2 5 (fun t =>
    lastEx t ([0xA5, 0x08, 0x02] ++ ff 9) ([0xA5, 0x08, 0x02, 0xFF, 0xFF, 0xFA] ++ ff 5 ++ [0x4B])) = true := by
  decide +kernel

/-- 3.6.4 -/
theorem test_getRedirectedPage_none :
    steps 0x33010000 (verified (s0r [] 2 0 0 Rdm.initial)) 0xE2 0xFFFFFFFF (fun t => t.events.length == 2) = true := by
  decide +kernel

/-- 3.6.9 -/
theorem test_lockRedirectPage :
    steps 0x34010000 (verified (s0r [] 2 0 0 Rdm.initial)) 0xE2 1 (fun t =>
    mem t 0x210 [0xFB] && t.events.length == 10 && lastEx t ([0xA5, 0x10, 0x02] ++ ff 9) ([0xA5, 0x10, 0x02, 0xFB] ++ ff 7 ++ [0xDF])) = true := by
  decide +kernel

/-- 3.6.10 -/
theorem test_isRedirectPageLocked :
    steps 0x35010000 (verified (s0r [] 2 0 0 (rdmWith 0x210 [0xFB]))) 0xE2 1 (fun t => t.events.length == 2) = true := by
  decide +kernel

/-- 3.6.10 -/
theorem test_isRedirectPageLocked_no :
    steps 0x35010000 (verified (s0r [] 3 0 0 (rdmWith 0x210 [0xFB]))) 0xE2 0 (fun t => t.events.length == 2) = true := by
  decide +kernel

/-- 3.7.1 -/
theorem test_installSecret :
    steps 0x40050000 (s0r [1, 2, 3, 4, 5, 6, 7, 8] 0 8 0 Rdm.initial) 0x2E2 1 (fun t =>
    t.hostSecret == sec1 && t.events.length == 37 && mem t 0x300 (rep 0 32)) = true := by
  decide +kernel

/-- 3.7.2 -/
theorem test_bindSecret :
    steps 0x41050008 (holding sec1 .secretBound
      (s0r (rep 0 32 ++ [0x10, 0x11, 0x12, 0x13, 0x14, 0x15, 0x16]) 0 0 0 (rdmSecret sec1))) 0x3E2 0 (fun t =>
    t.hostSecret == sec2 && t.events.length == 26) = true := by
  decide +kernel

/-- 3.7.9: the SHA step does not confirm. -/
theorem test_bindSecret_sha :
    steps 0x41050008 (holding sec1 .secretBound
      (s0r (rep 0 32 ++ [0x10, 0x11, 0x12, 0x13, 0x14, 0x15, 0x16]) 0 0 0 { rdmSecret sec1 with script := [0xAA, 0x00] }))
      0xC86 8 (fun t => t.auth == .noSecret) = true := by
  decide +kernel

/-- 3.7.5 -/
theorem test_computeNextSecret :
    steps 0x42050000 (holding sec2 .secretActive
      (s0r [0xA0, 0xA1, 0xA2, 0xA3, 0xA4, 0xA5, 0xA6, 0xA7] 0 0 0 (rdmSecret sec2))) 0x3E2 0 (fun t =>
    t.hostSecret == sec3 && t.events.length == 10) = true := by
  decide +kernel

/-- 3.7.3 -/
theorem test_authRead :
    steps 0x43050000 (holding sec2 .secretActive (s0r [1, 2, 3] 0 0 0 (rdmSecret sec2))) 0x3E2 56 (fun t =>
    data t 0 (rep 0 32 ++ ff 4 ++ [0xAD, 0x89, 0xD2, 0x0E, 0x68, 0x35, 0xBA, 0x2F, 0x4B, 0xAA, 0xF0, 0xF0, 0x49, 0x43, 0xC4, 0x1E,
      0x56, 0xBB, 0x3E, 0xD9]) && t.events.length == 8) = true := by
  decide +kernel

/-- 3.7.8: the device holds another secret. -/
theorem test_authRead_mismatch :
    steps 0x43050000 (holding sec2 .secretActive (s0r [1, 2, 3] 0 0 0 (rdmSecret (1 :: rep 0 7)))) 0x396 34 (fun t =>
    data t 0 [1, 2, 3]) = true := by
  decide +kernel

/-! Witnesses: for every obligation with hypotheses a state and operands that meet them. -/

/-- No answers are left. -/
def none' : Oracle := ⟨[], [], []⟩

/-- The hypotheses the statements about a whole run share. -/
def Runs (i : Instr) (s t : State) : Prop := i.wf = true ∧ s.cfg.wf = true ∧ s.quiet = true ∧ exec i s = .next t

/-- Whether `exec` answers a next state with property `p`. -/
def answers (i : Instr) (s : State) (p : State → Bool) : Bool :=
  match exec i s with
  | .next t => p t
  | .fault _ => false
  | .refused _ => false

theorem run_of {i : Instr} {s : State} {P : State → Prop} [DecidablePred P]
    (h : (i.wf && s.cfg.wf && s.quiet && answers i s fun t => decide (P t)) = true) : ∃ t, Runs i s t ∧ P t := by
  simp only [Bool.and_eq_true] at h
  obtain ⟨⟨⟨h1, h2⟩, h3⟩, h4⟩ := h
  unfold answers at h4
  split at h4
  · exact ⟨_, ⟨h1, h2, h3, ‹_›⟩, of_decide_eq_true h4⟩
  · cases h4
  · cases h4

theorem allowed_of {i : Instr} {s : State} (h : (firstFailing (checksOf i s)).isNone = true) : Allowed i s :=
  (allowed_iff i s).2 (Option.isNone_iff_eq_none.1 h)

theorem notAllowed_of {i : Instr} {s : State} (h : (firstFailing (checksOf i s)).isSome = true) : ¬ Allowed i s := by
  rw [allowed_iff]; intro e; rw [e] at h; cases h

/-! Encoding. -/

theorem witness_DecodeOfEncodeIsTheCommand : ∃ i : Instr, i.wf = true ∧ i = .bindSecret 255 7 true := ⟨_, by decide, rfl⟩

theorem witness_EncodeOfDecodeIsTheWord : ∃ w i, decode w = .ok i ∧ w = 0x41FF000F := ⟨_, _, by rfl, rfl⟩

theorem witness_DecodeFollowsMatchAndMask :
    (∃ w : Word, ∃ row ∈ opcodeTable, w &&& row.mask = row.pattern) ∧
    ∃ w : Word, ∀ row ∈ opcodeTable, w &&& row.mask ≠ row.pattern :=
  ⟨⟨0x41FF000F, ⟨"BIND_SECRET", 0x41000000, 0xFF00FFF0⟩, by decide, by decide⟩, ⟨0x41FF001F, by decide⟩⟩

/-! Steps. -/

/-- S0 with one host access to come. -/
def hosting (a : HostAccess) (early : Option Nat) : State := { s0 [] (.oracle none') with host := [⟨a, early⟩] }

theorem witness_StepRunsTheDecodedCommand :
    (∃ (s : State) (w : Word) (early : Option Nat) (rest : List HostOp) (i : Instr), s.cfg.wf = true ∧ s.busy = false ∧ s.host = ⟨.write 0x000 .b32 w, early⟩ :: rest ∧
      decode w = .ok i) ∧
    (∃ (s : State) (w : Word) (early : Option Nat) (rest : List HostOp) (e : DecodeError), s.cfg.wf = true ∧ s.busy = false ∧ s.host = ⟨.write 0x000 .b32 w, early⟩ :: rest ∧
      decode w = .error e) ∧
    (∃ (s : State) (n : Nat) (i : Instr), s.cfg.wf = true ∧ n < 2 ^ 32 ∧ decode (BitVec.ofNat 32 n) = .ok i) ∧
    (∃ s : State, s.cfg.wf = true ∧ s.host = []) :=
  ⟨⟨hosting (.write 0x000 .b32 0x43FF0000) none, 0x43FF0000, none, [], _, by decide +kernel, rfl, rfl, by rfl⟩,
   ⟨hosting (.write 0x000 .b32 0) (some 0), 0, some 0, [], _, by decide +kernel, rfl, rfl, by rfl⟩,
   ⟨State.reset, 0x43FF0000, _, by decide +kernel, by decide, by rfl⟩, ⟨State.reset, by decide +kernel, rfl⟩⟩

theorem witness_IllegalWordCompletesAtOnce : ∃ (s : State) (w : Word) (e : DecodeError), s.quiet = true ∧ decode w = .error e :=
  ⟨State.reset, 0x44000000, _, rfl, by rfl⟩

theorem witness_StepAnswersUnlessIllFormed :
    (∃ s : State, s.cfg.wf = false) ∧ ∃ s : State, s.cfg.wf = true ∧ s.hostLegal = true ∧ s.host ≠ [] :=
  ⟨⟨{ State.reset with cfg := { refConfig with spLen := 9 } }, by decide +kernel⟩,
   ⟨hosting (.read 0x1FC .b32) none, by decide +kernel, by decide +kernel, by decide⟩⟩

theorem witness_EveryCommandAnswersNext :
    ∃ (i : Instr) (s : State), i.wf = true ∧ s.cfg.wf = true ∧ s.hostLegal = true ∧ s.host ≠ [] :=
  ⟨.authRead 255, hosting (.write 0x030 .b32 1) (some 3), by decide, by decide +kernel, by decide +kernel, by decide⟩

/-! The host port. -/

/-- A state with a command running. -/
def running : State := { State.reset with busy := true }

theorem witness_RegistersReadTheirState : ∃ k, k < 51 ∧ 0x034 + 4 * k = 0x0FC := ⟨50, by decide, rfl⟩

theorem witness_WverifyHoldsOneBitPerBank : ∃ s : State, s.cfg.wf = true ∧ s.busy = false ∧ s.cfg.nbanks < 32 :=
  ⟨State.reset, by decide +kernel, rfl, by decide⟩

theorem witness_RegisterWritesSetOnlyTheirRegister : ∃ (s : State) (k : Nat), s.busy = false ∧ k < 51 :=
  ⟨State.reset, 50, rfl, by decide⟩

theorem witness_BusyWritesAreIgnored :
    (∃ (s : State) (off : Nat) (w : Width), s.busy = true ∧ off < 0x200 ∧ off ≠ 0x030 ∧ offsetFits off w = true) ∧
    (∃ (s : State) (off : Nat) (w : Width), s.busy = true ∧ off = 0x1FF ∧ offsetFits off w = true) :=
  ⟨⟨running, 0x000, .b32, rfl, by decide, by decide, by decide⟩, ⟨running, 0x1FF, .b8, rfl, rfl, by decide⟩⟩

theorem witness_RomWriteIsADeviceChange :
    (∃ s : State, s.busy = false ∧ s.auth = .secretBound) ∧ ∃ s : State, s.busy = true :=
  ⟨⟨{ State.reset with auth := .secretBound }, rfl, rfl⟩, ⟨running, rfl⟩⟩

theorem witness_SoftResetGivesTheResetValues :
    (∃ (s : State) (v : Word) (early : Option Nat) (rest : List HostOp), s.cfg.wf = true ∧
      s.host = ⟨.write 0x030 .b32 v, early⟩ :: rest ∧ v.getLsbD 0 = false) ∧
    (∃ (s : State) (v : Word) (early : Option Nat) (rest : List HostOp), s.cfg.wf = true ∧
      s.host = ⟨.write 0x030 .b32 v, early⟩ :: rest ∧ v.getLsbD 0 = true ∧ s.busy = true) :=
  ⟨⟨hosting (.write 0x030 .b32 0xFFFFFFFE) none, 0xFFFFFFFE, none, [], by decide +kernel, rfl, by decide⟩,
   ⟨{ hosting (.write 0x030 .b32 1) none with busy := true }, 1, none, [], by decide +kernel, rfl, by decide, rfl⟩⟩

theorem witness_MisalignedAccessesAreRefused :
    offsetFits 0x0FF .b8 = false ∧ offsetFits 0x002 .b32 = false ∧ offsetFits 0x101 .b16 = false ∧
      offsetFits 0x1FE .b32 = false := by decide

theorem witness_DataAccessIsLittleEndian :
    ∃ s : State, s.busy = false ∧ ((0 < bufLen ∧ 0 % Width.b32.bytes = 0) ∧ (252 < bufLen ∧ 252 % Width.b32.bytes = 0) ∧
      (255 < bufLen ∧ 255 % Width.b8.bytes = 0)) := ⟨State.reset, rfl, by decide⟩

/-- A soft reset due after `k` events of the next command. -/
def resetting (k : Nat) : State := { s0 [] (.oracle none') with host := [⟨.write 0x030 .b32 1, some k⟩] }

theorem witness_SoftResetAbandonsTheCommand :
    (∃ (i : Instr) (s t : State), i.wf = true ∧ s.cfg.wf = true ∧ exec i s = .next t ∧ t.done = false) ∧
    (∃ (s : State) (v : Word) (rest : List HostOp), s.host = ⟨.write 0x030 .b32 v, some 0⟩ :: rest ∧ v.getLsbD 0 = true) := by
  refine ⟨?_, ⟨resetting 0, 1, [], rfl, by decide⟩⟩
  have h : answers (.readPage 0 false false) (resetting 1) (fun t => !t.done) = true := by decide +kernel
  unfold answers at h
  split at h
  · exact ⟨.readPage 0 false false, resetting 1, _, by decide, by decide +kernel, ‹_›, by simpa using h⟩
  · cases h
  · cases h

/-! CRC. -/

theorem witness_CrcSeedAndByteLoadTheAccumulator : ∃ s : State, s.quiet = true ∧ s.host ≠ [] :=
  ⟨hosting (.read 0x004 .b32) none, rfl, by decide⟩

theorem witness_CrcBlocksFoldTheRegion :
    (∃ s : State, s.quiet = true ∧ s.arg0.toNat + s.arg1.toNat = 256) ∧
    (∃ s : State, s.quiet = true ∧ s.arg0.toNat + s.arg1.toNat = 257) ∧
    (∃ s : State, s.quiet = true ∧ 256 < s.arg0.toNat + s.arg1.toNat ∧ s.arg0 + s.arg1 = 1) :=
  ⟨⟨s0o [] 255 1 0 none', rfl, by decide⟩, ⟨s0o [] 255 2 0 none', rfl, by decide⟩,
   ⟨s0o [] 0xFFFFFFFF 2 0 none', rfl, by decide, by decide⟩⟩

theorem witness_CrcChecksTestTheResidual : ∃ s : State, s.quiet = true ∧ s.crc8 = 0x00 ∧ s.crc16 = 0xB001 :=
  ⟨{ State.reset with crc16 := 0xB001 }, rfl, rfl, rfl⟩

/-- The sealed sequences of 95_test_vectors.md section 2.1. -/
theorem witness_SealedFramesReachTheResidual :
    (∃ (seed : Byte) (f : List Byte) (i j : Nat), i < f.length ∧ j < 8 ∧ crc8 seed f = 0x00) ∧
    (∃ (seed : HWord) (f : List Byte) (i j : Nat), i < f.length ∧ j < 8 ∧ crc16 seed f = 0xB001) :=
  ⟨⟨0, digits ++ [0xA1], 9, 7, by decide, by decide, by decide +kernel⟩,
   ⟨0, digits ++ [0xC2, 0x44], 10, 7, by decide, by decide, by decide +kernel⟩⟩

theorem witness_PacketsAreBoundToTheirPage : ∃ payload : List Byte, payload.length < 256 ∧ payload.length = 255 :=
  ⟨rep 0 255, by decide +kernel, by decide +kernel⟩

/-! Addresses. -/

/-- Two chunks across a page (3.3.1), and across 8-byte groups on the authenticated bank. -/
theorem witness_ChunksCoverTheWrite :
    (∃ (c : Config) (b r : Nat) (d : List Byte), c.wf = true ∧ b < c.nbanks ∧ (chunks c (c.bank b) r d.length).length = 2) ∧
    (∃ (c : Config) (b r : Nat) (d : List Byte), c.wf = true ∧ b < c.nbanks ∧ (c.bank b).authenticated = true ∧
      (chunks c (c.bank b) r d.length).length = 3) :=
  ⟨⟨refConfig, 0, 30, rep 0 4, by decide +kernel, by decide, by decide +kernel⟩,
   ⟨refConfig, 6, 7, rep 0 10, by decide +kernel, by decide, by decide, by decide +kernel⟩⟩

theorem witness_ControlBitsHaveTheirOwnPlace :
    (∃ (k : Bank) (q : Nat), 1 ≤ k.pageLength ∧ ctlPage k q = ctlPage k q ∧ ctlPage k q = 1) ∧ ∃ j : Nat, j < 8 ∧ j = 7 :=
  ⟨⟨refBank0, 256, by decide, rfl, by decide⟩, ⟨7, by decide, rfl⟩⟩

/-! Whole runs. -/

/-- A page frame with one payload bit flipped (3.2.7). -/
def flipped : State := s0r (rep 0 32) 0 0 0 { Rdm.initial with flip := some (10, 1) }

theorem witness_CommandsLeaveTheHostRegisters : ∃ i s t, Runs i s t ∧ t.events ≠ s.events :=
  ⟨.readPage 0 false false, s0r [] 1 0 0 Rdm.initial, run_of (by decide +kernel)⟩

theorem witness_CrcCommandsAndAccumulatorsAreIsolated :
    (∃ i s t, Runs i s t ∧ bankOf i = some 0) ∧ (∃ i s t, Runs i s t ∧ bankOf i = none ∧ i = .crc8Byte 1) :=
  ⟨⟨.readPage 0 false false, s0r [] 1 0 0 Rdm.initial, run_of (by decide +kernel)⟩,
   ⟨.crc8Byte 1, s0r [] 0 0 0 Rdm.initial, run_of (by decide +kernel)⟩⟩

theorem witness_DataIsWrittenOnlyOnCompletion :
    (∃ i s t, Runs i s t ∧ (t.err ≠ .none ∧ writesData i = true)) ∧
    (∃ i s t, Runs i s t ∧ (t.err = .none ∧ writesData i = false)) :=
  ⟨⟨.readPage 0 false false, flipped, run_of (by decide +kernel)⟩,
   ⟨.isPageLocked 1, s0r [] 3 0 0 Rdm.initial, run_of (by decide +kernel)⟩⟩

theorem witness_ErrorsReportTheirCauseAndFollowTheirPhase :
    (∃ i s t, Runs i s t ∧ (t.err ≠ .none ∧ t.events = s.events)) ∧
    (∃ i s t, Runs i s t ∧ (t.err = .integrity ∧ t.events ≠ s.events)) ∧
    (∃ i s t, Runs i s t ∧ (t.err = .policy ∧ t.events ≠ s.events)) ∧
    (∃ i s t, Runs i s t ∧ (t.err ≠ .none ∧ t.events ≠ s.events ∧ t.result.toNat ∈ [4, 5, 6, 7, 8, 9, 10, 33])) ∧
    (∃ s t, Runs (.spConfirm 0) s t ∧ (t.err ≠ .none ∧ t.events ≠ s.events)) ∧
    (∃ s t, Runs (.spStage 0) s t ∧ (t.err ≠ .none ∧ t.events ≠ s.events ∧ (s.cfg.bank 0).lockBank = none)) ∧
    (∃ s t, Runs (.spCommit 0) s t ∧ (t.err ≠ .none ∧ t.events ≠ s.events ∧ (s.cfg.bank 0).authenticated = false)) :=
  ⟨⟨.readPage 0 false false, s0r [] 8 0 0 Rdm.initial, run_of (by decide +kernel)⟩,
   ⟨.readPage 0 false false, flipped, run_of (by decide +kernel)⟩,
   ⟨.write 1, s0r [1, 2] 96 2 0 (rdmWith 0x200 [0xF7]), run_of (by decide +kernel)⟩,
   ⟨.spCommit 0, { confirmed with dev := .oracle ⟨[true], [], [0x12]⟩ }, run_of (by decide +kernel)⟩,
   ⟨{ staged with dev := .oracle ⟨[false], [], []⟩ }, run_of (by decide +kernel)⟩,
   ⟨s0o [0xD0] 0 1 0 ⟨[false], [], []⟩, run_of (by decide +kernel)⟩,
   ⟨{ confirmed with dev := .oracle ⟨[false], [], []⟩ }, run_of (by decide +kernel)⟩⟩

theorem witness_ReadFramesAreBitExact : State.reset.quiet = true := by decide

theorem witness_WriteAndShaFramesAreBitExact : State.reset.quiet = true := by decide

theorem witness_OnlyReadsOpenAStream :
    (∃ i s t, Runs i s t ∧ (t.cont.valid = true ∧ t.events ≠ s.events)) ∧
    (∃ i s t, Runs i s t ∧ (t.cont.valid = true ∧ t.events = s.events)) :=
  ⟨⟨.readPage 0 false false, s0r [] 1 0 0 Rdm.initial, run_of (by decide +kernel)⟩,
   ⟨.crc8Check, { s0r [] 0 0 0 Rdm.initial with cont := ⟨true, 0, .page, 32⟩ }, run_of (by decide +kernel)⟩⟩

theorem witness_OnlyTheirCommandsMoveSecretAndRecord :
    (∃ i s t, Runs i s t ∧ (movesSecret i = false ∧ s.auth = .secretActive)) ∧
    (∃ i s t, Runs i s t ∧ (movesScratch i = false ∧ s.sp.phase = .staged)) :=
  ⟨⟨.authRead 5, holding sec2 .secretActive (s0r [1, 2, 3] 0 0 0 (rdmSecret sec2)), run_of (by decide +kernel)⟩,
   ⟨.readPage 0 false false, { staged with arg0 := 0 }, run_of (by decide +kernel)⟩⟩

/-- The state before 3.7.2. -/
def toBind (script : List Byte) : State :=
  holding sec1 .secretBound
    (s0r (rep 0 32 ++ [0x10, 0x11, 0x12, 0x13, 0x14, 0x15, 0x16]) 0 0 0 { rdmSecret sec1 with script := script })

/-- The events begin with `out` and a sleep of `ms`. -/
def sendsFirst (out : List Byte) (ms : Nat) : List Event → Bool
  | .exchange o _ :: .sleep n :: _ => o == out && n == ms
  | _ => false

/-- `out` goes out somewhere, with a sleep of `ms` behind it. -/
def sends (out : List Byte) (ms : Nat) : List Event → Bool
  | [] => false
  | e :: es => sendsFirst out ms (e :: es) || sends out ms es

theorem sendsFirst_iff (out : List Byte) (ms : Nat) (es : List Event) :
    sendsFirst out ms es = true ↔ ∃ after a, es = [.exchange out a, .sleep ms] ++ after := by
  constructor
  · intro h
    unfold sendsFirst at h
    split at h
    · simp only [Bool.and_eq_true, beq_iff_eq] at h
      obtain ⟨rfl, rfl⟩ := h
      exact ⟨_, _, rfl⟩
    · cases h
  · rintro ⟨after, a, rfl⟩
    simp [sendsFirst]

theorem sends_iff (out : List Byte) (ms : Nat) (es : List Event) :
    sends out ms es = true ↔ ∃ before after a, es = before ++ [.exchange out a, .sleep ms] ++ after := by
  induction es with
  | nil => simp [sends]
  | cons e es ih =>
    rw [sends, Bool.or_eq_true, sendsFirst_iff, ih]
    constructor
    · rintro (⟨after, a, h⟩ | ⟨before, after, a, rfl⟩)
      · exact ⟨[], after, a, h⟩
      · exact ⟨e :: before, after, a, rfl⟩
    · rintro ⟨before, after, a, h⟩
      cases before with
      | nil => exact .inl ⟨after, a, h⟩
      | cons x before => exact .inr ⟨before, after, a, (List.cons.inj h).2⟩

/-- The SHA step of page 0 of bank 5 began, from a state with no history. -/
def shaBegan5 (t : State) : Bool :=
  sends (frameHead (refConfig.bank 5).opcSha 0x300 ++ [refConfig.fnNextSecret]) refConfig.tShaMs t.events

theorem shaBegan5_iff (script : List Byte) (t : State) :
    ShaBegan (toBind script) t 5 (toBind script).arg0.toNat (toBind script).cfg.fnNextSecret ↔ shaBegan5 t = true := by
  rw [shaBegan5, sends_iff]
  exact Iff.rfl

/-- 3.7.1, 3.7.2, 3.7.12, 3.7.11, 3.7.9 and 3.7.10. -/
theorem witness_SecretStateMachine :
    (∃ i s t, Runs i s t ∧ (movesSecret i = true ∧ t.err = .none ∧ i = .installSecret 5 0)) ∧
    (∃ i s t, Runs i s t ∧ (movesSecret i = true ∧ t.err = .none ∧ i = .bindSecret 5 0 true)) ∧
    (∃ i s t, Runs i s t ∧ (movesSecret i = true ∧ t.err ≠ .none ∧ t.events = s.events)) ∧
    (∃ i s t, Runs i s t ∧ (movesSecret i = true ∧ t.err ≠ .none ∧ t.events ≠ s.events ∧ i = .installSecret 5 0)) ∧
    (∃ i s t, Runs i s t ∧ (movesSecret i = true ∧ t.err ≠ .none ∧ t.result = 8)) ∧
    (∃ i s t, Runs i s t ∧ (movesSecret i = true ∧ t.err ≠ .none ∧ t.auth = s.auth ∧ t.events ≠ s.events)) ∧
    (∃ s t, Runs (.bindSecret 5 0 true) s t ∧ t.err ≠ .none ∧ ShaBegan s t 5 s.arg0.toNat s.cfg.fnNextSecret) ∧
    (∃ s t, Runs (.bindSecret 5 0 true) s t ∧ t.err ≠ .none ∧ ¬ ShaBegan s t 5 s.arg0.toNat s.cfg.fnNextSecret) := by
  have began : ∃ t, Runs (.bindSecret 5 0 true) (toBind [0xAA, 0x00]) t ∧ (t.err ≠ .none ∧ shaBegan5 t = true) :=
    run_of (by decide +kernel)
  have before : ∃ t, Runs (.bindSecret 5 0 true) (toBind [0x12]) t ∧ (t.err ≠ .none ∧ ¬ shaBegan5 t = true) :=
    run_of (by decide +kernel)
  obtain ⟨t, h1, h2, h3⟩ := began
  obtain ⟨u, g1, g2, g3⟩ := before
  exact ⟨⟨_, s0r [1, 2, 3, 4, 5, 6, 7, 8] 0 8 0 Rdm.initial, run_of (i := .installSecret 5 0) (by decide +kernel)⟩,
   ⟨_, toBind [], run_of (i := .bindSecret 5 0 true) (by decide +kernel)⟩,
   ⟨.bindSecret 5 0 true, s0r [] 0 217 0 Rdm.initial, run_of (by decide +kernel)⟩,
   ⟨_, s0r [1, 2, 3, 4, 5, 6, 7, 8] 0 8 0 { Rdm.initial with script := [0x12] },
     run_of (i := .installSecret 5 0) (by decide +kernel)⟩,
   ⟨.bindSecret 5 0 true, toBind [0xAA, 0x00], run_of (by decide +kernel)⟩,
   ⟨.bindSecret 5 0 true, toBind [0x12], run_of (by decide +kernel)⟩,
   ⟨toBind [0xAA, 0x00], t, h1, h2, (shaBegan5_iff _ _).2 h3⟩, ⟨toBind [0x12], u, g1, g2, fun h => g3 ((shaBegan5_iff _ _).1 h)⟩⟩

/-! Checks. -/

theorem witness_AbsentAndControlBanksAreRefused :
    (∃ (i : Instr) (s : State) (b : Nat), s.quiet = true ∧ bankOf i = some b ∧ b = s.cfg.nbanks) ∧
    (∃ (i : Instr) (s : State) (b : Nat), s.quiet = true ∧ bankOf i = some b ∧ b < s.cfg.nbanks ∧
      (s.cfg.bank b).generalPurpose = false) :=
  ⟨⟨.readPage 8 false false, State.reset, 8, rfl, rfl, rfl⟩,
   ⟨.readPage 2 false false, State.reset, 2, rfl, rfl, by decide, by decide⟩⟩

/-- AUTH_READ and SP_COMMIT straight after reset as well. -/
theorem witness_BankCommandsNeedARomId :
    ∀ p ∈ [((.readPage 0 false false, 0) : Instr × Nat), (.authRead 5, 5), (.spCommit 0, 0)],
      State.reset.quiet = true ∧ bankOf p.1 = some p.2 ∧ State.reset.romValid = false ∧
        Allowed p.1 { State.reset with
          romValid := true, auth := .secretActive, sp := { State.reset.sp with phase := .confirmed, bank := p.2 } } := by
  intro p hp
  have h : ∀ p ∈ [((.readPage 0 false false, 0) : Instr × Nat), (.authRead 5, 5), (.spCommit 0, 0)],
      bankOf p.1 = some p.2 ∧ (firstFailing (checksOf p.1 { State.reset with
        romValid := true, auth := .secretActive, sp := { State.reset.sp with phase := .confirmed, bank := p.2 } })).isNone = true := by
    decide +kernel
  exact ⟨rfl, (h p hp).1, rfl, allowed_of (h p hp).2⟩

theorem witness_CommandsNotAllowedAreRefusedByACheck :
    (∃ (i : Instr) (s : State), s.quiet = true ∧ ¬ Allowed i s ∧ i = .spCommit 6) ∧
    (∃ (i : Instr) (s : State), s.quiet = true ∧ ¬ Allowed i s ∧ i = .crc8Block) :=
  ⟨⟨_, s0o [] 0 0 0 none', rfl, notAllowed_of (by decide +kernel), rfl⟩,
   ⟨_, s0o [] 255 2 0 none', rfl, notAllowed_of (by decide +kernel), rfl⟩⟩

/-- The first failing check in the spec's list, from the model's. -/
theorem fails_of {ms : List (Bool × Cause)} {cs : List SpecCheck} (h : List.Forall₂ Matches ms cs) :
    ∀ {k : ErrKind} {n : Word}, (firstFailing ms).map (fun c => (c.kind, c.info)) = some (k, n) →
      ∃ before after P, cs = before ++ (P, k, n) :: after ∧ (∀ c ∈ before, c.1) ∧ ¬ P := by
  induction h with
  | nil => intro k n h; cases h
  | @cons m c ms cs hm _ ih =>
    intro k n h
    obtain ⟨ok, cause⟩ := m
    rw [firstFailing_cons] at h
    split at h
    · obtain ⟨before, after, P, rfl, hb, hP⟩ := ih h
      exact ⟨c :: before, after, P, rfl, by
        intro d hd
        rcases List.mem_cons.1 hd with rfl | hd
        · exact hm.1.1 ‹_›
        · exact hb d hd, hP⟩
    · obtain ⟨P, k', n'⟩ := c
      obtain ⟨h1, h2, h3⟩ := hm
      simp only [Option.map_some, Option.some.injEq, Prod.mk.injEq] at h
      obtain ⟨rfl, rfl⟩ : k' = k ∧ n' = n := ⟨h2.symm.trans h.1, h3.symm.trans h.2⟩
      exact ⟨[], cs, P, rfl, fun _ hd => absurd hd List.not_mem_nil, fun hP => ‹¬ _› (h1.2 hP)⟩

/-- Length before range, range before target, buffer and rom before nosecret; and a failing check of WRITE of each kind. -/
theorem witness_CommandsReportTheirFirstFailingCheck :
    (∀ p ∈ [((.spStage 0, s0o [] 257 0 0 none', .policy, 31) : Instr × State × ErrKind × Word),
        (.redirectPage 1, s0o [] 99 0 0 none', .policy, 23), (.redirectPage 1, s0o [] 2 0 0 none', .policy, 30),
        (.bindSecret 5 0 true, s0o [] 0 255 0 none', .policy, 24), (.bindSecret 5 0 true, State.reset, .policy, 25),
        (.authRead 5, s0o [] 0 255 0 none', .policy, 24), (.authRead 5, State.reset, .policy, 25),
        (.authRead 5, s0o [] 0 0 0 none', .authentication, 32)],
      p.2.1.quiet = true ∧ ∃ before after P, specChecks p.1 p.2.1 = before ++ (P, p.2.2.1, p.2.2.2) :: after ∧
        (∀ c ∈ before, c.1) ∧ ¬ P) ∧
    (∀ p ∈ [((8, State.reset) : Nat × State), (2, State.reset), (7, s0o [] 0 99 0 none'), (0, s0o [] 255 2 0 none'),
        (0, s0o [] 254 2 255 none'), (0, State.reset), (6, s0o [] 0 1 0 none')],
      p.2.quiet = true ∧ ¬ Allowed (.write p.1) p.2) := by
  constructor
  · intro p hp
    have h : ∀ p ∈ [((.spStage 0, s0o [] 257 0 0 none', .policy, 31) : Instr × State × ErrKind × Word),
        (.redirectPage 1, s0o [] 99 0 0 none', .policy, 23), (.redirectPage 1, s0o [] 2 0 0 none', .policy, 30),
        (.bindSecret 5 0 true, s0o [] 0 255 0 none', .policy, 24), (.bindSecret 5 0 true, State.reset, .policy, 25),
        (.authRead 5, s0o [] 0 255 0 none', .policy, 24), (.authRead 5, State.reset, .policy, 25),
        (.authRead 5, s0o [] 0 0 0 none', .authentication, 32)],
        p.2.1.quiet = true ∧ (firstFailing (checksOf p.1 p.2.1)).map (fun c => (c.kind, c.info)) = some p.2.2 := by
      decide +kernel
    exact ⟨(h p hp).1, fails_of (specChecks_match p.1 p.2.1) (h p hp).2⟩
  · intro p hp
    have h : ∀ p ∈ [((8, State.reset) : Nat × State), (2, State.reset), (7, s0o [] 0 99 0 none'), (0, s0o [] 255 2 0 none'),
        (0, s0o [] 254 2 255 none'), (0, State.reset), (6, s0o [] 0 1 0 none')],
        p.2.quiet = true ∧ (firstFailing (checksOf (.write p.1) p.2)).isSome = true := by decide +kernel
    exact ⟨(h p hp).1, notAllowed_of (h p hp).2⟩

/-! The session and the bus. -/

theorem witness_SelectFollowsTheSessionPrologue :
    (∃ s : State, s.quiet = true ∧ s.dev = .oracle ⟨[true], [], []⟩ ∧ s.speedVerified = true) ∧
    (∃ s : State, s.quiet = true ∧ s.dev = .oracle ⟨[false], [], []⟩ ∧ s.speedVerified = false) :=
  ⟨⟨verified (s0o [] 0 0 0 ⟨[true], [], []⟩), rfl, rfl, rfl⟩, ⟨s0o [] 0 0 0 ⟨[false], [], []⟩, rfl, rfl, rfl⟩⟩

theorem witness_PollEndsAtTheFirstAnswer :
    (∀ v ∈ ([0xAA, 0x55, 0x12, 0x00] : List Byte), ∃ (N n : Nat) (s : State) (rest : Oracle), s.quiet = true ∧ n < N ∧ v ≠ 0xFF ∧
      s.dev = .oracle ⟨rest.selects, rest.exchanges, List.replicate n 0xFF ++ v :: rest.gets⟩ ∧ n + 1 = N) ∧
    (∃ (N : Nat) (s : State) (rest : Oracle), s.quiet = true ∧
      s.dev = .oracle ⟨rest.selects, rest.exchanges, List.replicate N 0xFF ++ rest.gets⟩ ∧ N = 16) := by
  refine ⟨fun v hv => ⟨16, 15, s0o [] 0 0 0 ⟨[], [], List.replicate 15 0xFF ++ [v]⟩, none', rfl, by decide, ?_, rfl, rfl⟩,
    ⟨16, s0o [] 0 0 0 ⟨[], [], List.replicate 16 0xFF ++ []⟩, none', rfl, rfl, rfl⟩⟩
  revert v; decide

/-! Events that serve the bus commands: every answer is sealed, whatever its echo bytes are. -/

/-- `s` with an oracle that answers `es` and then nothing. -/
def serving (es : List Event) (s : State) : State := { s with dev := .oracle (answering es none') }

/-- The hypotheses the statements about a bus command share. -/
def Serves (i : Instr) (s : State) (es : List Event) : Prop :=
  s.quiet = true ∧ Allowed i s ∧ s.dev = .oracle (answering es none')

theorem serves_of {i : Instr} {s : State} {es : List Event}
    (h : (s.quiet && (firstFailing (checksOf i (serving es s))).isNone) = true) : Serves i (serving es s) es := by
  simp only [Bool.and_eq_true] at h
  exact ⟨h.1, allowed_of h.2, rfl⟩

def c0 : Config := refConfig

/-- The link of S0, without a secret and with the one of 3.7.2. -/
def w0 : Link := (s0o [] 0 0 0 none').link
def w2 : Link := (holding sec2 .secretActive (s0o [] 0 0 0 none')).link

def sealed (k : Bank) (seed : HWord) (body : List Byte) : List Byte := body ++ sealK k.crcBytes seed body

def pageAnswer (k : Bank) (pay extra : List Byte) : List Byte := sealed k k.crcSeed ([k.opcReadCrc, 0, 0] ++ pay ++ extra)

/-- A framed read of page `p` answered with `pay` and `extra`. -/
def pageEs (w : Link) (b p : Nat) (pay extra : List Byte) : List Event :=
  let k := w.bank b
  [w.select, .exchange (frameHead k.opcReadCrc (k.base + p * k.pageLength) ++ ff (pageFrameLength k)) (pageAnswer k pay extra)]

def pageOk (k : Bank) (pay extra : List Byte) : Bool :=
  !k.crcAfterAddress && ((pageAnswer k pay extra).length == 3 + pageFrameLength k) &&
  crcOk k.crcBytes k.crcSeed (pageAnswer k pay extra) && ((pay, extra) == splitPage k 3 (pageAnswer k pay extra))

theorem page_of {w : Link} {b : Nat} (p : Nat) {pay extra : List Byte} (h : pageOk (w.bank b) pay extra = true) :
    PageServed w b p (pay, extra) (pageEs w b p pay extra) := by
  simp only [pageOk, Bool.and_eq_true, Bool.not_eq_true', beq_iff_eq] at h
  obtain ⟨⟨⟨h1, h2⟩, h3⟩, h4⟩ := h
  unfold PageServed
  simp only [h1]
  exact ⟨_, rfl, h2, h3, h4⟩

def contAnswer (k : Bank) (pay extra : List Byte) : List Byte := sealed k 0 (pay ++ extra)

def contEs (w : Link) (b : Nat) (pay extra : List Byte) : List Event :=
  [.exchange (ff (pageFrameLength (w.bank b))) (contAnswer (w.bank b) pay extra)]

theorem cont_of {w : Link} {b : Nat} {pay extra : List Byte}
    (h : (((contAnswer (w.bank b) pay extra).length == pageFrameLength (w.bank b)) &&
      crcOk (w.bank b).crcBytes 0 (contAnswer (w.bank b) pay extra) &&
      ((pay, extra) == splitPage (w.bank b) 0 (contAnswer (w.bank b) pay extra))) = true) :
    PageContServed w b (pay, extra) (contEs w b pay extra) := by
  simp only [Bool.and_eq_true, beq_iff_eq] at h
  exact ⟨_, rfl, h.1.1, h.1.2, h.2⟩

def stageAnswer (k : Bank) (d : List Byte) : List Byte := sealed k 0 ([k.opcWriteSp, 0, 0] ++ d)

def stageEs (w : Link) (b ta : Nat) (d : List Byte) : List Event :=
  let k := w.bank b
  [w.select, .exchange (frameHead k.opcWriteSp ta ++ d ++ ff k.crcBytes) (stageAnswer k d)]

def confirmAnswer (k : Bank) (p : Scratch) : List Byte := sealed k 0 ([k.opcReadSp, lo p.ta, hi p.ta, p.es] ++ p.data)

/-- The read-back of the record `p` answered with the record `q`. -/
def confirmEs (w : Link) (p q : Scratch) : List Event :=
  let k := w.bank p.bank
  [w.select, .exchange (k.opcReadSp :: ff (3 + p.data.length + k.crcBytes)) (confirmAnswer k q)]

theorem readback_of {w : Link} {p q : Scratch}
    (h : ((confirmAnswer (w.bank p.bank) q).length == 4 + p.data.length + (w.bank p.bank).crcBytes) = true) :
    ReadbackSent w p (confirmAnswer (w.bank p.bank) q) (confirmEs w p q) := ⟨rfl, beq_iff_eq.1 h⟩

/-- What makes a read-back agree. -/
def agrees (w : Link) (p : Scratch) (a : List Byte) : Bool :=
  crcOk (w.bank p.bank).crcBytes 0 a && (byteAt a 2 ++ byteAt a 1 == p.ta) &&
  (byteAt a 3 &&& 0x1F == BitVec.ofNat 8 (p.ta.toNat % w.cfg.spLen + p.data.length - 1) &&& 0x1F) && !(byteAt a 3).getLsbD 5 &&
  (slice a 4 (4 + p.data.length) == p.data)

theorem agrees_iff {w : Link} {p : Scratch} {a : List Byte} : agrees w p a = true ↔ ReadsBack w p a := by
  simp [agrees, ReadsBack, and_assoc]

theorem confirm_of {w : Link} {p : Scratch}
    (h : (((confirmAnswer (w.bank p.bank) p).length == 4 + p.data.length + (w.bank p.bank).crcBytes) &&
      agrees w p (confirmAnswer (w.bank p.bank) p) && (byteAt (confirmAnswer (w.bank p.bank) p) 3 == p.es)) = true) :
    ConfirmServed w p p.es (confirmEs w p p) := by
  simp only [Bool.and_eq_true, beq_iff_eq] at h
  exact ⟨_, readback_of (beq_iff_eq.2 h.1.1), agrees_iff.1 h.1.2, h.2⟩

/-- `Commit`, whose poll reads `polls`. -/
def commitEs (w : Link) (b ta : Nat) (e : Byte) (mac polls : List Byte) : List Event :=
  let out := frameHead (w.bank b).opcCopySp ta ++ e :: mac
  [w.select, .exchange out (ff out.length), .sleep w.cfg.tCommitMs] ++ polls.map .getByte

theorem commit_of {w : Link} (b ta : Nat) (e : Byte) (mac polls : List Byte) (h : w.cfg.commitPower = false) :
    CommitSent w b ta e mac polls (commitEs w b ta e mac polls) := by
  unfold CommitSent
  simp only [h]
  exact ⟨_, by simp [ff, rep], rfl⟩

/-- Two busy bytes, then the alternating pattern. -/
def done2 : List Byte := List.replicate 2 0xFF ++ [0x55]

theorem commitServed_of {w : Link} (b ta : Nat) (e : Byte) (mac : List Byte) (h : w.cfg.commitPower = false)
    (hn : 2 < w.cfg.pollMax) : CommitServed w b ta e mac (commitEs w b ta e mac done2) :=
  ⟨2, 0x55, hn, .inr rfl, commit_of _ _ _ _ _ h⟩

/-- What makes `Stage` and `Confirm` of `d` at `ta` serve. -/
def stages (w : Link) (b ta : Nat) (d : List Byte) : Bool :=
  let k := w.bank b
  let p := stagedRecord w b ta d
  ((stageAnswer k d).length == 3 + d.length + k.crcBytes) && crcOk k.crcBytes 0 (stageAnswer k d) &&
  (((confirmAnswer k p).length == 4 + d.length + k.crcBytes) && agrees w p (confirmAnswer k p) &&
    (byteAt (confirmAnswer k p) 3 == p.es)) && !w.cfg.commitPower && decide (2 < w.cfg.pollMax)

theorem stage_of {w : Link} {b ta : Nat} {d : List Byte} (h : stages w b ta d = true) :
    StageServed w b ta d (stageEs w b ta d) := by
  simp only [stages, Bool.and_eq_true, beq_iff_eq] at h
  exact ⟨_, rfl, h.1.1.1.1, h.1.1.1.2⟩

def stagedEs (w : Link) (b ta : Nat) (d : List Byte) : List Event :=
  stageEs w b ta d ++ confirmEs w (stagedRecord w b ta d) (stagedRecord w b ta d)

theorem staged_of {w : Link} {b ta : Nat} {d : List Byte} (h : stages w b ta d = true) :
    StagedServed w b ta d (stagedRecord w b ta d).es (stagedEs w b ta d) := by
  refine ⟨_, _, rfl, stage_of h, confirm_of ?_⟩
  simp only [stages, Bool.and_eq_true] at h
  simp only [Bool.and_eq_true]
  exact h.1.1.2

def transferEs (w : Link) (b ta : Nat) (d mac : List Byte) : List Event :=
  stagedEs w b ta d ++ commitEs w b ta (stagedRecord w b ta d).es mac done2

theorem transfer_of {w : Link} {b ta : Nat} {d mac : List Byte} (h : stages w b ta d = true) :
    TransferServed w b ta d mac (transferEs w b ta d mac) := by
  refine ⟨_, _, _, rfl, staged_of h, ?_⟩
  simp only [stages, Bool.and_eq_true, Bool.not_eq_true', decide_eq_true_eq] at h
  exact commitServed_of _ _ _ _ h.1.2 h.2

/-- A chunk: the page for the MAC, stage, confirm, commit, the read-back. -/
def chunkEs (w : Link) (b ta : Nat) (d mac : List Byte) (m v : List Event) : List Event := m ++ (transferEs w b ta d mac ++ v)

theorem chunk_of {w : Link} {b ta : Nat} {d got mac : List Byte} {check : Bool} {m v : List Event} (hm : MacServed w b ta d mac m)
    (h : stages w b ta d = true) (hv : if check then VerifySent w b ta d.length got v else v = []) :
    ChunkSent w b ta d check got (chunkEs w b ta d mac m v) := ⟨_, _, _, _, rfl, hm, transfer_of h, hv⟩

theorem noMac {w : Link} {b ta : Nat} {d : List Byte} (h : (w.bank b).authenticated = false) : MacServed w b ta d [] [] := by
  unfold MacServed
  rw [h]
  exact ⟨rfl, rfl⟩

theorem chunkN_of {w : Link} {b ta : Nat} {d : List Byte} (hm : (w.bank b).authenticated = false)
    (h : stages w b ta d = true) : ChunkServed w b ta d false (chunkEs w b ta d [] [] []) := chunk_of (noMac hm) h rfl

/-- The read-back by a page read. -/
theorem verify_of {w : Link} {b ta n p : Nat} {got pay extra : List Byte} (hk : (w.bank b).pageAutoCrc = true)
    (hp : (ta - (w.bank b).base) / (w.bank b).pageLength = p) (h : pageOk (w.bank b) pay extra = true)
    (hg : slice pay ((ta - (w.bank b).base) % (w.bank b).pageLength) ((ta - (w.bank b).base) % (w.bank b).pageLength + n) = got) :
    VerifySent w b ta n got (pageEs w b p pay extra) := by
  unfold VerifySent
  simp only [hk, if_true]
  exact ⟨_, by rw [hp]; exact page_of p h, hg.symm⟩

/-- A verified chunk on a bank that needs no MAC. -/
theorem chunkV_of {w : Link} {b ta p : Nat} {d got pay extra : List Byte} (hm : (w.bank b).authenticated = false)
    (h : stages w b ta d = true) (hk : (w.bank b).pageAutoCrc = true)
    (hp : (ta - (w.bank b).base) / (w.bank b).pageLength = p) (ho : pageOk (w.bank b) pay extra = true)
    (hg : slice pay ((ta - (w.bank b).base) % (w.bank b).pageLength)
      ((ta - (w.bank b).base) % (w.bank b).pageLength + d.length) = got) :
    ChunkSent w b ta d true got (chunkEs w b ta d [] [] (pageEs w b p pay extra)) :=
  chunk_of (noMac hm) h (verify_of hk hp ho hg)

theorem noLocks {w : Link} {b p : Nat} (n : Nat) (h : (w.bank b).lockBank = none) : LocksServed w b p n [] := by
  induction n generalizing p with
  | zero => rfl
  | succ n ih => exact ⟨[], [], rfl, by unfold LockTested; rw [h]; exact ⟨rfl, rfl⟩, ih⟩

/-- A write of one chunk on a bank without a lock bank. -/
theorem write1_of {w : Link} {b r ta : Nat} {d : List Byte} {check : Bool} {es : List Event} (hl : (w.bank b).lockBank = none)
    (hc : chunks w.cfg (w.bank b) r d.length = [⟨ta, 0, d.length⟩]) (h : ChunkServed w b ta d check es) :
    WriteServed w b r d check es := by
  refine ⟨[], es, rfl, noLocks _ hl, ?_⟩
  rw [hc]
  exact ⟨es, [], (List.append_nil es).symm, by simpa [slice] using h, rfl⟩

/-- A write whose one chunk reads back as `got`. -/
theorem differs1_of {w : Link} {b r ta : Nat} {d got : List Byte} {es : List Event} (hl : (w.bank b).lockBank = none)
    (hc : chunks w.cfg (w.bank b) r d.length = [⟨ta, 0, d.length⟩]) (h : ChunkSent w b ta d true got es) (hg : got ≠ d) :
    WriteDiffers w b r d es :=
  ⟨[], _, [], [], [], es, got, hc, rfl, noLocks _ hl, rfl, by simpa [slice] using h, by simpa [slice] using hg⟩

/-! Their witnesses. -/

/-- Framed with CRC, continued, raw, and with ExtraInfo. -/
theorem witness_ReadPageCompletes :
    (∃ s es, Serves (.readPage 0 false false) s es ∧ WholePageServed s 0 s.arg0.toNat false (ff 32, []) es) ∧
    (∃ s es, Serves (.readPage 0 true false) s es ∧ WholePageServed s 0 s.arg0.toNat true (ff 32, []) es ∧
      wholePageContinues s 0 s.arg0.toNat true = true) ∧
    (∃ s es, Serves (.readPage 7 false true) s es ∧ WholePageServed s 7 s.arg0.toNat false (ff 32, []) es) ∧
    (∃ s es, Serves (.readPage 1 false true) s es ∧ WholePageServed s 1 s.arg0.toNat false (ff 32, [0xFF]) es) :=
  ⟨⟨_, pageEs w0 0 7 (ff 32) [], serves_of (s := s0o [] 7 224 0 none') (by decide +kernel), page_of (w := w0) (b := 0) 7 (by decide +kernel)⟩,
   ⟨_, contEs w0 0 (ff 32) [], serves_of (s := { s0o [] 1 0 0 none' with cont := ⟨true, 0, .page, 32⟩ }) (by decide +kernel),
     cont_of (w := w0) (b := 0) (by decide +kernel), by decide +kernel⟩,
   ⟨_, [w0.select, .exchange (frameHead 0xF0 0x440 ++ ff 32) (ff 35)],
     serves_of (s := s0o [] 0 0 0 none') (by decide +kernel), ⟨ff 35, by decide +kernel, by decide, by decide⟩, rfl⟩,
   ⟨_, pageEs w0 1 0 (ff 32) [0xFF], serves_of (s := s0o [] 0 223 0 none') (by decide +kernel),
     page_of (w := w0) (b := 1) 0 (by decide +kernel)⟩⟩

/-- The configuration of 3.2.8: the CRC after the address. -/
def afterAddress : State :=
  { s0o [] 1 0 0 none' with cfg := bankWith 0 fun k => { k with crcAfterAddress := true } }

theorem witness_ReadPageCompletes_afterAddress :
    ∃ s es, Serves (.readPage 0 false false) s es ∧ WholePageServed s 0 s.arg0.toNat false (ff 32, []) es ∧
      (s.cfg.bank 0).crcAfterAddress = true :=
  ⟨_, [w0.select, .exchange (frameHead 0xA5 0x20 ++ ff 2) [0xA5, 0x20, 0x00, 0xF6, 0x1C],
      .exchange (ff 34) (ff 32 ++ [0xFE, 0x5B])], serves_of (s := afterAddress) (by decide +kernel),
    ⟨_, _, rfl, by decide +kernel, by decide +kernel, by decide +kernel, by decide +kernel, by decide +kernel⟩, by decide +kernel⟩

/-- The configuration of 3.2.9: bank 0 with CRC reads only. -/
def crcOnly : Config := bankWith 0 fun k => { k with pageLength := 8, crcBytes := 1, rawRead := false }

/-- S0 under that configuration. -/
def crcOnlyState : State := { s0o [] 6 4 0 none' with cfg := crcOnly }

theorem witness_ReadBytesCompletes :
    (∃ s, s.quiet = true ∧ Allowed (.readBytes 0 false) s ∧ s.arg1.toNat = 0 ∧ s.arg0 = 256) ∧
    (∃ s es, Serves (.readBytes 0 false) s es ∧ 1 ≤ s.arg1.toNat ∧ (s.cfg.bank 0).rawRead = true ∧
      RawReadServed s.link 0 s.arg0.toNat s.arg1.toNat (false && continues s 0 .raw s.arg0.toNat) (ff 4) es) ∧
    (∃ s e1 e2, Serves (.readBytes 0 false) s (e1 ++ e2) ∧ 1 ≤ s.arg1.toNat ∧ (s.cfg.bank 0).rawRead = false ∧
      PageReadServed s.link 0 (s.arg0.toNat / (s.cfg.bank 0).pageLength) (false && continues s 0 .page 0) (rep 1 8, []) e1 ∧
      MorePagesServed s.link 0 ((s.arg0.toNat + s.arg1.toNat - 1) / (s.cfg.bank 0).pageLength -
        s.arg0.toNat / (s.cfg.bank 0).pageLength) (rep 2 8) e2) := by
  refine ⟨⟨s0o [] 256 0 256 none', rfl, allowed_of (by decide +kernel), rfl, rfl⟩,
    ⟨_, [w0.select, .exchange (frameHead 0xF0 0xFC ++ ff 4) (ff 7)],
      serves_of (s := s0o [] 252 4 252 none') (by decide +kernel), by decide, by decide,
      ⟨ff 7, by decide +kernel, by decide, by decide⟩⟩,
    ⟨_, pageEs crcOnlyState.link 0 0 (rep 1 8) [], contEs crcOnlyState.link 0 (rep 2 8) [], serves_of (s := crcOnlyState) (by decide +kernel), by decide,
      by decide +kernel, page_of (w := crcOnlyState.link) (b := 0) 0 (by decide +kernel),
      ⟨(rep 2 8, []), [], _, [], (List.append_nil _).symm, by decide, cont_of (w := crcOnlyState.link) (b := 0) (by decide +kernel),
        rfl, rfl⟩⟩⟩

/-- Bank 1's lock page holds `v` in its first byte; `p` is the page asked for. -/
theorem lock1_of (p : Nat) (v : Byte) (locked : Bool) (hp : p / 8 / 8 = 0) (hb : p / 8 % 8 = 0)
    (h : pageOk (w0.bank 2) (v :: ff 7) [] = true) (hl : locked = !v.getLsbD (p % 8)) :
    LockTested w0 1 p locked (pageEs w0 2 0 (v :: ff 7) []) := by
  have hb1 : (w0.bank 1).lockBank = some 2 ∧ (w0.bank 1).lockOffset + p = p ∧ (w0.bank 2).pageLength = 8 :=
    ⟨by decide +kernel, Nat.zero_add p, by decide +kernel⟩
  unfold LockTested
  rw [hb1.1, hb1.2.1]
  refine ⟨(v :: ff 7, []), ?_, ?_⟩
  · rw [hb1.2.2, hp]; exact page_of 0 h
  · rw [hb1.2.2, hb]; exact hl

/-- A verified write of F0 0F to page 0 of bank 1. -/
def write1Es : List Event :=
  pageEs w0 2 0 (ff 8) [] ++ (chunkEs w0 1 0x100 [0xF0, 0x0F] [] [] (pageEs w0 1 0 ([0xF0, 0x0F] ++ ff 30) [0xFF]) ++ [])

theorem write1_served : WriteServed w0 1 0 [0xF0, 0x0F] true write1Es := by
  refine ⟨pageEs w0 2 0 (ff 8) [], _, rfl, ?_, ?_⟩
  · exact ⟨_, [], (List.append_nil _).symm, lock1_of 0 0xFF false rfl rfl (by decide +kernel) (by decide), rfl⟩
  · rw [show chunks w0.cfg (w0.bank 1) 0 [(0xF0 : Byte), 0x0F].length = [⟨0x100, 0, 2⟩] by decide +kernel]
    exact ⟨_, _, rfl, chunkV_of (w := w0) (b := 1) (by decide +kernel) (by decide +kernel) (by decide +kernel) (by decide +kernel)
      (by decide +kernel) (by decide +kernel), rfl⟩

/-- The MAC of DE AD over the blank page 0 of bank 6. -/
def mac6 : List Byte :=
  Crypto.sha1 w2.cfg (Crypto.msgMac w2.cfg w2.secret (ff 32) [0xDE, 0xAD] w2.rom (Crypto.selector w2.cfg 0x380 6))

theorem mac6_served : MacServed w2 6 0x380 [0xDE, 0xAD] mac6 (pageEs w2 6 0 (ff 32) []) := by
  unfold MacServed
  rw [show (w2.bank 6).authenticated = true by decide +kernel]
  refine ⟨(ff 32, []), ?_, rfl⟩
  rw [show (0x380 - (w2.bank 6).base) / 32 = 0 by decide +kernel]
  exact page_of 0 (by decide +kernel)

/-- A verified write of DE AD to page 0 of bank 6, with its MAC. -/
def write6Es : List Event :=
  chunkEs w2 6 0x380 [0xDE, 0xAD] mac6 (pageEs w2 6 0 (ff 32) []) (pageEs w2 6 0 ([0xDE, 0xAD] ++ ff 30) [])

theorem write6_served : WriteServed w2 6 0 [0xDE, 0xAD] true write6Es := by
  have hv : VerifySent w2 6 0x380 2 [0xDE, 0xAD] (pageEs w2 6 0 ([0xDE, 0xAD] ++ ff 30) []) :=
    verify_of (by decide +kernel) (by decide +kernel) (by decide +kernel) (by decide +kernel)
  exact write1_of (by decide +kernel) (by decide +kernel) (chunk_of mac6_served (by decide +kernel) hv)

/-- A write of D0 to page 0 of bank 0 that reads back as D1. -/
def differsEs : List Event := chunkEs w0 0 0 [0xD0] [] [] (pageEs w0 0 0 (0xD1 :: ff 31) [])

theorem differs_served : WriteDiffers w0 0 0 [0xD0] differsEs := by
  have h : ChunkSent w0 0 0 [0xD0] true [0xD1] differsEs :=
    chunkV_of (w := w0) (b := 0) (by decide +kernel) (by decide +kernel) (by decide +kernel) (by decide +kernel) (by decide +kernel)
      (by decide +kernel)
  exact differs1_of (by decide +kernel) (by decide +kernel) h (by decide)

theorem witness_WriteCompletes :
    (∃ s, s.quiet = true ∧ Allowed (.write 0) s ∧ s.arg1.toNat = 0 ∧ s.arg0 = 256) ∧
    (∃ s es, Serves (.write 1) s es ∧ 1 ≤ s.arg1.toNat ∧
      WriteServed s.link 1 s.arg0.toNat (dataRun s s.arg2.toNat s.arg1.toNat) (s.wverify.getLsbD 1) es) ∧
    (∃ s es, Serves (.write 6) s es ∧ 1 ≤ s.arg1.toNat ∧
      WriteServed s.link 6 s.arg0.toNat (dataRun s s.arg2.toNat s.arg1.toNat) (s.wverify.getLsbD 6) es) ∧
    (∃ s es, Serves (.write 0) s es ∧ 1 ≤ s.arg1.toNat ∧
      WriteDiffers s.link 0 s.arg0.toNat (dataRun s s.arg2.toNat s.arg1.toNat) es ∧ s.wverify.getLsbD 0 = true) :=
  ⟨⟨s0o [] 256 0 256 none', rfl, allowed_of (by decide +kernel), rfl, rfl⟩,
   ⟨_, write1Es, serves_of (s := s0o [0xF0, 0x0F] 0 2 0 none') (by decide +kernel), by decide, write1_served⟩,
   ⟨_, write6Es, serves_of (s := holding sec2 .secretActive (s0o [0xDE, 0xAD] 0 2 0 none')) (by decide +kernel), by decide,
     write6_served⟩,
   ⟨_, differsEs, serves_of (s := s0o [0xD0] 0 1 0 none') (by decide +kernel), by decide, differs_served, by decide⟩⟩

/-- The pages of vectors 3.4.2 and 3.4.3, and a packet of another page. -/
theorem witness_ReadPagePacketCompletes :
    (∃ s pg es, Serves (.readPagePacket 0 false) s es ∧ WholePageServed s 0 s.arg0.toNat false pg es ∧
      (byteAt pg.1 0).toNat + 3 ≤ (s.cfg.bank 0).pageLength ∧
      (slice pg.1 0 ((byteAt pg.1 0).toNat + 3)).foldl crc16Step (BitVec.ofNat 16 s.arg0.toNat) = 0xB001) ∧
    (∃ s pg es, Serves (.readPagePacket 0 false) s es ∧ WholePageServed s 0 s.arg0.toNat false pg es ∧
      (s.cfg.bank 0).pageLength < (byteAt pg.1 0).toNat + 3 ∧ (byteAt pg.1 0).toNat + 2 = (s.cfg.bank 0).pageLength) ∧
    (∃ s pg es, Serves (.readPagePacket 0 false) s es ∧ WholePageServed s 0 s.arg0.toNat false pg es ∧
      (byteAt pg.1 0).toNat + 3 ≤ (s.cfg.bank 0).pageLength ∧
      (slice pg.1 0 ((byteAt pg.1 0).toNat + 3)).foldl crc16Step (BitVec.ofNat 16 s.arg0.toNat) ≠ 0xB001) :=
  ⟨⟨_, (hello ++ ff 24, []), pageEs w0 0 2 (hello ++ ff 24) [], serves_of (s := s0o [] 2 227 0 none') (by decide +kernel),
     page_of (w := w0) (b := 0) 2 (by decide +kernel), by decide +kernel, by decide +kernel⟩,
   ⟨_, (30 :: ff 31, []), pageEs w0 0 2 (30 :: ff 31) [], serves_of (s := s0o [] 2 227 0 none') (by decide +kernel),
     page_of (w := w0) (b := 0) 2 (by decide +kernel), by decide +kernel, by decide +kernel⟩,
   ⟨_, (hello ++ ff 24, []), pageEs w0 0 3 (hello ++ ff 24) [], serves_of (s := s0o [] 3 227 0 none') (by decide +kernel),
     page_of (w := w0) (b := 0) 3 (by decide +kernel), by decide +kernel, by decide +kernel⟩⟩

/-- A write of `hello` to page 2 of bank 0 that reads back as `pay` (vector 3.4.1, up to echo bytes). -/
def helloEs (pay : List Byte) : List Event := chunkEs w0 0 0x40 hello [] [] (pageEs w0 0 2 pay [])

theorem hello_sent (pay got : List Byte) (h : pageOk (w0.bank 0) pay [] = true)
    (hg : slice pay ((0x40 - (w0.bank 0).base) % (w0.bank 0).pageLength)
      ((0x40 - (w0.bank 0).base) % (w0.bank 0).pageLength + hello.length) = got) :
    ChunkSent w0 0 0x40 hello true got (helloEs pay) :=
  chunkV_of (w := w0) (b := 0) (by decide +kernel) (by decide +kernel) (by decide +kernel) (by decide +kernel) h hg

/-- The state of vector 3.4.1. -/
def packing : State := s0o [0x48, 0x45, 0x4C, 0x4C, 0x4F] 2 5 0 none'

theorem packing_writes (es : List Event) :
    (serving es packing).link = w0 ∧ (serving es packing).arg0.toNat * ((serving es packing).cfg.bank 0).pageLength = 0x40 ∧
    packet (serving es packing).arg0.toNat
      (dataRun (serving es packing) (serving es packing).arg2.toNat (serving es packing).arg1.toNat) = hello ∧
    (serving es packing).wverify.getLsbD 0 = true := by
  have h : packet packing.arg0.toNat (dataRun packing packing.arg2.toNat packing.arg1.toNat) = hello := by decide +kernel
  exact ⟨rfl, by show packing.arg0.toNat * (c0.bank 0).pageLength = 0x40; decide +kernel, h, by show packing.wverify.getLsbD 0 = true; decide +kernel⟩

theorem witness_WritePagePacketCompletes :
    (∃ s es, Serves (.writePagePacket 0) s es ∧ WriteServed s.link 0 (s.arg0.toNat * (s.cfg.bank 0).pageLength)
      (packet s.arg0.toNat (dataRun s s.arg2.toNat s.arg1.toNat)) (s.wverify.getLsbD 0) es) ∧
    (∃ s es, Serves (.writePagePacket 0) s es ∧ WriteDiffers s.link 0 (s.arg0.toNat * (s.cfg.bank 0).pageLength)
      (packet s.arg0.toNat (dataRun s s.arg2.toNat s.arg1.toNat)) es ∧ s.wverify.getLsbD 0 = true) := by
  refine ⟨⟨_, helloEs (hello ++ ff 24), serves_of (s := packing) (by decide +kernel), ?_⟩,
    ⟨_, helloEs (ff 32), serves_of (s := packing) (by decide +kernel), ?_, (packing_writes _).2.2.2⟩⟩
  · obtain ⟨h1, h2, h3, h4⟩ := packing_writes (helloEs (hello ++ ff 24))
    rw [h1, h2, h3, h4]
    exact write1_of (by decide +kernel) (by decide +kernel) (hello_sent _ _ (by decide +kernel) (by decide +kernel))
  · obtain ⟨h1, h2, h3, -⟩ := packing_writes (helloEs (ff 32))
    rw [h1, h2, h3]
    exact differs1_of (got := ff 8) (by decide +kernel) (by decide +kernel) (hello_sent _ _ (by decide +kernel) (by decide +kernel)) (by decide)

/-- Staging on bank 1, whose lock page is read first. -/
theorem witness_SpStageCompletes :
    ∃ s e1 e2, Serves (.spStage 1) s (e1 ++ e2) ∧ LockTested s.link 1 (s.arg0.toNat / (s.cfg.bank 1).pageLength) false e1 ∧
      StageServed s.link 1 ((s.cfg.bank 1).base + s.arg0.toNat)
        (dataRun s s.arg2.toNat (chunkSize s.cfg (s.cfg.bank 1) s.arg0.toNat s.arg1.toNat)) e2 :=
  ⟨_, pageEs w0 2 0 (ff 8) [], stageEs w0 1 0x11E [0xD0, 0xD1], serves_of (s := s0o [0xD0, 0xD1, 0xD2] 30 3 0 none') (by decide +kernel),
    lock1_of 0 0xFF false rfl rfl (by decide +kernel) (by decide), stage_of (w := w0) (b := 1) (ta := 0x11E) (by decide +kernel)⟩

/-- The record of 3.5.1, and a read-back that agrees and one that does not. -/
theorem witness_SpConfirmCompletes :
    (∃ s e es, Serves (.spConfirm 0) s es ∧ ConfirmServed s.link s.sp e es) ∧
    (∃ s es, Serves (.spConfirm 0) s es ∧ ConfirmFails s.link s.sp es) :=
  ⟨⟨_, 0x1F, confirmEs w0 staged.sp staged.sp, serves_of (s := { staged with arg0 := 221 }) (by decide +kernel),
     confirm_of (w := w0) (p := staged.sp) (by decide +kernel)⟩,
   ⟨_, confirmEs w0 staged.sp { staged.sp with data := [0xD0, 0xD3] }, serves_of (s := { staged with arg0 := 221 }) (by decide +kernel),
     _, readback_of (w := w0) (p := staged.sp) (q := { staged.sp with data := [0xD0, 0xD3] }) (by decide +kernel),
     fun h => absurd (agrees_iff.2 h) (by decide +kernel)⟩⟩

/-- A confirmed record on bank 6, with the secret of 3.7.2. -/
def confirmed6 : State := holding sec2 .secretActive { s0o [] 0 0 0 none' with sp := ⟨.confirmed, 6, 0x380, 0x01, [0xDE, 0xAD]⟩ }

theorem witness_SpCommitCompletes :
    (∃ s e1 e2, Serves (.spCommit 0) s (e1 ++ e2) ∧ MacServed s.link 0 s.sp.ta.toNat s.sp.data [] e1 ∧
      CommitServed s.link 0 s.sp.ta.toNat s.sp.es [] e2) ∧
    (∃ s mac e1 e2, Serves (.spCommit 6) s (e1 ++ e2) ∧ MacServed s.link 6 s.sp.ta.toNat s.sp.data mac e1 ∧
      CommitServed s.link 6 s.sp.ta.toNat s.sp.es mac e2) ∧
    (∃ s e1 e2, Serves (.spCommit 0) s (e1 ++ e2) ∧ MacServed s.link 0 s.sp.ta.toNat s.sp.data [] e1 ∧
      CommitSent s.link 0 s.sp.ta.toNat s.sp.es [] (List.replicate s.cfg.pollMax 0xFF) e2) ∧
    (∃ s mac e1 e2, Serves (.spCommit 6) s (e1 ++ e2) ∧ MacServed s.link 6 s.sp.ta.toNat s.sp.data mac e1 ∧
      CommitSent s.link 6 s.sp.ta.toNat s.sp.es mac (List.replicate 15 0xFF ++ [0x12]) e2 ∧ 15 < s.cfg.pollMax) ∧
    (∃ s e1 e2, Serves (.spCommit 0) s (e1 ++ e2) ∧ MacServed s.link 0 s.sp.ta.toNat s.sp.data [] e1 ∧
      CommitSent s.link 0 s.sp.ta.toNat s.sp.es [] (List.replicate 0 0xFF ++ [0x12]) e2) :=
  ⟨⟨_, [], commitEs w0 0 0x1E 0x1F [] done2, serves_of (s := confirmed) (by decide +kernel), noMac (by decide +kernel),
     commitServed_of (w := w0) 0 0x1E 0x1F [] (by decide) (by decide)⟩,
   ⟨_, mac6, pageEs w2 6 0 (ff 32) [], commitEs w2 6 0x380 0x01 mac6 done2, serves_of (s := confirmed6) (by decide +kernel),
     mac6_served, commitServed_of (w := w2) 6 0x380 0x01 mac6 (by decide) (by decide)⟩,
   ⟨_, [], commitEs w0 0 0x1E 0x1F [] (List.replicate 16 0xFF), serves_of (s := confirmed) (by decide +kernel),
     noMac (by decide +kernel), commit_of (w := w0) 0 0x1E 0x1F [] _ (by decide)⟩,
   ⟨_, mac6, pageEs w2 6 0 (ff 32) [], commitEs w2 6 0x380 0x01 mac6 (List.replicate 15 0xFF ++ [0x12]),
     serves_of (s := confirmed6) (by decide +kernel), mac6_served, commit_of (w := w2) 6 0x380 0x01 mac6 _ (by decide), by decide⟩,
   ⟨_, [], commitEs w0 0 0x1E 0x1F [] (List.replicate 0 0xFF ++ [0x12]), serves_of (s := confirmed) (by decide +kernel),
     noMac (by decide +kernel), commit_of (w := w0) 0 0x1E 0x1F [] _ (by decide)⟩⟩

/-! Control banks. -/

/-- A bit of a control bank of 8-byte pages, its page 0 holding `pay`. -/
theorem bit_of {l q : Nat} {pay : List Byte} {cleared : Bool} (hl : (w0.bank l).pageLength = 8) (hq : q / 8 / 8 = 0)
    (h : pageOk (w0.bank l) pay [] = true) (hc : cleared = !(byteAt pay (q / 8 % 8)).getLsbD (q % 8)) :
    BitRead w0 l q cleared (pageEs w0 l 0 pay []) := by
  refine ⟨(pay, []), ?_, ?_⟩
  · rw [hl, hq]; exact page_of 0 h
  · rw [hl]; exact hc

/-- A bit clear of bit `q` of byte 0 of control bank `l` at `ta`, the bit reading as in `v`. -/
def clearEs (l ta : Nat) (d v : Byte) : List Event := chunkEs w0 l ta [d] [] [] [] ++ pageEs w0 l 0 (v :: ff 7) []

/-- Page 3 of bank 1, and redirect byte 7 of bank 1: the last of each; the bit clears or does not. -/
theorem witness_LockCommandsComplete :
    (∀ cleared : Bool, ∃ s es, Serves (.lockPage 1) s es ∧ (s.cfg.bank 1).lockBank = some 2 ∧
      BitClearSent s.link 2 ((s.cfg.bank 1).lockOffset + s.arg0.toNat) cleared es) ∧
    (∀ cleared : Bool, ∃ s es, Serves (.lockRedirectPage 1) s es ∧ (s.cfg.bank 1).rlockBank = some 4 ∧
      BitClearSent s.link 4 ((s.cfg.bank 1).rlockOffset + s.arg0.toNat) cleared es) := by
  have h2 : ∀ v cleared, pageOk (w0.bank 2) (v :: ff 7) [] = true → cleared = !v.getLsbD 3 →
      BitClearSent w0 2 3 cleared (clearEs 2 0x200 0xF7 v) := fun v cleared h hc =>
    ⟨_, _, rfl, chunkN_of (w := w0) (b := 2) (by decide +kernel) (by decide +kernel), bit_of (by decide +kernel) rfl h hc⟩
  have h4 : ∀ v cleared, pageOk (w0.bank 4) (v :: ff 7) [] = true → cleared = !v.getLsbD 7 →
      BitClearSent w0 4 7 cleared (clearEs 4 0x210 0x7F v) := fun v cleared h hc =>
    ⟨_, _, rfl, chunkN_of (w := w0) (b := 4) (by decide +kernel) (by decide +kernel), bit_of (by decide +kernel) rfl h hc⟩
  refine ⟨fun cleared => ?_, fun cleared => ?_⟩
  · cases cleared
    · exact ⟨_, _, serves_of (s := s0o [] 3 0 0 none') (by decide +kernel), by decide +kernel, h2 0xFF _ (by decide +kernel) (by decide)⟩
    · exact ⟨_, _, serves_of (s := s0o [] 3 0 0 none') (by decide +kernel), by decide +kernel, h2 0xF7 _ (by decide +kernel) (by decide)⟩
  · cases cleared
    · exact ⟨_, _, serves_of (s := s0o [] 7 0 0 none') (by decide +kernel), by decide +kernel, h4 0xFF _ (by decide +kernel) (by decide)⟩
    · exact ⟨_, _, serves_of (s := s0o [] 7 0 0 none') (by decide +kernel), by decide +kernel, h4 0x7F _ (by decide +kernel) (by decide)⟩

theorem witness_LockQueriesComplete :
    (∃ s pg es, Serves (.isPageLocked 1) s es ∧ (s.cfg.bank 1).lockBank = some 2 ∧
      PageServed s.link 2 (((s.cfg.bank 1).lockOffset + s.arg0.toNat) / 8 / (s.cfg.bank 2).pageLength) pg es) ∧
    (∃ s pg es, Serves (.isRedirectPageLocked 1) s es ∧ (s.cfg.bank 1).rlockBank = some 4 ∧
      PageServed s.link 4 (((s.cfg.bank 1).rlockOffset + s.arg0.toNat) / 8 / (s.cfg.bank 4).pageLength) pg es) :=
  ⟨⟨_, _, pageEs w0 2 0 (ff 8) [], serves_of (s := s0o [] 7 0 0 none') (by decide +kernel), by decide +kernel,
     page_of (w := w0) (b := 2) 0 (by decide +kernel)⟩,
   ⟨_, _, pageEs w0 4 0 (0xFB :: ff 7) [], serves_of (s := s0o [] 2 0 0 none') (by decide +kernel), by decide +kernel,
     page_of (w := w0) (b := 4) 0 (by decide +kernel)⟩⟩

/-- Vector 3.6.5, up to echo bytes. -/
def redirectEs : List Event := chunkEs w0 3 0x20A [0xFA] [] [] (pageEs w0 3 0 ([0xFF, 0xFF, 0xFA] ++ ff 5) [])

theorem redirect_served : ChunkServed w0 3 0x20A [0xFA] true redirectEs :=
  chunkV_of (w := w0) (b := 3) (by decide +kernel) (by decide +kernel) (by decide +kernel) (by decide +kernel) (by decide +kernel)
    (by decide +kernel)

theorem witness_RedirectPageCompletes :
    (∃ s e1 e2, Serves (.redirectPage 1) s (e1 ++ e2) ∧ (s.cfg.bank 1).redirBank = some 3 ∧
      LinkTested s.link (s.cfg.bank 1).rlockBank ((s.cfg.bank 1).rlockOffset + s.arg0.toNat) false e1 ∧
      ChunkServed s.link 3 ((s.cfg.bank 3).base + ((s.cfg.bank 1).redirOffset + s.arg0.toNat)) [~~~ BitVec.ofNat 8 s.arg1.toNat]
        true e2) ∧
    (∃ s e1, Serves (.redirectPage 1) s e1 ∧ (s.cfg.bank 1).redirBank = some 3 ∧
      LinkTested s.link (s.cfg.bank 1).rlockBank ((s.cfg.bank 1).rlockOffset + s.arg0.toNat) true e1) := by
  have h : ∀ v frozen, pageOk (w0.bank 4) (v :: ff 7) [] = true → frozen = !v.getLsbD 2 →
      LinkTested w0 (w0.bank 1).rlockBank ((w0.bank 1).rlockOffset + 2) frozen (pageEs w0 4 0 (v :: ff 7) []) := fun v frozen hv hf => by
    rw [show (w0.bank 1).rlockBank = some 4 by decide +kernel]
    exact bit_of (q := 2) (by decide +kernel) rfl hv hf
  exact ⟨⟨_, pageEs w0 4 0 (ff 8) [], redirectEs, serves_of (s := s0o [] 2 5 0 none') (by decide +kernel), by decide +kernel,
      h 0xFF _ (by decide +kernel) (by decide), redirect_served⟩,
    ⟨_, pageEs w0 4 0 (0xFB :: ff 7) [], serves_of (s := s0o [] 2 5 0 none') (by decide +kernel), by decide +kernel,
      h 0xFB _ (by decide +kernel) (by decide)⟩⟩

theorem witness_GetRedirectedPageCompletes :
    ∃ s pg es, Serves (.getRedirectedPage 1) s es ∧ (s.cfg.bank 1).redirBank = some 3 ∧
      PageServed s.link 3 (((s.cfg.bank 1).redirOffset + s.arg0.toNat) / (s.cfg.bank 3).pageLength) pg es := by
  refine ⟨_, ([0xFF, 0xFF, 0xFA] ++ ff 5, []), pageEs w0 3 0 ([0xFF, 0xFF, 0xFA] ++ ff 5) [],
    serves_of (s := s0o [] 2 0 0 none') (by decide +kernel), by decide +kernel, ?_⟩
  show PageServed w0 3 (((w0.bank 1).redirOffset + 2) / (w0.bank 3).pageLength) _ _
  rw [show ((w0.bank 1).redirOffset + 2) / (w0.bank 3).pageLength = 0 by decide +kernel]
  exact page_of 0 (by decide +kernel)

/-! The secret engine. -/

/-- The link of the state before 3.7.2. -/
def w1 : Link := (toBind []).link

/-- A verified write of page 0 of bank 5. -/
def page5Es (w : Link) (d : List Byte) : List Event := chunkEs w 5 0x300 d [] [] (pageEs w 5 0 d (ff 4))

/-- What makes it serve. -/
def page5Ok (w : Link) (d : List Byte) : Bool :=
  stages w 5 0x300 d && pageOk (w.bank 5) d (ff 4) && (slice d 0 d.length == d) && !(w.bank 5).authenticated &&
  (w.bank 5).pageAutoCrc && ((w.bank 5).lockBank == none) && ((w.bank 5).base == 0x300) && ((w.bank 5).pageLength == 32) &&
  (chunks w.cfg (w.bank 5) 0 d.length == [⟨0x300, 0, d.length⟩])

theorem page5_served {w : Link} {d : List Byte} (h : page5Ok w d = true) : WriteServed w 5 (0 * 32) d true (page5Es w d) := by
  simp only [page5Ok, Bool.and_eq_true, beq_iff_eq, Bool.not_eq_true'] at h
  obtain ⟨⟨⟨⟨⟨⟨⟨⟨h1, h2⟩, h3⟩, h4⟩, h5⟩, h6⟩, h7⟩, h8⟩, h9⟩ := h
  refine write1_of h6 (by rw [Nat.zero_mul]; exact h9) (chunkV_of h4 h1 h5 (by rw [h7, h8]) h2 ?_)
  rw [h7, h8]
  simpa using h3

def shaEs (w : Link) (sp15 : List Byte) (fn : Byte) : List Event :=
  stagedEs w 5 0x308 sp15 ++ [w.select, .exchange (frameHead (w.bank 5).opcSha 0x300 ++ [fn]) (ff 4), .sleep w.cfg.tShaMs,
    .getByte 0xAA]

/-- Where the round of page 0 of bank 5 stages. -/
def shaOk (w : Link) (sp15 : List Byte) : Bool :=
  stages w 5 0x308 sp15 && ((w.bank 5).base + 0 * (w.bank 5).pageLength == 0x300) && (w.cfg.spSecretOffset == 8)

theorem sha_of {w : Link} {sp15 : List Byte} (fn : Byte) (h : shaOk w sp15 = true) : ShaServed w 5 0 sp15 fn (shaEs w sp15 fn) := by
  simp only [shaOk, Bool.and_eq_true, beq_iff_eq] at h
  obtain ⟨⟨h1, h2⟩, h3⟩ := h
  refine ⟨stagedEs w 5 0x308 sp15, (stagedRecord w 5 0x308 sp15).es, ff 4, 0xAA, ?_, ?_, by decide, .inl rfl⟩
  · rw [h2]; rfl
  · rw [h2, h3]; exact staged_of h1

/-- The first 32 bytes of the padded secret of 3.7.1. -/
def chunk32 : List Byte := [1, 2, 3, 4, 5, 6, 7, 8] ++ rep 0 24

/-- The padded secret of 3.7.1. -/
def padded : List Byte := [1, 2, 3, 4, 5, 6, 7, 8] ++ rep 0 39

def installEs : List Event :=
  (page5Es w0 chunk32 ++ (shaEs w0 (rep 0 15) w0.cfg.fnFirstSecret ++ [])) ++
    (page5Es w0 (rep 0 32) ++ transferEs w0 5 0x400 sec1 [])

theorem install_served : InstallSecretServed w0 5 0 0 padded 1 true installEs := by
  have h1 : slice (slice padded (47 * 0) (47 * 0 + 47)) 0 32 = chunk32 := by decide +kernel
  have h2 : slice (slice padded (47 * 0) (47 * 0 + 47)) 32 47 = rep 0 15 := by decide +kernel
  have h3 : installedSecret w0.cfg padded 1 0 (List.replicate 8 0x00) = sec1 := by decide +kernel
  refine ⟨_, _, _, rfl, ⟨_, _, _, rfl, ?_, ?_, rfl⟩, page5_served (by decide +kernel), ?_⟩
  · rw [h1]; exact page5_served (by decide +kernel)
  · rw [h2]; exact sha_of _ (by decide +kernel)
  · rw [h3]; exact transfer_of (w := w0) (b := 5) (ta := 0x400) (by decide +kernel)

/-- The inputs of 3.7.1. -/
theorem witness_InstallSecretCompletes :
    ∃ s es, Serves (.installSecret 5 0) s es ∧ InstallSecretServed s.link 5 0 s.arg0.toNat
      (dataRun s s.arg2.toNat s.arg1.toNat ++ List.replicate (47 * ((s.arg1.toNat + 46) / 47) - s.arg1.toNat) 0x00)
      ((s.arg1.toNat + 46) / 47) (s.wverify.getLsbD 5) es := by
  refine ⟨_, installEs, serves_of (s := s0o [1, 2, 3, 4, 5, 6, 7, 8] 0 8 0 none') (by decide +kernel), ?_⟩
  generalize hs : serving installEs (s0o [1, 2, 3, 4, 5, 6, 7, 8] 0 8 0 none') = s
  have h : dataRun s s.arg2.toNat s.arg1.toNat ++ List.replicate (47 * ((s.arg1.toNat + 46) / 47) - s.arg1.toNat) 0x00 = padded ∧
      s.arg0.toNat = 0 ∧ (s.arg1.toNat + 46) / 47 = 1 ∧ s.wverify.getLsbD 5 = true ∧ s.link = w0 := by rw [← hs]; decide +kernel
  rw [h.1, h.2.1, h.2.2.1, h.2.2.2.1, h.2.2.2.2]
  exact install_served

/-- `sp15` of 3.7.2. -/
def sp15a : List Byte := [0x10, 0x11, 0x12, 0x13, 0x00, 0x33, 0x11, 0x22, 0x33, 0x44, 0x55, 0x66, 0x14, 0x15, 0x16]

def bindEs : List Event := page5Es w1 (rep 0 32) ++ (shaEs w1 sp15a w1.cfg.fnNextSecret ++ transferEs w1 5 0x400 sec2 [])

theorem bind_served : BindSecretServed w1 5 0 0 (rep 0 32) sp15a sec2 true bindEs :=
  ⟨_, _, _, rfl, page5_served (by decide +kernel), sha_of _ (by decide +kernel),
    transfer_of (w := w1) (b := 5) (ta := 0x400) (by decide +kernel)⟩

theorem witness_BindSecretCompletes :
    ∃ s es, Serves (.bindSecret 5 0 true) s es ∧
      (let bd := dataRun s s.arg1.toNat 32
       let sp15 := Crypto.autoFormat s.cfg (dataRun s (s.arg1.toNat + 32) 7) s.arg0.toNat s.rom
       BindSecretServed s.link 5 0 s.arg0.toNat bd sp15 (devSecret s.cfg s.hostSecret bd sp15) (s.wverify.getLsbD 5) es) := by
  refine ⟨_, bindEs, serves_of (s := toBind []) (by decide +kernel), ?_⟩
  generalize hs : serving bindEs (toBind []) = s
  have h : dataRun s s.arg1.toNat 32 = rep 0 32 ∧
      Crypto.autoFormat s.cfg (dataRun s (s.arg1.toNat + 32) 7) s.arg0.toNat s.rom = sp15a ∧
      devSecret s.cfg s.hostSecret (rep 0 32) sp15a = sec2 ∧ s.wverify.getLsbD 5 = true ∧
      s.link = w1 ∧ s.arg0.toNat = 0 := by rw [← hs]; decide +kernel
  simp only
  rw [h.1, h.2.1, h.2.2.1, h.2.2.2.1, h.2.2.2.2.1, h.2.2.2.2.2]
  exact bind_served

/-- `sp15` of 3.7.5. -/
def sp15b : List Byte := [0xA0, 0xA1, 0xA2, 0xA3, 0xA4, 0xA5, 0xA6, 0xA7, 0x33, 0x11, 0x22, 0x33, 0x44, 0x55, 0x66]

def nextEs : List Event := pageEs w2 5 0 (rep 0 32) (ff 4) ++ shaEs w2 sp15b w2.cfg.fnNextSecret

theorem witness_ComputeNextSecretCompletes :
    ∃ s pg es, Serves (.computeNextSecret 5) s es ∧
      NextSecretServed s.link 5 s.arg0.toNat pg (dataRun s s.arg1.toNat 8 ++ s.rom.take 7) es := by
  refine ⟨_, (rep 0 32, ff 4), nextEs,
    serves_of (s := holding sec2 .secretActive (s0o (sp15b.take 8) 0 0 0 none')) (by decide +kernel), ?_⟩
  generalize hs : serving nextEs (holding sec2 .secretActive (s0o (sp15b.take 8) 0 0 0 none')) = s
  have h : dataRun s s.arg1.toNat 8 ++ s.rom.take 7 = sp15b ∧ s.link = w2 ∧ s.arg0.toNat = 0 := by rw [← hs]; decide +kernel
  rw [h.1, h.2.1, h.2.2]
  exact ⟨_, _, rfl, page_of (w := w2) (b := 5) 0 (by decide +kernel), sha_of _ (by decide +kernel)⟩

/-- Bank 5. -/
def k5 : Bank := w0.bank 5

/-- The MAC of 3.7.3. -/
def mac3 : List Byte := [0xAD, 0x89, 0xD2, 0x0E, 0x68, 0x35, 0xBA, 0x2F, 0x4B, 0xAA, 0xF0, 0xF0, 0x49, 0x43, 0xC4, 0x1E, 0x56, 0xBB,
  0x3E, 0xD9]

def authAnswer : List Byte := sealed k5 0 ([0xA6, 0x00, 0x03] ++ rep 0 32 ++ ff 4)

def authEs (m : List Byte) : List Event :=
  stagedEs w2 5 0x314 [1, 2, 3] ++ [w2.select, .exchange (frameHead k5.opcReadAuth 0x300 ++ ff 38) authAnswer, .sleep w2.cfg.tShaMs,
    .exchange (ff 22) (sealed k5 0 m)]

theorem auth_served {m : List Byte}
    (h : (((sealed k5 0 m).length == 22) && crcOk 2 0 (sealed k5 0 m) && (slice (sealed k5 0 m) 0 20 == m)) = true) :
    AuthReadServed w2 5 0 [1, 2, 3] ⟨rep 0 32, ff 4, m⟩ (authEs m) := by
  simp only [Bool.and_eq_true, beq_iff_eq] at h
  refine ⟨stagedEs w2 5 0x314 [1, 2, 3], (stagedRecord w2 5 0x314 [1, 2, 3]).es, authAnswer, sealed k5 0 m, ?_,
    staged_of (w := w2) (b := 5) (ta := 0x314) (by decide +kernel), by decide +kernel, by decide +kernel, h.1.1, h.1.2, ?_⟩
  · have h1 : frameHead (w2.bank 5).opcReadAuth ((w2.bank 5).base + 0 * (w2.bank 5).pageLength) ++
        List.replicate (32 + (w2.bank 5).extraInfoLength + 2) 0xFF = frameHead k5.opcReadAuth 0x300 ++ ff 38 := by decide +kernel
    show _ = _ ++ [w2.select, .exchange (frameHead (w2.bank 5).opcReadAuth ((w2.bank 5).base + 0 * (w2.bank 5).pageLength) ++
        List.replicate (32 + (w2.bank 5).extraInfoLength + 2) 0xFF) _, _, _]
    rw [h1]; rfl
  have h1 : slice authAnswer 3 35 = rep 0 32 := by decide +kernel
  have h2 : slice authAnswer 35 (35 + (w2.bank 5).extraInfoLength) = ff 4 := by decide +kernel
  rw [h.2, h1, h2]

/-- The state before 3.7.3. -/
def toAuth : State := holding sec2 .secretActive (s0o [1, 2, 3] 0 0 0 none')

/-- The MAC of 3.7.3, and another. -/
theorem witness_AuthReadCompletesOrRejects :
    ∃ s s' r r' es es', Serves (.authRead 5) s es ∧ Serves (.authRead 5) s' es' ∧
      AuthReadServed s.link 5 s.arg0.toNat (dataRun s s.arg1.toNat s.cfg.chalLen) r es ∧
      AuthReadServed s'.link 5 s'.arg0.toNat (dataRun s' s'.arg1.toNat s'.cfg.chalLen) r' es' ∧
      r.mac = Crypto.sha1 s.cfg (Crypto.msgAuthRead s.cfg s.hostSecret r.page r.extra (dataRun s s.arg1.toNat s.cfg.chalLen) s.rom
        (Crypto.selector s.cfg ((s.cfg.bank 5).base + s.arg0.toNat * (s.cfg.bank 5).pageLength) 5)) ∧
      r'.mac ≠ Crypto.sha1 s'.cfg (Crypto.msgAuthRead s'.cfg s'.hostSecret r'.page r'.extra
        (dataRun s' s'.arg1.toNat s'.cfg.chalLen) s'.rom
        (Crypto.selector s'.cfg ((s'.cfg.bank 5).base + s'.arg0.toNat * (s'.cfg.bank 5).pageLength) 5)) :=
  ⟨_, _, ⟨rep 0 32, ff 4, mac3⟩, ⟨rep 0 32, ff 4, rep 0 20⟩, authEs mac3, authEs (rep 0 20),
    serves_of (s := toAuth) (by decide +kernel), serves_of (s := toAuth) (by decide +kernel), auth_served (by decide +kernel),
    auth_served (by decide +kernel), by decide +kernel, by decide +kernel⟩

/-! Refusals of the bus phase, and corrupted frames. -/

/-- A configuration whose bank 5 has its lock bits in bank 2. -/
def locked5 : Config := bankWith 5 fun k => { k with lockBank := some 2, lockOffset := 8 }

/-- Under `locked5`, the second byte of bank 2 holds `v`; page 0 of bank 5 is locked. -/
def lock5Es : List Event := pageEs w0 2 0 (0xFF :: 0xFE :: ff 6) []

theorem lock5_found {s : State} (h : ((s.link.cfg == locked5) && (s.link.rom == w0.rom)) = true) :
    LockFound s.link 5 0 1 lock5Es := by
  simp only [Bool.and_eq_true, beq_iff_eq] at h
  generalize s.link = w at h
  obtain ⟨c, rom, sec⟩ := w
  obtain ⟨rfl, rfl⟩ := h
  refine ⟨0, [], lock5Es, by decide, rfl, rfl, ?_⟩
  have hb : (locked5.bank 5).lockBank = some 2 ∧ ((locked5.bank 5).lockOffset + (0 + 0)) / 8 / (locked5.bank 2).pageLength = 0 ∧
      ((locked5.bank 5).lockOffset + (0 + 0)) / 8 % (locked5.bank 2).pageLength = 1 ∧
      ((locked5.bank 5).lockOffset + (0 + 0)) % 8 = 0 := by decide +kernel
  unfold LockTested
  show LinkTested _ (locked5.bank 5).lockBank ((locked5.bank 5).lockOffset + (0 + 0)) true _
  rw [hb.1]
  refine ⟨(0xFF :: 0xFE :: ff 6, []), ?_, ?_⟩
  · show PageServed _ 2 (((locked5.bank 5).lockOffset + (0 + 0)) / 8 / (locked5.bank 2).pageLength) _ _
    rw [hb.2.1]
    refine page_of (w := ⟨locked5, w0.rom, sec⟩) (b := 2) 0 ?_
    show pageOk (locked5.bank 2) _ _ = true
    decide +kernel
  · show true = !(byteAt _ (((locked5.bank 5).lockOffset + (0 + 0)) / 8 % (locked5.bank 2).pageLength)).getLsbD
      (((locked5.bank 5).lockOffset + (0 + 0)) % 8)
    rw [hb.2.2.1, hb.2.2.2]; decide

/-- The first page touched locked (vector 3.6.12), a later one locked, and the one page of the other commands. -/
theorem witness_LockedPagesAreNotWritten :
    (∃ s es, Serves (.write 1) s es ∧ 1 ≤ s.arg1.toNat ∧ LockFound s.link 1 (s.arg0.toNat / (s.cfg.bank 1).pageLength)
      (pagesTouched (s.cfg.bank 1) s.arg0.toNat s.arg1.toNat) es ∧ es.length = 2) ∧
    (∃ s es, Serves (.write 1) s es ∧ 1 ≤ s.arg1.toNat ∧ LockFound s.link 1 (s.arg0.toNat / (s.cfg.bank 1).pageLength)
      (pagesTouched (s.cfg.bank 1) s.arg0.toNat s.arg1.toNat) es ∧ es.length = 4) ∧
    (∃ s es, Serves (.writePagePacket 1) s es ∧ LockFound s.link 1 s.arg0.toNat 1 es) ∧
    (∃ s es, Serves (.spStage 1) s es ∧ LockFound s.link 1 (s.arg0.toNat / (s.cfg.bank 1).pageLength) 1 es) ∧
    (∃ s es, Serves (.installSecret 5 0) s es ∧ s.cfg.wf = true ∧ LockFound s.link 5 s.arg0.toNat 1 es) ∧
    (∃ s es, Serves (.bindSecret 5 0 true) s es ∧ s.cfg.wf = true ∧ LockFound s.link 5 s.arg0.toNat 1 es) := by
  have one : ∀ p v, p / 8 / 8 = 0 → p / 8 % 8 = 0 → pageOk (w0.bank 2) (v :: ff 7) [] = true → true = !v.getLsbD (p % 8) →
      ∀ n, 0 < n → LockFound w0 1 p n (pageEs w0 2 0 (v :: ff 7) []) := fun p v h1 h2 h3 h4 n hn =>
    ⟨0, [], _, hn, rfl, rfl, lock1_of p v true h1 h2 h3 h4⟩
  refine ⟨⟨_, pageEs w0 2 0 (0xF7 :: ff 7) [], serves_of (s := s0o [1, 2] 96 2 0 none') (by decide +kernel), by decide, ?_, rfl⟩,
    ⟨_, pageEs w0 2 0 (0xFD :: ff 7) [] ++ pageEs w0 2 0 (0xFD :: ff 7) [],
      serves_of (s := s0o [1, 2, 3, 4] 30 4 0 none') (by decide +kernel), by decide, ?_, rfl⟩,
    ⟨_, pageEs w0 2 0 (0xF7 :: ff 7) [], serves_of (s := s0o [1, 2] 3 2 0 none') (by decide +kernel),
      one 3 0xF7 rfl rfl (by decide +kernel) (by decide) 1 (by decide)⟩,
    ⟨_, pageEs w0 2 0 (0xF7 :: ff 7) [], serves_of (s := s0o [1, 2] 96 2 0 none') (by decide +kernel), ?_⟩,
    ⟨_, lock5Es, serves_of (s := { s0o [1] 0 1 0 none' with cfg := locked5 }) (by decide +kernel), by decide +kernel,
      lock5_found (by decide +kernel)⟩,
    ⟨_, lock5Es, serves_of (s := { toBind [] with cfg := locked5 }) (by decide +kernel), by decide +kernel,
      lock5_found (by decide +kernel)⟩⟩
  · exact one 3 0xF7 rfl rfl (by decide +kernel) (by decide) _ (by decide +kernel)
  · have h0 : pageOk (w0.bank 2) (0xFD :: ff 7) [] = true := by decide +kernel
    exact ⟨1, _, _, by decide +kernel, rfl,
      ⟨_, [], (List.append_nil _).symm, lock1_of 0 0xFD false rfl rfl h0 (by decide), rfl⟩,
      lock1_of 1 0xFD true rfl rfl h0 (by decide)⟩
  · exact one 3 0xF7 rfl rfl (by decide +kernel) (by decide) 1 (by decide)

/-- Bank 0. -/
def k0 : Bank := w0.bank 0

/-- A frame of bank 0 with its last bit flipped, framed, continued, and with the CRC after the address. -/
theorem witness_CorruptedPageFramesAreRejected :
    (∃ s es, Serves (.readPage 0 false false) s es ∧ s.cfg.wf = true ∧ 0 < s.cfg.nbanks ∧ (s.cfg.bank 0).pageAutoCrc = true ∧
      PageCorrupted s.link 0 s.arg0.toNat (wholePageContinues s 0 s.arg0.toNat false) es) ∧
    (∃ s es, Serves (.readPage 0 true false) s es ∧ s.cfg.wf = true ∧ 0 < s.cfg.nbanks ∧ (s.cfg.bank 0).pageAutoCrc = true ∧
      PageCorrupted s.link 0 s.arg0.toNat (wholePageContinues s 0 s.arg0.toNat true) es ∧
      wholePageContinues s 0 s.arg0.toNat true = true) ∧
    (∃ s es, Serves (.readPage 0 false false) s es ∧ s.cfg.wf = true ∧ 0 < s.cfg.nbanks ∧ (s.cfg.bank 0).pageAutoCrc = true ∧
      PageCorrupted s.link 0 s.arg0.toNat (wholePageContinues s 0 s.arg0.toNat false) es ∧
      (s.cfg.bank 0).crcAfterAddress = true) :=
  ⟨⟨_, [w0.select, .exchange (frameHead 0xA5 0 ++ ff 34) (flipBit (pageAnswer k0 (ff 32) []) 36 7)],
      serves_of (s := s0o [] 0 0 0 none') (by decide +kernel), by decide +kernel, by decide +kernel, by decide +kernel,
      pageAnswer k0 (ff 32) [], 36, 7, by decide +kernel, by decide, rfl, by decide +kernel, by decide +kernel⟩,
   ⟨_, [.exchange (ff 34) (flipBit (contAnswer k0 (ff 32) []) 0 0)],
      serves_of (s := { s0o [] 1 0 0 none' with cont := ⟨true, 0, .page, 32⟩ }) (by decide +kernel), by decide +kernel,
      by decide +kernel, by decide +kernel,
      ⟨contAnswer k0 (ff 32) [], 0, 0, by decide +kernel, by decide, rfl, by decide +kernel, by decide +kernel⟩, by decide +kernel⟩,
   ⟨_, [w0.select, .exchange (frameHead 0xA5 0x20 ++ ff 2) [0xA5, 0x20, 0x00, 0xF6, 0x1C],
        .exchange (ff 34) (flipBit (ff 32 ++ [0xFE, 0x5B]) 0 7)],
      serves_of (s := afterAddress) (by decide +kernel), by decide +kernel, by decide +kernel, by decide +kernel,
      ⟨ff 32 ++ [0xFE, 0x5B], 0, 7, by decide +kernel, by decide, _, rfl, by decide +kernel, by decide +kernel, by decide +kernel,
        by decide +kernel⟩, by decide +kernel⟩⟩

/-! The invariant and the reference device. -/

/-- A staged record, a read stream, a secret and the reference device. -/
def inside : State :=
  { staged with cont := ⟨true, 0, .page, 32⟩, auth := .secretActive, host := [⟨.write 0x000 .b32 0x22000000, none⟩] }

theorem witness_StepKeepsTheInvariant : ∃ s t : State, s.Inv ∧ step s = .next t := by
  have hinv : inside.Inv :=
    { cfg := by decide +kernel
      idle := rfl
      dataWf := by decide +kernel
      dataRange := by decide +kernel
      wverify := by decide +kernel
      secret := rfl
      auth := by decide
      session := rfl
      scratch := fun _ => by
        refine ⟨?_, ?_, ?_, ?_⟩ <;> decide +kernel
      cont := fun _ => by decide +kernel
      device := by
        intro r hr
        have h : (match inside.dev with | .oracle _ => true | .reference r => r.canonical) = true := by decide +kernel
        rw [hr] at h
        exact h }
  have h : (match step inside with | .next _ => true | .fault _ => false | .refused _ => false) = true := by decide +kernel
  split at h
  · exact ⟨_, _, hinv, ‹_›⟩
  · cases h
  · cases h

/-- A staged run in bank `b` at `ta`. -/
def rdmStaged (ta : HWord) : Rdm :=
  { Rdm.initial with
    spBuf := Memory.writeRun (some 0x00) [] (ta.toNat % 32) [0x3C, 0x3C]
    spTa := ta
    spEs := BitVec.ofNat 8 (ta.toNat % 32 + 1)
    spValid := true }

/-- Accepted on a plain bank and on a write-once bank, and not accepted. -/
theorem witness_RdmCopyIsAllOrNothing :
    ∀ p ∈ [((rdmStaged 0x001E, [0x55, 0x1E, 0x00, 0x1F], 0) : Rdm × List Byte × Nat), (rdmStaged 0x0100, [0x55, 0x00, 0x01, 0x01], 1),
        (rdmStaged 0x001E, [0x55, 0x1E, 0x00, 0x1E], 0)],
      p.1.canonical = true ∧ inSecret c0 (frameAddr p.2.1) = false ∧ frameBank c0 p.2.1 = some p.2.2 ∧
        ((p.1.spValid = true ∧ frameAddr p.2.1 = p.1.spTa.toNat ∧ byteAt p.2.1 3 = p.1.spEs ∧
          (c0.bank p.2.2).authenticated = false) ∨ byteAt p.2.1 3 ≠ p.1.spEs) := by decide +kernel

/-- 20_memory.md R111: without a MAC a copy to an authenticated bank is a MAC mismatch; one byte short of a MAC it is open. -/
theorem test_rdm_copyWithoutMac :
    ((rdmStaged 0x0380).copyBytes c0 [0x55, 0x80, 0x03, 0x01]).mode = .reject ∧
      ((rdmStaged 0x0380).copyBytes c0 ([0x55, 0x80, 0x03, 0x01] ++ ff 19)).pending.length = 23 ∧
      ((rdmStaged 0x0380).copyBytes c0 ([0x55, 0x80, 0x03, 0x01] ++ ff 20)).mode = .reject := by decide +kernel

/-- R105, R114: with `OPC_READ_AUTH` equal to `OPC_READ_CRC` the second exchange of 22 bytes answers the MAC and its seal. -/
theorem test_rdm_readAuthWithReadCrcsOpcode :
    let c : Config := bankWith 5 fun k => { k with opcReadAuth := k.opcReadCrc }
    let r := (({ Rdm.initial with selected := true } : Rdm).exchange c (frameHead 0xA5 0x300 ++ ff 38)).2
    (r.exchange c (ff 22)).1 = Rdm.initial.authMac c 5 0x300 ++ seal16 0 (Rdm.initial.authMac c 5 0x300) := by decide +kernel

/-- 00_scope.md R8, 20_memory.md R105: each bank has its own command bytes; a read-back and a stage into secret memory go by the
bank that staged, and another bank's byte is not recognised. -/
theorem test_rdm_commandBytesOfTheBank :
    let c : Config := bankWith 5 fun k => { k with opcWriteSp := 0x0E, opcReadSp := 0xAB }
    let ask (r : Rdm) (out : List Byte) : List Byte × Rdm := ({ r with selected := true } : Rdm).exchange c out
    let r := (ask Rdm.initial (frameHead 0x0E 0x308 ++ [1] ++ ff 2)).2
    slice (ask r (0xAB :: ff 6)).1 0 5 = [0xAB, 0x08, 0x03, 0x08, 0x01] ∧
      (ask r (frameHead 0x0E 0x400 ++ rep 2 8 ++ ff 2)).2.spTa = 0x400 ∧
      (ask Rdm.initial (frameHead 0x0F 0x308 ++ [1] ++ ff 2)).1 = ff 6 ∧
      (ask Rdm.initial (frameHead 0x0F 0x1E ++ [1] ++ ff 2)).2.spTa = 0x1E := by decide +kernel

/-- 45_auth.md R270 (log entry 34): with one function code for both, the device's secret follows the host's into the next. -/
theorem test_rdm_equalFunctionCodes :
    let c : Config := { refConfig with fnFirstSecret := refConfig.fnNextSecret }
    let r : Rdm := { rdmSecret sec1 with spValid := true }
    (r.sha c (frameHead 0x33 0x300 ++ [c.fnNextSecret])).dsec = devSecret c sec1 (rep 0 32) (rep 0 15) := by decide +kernel

/-- 00_scope.md R7, R9 (log entry 30): no rule refuses an empty challenge. -/
theorem test_config_emptyChallenge : Config.wf { refConfig with chalLen := 0 } = true := by decide +kernel

end Sys2Proof.Tests
end

section
/-! Proofs for the family 00_scope.md: what one step can do, what it keeps, and from that the invariant (O58, O59) and
when a step answers (O7). -/

namespace Sys2Proof.Machine

/-! The host's list and the secret, seen apart from the rest of the state. -/

theorem hostLegal_congr {s t : State} (hc : t.cfg = s.cfg) (hh : t.host = s.host) : t.hostLegal = s.hostLegal := by
  unfold State.hostLegal
  rw [hc, hh]

/-- Dropping the head of the host's list leaves a legal list legal. -/
theorem hostLegal_tail {s : State} {op : HostOp} {rest : List HostOp} (hs : s.host = op :: rest)
    (hl : s.hostLegal = true) : State.hostLegal { s with host := rest } = true := ((hostLegal_cons hs).1 hl).2

theorem legal_head {s : State} {op : HostOp} {rest : List HostOp} (hs : s.host = op :: rest) (hl : s.hostLegal = true) :
    op.access.legal s.cfg = true := ((hostLegal_cons hs).1 hl).1

/-- A secret of eight bytes, and no install in progress (45_auth.md R260): the invariant's two fields about the secret. -/
structure State.SecretOk (s : State) : Prop where
  length : s.hostSecret.length = 8
  auth : s.auth ≠ .secretInstalling

theorem State.SecretOk.congr {s t : State} (h : s.SecretOk) (hs : t.hostSecret = s.hostSecret) (ha : t.auth = s.auth) :
    t.SecretOk := ⟨hs ▸ h.length, ha ▸ h.auth⟩

theorem secretOk_softReset (s : State) : (softReset s).SecretOk := ⟨rfl, AuthState.noConfusion⟩

/-- A transport procedure that `busView` does not see keeps the secret. -/
theorem State.SecretOk.rel {s t : State} (h : s.SecretOk) (k : Rel busView (start s) t) : t.SecretOk :=
  h.congr k.busFrame.hostSecret k.busFrame.auth

/-! DATA. -/

/-- From `s` to `t` DATA took at most one run of bytes, inside its 256 (20_memory.md R72). -/
def DataStep (s t : State) : Prop :=
  t.data = s.data ∨ ∃ o bs, t.data = Memory.writeRun none s.data o bs ∧ o + bs.length ≤ bufLen

theorem DataStep.wf {s t : State} (h : DataStep s t) (hs : Memory.wf none s.data = true) : Memory.wf none t.data = true := by
  rcases h with h | ⟨o, bs, h, -⟩ <;> rw [h]
  · exact hs
  · exact Memory.wf_writeRun _ _ _ _ hs

theorem DataStep.range {s t : State} (h : DataStep s t) (hs : ∀ cell ∈ s.data, cell.1 < bufLen) :
    ∀ cell ∈ t.data, cell.1 < bufLen := by
  rcases h with h | ⟨o, bs, h, hle⟩ <;> rw [h]
  · exact hs
  · intro cell hc
    rcases Memory.mem_writeRun _ _ _ _ _ hc with hin | hold
    · omega
    · exact hs cell hold

/-- An aligned access inside DATA ends inside it. -/
theorem aligned_le_bufLen {i : Nat} (w : Width) (hi : i < 0x100) (ha : i % w.bytes = 0) : i + w.bytes ≤ bufLen := by
  cases w <;> simp only [Width.bytes, bufLen] at ha ⊢ <;> omega

theorem PortKeeps.dataStep {s t : State} (h : PortKeeps s t) : DataStep s t := by
  rcases h.data with hd | ⟨i, w, v, hi, ha, hd⟩
  · exact .inl hd
  · exact .inr ⟨i, _, hd, by rw [leBytes_length]; exact aligned_le_bufLen w hi ha⟩

/-! What a step keeps, the secret apart. -/

/-- What a step from `s` to `t` keeps, whichever access or command it was. -/
structure StepKeeps (s t : State) : Prop where
  cfg : t.cfg = s.cfg
  idle : s.busy = false → t.busy = false
  legal : s.hostLegal = true → t.hostLegal = true
  data : s.sp.sound s.cfg → DataStep s t
  wverify : t.wverify = s.wverify ∨ ∃ v, t.wverify = v &&& wverifyMask s.cfg
  session : s.speedVerified = s.resumeEligible → t.speedVerified = t.resumeEligible
  scratch : s.sp.sound s.cfg → t.sp.sound s.cfg
  cont : t.cont = s.cont ∨ t.cont.valid = false ∨ t.cont.bank < s.cfg.nbanks
  device : s.deviceOk → t.deviceOk

theorem sound_of_idle (c : Config) {p : Scratch} (h : p.phase = .idle) : p.sound c := by
  simp [Scratch.sound, h]

theorem StepKeeps.refl (s : State) : StepKeeps s s :=
  ⟨rfl, id, id, fun _ => .inl rfl, .inl rfl, id, id, .inl rfl, id⟩

/-- Taking an access off the host's list before the rest of the step. -/
theorem StepKeeps.of_tail {s t : State} {op : HostOp} {rest : List HostOp} (hs : s.host = op :: rest)
    (h : StepKeeps { s with host := rest } t) : StepKeeps s t :=
  { h with legal := fun hl => h.legal (hostLegal_tail hs hl) }

theorem PortKeeps.stepKeeps {s t : State} (h : PortKeeps s t) : StepKeeps s t where
  cfg := h.cfg
  idle := fun hb => h.busy.trans hb
  legal := fun hl => (hostLegal_congr h.cfg h.host).trans hl
  data := fun _ => h.dataStep
  wverify := h.wverify
  session := fun hs => by
    rcases h.session with ⟨h1, h2⟩ | ⟨h1, h2⟩
    · rw [h1, h2, hs]
    · rw [h1, h2]
  scratch := fun hs => by
    rcases h.sp with hp | hp
    · rw [hp]; exact hs
    · exact sound_of_idle _ hp
  cont := h.cont.imp id .inl
  device := fun hd r hr => hd r (h.dev ▸ hr)

/-- A soft reset, of a state that kept what no command may change (70_reset_and_hazards.md R331, R332). -/
theorem stepKeeps_softReset {s u : State} (hc : u.cfg = s.cfg) (hd : u.data = s.data)
    (hl : s.hostLegal = true → u.hostLegal = true) (hdev : s.deviceOk → u.deviceOk) : StepKeeps s (softReset u) where
  cfg := hc
  idle := fun _ => rfl
  legal := hl
  data := fun _ => .inl hd
  wverify := .inr ⟨wverifyMask s.cfg, by rw [BitVec.and_self, ← hc]; rfl⟩
  session := fun _ => rfl
  scratch := fun _ => sound_of_idle _ rfl
  cont := .inr (.inl rfl)
  device := hdev

theorem Rel.wverify {s t : State} (h : Rel secView s t) : t.wverify = s.wverify := by
  have hv := h.view
  simp only [secView, Prod.mk.injEq] at hv
  obtain ⟨-, -, -, -, -, -, -, -, hw, -⟩ := hv
  exact hw

/-- A command that ends in an error (60_exceptions.md R304). -/
theorem stepKeeps_completeError {s u : State} (p : Phase) (c : Cause) (h : Rel secView (start s) u) :
    StepKeeps s (completeError p c u) where
  cfg := by simpa using h.cfg
  idle := fun _ => rfl
  legal := fun hl => (hostLegal_congr (by simp) (by simp)).trans (h.legal hl)
  data := fun _ => .inl (by simpa using h.data)
  wverify := .inl (by simpa using h.wverify)
  session := fun hs => by
    rw [completeError_speedVerified, completeError_resumeEligible, h.session hs]
  scratch := fun hs => by rw [completeError_sp]; exact h.scratch hs
  cont := by rw [completeError_cont]; exact h.cont.imp id .inl
  device := fun hd r hr => h.device hd r (by simpa using hr)

/-- A command that completes, after its last writes (60_exceptions.md R303). -/
theorem stepKeeps_completeOk {s u : State} (h : Rel secView (start s) u) (d : Memory) (k : Cont) (r : Word) (a : Byte)
    (b : HWord) (hd : s.sp.sound s.cfg → DataStep s { u with data := d }) (hk : k = u.cont ∨ k.bank < s.cfg.nbanks) :
    StepKeeps s (completeOk { u with data := d, cont := k, result := r, crc8 := a, crc16 := b }) where
  cfg := h.cfg
  idle := fun _ => rfl
  legal := h.legal
  data := hd
  wverify := .inl h.wverify
  session := h.session
  scratch := h.scratch
  cont := by
    rcases hk with rfl | hk
    · exact h.cont.imp id .inl
    · exact .inr (.inr hk)
  device := h.device

theorem Left.stepKeeps {s u : State} (h : Left (start s) u) : StepKeeps s (softReset u) :=
  stepKeeps_softReset h.cfg h.data h.legal h.device

theorem Worked.stepKeeps {i : Instr} {s t : State} (h : Worked secView i (start s) t) : StepKeeps s (completeOk t) := by
  obtain ⟨u, hu, d, k, r, rfl, hd, hk⟩ := h
  refine stepKeeps_completeOk hu d k r u.crc8 u.crc16 (fun hs => ?_) (hk.imp id fun hk => hk.2.1)
  rcases hd with rfl | ⟨-, o, bs, rfl, hle⟩
  · exact .inl hu.data
  · exact .inr ⟨o, bs, by rw [hu.data]; rfl, hle hs⟩

/-! How an outcome answers. -/

/-- An outcome of a step from `s`: a next state that keeps what a step keeps, or a stop that an illegal host access caused. -/
def Answers (s : State) : Host.Outcome State Fault Refusal → Prop
  | .next t => StepKeeps s t
  | .fault _ => s.hostLegal = false
  | .refused _ => s.hostLegal = false

theorem Answers.of_tail {s : State} {op : HostOp} {rest : List HostOp} {o : Host.Outcome State Fault Refusal}
    (hs : s.host = op :: rest) (h : Answers { s with host := rest } o) : Answers s o := by
  have illegal : State.hostLegal { s with host := rest } = false → s.hostLegal = false := fun hf => by
    by_contra hl
    rw [hostLegal_tail hs (by simpa using hl)] at hf
    cases hf
  cases o with
  | next t => exact StepKeeps.of_tail hs h
  | fault f => exact illegal h
  | refused r => exact illegal h

theorem Answers.next_of_legal {s : State} {o : Host.Outcome State Fault Refusal} (h : Answers s o)
    (hl : s.hostLegal = true) : ∃ t, o = .next t ∧ StepKeeps s t := by
  cases o with
  | next t => exact ⟨t, rfl, h⟩
  | fault f => exact absurd (h.symm.trans hl) (by decide)
  | refused r => exact absurd (h.symm.trans hl) (by decide)

theorem CmdCases.answers {i : Instr} {s : State} {o : Host.Outcome State Fault Refusal} (h : CmdCases secView i s o) :
    Answers s o := by
  cases h with
  | left u hu => exact hu.stepKeeps
  | check c u hu _ => exact stepKeeps_completeError .check c hu.toBus.toSec
  | bus c u hu => exact stepKeeps_completeError .bus c hu.1
  | ok t ht => exact ht.stepKeeps
  | fault f hf => exact hf
  | refused r hr => exact hr

theorem CrcCases.answers {s : State} {o : Host.Outcome State Fault Refusal} (h : CrcCases s o) : Answers s o := by
  cases h with
  | left u hu => exact hu.stepKeeps
  | check c u hu _ => exact stepKeeps_completeError .check c hu.toBus.toSec
  | ok a b v u hu _ =>
    exact stepKeeps_completeOk hu.toBus.toSec u.data u.cont v a b (fun _ => .inl hu.data) (.inl rfl)
  | fault f hf => exact hf
  | refused r hr => exact hr

/-- Every command answers, unless an illegal host access lands while it runs. -/
theorem exec_answers (i : Instr) (s : State) (hi : i.wf = true) (hw : s.cfg.wf = true) : Answers s (exec i s) := by
  by_cases hb : bankOf i = none
  · exact (exec_crc i s hb).answers
  · exact (exec_sec i s hi hw hb).answers

theorem startWord_answers (w : Word) (s : State) (hw : s.cfg.wf = true) : Answers s (startWord w s) := by
  unfold startWord
  cases hd : decode w with
  | ok i => exact exec_answers i s (decode_wf hd) hw
  | error e => exact (execIllegal_cases s).answers

/-! What a command makes of the secret. -/

theorem CrcCases.secretOk {s t : State} (h : CrcCases s (.next t)) (hs : s.SecretOk) : t.SecretOk := by
  cases h with
  | left u hu => exact secretOk_softReset u
  | check c u hu _ => exact (hs.rel hu.toBus).congr (by simp) (by simp)
  | ok a b v u hu _ => exact (hs.rel hu.toBus).congr rfl rfl

theorem CmdCases.secretOk {i : Instr} {s t : State} (h : CmdCases busView i s (.next t)) (hs : s.SecretOk) :
    t.SecretOk := by
  cases h with
  | left u hu => exact secretOk_softReset u
  | check c u hu _ => exact (hs.rel hu.toBus).congr (by simp) (by simp)
  | bus c u hu => exact (hs.rel hu.1).congr (by simp) (by simp)
  | ok t ht =>
    obtain ⟨u, hu, d, k, r, rfl, -, -⟩ := ht
    exact (hs.rel hu).congr rfl rfl

/-- A command that moves the secret drops it, keeps it, or installs one of eight bytes (45_auth.md R260). -/
theorem SecretCases.secretOk {s t : State} {keep : Bool} {done : AuthState} (h : SecretCases s keep done t)
    (hdone : done ≠ .secretInstalling) (hs : s.SecretOk) : t.SecretOk := by
  cases h with
  | left u ht => subst ht; exact secretOk_softReset u
  | check d u hu _ _ ht => subst ht; exact (hs.rel hu.toBus).congr (by simp) (by simp)
  | drop d u ha hl ht => subst ht; exact ⟨by simpa using hl hs.length, by simp [ha]⟩
  | keep d u _ _ ha hl ht => subst ht; exact ⟨by simpa using hl hs.length, by simpa [ha] using hs.auth⟩
  | done u ha hl ht => subst ht; exact ⟨hl hs.length, by simpa [ha] using hdone⟩

theorem exec_secretOk {i : Instr} {s t : State} (hi : i.wf = true) (hw : s.cfg.wf = true) (h : exec i s = .next t)
    (hs : s.SecretOk) : t.SecretOk := by
  by_cases hb : bankOf i = none
  · exact (h ▸ exec_crc i s hb : CrcCases s (.next t)).secretOk hs
  by_cases hm : movesSecret i = false
  · exact (h ▸ exec_bus i s hw hb hm : CmdCases busView i s (.next t)).secretOk hs
  cases i with
  | installSecret b slot =>
    have hslot : slot < 8 := by simpa [Instr.wf, slotFits] using (Bool.and_eq_true_iff.1 hi).2
    exact (installSecret_secret b slot s t hw hslot h).secretOk (by decide) hs
  | bindSecret b slot af =>
    have hslot : slot < 8 := by simpa [Instr.wf, slotFits] using (Bool.and_eq_true_iff.1 hi).2
    exact (bindSecret_secret b slot af s t hw hslot h).secretOk (by decide) hs
  | computeNextSecret b => exact (computeNextSecret_secret b s t h).secretOk (by decide) hs
  | _ => exact absurd rfl hm

theorem startWord_secretOk {w : Word} {s t : State} (hw : s.cfg.wf = true) (h : startWord w s = .next t)
    (hs : s.SecretOk) : t.SecretOk := by
  unfold startWord at h
  cases hd : decode w with
  | ok i => rw [hd] at h; exact exec_secretOk (decode_wf hd) hw h hs
  | error e => rw [hd] at h; exact (h ▸ execIllegal_cases s : CrcCases s (.next t)).secretOk hs

theorem PortKeeps.secretOk {s t : State} (h : PortKeeps s t) (hs : s.SecretOk) : t.SecretOk :=
  ⟨h.hostSecret ▸ hs.length, by
    rcases h.auth with ha | ha
    · rw [ha]; exact hs.auth
    · rw [ha]; decide⟩

/-! What a step can do. -/

theorem step_illFormed {s : State} (hw : s.cfg.wf = false) : step s = .refused .illFormedConfig := by
  simp [step, hw]

theorem step_noAccess {s : State} (hw : s.cfg.wf = true) (hs : s.host = []) : step s = .next s := by
  simp [step, hw, hs]

theorem step_access {s : State} {op : HostOp} {rest : List HostOp} (hw : s.cfg.wf = true) (hs : s.host = op :: rest) :
    step s = afterPort (hostPort op.access { s with host := rest }) := by
  simp [step, hw, hs]

/-- How a step of a well-formed configuration may end. -/
inductive StepCases (s : State) : Host.Outcome State Fault Refusal → Prop where
  /-- no access: nothing changes -/
  | stay : s.host = [] → StepCases s (.next s)
  /-- an access that starts no command -/
  | access (op : HostOp) (rest : List HostOp) (t : State) : s.host = op :: rest →
    PortKeeps { s with host := rest } t → StepCases s (.next t)
  /-- a command word, accepted by the idle core -/
  | command (op : HostOp) (rest : List HostOp) (w : Word) (o : Host.Outcome State Fault Refusal) : s.host = op :: rest →
    s.busy = false → startWord w { s with host := rest } = o → StepCases s o
  /-- CTRL.SRST -/
  | reset (op : HostOp) (rest : List HostOp) : s.host = op :: rest → StepCases s (.next (softReset { s with host := rest }))
  /-- an access that is not legal -/
  | fault (f : Fault) : s.hostLegal = false → StepCases s (.fault f)
  | refused (r : Refusal) : s.hostLegal = false → StepCases s (.refused r)

theorem step_cases {s : State} (hw : s.cfg.wf = true) : StepCases s (step s) := by
  cases hs : s.host with
  | nil => rw [step_noAccess hw hs]; exact .stay hs
  | cons op rest =>
    rw [step_access hw hs]
    have ho := hostPort_outcome op.access { s with host := rest }
    have hlegal := fun hl => hostPort_legal op.access { s with host := rest } (legal_head (s := s) hs hl)
    cases hp : hostPort op.access { s with host := rest } with
    | done t => exact .access op rest t hs (hp ▸ ho : PortOutcome _ (.done t))
    | start w t =>
      obtain ⟨rfl, hb⟩ : PortOutcome _ (.start w t) := hp ▸ ho
      exact .command op rest w _ hs hb rfl
    | reset t =>
      obtain rfl : PortOutcome _ (.reset t) := hp ▸ ho
      exact .reset op rest hs
    | fault f => exact .fault f (eq_false_of_ne_true fun hl => (hlegal hl).1 f hp)
    | refuse r => exact .refused r (eq_false_of_ne_true fun hl => (hlegal hl).2 r hp)

theorem StepCases.answers {s : State} {o : Host.Outcome State Fault Refusal} (h : StepCases s o) (hw : s.cfg.wf = true) :
    Answers s o := by
  cases h with
  | stay _ => exact StepKeeps.refl s
  | access op rest t hs ht => exact ht.stepKeeps.of_tail hs
  | command op rest w o hs _ ho => exact (ho ▸ startWord_answers w { s with host := rest } hw).of_tail hs
  | reset op rest hs => exact (stepKeeps_softReset (s := { s with host := rest }) rfl rfl id id).of_tail hs
  | fault f hf => exact hf
  | refused r hr => exact hr

theorem StepCases.secretOk {s t : State} (h : StepCases s (.next t)) (hw : s.cfg.wf = true) (hs : s.SecretOk) :
    t.SecretOk := by
  cases h with
  | stay _ => exact hs
  | access op rest t _ ht => exact ht.secretOk ⟨hs.length, hs.auth⟩
  | command op rest w o _ _ ho => exact startWord_secretOk (s := { s with host := rest }) hw ho ⟨hs.length, hs.auth⟩
  | reset op rest _ => exact secretOk_softReset _

/-! The statements. -/

/-- The invariant follows what a step keeps. -/
theorem State.Inv.of_keeps {s t : State} (h : s.Inv) (k : StepKeeps s t) (ht : t.SecretOk) : t.Inv where
  cfg := k.cfg ▸ h.cfg
  idle := k.idle h.idle
  dataWf := (k.data h.scratch).wf h.dataWf
  dataRange := (k.data h.scratch).range h.dataRange
  wverify := by
    rw [k.cfg]
    rcases k.wverify with hv | ⟨v, hv⟩
    · rw [hv]; exact h.wverify
    · rw [hv, BitVec.and_assoc, BitVec.and_self]
  secret := ht.length
  auth := ht.auth
  session := k.session h.session
  scratch := k.cfg ▸ k.scratch h.scratch
  cont := fun hv => by
    rw [k.cfg]
    rcases k.cont with hk | hk | hk
    · rw [hk] at hv ⊢; exact h.cont hv
    · rw [hk] at hv; cases hv
    · exact hk
  device := k.device h.device

/-- Settles O58: whatever a step does, it keeps `StepKeeps` and the secret, which are the invariant's fields. -/
theorem stepKeepsTheInvariant : Obligations.StepKeepsTheInvariant := by
  intro s t hinv hstep
  have hcases : StepCases s (.next t) := hstep ▸ step_cases hinv.cfg
  have hkeeps : StepKeeps s t := hcases.answers hinv.cfg
  exact hinv.of_keeps hkeeps (hcases.secretOk hinv.cfg ⟨hinv.secret, hinv.auth⟩)

/-- Settles O7: only an illegal access stops a step of a well-formed configuration, and what is left of a legal list is
legal. -/
theorem stepAnswersUnlessIllFormed : Obligations.StepAnswersUnlessIllFormed := by
  intro s
  refine ⟨step_illFormed, fun hw hl => ?_⟩
  obtain ⟨t, hstep, hkeeps⟩ := ((step_cases hw).answers hw).next_of_legal hl
  exact ⟨t, hstep, hkeeps.legal hl, hkeeps.cfg⟩

/-- Power-on has the invariant under every well-formed configuration whose device is canonical
(70_reset_and_hazards.md R331). -/
theorem powerOn_inv {c : Config} {d : Device} (hw : c.wf = true) (hd : ∀ r, d = .reference r → r.canonical = true) :
    (State.powerOn c d).Inv where
  cfg := hw
  idle := rfl
  dataWf := rfl
  dataRange := fun _ hm => absurd hm List.not_mem_nil
  wverify := BitVec.and_self
  secret := rfl
  auth := AuthState.noConfusion
  session := rfl
  scratch := sound_of_idle c rfl
  cont := fun hv => Bool.noConfusion hv
  device := hd

theorem refConfig_wf : refConfig.wf = true := by decide

/-- Settles O59: reset is power-on of the reference configuration with an oracle as its device. -/
theorem resetHasTheInvariant : Obligations.ResetHasTheInvariant :=
  powerOn_inv refConfig_wf fun _ hr => absurd hr (by simp)

end Sys2Proof.Machine
end

section
/-! Proofs for the family 10_state.md: what each register access does (O9 to O14), what a command leaves of the state it
ran in (O25, O26, O30), and the check of the ROM id (O33). -/

namespace Sys2Proof.Machine

/-! The host port, register by register (20_memory.md R71). -/

/-- CTRL reacts to SRST alone, busy or idle (10_state.md R39). -/
theorem regWrite_ctrl (s : State) (v : Word) : regWrite s 0x030 v = if v.getLsbD 0 then .reset s else .done s := rfl

/-- While a command runs, every register but CTRL ignores a write (10_state.md R33, R51). -/
theorem regWrite_of_busy {s : State} (hb : s.busy = true) {off : Nat} (h : off ≠ 0x030) (v : Word) :
    regWrite s off v = .done s := by
  simp [regWrite, h, hb]

/-- WVERIFY takes the bits of the banks that exist (10_state.md R37). -/
theorem regWrite_wverify {s : State} (hb : s.busy = false) (v : Word) :
    regWrite s 0x024 v = .done { s with wverify := v &&& wverifyMask s.cfg } := by
  simp [regWrite, hb]

theorem regWrite_romLo {s : State} (hb : s.busy = false) (v : Word) :
    regWrite s 0x028 v = .done { deviceChange s with romLo := v, romValid := false } := by
  simp [regWrite, hb]

theorem regWrite_romHi {s : State} (hb : s.busy = false) (v : Word) :
    regWrite s 0x02C v = .done { deviceChange s with romHi := v, romValid := true } := by
  simp [regWrite, hb]

/-- The offsets above CTRL ignore a write. -/
theorem regWrite_reserved (s : State) {off : Nat} (h : 0x030 < off) (v : Word) : regWrite s off v = .done s := by
  unfold regWrite
  rw [if_neg (by omega)]
  split
  · rfl
  · split
    case h_9 => rfl
    all_goals omega

/-- The offsets above ROM_HI, CTRL and the reserved ones, read 0. -/
theorem regRead_reserved (s : State) {off : Nat} (h : 0x02C < off) : regRead s off = 0 := by
  unfold regRead
  split
  case h_12 => rfl
  all_goals omega

section StatusLayout

variable (stream rom resume speed done busy : Bool) (phase auth : BitVec 2) (err : BitVec 3)

/-- Where STATUS holds its flags (10_state.md R34), for any values of its fields. -/
theorem statusLayout_flags :
    let w := 0#19 ++ BitVec.ofBool stream ++ phase ++ auth ++ BitVec.ofBool rom ++ BitVec.ofBool resume ++
      BitVec.ofBool speed ++ err ++ BitVec.ofBool done ++ BitVec.ofBool busy
    w.getLsbD 0 = busy ∧ w.getLsbD 1 = done ∧ w.getLsbD 5 = speed ∧ w.getLsbD 6 = resume ∧ w.getLsbD 7 = rom ∧
      w.getLsbD 12 = stream := by
  simp only [BitVec.getLsbD_append]
  simp

/-- Where STATUS holds its codes, and its reserved bits. -/
theorem statusLayout_codes :
    let w := 0#19 ++ BitVec.ofBool stream ++ phase ++ auth ++ BitVec.ofBool rom ++ BitVec.ofBool resume ++
      BitVec.ofBool speed ++ err ++ BitVec.ofBool done ++ BitVec.ofBool busy
    w.extractLsb' 2 3 = err ∧ w.extractLsb' 8 2 = auth ∧ w.extractLsb' 10 2 = phase ∧ w.extractLsb' 13 19 = 0 := by
  simp (disch := decide) only [BitVec.extractLsb'_append_eq_of_le, BitVec.extractLsb'_append_eq_of_add_le]
  simp

end StatusLayout

theorem statusWord_flags (s : State) :
    (statusWord s).getLsbD 0 = s.busy ∧ (statusWord s).getLsbD 1 = s.done ∧ (statusWord s).getLsbD 5 = s.speedVerified ∧
      (statusWord s).getLsbD 6 = s.resumeEligible ∧ (statusWord s).getLsbD 7 = s.romValid ∧
      (statusWord s).getLsbD 12 = s.cont.valid := statusLayout_flags ..

theorem statusWord_codes (s : State) :
    (statusWord s).extractLsb' 2 3 = s.err.code ∧ (statusWord s).extractLsb' 8 2 = s.auth.code ∧
      (statusWord s).extractLsb' 10 2 = s.sp.phase.code ∧ (statusWord s).extractLsb' 13 19 = 0 := statusLayout_codes ..

/-- Settles O9: each register by `hostPort_reg_read`, STATUS by its layout. -/
theorem registersReadTheirState : Obligations.RegistersReadTheirState := by
  intro s
  have read (off : Nat) (h : off < 0x100) (ha : off % 4 = 0) := hostPort_reg_read s off h ha
  obtain ⟨hbusy, hdone, hspeed, hresume, hrom, hstream⟩ := statusWord_flags s
  obtain ⟨herr, hauth, hphase, hzero⟩ := statusWord_codes s
  refine ⟨read _ (by decide) rfl, read _ (by decide) rfl, read _ (by decide) rfl, read _ (by decide) rfl,
    read _ (by decide) rfl, read _ (by decide) rfl, read _ (by decide) rfl, read _ (by decide) rfl,
    read _ (by decide) rfl, read _ (by decide) rfl, read _ (by decide) rfl, fun k hk => ?_,
    statusWord s, read _ (by decide) rfl, hbusy, hdone, ?_, hspeed, hresume, hrom, ?_, ?_, hstream, hzero⟩
  · rw [read _ (by omega) (by omega), regRead_reserved s (by omega)]
  · exact herr.trans (by cases s.err <;> rfl)
  · exact hauth.trans (by cases s.auth <;> rfl)
  · exact hphase.trans (by cases s.sp.phase <;> rfl)

/-- Settles O10: what is stored and what is read are both cut to the banks that exist. -/
theorem wverifyHoldsOneBitPerBank : Obligations.WverifyHoldsOneBitPerBank := by
  intro s v _ hb
  refine ⟨{ s with wverify := v &&& wverifyMask s.cfg }, ?_, rfl, v &&& wverifyMask s.cfg &&& wverifyMask s.cfg, ?_,
    fun b hlt => ?_⟩
  · rw [hostPort_reg_write s _ v (by decide) rfl, regWrite_wverify hb]
  · exact hostPort_reg_read _ 0x024 (by decide) rfl
  · rw [BitVec.and_assoc, BitVec.and_self, BitVec.getLsbD_and, wverifyMask_bit _ _ hlt, Bool.and_comm]

/-- Settles O11: the argument registers one by one, and the offsets whose writes do nothing. -/
theorem registerWritesSetOnlyTheirRegister : Obligations.RegisterWritesSetOnlyTheirRegister := by
  intro s v hb
  have reserved (k : Nat) (hk : k < 51) : hostPort (.write (0x034 + 4 * k) .b32 v) s = .done s := by
    rw [hostPort_reg_write s _ v (by omega) (by omega), regWrite_reserved s (by omega)]
  refine ⟨?_, ?_, ?_, ?_, ?_, ?_, ?_, ?_, reserved⟩ <;>
    rw [hostPort_reg_write s _ v (by decide) rfl] <;> simp [regWrite, hb]

/-- Settles O12: a register ignores the write by `regWrite_of_busy`, DATA by its own rule (20_memory.md R72). -/
theorem busyWritesAreIgnored : Obligations.BusyWritesAreIgnored := by
  intro s off w v hb hoff hctrl hfits
  unfold offsetFits at hfits
  split at hfits
  case isTrue hreg =>
    obtain ⟨rfl, halign⟩ : w = .b32 ∧ off % 4 = 0 := by simpa using hfits
    rw [hostPort_reg_write s off v hreg halign, regWrite_of_busy hb hctrl]
  case isFalse hdata =>
    have halign : (off - 0x100) % w.bytes = 0 := by simpa using hfits
    rw [hostPort_data (.write off w v) s (off - 0x100) (by simp only [HostAccess.off]; omega) (by omega)]
    simp [dataAccess, halign, hb]

/-- Settles O13: an idle ROM write is a device change, a busy one is ignored. -/
theorem romWriteIsADeviceChange : Obligations.RomWriteIsADeviceChange := by
  intro s v
  refine ⟨fun hb => ⟨?_, ?_⟩, fun hb => ⟨?_, ?_⟩⟩ <;> rw [hostPort_reg_write s _ v (by decide) rfl]
  · exact regWrite_romLo hb v
  · exact regWrite_romHi hb v
  · exact regWrite_of_busy hb (by decide) v
  · exact regWrite_of_busy hb (by decide) v

/-- Settles O14: the step is the write to CTRL, and with SRST set the soft reset, field by field. -/
theorem softResetGivesTheResetValues : Obligations.SoftResetGivesTheResetValues := by
  intro s v early rest hw hs
  have hstep := step_access hw hs
  rw [hostPort_reg_write _ _ v (by decide) rfl, regWrite_ctrl] at hstep
  refine ⟨fun hv => ?_, fun hv => ⟨softReset { s with host := rest }, ?_, ?_⟩⟩
  · rw [hstep, hv]; rfl
  · rw [hstep, hv]; rfl
  · simpa [rep, SameData, dataByte] using fun b => wverifyMask_bit s.cfg b

/-! What a command changes when nothing lands in it. -/

/-- The last writes of a command that came from `u`: STATUS, RESULT, the session flags, DATA and `cont`. -/
abbrev Concluded (u t : State) : Prop :=
  t = { u with
    busy := false, done := true, err := t.err, result := t.result, speedVerified := t.speedVerified
    resumeEligible := t.resumeEligible, data := t.data, cont := t.cont }

theorem concluded_completeOk (u : State) (d : Memory) (k : Cont) (r : Word) :
    Concluded u (completeOk { u with data := d, cont := k, result := r }) := rfl

theorem concluded_completeError (p : Phase) (c : Cause) (u : State) : Concluded u (completeError p c u) := by
  unfold Concluded completeError
  split <;> rfl

/-- A bus command in a quiet state is transport procedures and then its last writes. -/
theorem CmdCases.concluded {α : Type} {v : State → α} {i : Instr} {s t : State}
    (h : CmdCases v i s (exec i s)) (ht : exec i s = .next t) (hq : s.quiet = true) :
    ∃ u, Rel v (start s) u ∧ Concluded u t := by
  rw [ht] at h
  cases h with
  | left u hu => exact (hu.quiet hq).elim
  | check c u _ hstart => exact ⟨start s, Rel.refl v _, hstart hq ▸ concluded_completeError .check c u⟩
  | bus c u hu => exact ⟨u, hu.1, concluded_completeError .bus c u⟩
  | ok t hwork =>
    obtain ⟨u, hu, d, k, r, rfl, -, -⟩ := hwork
    exact ⟨u, hu, concluded_completeOk u d k r⟩

/-- From `s` to `t` only STATUS, RESULT and the accumulators changed, and of these only what the CRC command `i` writes
(41_crc.md R156, R159). -/
structure CrcWrites (i : Instr) (s t : State) : Prop where
  only : t = { s with
    crc8 := t.crc8, crc16 := t.crc16, result := t.result, busy := t.busy, done := t.done, err := t.err }
  crc8 : (∀ v, i ≠ .crc8Seed v) → (∀ v, i ≠ .crc8Byte v) → i ≠ .crc8Block → t.crc8 = s.crc8
  crc16 : (∀ v, i ≠ .crc16Seed v) → (∀ v, i ≠ .crc16Byte v) → i ≠ .crc16Block → t.crc16 = s.crc16

/-- How the body of a CRC command ends: by a check, or with its writes. -/
def CrcBody (i : Instr) (s : State) (r : EStateM.Result Stop State Unit) : Prop :=
  (∃ c, r = .error (.raised .check c) s) ∨ ∃ u, r = .ok () u ∧ CrcWrites i s u

theorem CrcBody.require {i : Instr} {s : State} {checks : List (Bool × Cause)} {f : Unit → Proc Unit}
    (h : CrcBody i s (f () s)) : CrcBody i s ((require checks >>= f) s) := by
  have hr := require_run checks s
  cases hc : firstFailing checks with
  | some c => rw [hc] at hr; exact .inl ⟨c, bind_error hr⟩
  | none => rw [hc] at hr; rw [bind_ok hr]; exact h

theorem CrcBody.concluded {i : Instr} {s t : State} {p : Proc Unit} (hq : s.quiet = true)
    (h : runCommand p s = .next t) (hp : CrcBody i (start s) (p (start s))) :
    CrcWrites i (start s) t ∧ t.busy = false ∧ t.done = true := by
  rw [runCommand_quiet p hq] at h
  rcases hp with ⟨c, hp⟩ | ⟨u, hp, honly, h8, h16⟩
  · obtain rfl : completeError .check c (start s) = t := by simpa [hp, conclude] using h
    exact ⟨⟨rfl, fun _ _ _ => rfl, fun _ _ _ => rfl⟩, rfl, rfl⟩
  · obtain rfl : completeOk u = t := by simpa [hp, conclude] using h
    exact ⟨⟨by rw [honly]; rfl, h8, h16⟩, rfl, rfl⟩

theorem exec_crc_writes {i : Instr} {s t : State} (hq : s.quiet = true) (hb : bankOf i = none)
    (h : exec i s = .next t) : CrcWrites i (start s) t ∧ t.busy = false ∧ t.done = true := by
  cases i with
  | crc8Seed v => exact CrcBody.concluded hq h (.inr ⟨_, rfl, rfl, fun hne _ _ => absurd rfl (hne v), fun _ _ _ => rfl⟩)
  | crc8Byte v => exact CrcBody.concluded hq h (.inr ⟨_, rfl, rfl, fun _ hne _ => absurd rfl (hne v), fun _ _ _ => rfl⟩)
  | crc8Block =>
    exact CrcBody.concluded hq h (.require (.inr ⟨_, rfl, rfl, fun _ _ hne => absurd rfl hne, fun _ _ _ => rfl⟩))
  | crc8Check => exact CrcBody.concluded hq h (.inr ⟨_, rfl, rfl, fun _ _ _ => rfl, fun _ _ _ => rfl⟩)
  | crc16Seed v => exact CrcBody.concluded hq h (.inr ⟨_, rfl, rfl, fun _ _ _ => rfl, fun hne _ _ => absurd rfl (hne v)⟩)
  | crc16Byte v => exact CrcBody.concluded hq h (.inr ⟨_, rfl, rfl, fun _ _ _ => rfl, fun _ hne _ => absurd rfl (hne v)⟩)
  | crc16Block =>
    exact CrcBody.concluded hq h (.require (.inr ⟨_, rfl, rfl, fun _ _ _ => rfl, fun _ _ hne => absurd rfl hne⟩))
  | crc16Check => exact CrcBody.concluded hq h (.inr ⟨_, rfl, rfl, fun _ _ _ => rfl, fun _ _ _ => rfl⟩)
  | _ => cases hb

/-- What `secView` sees, field by field. -/
theorem Rel.secFields {s t : State} (h : Rel secView s t) :
    t.arg0 = s.arg0 ∧ t.arg1 = s.arg1 ∧ t.arg2 = s.arg2 ∧ t.arg3 = s.arg3 ∧ t.crc8 = s.crc8 ∧ t.crc16 = s.crc16 ∧
      t.wverify = s.wverify ∧ t.romLo = s.romLo ∧ t.romHi = s.romHi ∧ t.romValid = s.romValid := by
  have hv := h.view
  simp only [secView, Prod.mk.injEq] at hv
  obtain ⟨-, -, hregs⟩ := hv
  exact hregs

theorem Rel.sp {s t : State} (h : Rel wireView s t) : t.sp = s.sp := by
  have hv := h.view
  simp only [wireView, Prod.mk.injEq] at hv
  obtain ⟨-, -, -, -, -, -, -, -, -, -, -, -, -, -, -, hsp⟩ := hv
  exact hsp

/-- Settles O25: a CRC command by what it writes, a bus command by what `secView` sees. -/
theorem commandsLeaveTheHostRegisters : Obligations.CommandsLeaveTheHostRegisters := by
  intro i s t hi hw hq h
  by_cases hb : bankOf i = none
  · obtain ⟨hwrites, hbusy, hdone⟩ := exec_crc_writes hq hb h
    rw [hwrites.only]
    exact ⟨hbusy, hdone, rfl, rfl, rfl, rfl, rfl, rfl, rfl, rfl, rfl, rfl, rfl, List.prefix_refl _⟩
  · obtain ⟨u, hu, ht⟩ := (exec_sec i s hi hw hb).concluded h hq
    obtain ⟨h0, h1, h2, h3, -, -, hwv, hlo, hhi, hvalid⟩ := hu.secFields
    obtain ⟨hhost, hanswers⟩ := hu.quiet hq
    rw [ht]
    exact ⟨rfl, rfl, hu.cfg, h0, h1, h2, h3, hwv, hlo, hhi, hvalid, hhost, hanswers, hu.events⟩

/-- The accumulators are no bus command's (10_state.md R35, R36). -/
theorem exec_bank_crc {i : Instr} {s t : State} (hi : i.wf = true) (hw : s.cfg.wf = true) (hq : s.quiet = true)
    (hb : bankOf i ≠ none) (h : exec i s = .next t) : t.crc8 = s.crc8 ∧ t.crc16 = s.crc16 := by
  obtain ⟨u, hu, ht⟩ := (exec_sec i s hi hw hb).concluded h hq
  obtain ⟨-, -, -, -, h8, h16, -⟩ := hu.secFields
  rw [ht]
  exact ⟨h8, h16⟩

/-- Settles O26: a bus command touches no accumulator, a CRC command only what `CrcWrites` names. -/
theorem crcCommandsAndAccumulatorsAreIsolated : Obligations.CrcCommandsAndAccumulatorsAreIsolated := by
  intro i s t hi hw hq h
  by_cases hb : bankOf i = none
  · obtain ⟨hwrites, -, -⟩ := exec_crc_writes hq hb h
    exact ⟨fun hne => absurd hb hne, fun _ => hwrites.only, hwrites.crc8, hwrites.crc16⟩
  · obtain ⟨h8, h16⟩ := exec_bank_crc hi hw hq hb h
    exact ⟨fun _ => ⟨h8, h16⟩, fun hnone => absurd hnone hb, fun _ _ _ => h8, fun _ _ _ => h16⟩

/-- Settles O30: `busView` holds the secret, `wireView` the scratchpad record too. -/
theorem onlyTheirCommandsMoveSecretAndRecord : Obligations.OnlyTheirCommandsMoveSecretAndRecord := by
  intro i s t hi hw hq h
  by_cases hb : bankOf i = none
  · have honly := (exec_crc_writes hq hb h).1.only
    rw [honly]
    exact ⟨fun _ => ⟨rfl, rfl⟩, fun _ => rfl⟩
  · refine ⟨fun hm => ?_, fun hm => ?_⟩
    · obtain ⟨u, hu, ht⟩ := (exec_bus i s hw hb hm).concluded h hq
      rw [ht]
      exact ⟨hu.busFrame.auth, hu.busFrame.hostSecret⟩
    · obtain ⟨u, hu, ht⟩ := (exec_wire i s hb hm).concluded h hq
      rw [ht]
      exact hu.sp

/-! The check of the ROM id (42_paged_memory.md R167). -/

/-- The checks a command makes before that of the ROM id. -/
def checksBeforeRom (i : Instr) (s : State) : List (Bool × Cause) := (checksOf i s).takeWhile fun k => k.2 != .rom

/-- The checks it makes after it: of the secret and of the scratchpad sequence. -/
def checksAfterRom (i : Instr) (s : State) : List (Bool × Cause) := ((checksOf i s).dropWhile fun k => k.2 != .rom).tail

/-- Every bank command checks the ROM id. -/
theorem checksOf_rom {i : Instr} {b : Nat} (hb : bankOf i = some b) (s : State) :
    checksOf i s = checksBeforeRom i s ++ romCheck s :: checksAfterRom i s := by
  cases i <;> cases hb <;> rfl

/-- The checks before it see neither the ROM id nor the secret nor the scratchpad record. -/
theorem checksBeforeRom_congr (i : Instr) (s : State) (r : Bool) (a : AuthState) (p : Scratch) :
    checksBeforeRom i { s with romValid := r, auth := a, sp := p } = checksBeforeRom i s := by
  cases i <;> rfl

/-- They are all policy checks (60_exceptions.md R305). -/
theorem checksBeforeRom_policy (i : Instr) (s : State) {k : Bool × Cause} (hk : k ∈ checksBeforeRom i s) :
    k.2.kind = .policy := by
  have hall : ((checksBeforeRom i s).all fun k => k.2.kind == .policy) = true := by cases i <;> rfl
  simpa using List.all_eq_true.1 hall k hk

/-- Without a ROM id a bank command is refused by a check of the ROM id or one before it. -/
theorem firstFailing_noRom {i : Instr} {s : State} {b : Nat} (hb : bankOf i = some b) (hr : s.romValid = false) :
    firstFailing (checksOf i s) = (firstFailing (checksBeforeRom i s)).or (some .rom) := by
  rw [checksOf_rom hb, firstFailing_append, romCheck, hr]
  rfl

/-- Settles O33: the first check that fails is a policy check before that of the ROM id, or that one. -/
theorem bankCommandsNeedARomId : Obligations.BankCommandsNeedARomId := by
  intro i s b hq hb hr
  have hfail := firstFailing_noRom hb hr
  have refused (c : Cause) (hk : c.kind = .policy) (hc : firstFailing (checksOf i s) = some c) : exec i s =
      .next { s with busy := false, done := true, err := .policy, result := c.info, issued := 0 } := by
    rw [exec_refused hq hc, ← hk]
    rfl
  refine ⟨?_, fun hallowed => ?_⟩
  · cases hbefore : firstFailing (checksBeforeRom i s) with
    | none => exact ⟨.rom, rfl, refused .rom rfl (by rw [hfail, hbefore]; rfl)⟩
    | some c =>
      have hk := checksBeforeRom_policy i s (firstFailing_mem _ c hbefore)
      exact ⟨c, hk, refused c hk (by rw [hfail, hbefore]; rfl)⟩
  · have hpass : firstFailing (checksBeforeRom i s) = none := by
      have hall := (firstFailing_none _).1 ((allowed_iff _ _).1 hallowed)
      rw [checksOf_rom hb, checksBeforeRom_congr] at hall
      exact (firstFailing_none _).2 fun k hk => hall k (List.mem_append_left _ hk)
    exact refused .rom rfl (by rw [hfail, hpass]; rfl)

end Sys2Proof.Machine
end

section
/-! Proofs for the family 20_memory.md: accesses to DATA and misaligned ones (O15, O16), the wire frames (O38, O39), where each
bus command completes and how it fails (O40, O41, O45 to O47, O52 to O55), and the reference device's copy (O60). -/

namespace Sys2Proof.Machine

/-! Accesses of the host (20_memory.md R72, R73, R80). -/

/-- Settles O15: an access that does not fit its offset is refused by `hostPort_misfit`. -/
theorem misalignedAccessesAreRefused : Obligations.MisalignedAccessesAreRefused := by
  intro s off w v hoff hfits
  refine ⟨fun hreg hok => ?_, fun hdata hok => ?_, hostPort_misfit (.read off w) s hoff hfits,
    hostPort_misfit (.write off w v) s hoff hfits⟩
  · simp [offsetFits, hreg, hok] at hfits
  · simp [offsetFits, Nat.not_lt.2 hdata, hok] at hfits

/-- Byte `j` of a run of DATA. -/
theorem dataRun_getD (s : State) (a n j : Nat) :
    (dataRun s a n).getD j 0 = if j < n then dataByte s (a + j) else 0 := by
  split
  case isTrue h => simp [dataRun, List.getD_eq_getElem?_getD, List.getElem?_range h]
  case isFalse h => exact List.getD_eq_default _ _ (by simpa using h)

/-- Settles O16: a write is `putData` of the value's bytes, a read the word of the bytes at its offset. -/
theorem dataAccessIsLittleEndian : Obligations.DataAccessIsLittleEndian := by
  intro s i w v hb hi ha
  refine ⟨⟨s.putData i (leBytes v w.bytes), ?_, rfl, fun a => ?_⟩, leWord (dataRun s i w.bytes), ?_, fun j hj => ?_⟩
  · rw [hostPort_data _ s i rfl hi]
    simp [dataAccess, ha, hb]
  · rw [dataByte_putData, leBytes_length]
    split
    case isTrue h => exact leBytes_getD v _ _ (by omega)
    case isFalse h => rfl
  · rw [hostPort_data _ s i rfl hi]
    simp [dataAccess, ha, hb]
  · rw [leWord_byte _ j hj, dataRun_getD]

/-! The wire frames (20_memory.md R82 to R93), whatever the device answers. -/

/-- An exchange whose answer is checked by its CRC, and what follows a good one. -/
theorem checkedExchange_issues {α : Type} {s : State} (out : List Byte) (k : Nat) (seed : HWord) (c : Cause)
    (f : List Byte → Proc α) (hq : s.quiet = true) :
    ∃ ans t, ans.length = out.length ∧ Issued s t [.exchange out ans] ∧
      (do let a ← tExchange out; ensure (crcOk k seed a) c; f a : Proc α) s =
        if crcK k seed ans = crcResidual k then f ans t else .error (.raised .bus c) t := by
  obtain ⟨ans, t, hlen, hissued, hrun⟩ := tExchange_issues out hq
  refine ⟨ans, t, hlen, hissued, ?_⟩
  rw [bind_ok hrun, ensure_bind]
  simp only [crcOk, beq_iff_eq]

theorem frameReadCrcCont_issues (k : Bank) {s : State} (hq : s.quiet = true) :
    let n := k.pageLength + k.extraInfoLength + k.crcBytes
    ∃ ans t, ans.length = n ∧ Issued s t [.exchange (List.replicate n 0xFF) ans] ∧
      frameReadCrcCont k s =
        if crcK k.crcBytes 0 ans = crcResidual k.crcBytes then
          .ok (slice ans 0 k.pageLength, slice ans k.pageLength (k.pageLength + k.extraInfoLength)) t
        else .error (.raised .bus .frame) t := by
  obtain ⟨ans, t, hlen, hissued, hrun⟩ := checkedExchange_issues (ff (pageFrameLength k)) k.crcBytes 0 .frame
    (fun a => pure (splitPage k 0 a)) hq
  refine ⟨ans, t, by simpa [pageFrameLength] using hlen, hissued, hrun.trans ?_⟩
  simp [splitPage]

/-- Settles O38: each frame is one exchange, checked by `checkedExchange_issues` or not at all. -/
theorem readFramesAreBitExact : Obligations.ReadFramesAreBitExact := by
  intro k a n s hq
  dsimp only
  refine ⟨?readCrc, frameReadCrcCont_issues k hq, ?readCrcAa, ?readRaw, ?readRawCont⟩
  case readCrc =>
    obtain ⟨ans, t, hlen, hissued, hrun⟩ := checkedExchange_issues
      (frameHead k.opcReadCrc a ++ ff (pageFrameLength k)) k.crcBytes k.crcSeed .frame
      (fun a => pure (splitPage k 3 a)) hq
    refine ⟨ans, t, by simpa [pageFrameLength] using hlen, hissued, ?_⟩
    rw [← frameHead_eq] at hrun
    exact hrun
  case readCrcAa =>
    obtain ⟨head, t, hlen, hissued, hrun⟩ := checkedExchange_issues
      (frameHead k.opcReadCrc a ++ ff k.crcBytes) k.crcBytes k.crcSeed .address (fun _ => frameReadCrcCont k) hq
    rw [← frameHead_eq] at hrun
    refine ⟨head, t, by simpa using hlen, hissued, fun hbad => hrun.trans (if_neg hbad), fun hgood => ?_⟩
    obtain ⟨ans, u, hlen', hissued', hrun'⟩ := frameReadCrcCont_issues k (hissued.quiet hq)
    exact ⟨ans, u, hlen', hissued', (hrun.trans (if_pos hgood)).trans hrun'⟩
  case readRaw =>
    obtain ⟨ans, t, hlen, hissued, hrun⟩ := tExchange_issues (frameHead k.opcRead a ++ ff n) hq
    refine ⟨ans, t, by simpa using hlen, hissued, ?_⟩
    rw [← frameHead_eq] at hrun
    exact bind_ok hrun
  case readRawCont =>
    obtain ⟨ans, t, hlen, hissued, hrun⟩ := tExchange_issues (ff n) hq
    exact ⟨ans, t, by simpa using hlen, hissued, hrun⟩

theorem frameWriteSp_issues (k : Bank) (ta : Nat) (d : List Byte) {s : State} (hq : s.quiet = true) :
    ∃ ans t, ans.length = 3 + d.length + k.crcBytes ∧
      Issued s t [.exchange (frameHead k.opcWriteSp ta ++ d ++ List.replicate k.crcBytes 0xFF) ans] ∧
      frameWriteSp k ta d s =
        if crcK k.crcBytes 0 ans = crcResidual k.crcBytes then .ok () t else .error (.raised .bus .stage) t := by
  obtain ⟨ans, t, hlen, hissued, hrun⟩ := checkedExchange_issues
    (frameHead k.opcWriteSp ta ++ d ++ ff k.crcBytes) k.crcBytes 0 .stage (fun _ => pure ()) hq
  refine ⟨ans, t, by simpa [Nat.add_assoc] using hlen, hissued, ?_⟩
  rw [← frameHead_eq] at hrun
  rwa [funext fun a => bind_pure_unit (x := ensure (crcOk k.crcBytes 0 a) .stage)] at hrun

theorem frameReadSp_issues (k : Bank) (n : Nat) {s : State} (hq : s.quiet = true) :
    ∃ ans t, ans.length = 4 + n + k.crcBytes ∧
      Issued s t [.exchange (k.opcReadSp :: List.replicate (3 + n + k.crcBytes) 0xFF) ans] ∧
      frameReadSp k n s =
        if crcK k.crcBytes 0 ans = crcResidual k.crcBytes then
          .ok ⟨byteAt ans 2 ++ byteAt ans 1, byteAt ans 3, slice ans 4 (4 + n)⟩ t
        else .error (.raised .bus .confirm) t := by
  obtain ⟨ans, t, hlen, hissued, hrun⟩ := checkedExchange_issues
    ([k.opcReadSp] ++ ff (3 + n + k.crcBytes)) k.crcBytes 0 .confirm
    (fun a => pure (⟨ofWire16 (byteAt a 1) (byteAt a 2), byteAt a 3, slice a 4 (4 + n)⟩ : SpReadback)) hq
  exact ⟨ans, t, by simp at hlen; omega, hissued, hrun⟩

theorem sendCommit_issues (c : Config) (out : List Byte) (v : Byte) {s : State} (hq : s.quiet = true) :
    ∃ ans t, sendCommit c (out ++ [v]) s = .ok () t ∧
      if c.commitPower then
        ans.length = out.length ∧
          Issued s t [.exchange out ans, .setPowerMode c.tCommitMs .afterNextByte, .startPowerDelivery, .putByte v]
      else ans.length = out.length + 1 ∧ Issued s t [.exchange (out ++ [v]) ans] := by
  unfold sendCommit
  rw [List.dropLast_concat, List.getLastD_concat]
  split
  case isTrue =>
    obtain ⟨ans, t, hlen, hissued, hrun⟩ := tExchange_issues out hq
    have hmode := Issued.event t (.setPowerMode c.tCommitMs .afterNextByte) t.dev t.draws
    have hquiet := (hissued.trans hmode).quiet hq
    have hpower := Issued.event (t.afterEvent (.setPowerMode c.tCommitMs .afterNextByte) t.dev t.draws)
      .startPowerDelivery t.dev t.draws
    have hbefore := (hissued.trans hmode).trans hpower
    obtain ⟨u, hput, hrunPut⟩ := tPutByte_issues v (hbefore.quiet hq)
    refine ⟨ans, u, (bind_ok hrun).trans ?_, hlen, hbefore.trans hput⟩
    exact (bind_ok (event_quiet _ _ _ t (hissued.quiet hq))).trans
      ((bind_ok (event_quiet _ _ _ _ hquiet)).trans hrunPut)
  case isFalse =>
    obtain ⟨ans, t, hlen, hissued, hrun⟩ := tExchange_issues (out ++ [v]) hq
    exact ⟨ans, t, bind_ok hrun, by simpa using hlen, hissued⟩

theorem frameSha_issues (k : Bank) (a : Nat) (fn : Byte) {s : State} (hq : s.quiet = true) :
    ∃ ans v t, ans.length = 4 ∧
      Issued s t [.exchange (frameHead k.opcSha a ++ [fn]) ans, .sleep s.cfg.tShaMs, .getByte v] ∧
      frameSha k a fn s = if v = 0xAA ∨ v = 0x55 then .ok () t else .error (.raised .bus .sha) t := by
  obtain ⟨ans, t1, hlen, h1, hrun1⟩ := tExchange_issues (frameHead k.opcSha a ++ [fn]) hq
  obtain ⟨t2, h2, hrun2⟩ := tSleep_issues s.cfg.tShaMs (h1.quiet hq)
  obtain ⟨v, t3, h3, hrun3⟩ := tGetByte_issues ((h1.trans h2).quiet hq)
  refine ⟨ans, v, t3, by simpa using hlen, (h1.trans h2).trans h3, ?_⟩
  unfold frameSha
  rw [get_bind, frameHead_eq, bind_ok hrun1, bind_ok hrun2, bind_ok hrun3, ensure_run]
  simp only [isAlternating_iff]

theorem frameReadAuth_issues (k : Bank) (a : Nat) {s : State} (hq : s.quiet = true) :
    ∃ in1 t, in1.length = 37 + k.extraInfoLength ∧
      Issued s t [.exchange (frameHead k.opcReadAuth a ++ List.replicate (32 + k.extraInfoLength + 2) 0xFF) in1] ∧
      (crc16 0 in1 ≠ 0xB001 → frameReadAuth k a s = .error (.raised .bus .authPage) t) ∧
      (crc16 0 in1 = 0xB001 → ∃ in2 u, in2.length = 22 ∧
        Issued t u [.sleep s.cfg.tShaMs, .exchange (List.replicate 22 0xFF) in2] ∧
        frameReadAuth k a s =
          if crc16 0 in2 = 0xB001 then
            .ok ⟨slice in1 3 35, slice in1 35 (35 + k.extraInfoLength), slice in2 0 20⟩ u
          else .error (.raised .bus .authMac) u) := by
  obtain ⟨in1, t, hlen, h1, hrun⟩ := checkedExchange_issues
    (frameHead k.opcReadAuth a ++ ff (32 + k.extraInfoLength + 2)) 2 0 .authPage (fun in1 => do
      tSleep s.cfg.tShaMs
      let in2 ← tExchange (ff 22)
      ensure (crcOk 2 0 in2) .authMac
      pure (⟨slice in1 3 35, slice in1 35 (35 + k.extraInfoLength), slice in2 0 20⟩ : AuthPage)) hq
  unfold frameReadAuth
  rw [get_bind, frameHead_eq, hrun]
  refine ⟨in1, t, by simp at hlen; omega, h1, fun hbad => if_neg hbad, fun hgood => ?_⟩
  obtain ⟨t2, h2, hrun2⟩ := tSleep_issues s.cfg.tShaMs (h1.quiet hq)
  obtain ⟨in2, u, hlen2, h3, hrun3⟩ := checkedExchange_issues (ff 22) 2 0 .authMac
    (fun in2 => pure (⟨slice in1 3 35, slice in1 35 (35 + k.extraInfoLength), slice in2 0 20⟩ : AuthPage))
    ((h1.trans h2).quiet hq)
  exact ⟨in2, u, by simpa using hlen2, h2.trans h3, (if_pos hgood).trans ((bind_ok hrun2).trans hrun3)⟩

/-- Settles O39: each frame by what it issues. -/
theorem writeAndShaFramesAreBitExact : Obligations.WriteAndShaFramesAreBitExact := by
  intro k s hq
  exact ⟨fun ta d => frameWriteSp_issues k ta d hq, fun n => frameReadSp_issues k n hq,
    fun ta es mac => frameCopySp_eq k ta es mac, fun c out v => sendCommit_issues c out v hq,
    fun a fn => frameSha_issues k a fn hq, fun a => frameReadAuth_issues k a hq⟩

/-! From an allowed command in a quiet state to the end of its body. -/

/-- A command in a quiet state that is allowed is what follows its checks. -/
theorem exec_allowed {i : Instr} {s : State} {body : State → Proc Unit} (hq : s.quiet = true) (ha : Allowed i s)
    (h : exec i s = runCommand (do let s ← get; require (checksOf i s); body s) s) :
    exec i s = conclude (body (start s) (start s)) := by
  rw [h, runCommand_quiet _ hq, get_bind, checksOf_start, bind_ok (allowed_pass ha)]

/-- It completes if its body ends normally. -/
theorem exec_completes {i : Instr} {s u : State} {body : State → Proc Unit} (hq : s.quiet = true) (ha : Allowed i s)
    (h : exec i s = runCommand (do let s ← get; require (checksOf i s); body s) s)
    (hrun : body (start s) (start s) = .ok () u) : exec i s = .next (completeOk u) := by
  rw [exec_allowed hq ha h, hrun]
  rfl

/-- It ends in an error if its body raises one. -/
theorem exec_raises {i : Instr} {s u : State} {c : Cause} {body : State → Proc Unit} (hq : s.quiet = true)
    (ha : Allowed i s) (h : exec i s = runCommand (do let s ← get; require (checksOf i s); body s) s)
    (hrun : body (start s) (start s) = .error (.raised .bus c) u) : exec i s = .next (completeError .bus c u) := by
  rw [exec_allowed hq ha h, hrun]
  rfl

/-- What an error of the bus phase leaves of a run that moved no secret (60_exceptions.md R304). -/
theorem Ran.failed {s u : State} {es : List Event} {rest : Oracle} (h : Ran (start s) es rest u)
    (hsel : es.any Event.selects = true) (c : Cause) (hc : c ≠ .illegal) :
    Failed s (completeError .bus c u) c.kind c.info es rest ∧ SameSecret s (completeError .bus c u) ∧
      (completeError .bus c u).sp = u.sp :=
  ⟨failed_of h (ne_nil_of_selects hsel) c hc u.auth u.hostSecret u.sp,
    ⟨(completeError_auth ..).trans h.auth, (completeError_hostSecret ..).trans h.hostSecret⟩, completeError_sp ..⟩

/-! The reads (42_paged_memory.md R168, R169). -/

/-- Settles O40: the page read, then the writes of DATA, `cont` and RESULT. -/
theorem readPageCompletes : Obligations.ReadPageCompletes := by
  intro b c x s pg es rest hq ha hserved hd
  obtain ⟨u, hu, hran⟩ := wholePage_served (s := start s) hserved hq hd
  obtain ⟨hspeed, hresume⟩ := hran.flags (wholePage_selects hserved).1
  let out := pg.1 ++ if x then pg.2 else []
  refine ⟨completeOk { u.putData s.x1 out with
      cont := ⟨true, b, pageReadKind (s.bank b), (s.x0 + 1) * (s.bank b).pageLength⟩
      result := BitVec.ofNat 32 out.length },
    exec_completes hq ha rfl ((bind_ok hu).trans rfl), completed_of hran.toRan _ _ _ u.auth u.hostSecret u.sp,
    ⟨hran.auth, hran.hostSecret⟩, hran.sp, dataWritten_of hran.data s.x1 out rfl, rfl, rfl, hspeed, hresume⟩

theorem readRawRange_served {s : State} {b r n : Nat} {c : Bool} {data : List Byte} {es : List Event} {rest : Oracle}
    (h : RawReadServed s.link b r n (c && continues s b .raw r) data es) (hq : s.quiet = true)
    (hd : s.dev = .oracle (answering es rest)) :
    ∃ t, readRawRange b r n c s = .ok data { t with cont := ⟨true, b, .raw, r + n⟩ } ∧ Wired s es rest t := by
  obtain ⟨t, ht, hwired⟩ := rawRead_served rfl h hq hd
  refine ⟨t, ?_, hwired⟩
  unfold readRawRange
  rw [get_bind, contOk_eq]
  exact (bind_ok ht).trans rfl

theorem readCovered_served {s : State} {b r n : Nat} {c : Bool} {pg : List Byte × List Byte} {more : List Byte}
    {e1 e2 : List Event} {rest : Oracle} (hq : s.quiet = true) (hd : s.dev = .oracle (answering (e1 ++ e2) rest)) :
    let pl := (s.bank b).pageLength
    let p0 := r / pl
    let p1 := (r + n - 1) / pl
    PageReadServed s.link b p0 (c && continues s b .page (p0 * pl)) pg e1 → MorePagesServed s.link b (p1 - p0) more e2 →
    ∃ t, readCovered b r n c s = .ok (slice (pg.1 ++ more) (r - p0 * pl) (r - p0 * pl + n))
        { t with cont := ⟨true, b, .page, (p1 + 1) * pl⟩ } ∧ Wired s (e1 ++ e2) rest t := by
  intro pl p0 p1 h1 h2
  rw [answering_append] at hd
  obtain ⟨t, ht, hfirst⟩ := pageRead_served rfl h1 hq hd
  obtain ⟨u, hu, hmore⟩ := readMorePages_served b _ (p0 + 1) more e2 rest t hfirst.link h2 (hfirst.quiet hq) hfirst.dev
  refine ⟨u, ?_, hfirst.trans hmore⟩
  unfold readCovered
  rw [get_bind]
  simp only [contOk_eq]
  exact (bind_ok ht).trans ((bind_ok hu).trans rfl)

/-- Settles O41: no byte, a raw read, or the pages that cover the range. -/
theorem readBytesCompletes : Obligations.ReadBytesCompletes := by
  intro b c s hq ha
  refine ⟨fun hn => ?_, fun data es rest hn hraw hserved hd => ?_, fun pg more e1 e2 rest hn hraw h1 h2 hd => ?_⟩
  · exact exec_completes hq ha rfl (by rw [if_pos (show (start s).x1 = 0 from hn)]; rfl)
  · obtain ⟨u, hu, hran⟩ := readRawRange_served (s := start s) hserved hq hd
    obtain ⟨hspeed, hresume⟩ := hran.flags (rawRead_selects hserved).1
    refine ⟨completeOk { u.putData s.x2 data with
        cont := ⟨true, b, .raw, s.x0 + s.x1⟩, result := BitVec.ofNat 32 s.x1 },
      exec_completes hq ha rfl ?_, completed_of hran.toRan _ _ _ u.auth u.hostSecret u.sp,
      ⟨hran.auth, hran.hostSecret⟩, hran.sp, dataWritten_of hran.data s.x2 data rfl, by simp [State.x1], rfl,
      hspeed, hresume⟩
    rw [if_neg (show (start s).x1 ≠ 0 from Nat.ne_of_gt hn), if_pos (show ((start s).bank b).rawRead = true from hraw)]
    exact (bind_ok hu).trans rfl
  · obtain ⟨u, hu, hran⟩ := readCovered_served (s := start s) hq hd h1 h2
    obtain ⟨hspeed, hresume⟩ := hran.flags
      (by rw [List.any_append, (pageRead_selects h1).1, morePages_selects _ _ _ h2, Bool.or_false])
    refine ⟨completeOk { u.putData s.x2 _ with cont := _, result := BitVec.ofNat 32 s.x1 },
      exec_completes hq ha rfl ?_, completed_of hran.toRan _ _ _ u.auth u.hostSecret u.sp,
      ⟨hran.auth, hran.hostSecret⟩, hran.sp, dataWritten_of hran.data s.x2 _ rfl, by simp [State.x1], rfl,
      hspeed, hresume⟩
    rw [if_neg (show (start s).x1 ≠ 0 from Nat.ne_of_gt hn),
      if_neg (show ¬ ((start s).bank b).rawRead = true from ne_true_of_eq_false hraw)]
    exact (bind_ok hu).trans rfl

/-! The scratchpad commands (43_scratchpad.md R206 to R208). -/

theorem stage_selects {w : Link} {b ta : Nat} {d : List Byte} {es : List Event} (h : StageServed w b ta d es) :
    es.any Event.selects = true := by
  obtain ⟨a, rfl, -⟩ := h
  rfl

/-- Settles O45: the lock check finds its page open, then `Stage`. -/
theorem spStageCompletes : Obligations.SpStageCompletes := by
  intro b s e1 e2 rest hq ha
  dsimp only
  intro hlock hstage hd
  rw [answering_append] at hd
  obtain ⟨t, ht, hopen⟩ := lockCheck_served (s := start s) rfl hlock hq hd
  obtain ⟨u, hu, hran, hsp⟩ := stage_served hopen.link hstage (hopen.quiet hq) hopen.dev
  have hall := hopen.toRan.trans hran
  refine ⟨completeOk { u with result := BitVec.ofNat 32 (chunkSize s.cfg (s.bank b) s.x0 s.x1) },
    exec_completes hq ha rfl ((bind_ok ht).trans ((bind_ok hu).trans rfl)),
    completed_of hall _ _ _ u.auth u.hostSecret u.sp, ⟨hall.auth, hall.hostSecret⟩, sameData_of hall.data,
    hall.selected ?_, rfl, hsp⟩
  rw [List.any_append, stage_selects hstage, Bool.or_true]

/-- Settles O46: `Confirm`, with a read-back that agrees or not. -/
theorem spConfirmCompletes : Obligations.SpConfirmCompletes := by
  intro b s e es rest hq ha hd
  refine ⟨fun hserved => ?_, fun hfails => ?_⟩
  · obtain ⟨u, hu, hran, hsp⟩ := confirm_served (s := start s) rfl hserved hq hd
    obtain ⟨a, hsent, -⟩ := hserved
    refine ⟨completeOk { u.putData s.x0 (wire16 s.sp.ta ++ [e] ++ s.sp.data) with result := e.setWidth 32 },
      exec_completes hq ha rfl ((bind_ok hu).trans ?_), completed_of hran _ _ _ u.auth u.hostSecret u.sp,
      ⟨hran.auth, hran.hostSecret⟩, hran.selected (readback_selects hsent), hsp, rfl,
      dataWritten_of hran.data s.x0 _ rfl⟩
    rw [get_bind, hsp]
    rfl
  · obtain ⟨u, hu, hran, hsp⟩ := confirm_fails (s := start s) rfl hfails hq hd
    obtain ⟨a, hsent, -⟩ := hfails
    obtain ⟨hfailed, hsecret, hrecord⟩ := hran.failed (readback_selects hsent) .confirm (by decide)
    exact ⟨_, exec_raises hq ha rfl (bind_error hu), hfailed, hsecret, hrecord.trans hsp⟩

/-- SP_COMMIT up to its commit. -/
theorem spCommit_begins {s : State} {b : Nat} {mac : List Byte} {es : List Event} {rest : Oracle}
    (hq : s.quiet = true) (ha : Allowed (.spCommit b) s) (h : MacServed s.link b s.sp.ta.toNat s.sp.data mac es)
    (hd : s.dev = .oracle (answering es rest)) :
    ∃ t, Wired (start s) es rest t ∧
      exec (.spCommit b) s = conclude ((do commit mac; setResult (BitVec.ofNat 32 s.sp.n) : Proc Unit) t) := by
  obtain ⟨t, ht, hwired⟩ := mac_served (s := start s)
    (fun mac => do commit mac; setResult (BitVec.ofNat 32 s.sp.n)) rfl h hq hd
  exact ⟨t, hwired, (exec_allowed hq ha rfl).trans (congrArg conclude ht)⟩

/-- Settles O47: the commit after its MAC, by what its poll reads. -/
theorem spCommitCompletes : Obligations.SpCommitCompletes := by
  intro b s mac e1 e2 rest hq ha hmac hd
  obtain ⟨-, -, -, rfl⟩ := id ha
  rw [answering_append] at hd
  obtain ⟨t, hwired, hexec⟩ := spCommit_begins hq ha hmac hd
  have hsp : t.sp = s.sp := hwired.sp
  have hcfg : t.cfg = s.cfg := hwired.cfg
  have hlink : t.link = s.link := hwired.link
  have hsel {polls : List Byte} (h : CommitSent s.link s.sp.bank s.sp.ta.toNat s.sp.es mac polls e2) :
      (e1 ++ e2).any Event.selects = true := by rw [List.any_append, commit_selects h, Bool.or_true]
  refine ⟨fun hserved => ?completes, fun hsent => ?timesOut, fun n v hn hv hAA h55 hsent => ?refused⟩
  case completes =>
    obtain ⟨u, hu, hran, hidle⟩ := commit_served hlink (by rw [hsp]; exact hserved) (hwired.quiet hq) hwired.dev
    obtain ⟨n, v, -, -, hsent⟩ := hserved
    have hall := hwired.toRan.trans hran
    refine ⟨completeOk { u with result := BitVec.ofNat 32 s.sp.n }, by rw [hexec, bind_ok hu]; rfl,
      completed_of hall _ _ _ u.auth u.hostSecret u.sp, ⟨hall.auth, hall.hostSecret⟩, sameData_of hall.data,
      hall.selected (hsel hsent), ?_, rfl⟩
    exact hidle.trans (by rw [hsp])
  case timesOut =>
    obtain ⟨u, hu, hran, hunknown⟩ := commit_busy hlink (by rw [hsp, hcfg]; exact hsent) (hwired.quiet hq) hwired.dev
    obtain ⟨hfailed, hsecret, hrecord⟩ := (hwired.toRan.trans hran).failed (hsel hsent) .poll (by decide)
    exact ⟨_, by rw [hexec, bind_error hu]; rfl, hfailed, hsecret, hrecord.trans (hunknown.trans (by rw [hsp]))⟩
  case refused =>
    obtain ⟨u, hu, hran, hunknown⟩ := commit_refused hlink (by rw [hcfg]; exact hn) ⟨hv, hAA, h55⟩
      (by rw [hsp]; exact hsent) (hwired.quiet hq) hwired.dev
    rw [show t.bank t.sp.bank = s.cfg.bank s.sp.bank by rw [hsp, State.bank, hcfg]] at hu
    have hfails (c : Cause) (hc : c ≠ .illegal) := (hwired.toRan.trans hran).failed (hsel hsent) c hc
    refine ⟨_, by rw [hexec, bind_error hu]; rfl, ?_⟩
    have hrecord : { t.sp with phase := .unknown } = ({ s.sp with phase := .unknown } : Scratch) := by rw [hsp]
    split
    case isTrue =>
      obtain ⟨hfailed, hsecret, hend⟩ := hfails .rejected (by decide)
      exact ⟨hsecret, hend.trans (hunknown.trans hrecord), hfailed⟩
    case isFalse =>
      obtain ⟨hfailed, hsecret, hend⟩ := hfails .commit (by decide)
      exact ⟨hsecret, hend.trans (hunknown.trans hrecord), hfailed⟩

/-! The secret engine (45_auth.md R264 to R268). -/

/-- `Ran` for a run in which the secret state may move as well. -/
def RanSecret (s : State) (es : List Event) (rest : Oracle) (t : State) : Prop :=
  Ran s es rest { t with auth := s.auth, hostSecret := s.hostSecret }

/-- A run that moves no secret, then one that may. -/
theorem Ran.thenSecret {s t u : State} {a b : List Event} {r r' : Oracle} (h : Ran s a r t) (k : RanSecret t b r' u) :
    RanSecret s (a ++ b) r' u := by
  unfold RanSecret at k ⊢
  rw [h.auth, h.hostSecret] at k
  exact h.trans k

/-- The secret state plays no part in a run. -/
theorem Ran.ofSecret {s t : State} {es : List Event} {rest : Oracle} {a : AuthState} {v : List Byte}
    (h : Ran { s with auth := a, hostSecret := v } es rest t) : RanSecret s es rest t := h.withSecret s.auth s.hostSecret

theorem RanSecret.ofSecret {s t : State} {es : List Event} {rest : Oracle} {a : AuthState} {v : List Byte}
    (h : RanSecret { s with auth := a, hostSecret := v } es rest t) : RanSecret s es rest t :=
  Ran.withSecret h s.auth s.hostSecret

theorem RanSecret.completed {s u : State} {es : List Event} {rest : Oracle} (h : RanSecret (start s) es rest u)
    (a : AuthState) (v : List Byte) (r : Word) :
    Completed s (completeOk { u with auth := a, hostSecret := v, result := r }) es rest :=
  completed_of h _ _ r a v u.sp

theorem QuietFrame.link_secret {s t : State} (h : QuietFrame s t) (v : List Byte) :
    State.link { t with hostSecret := v } = { s.link with secret := v } := by
  rw [← h.link]
  rfl

/-- A new secret in the host, then its copy into a slot (45_auth.md R264). -/
theorem setSecret_slotCopy_served {s t : State} {b slot : Nat} {sec : List Byte} {es : List Event} {rest : Oracle}
    (hf : QuietFrame s t) (h : SlotServed s.link b slot sec es) (hq : s.quiet = true)
    (hd : t.dev = .oracle (answering es rest)) :
    ∃ u, (do setHostSecret sec; slotCopy b slot : Proc Unit) t = .ok () u ∧ RanSecret t es rest u ∧
      u.sp.phase = .idle ∧ u.hostSecret = sec := by
  obtain ⟨u, hu, hran, hidle⟩ := slotCopy_served (s := { t with hostSecret := sec }) (w := { s.link with secret := sec })
    (hf.link_secret sec) rfl h (hf.quiet hq) hd
  exact ⟨u, (bind_ok (setHostSecret_run sec t)).trans hu, Ran.ofSecret (a := t.auth) hran, hidle, hran.hostSecret⟩

/-- Settles O53: the page write, the SHA round, and the new secret's copy. -/
theorem bindSecretCompletes : Obligations.BindSecretCompletes := by
  intro b slot af s es rest hq ha
  dsimp only
  rintro ⟨e1, e2, e3, rfl, hwrite, hsha, hslot⟩ hd
  obtain ⟨⟨hbank, -⟩, -⟩ := id ha
  rw [answering_append, answering_append] at hd
  obtain ⟨t, ht, hran1, -⟩ := writeRange_served (s := start s) (by rw [dataRun_length]; decide) rfl hwrite hq hd
  obtain ⟨t1, t2, ht1, ht2, hran2, -⟩ := sha_served hran1.link hsha (hran1.quiet hq) hran1.dev
  have hran12 := hran1.trans hran2
  obtain ⟨u, hu, hran3, hidle, hsecret⟩ := setSecret_slotCopy_served hran12.toQuietFrame hslot hq hran12.dev
  have hall := hran12.thenSecret hran3
  rw [List.append_assoc] at hall
  refine ⟨_, exec_completes hq ha rfl ?_, hall.completed .secretActive u.hostSecret 0, sameData_of hall.data,
    hall.selected ?_, hidle, rfl, hsecret, rfl⟩
  · rw [writeVerify_eq (show b < (start s).cfg.nbanks from hbank)]
    exact (bind_ok ht).trans ((bind_ok ht1).trans ((bind_ok (onBusError_ok ((bind_ok ht2).trans hu))).trans rfl))
  · simp only [List.any_append, sha_selects hsha, Bool.true_or, Bool.or_true]

/-- Settles O54: the page read and the SHA round. -/
theorem computeNextSecretCompletes : Obligations.ComputeNextSecretCompletes := by
  intro b s pg es rest hq ha
  dsimp only
  rintro ⟨e1, e2, rfl, hpage, hsha⟩ hd
  rw [answering_append] at hd
  obtain ⟨t, ht, hran1⟩ := page_served (s := start s) rfl hpage hq hd
  obtain ⟨t1, u, ht1, hu, hran2, hidle⟩ := sha_served hran1.link hsha (hran1.quiet hq) hran1.dev
  have hall := hran1.toRan.trans hran2
  refine ⟨completeOk { u with
      hostSecret := devSecret s.cfg s.hostSecret pg.1 (dataRun s s.x1 8 ++ s.rom.take 7), auth := .secretActive, result := 0 },
    exec_completes hq ha rfl ?_, completed_of hall _ _ _ .secretActive _ u.sp, sameData_of hall.data, hall.selected ?_,
    hidle, rfl, rfl, rfl⟩
  · exact (bind_ok ht).trans ((bind_ok ht1).trans ((bind_ok (onBusError_ok hu)).trans rfl))
  · rw [List.any_append, page_selects hpage, Bool.true_or]

theorem installSecret_selects {w : Link} {b slot p n : Nat} {S : List Byte} {check : Bool} {es : List Event}
    (h : InstallSecretServed w b slot p S n check es) : es.any Event.selects = true := by
  obtain ⟨e1, e2, e3, rfl, -, -, hslot⟩ := h
  simp only [List.any_append, transfer_selects hslot, Bool.or_true]

/-- The bus phase of INSTALL_SECRET: the chunks, the wipe, and the copy of the secret they made (45_auth.md R265). -/
theorem installBus_served {s : State} {b slot p J : Nat} {secret S : List Byte} {es : List Event} {rest : Oracle}
    (hb : b < s.cfg.nbanks) (hJ : J = installCount secret.length)
    (hS : S = secret ++ List.replicate (47 * J - secret.length) 0x00)
    (h : InstallSecretServed s.link b slot p S J (s.wverify.getLsbD b) es) (hq : s.quiet = true)
    (hd : s.dev = .oracle (answering es rest)) :
    ∃ u, installBus b slot p secret s = .ok () { u with auth := .secretBound, result := BitVec.ofNat 32 J } ∧
      RanSecret s es rest u ∧ u.sp.phase = .idle ∧
      u.hostSecret = installedSecret s.cfg S J 0 (List.replicate 8 0x00) := by
  obtain ⟨e1, e2, e3, rfl, hchunks, hwipe, hslot⟩ := h
  have hverify := writeVerify_eq hb
  have hlen : 47 * (0 + J) ≤ S.length := by
    rw [hS, List.length_append, List.length_replicate]
    omega
  rw [answering_append, answering_append] at hd
  obtain ⟨t, ht, hran1⟩ := installChunks_served b p S J 0 (List.replicate 8 0x00) e1 _ s hlen rfl hverify hchunks hq hd
  obtain ⟨t1, ht1, hran2, -⟩ := writeRange_served (by decide) hran1.link hwipe (hran1.quiet hq) hran1.dev
  have hran12 := hran1.trans hran2
  obtain ⟨u, hu, hran3, hidle, hsecret⟩ := setSecret_slotCopy_served hran12.toQuietFrame hslot hq hran12.dev
  refine ⟨u, ?_, by rw [← List.append_assoc]; exact hran12.thenSecret hran3, hidle, hsecret⟩
  subst hS hJ
  unfold installBus
  rw [get_bind, hverify]
  refine (bind_ok ht).trans ((bind_ok ht1).trans ?_)
  rw [← bind_assoc]
  exact (bind_ok hu).trans rfl

/-- Settles O52: `installBus` after `auth_state <- SecretInstalling`, which no event depends on. -/
theorem installSecretCompletes : Obligations.InstallSecretCompletes := by
  intro b slot s es rest hq ha
  dsimp only
  intro hserved hd
  obtain ⟨⟨hbank, -⟩, -⟩ := id ha
  have hsel := installSecret_selects hserved
  have hn : (dataRun s s.x2 s.x1).length = s.arg1.toNat := dataRun_length ..
  obtain ⟨u, hu, hran, hidle, hsecret⟩ := installBus_served (s := { start s with auth := .secretInstalling })
    (secret := dataRun s s.x2 s.x1) hbank (by rw [hn]; rfl) (by rw [hn]; rfl) hserved hq hd
  have hall : RanSecret (start s) es rest u := RanSecret.ofSecret hran
  exact ⟨_, exec_completes hq ha rfl ((bind_ok (setAuth_run _ _)).trans (onBusError_ok hu)),
    hall.completed .secretBound u.hostSecret _, sameData_of hall.data, hall.selected hsel, hidle, rfl, hsecret, rfl⟩

/-- Settles O55: the signed page, and the check of its MAC. -/
theorem authReadCompletesOrRejects : Obligations.AuthReadCompletesOrRejects := by
  intro b s r es rest hq ha
  dsimp only
  intro hserved hd
  obtain ⟨t, u, v, x, ht, hu, hv, hx, hran⟩ := authRead_served (s := start s) rfl hserved hq hd
  have hsel := authRead_selects hserved
  have hidle := hran.withSp { x.sp with phase := .idle }
  have hexec := (exec_allowed hq ha rfl).trans (congrArg conclude ((bind_ok ht).trans ((bind_ok hu).trans
    ((bind_ok (setPhase_run _ u)).trans ((bind_ok hv).trans ((bind_ok hx).trans (bind_ok (setPhase_run _ x))))))))
  refine ⟨fun hmac => ?_, fun hmac => ?_⟩
  · refine ⟨completeOk { State.putData { x with sp := { x.sp with phase := .idle } } s.x1 (r.page ++ r.extra ++ r.mac) with
        result := BitVec.ofNat 32 (52 + (s.bank b).extraInfoLength) },
      ?_, completed_of hidle _ _ _ x.auth x.hostSecret _, ⟨hran.auth, hran.hostSecret⟩,
      hran.selected hsel, rfl, dataWritten_of hran.data s.x1 _ rfl, rfl⟩
    exact hexec.trans (congrArg conclude ((bind_ok (ensure_pass (beq_iff_eq.2 hmac))).trans rfl))
  · obtain ⟨hfailed, hsecret, hrecord⟩ := hidle.failed hsel .macmismatch (by decide)
    refine ⟨_, ?_, hfailed, hsecret, congrArg Scratch.phase hrecord⟩
    exact hexec.trans (congrArg conclude (bind_error (ensure_stop (beq_eq_false_iff_ne.2 hmac))))

/-! The reference device's copy-scratchpad (20_memory.md R95, R102, R111). -/

/-- A copy into bank `b` is accepted: the scratchpad is valid, TA and ES are its own, and an authenticated bank gets the MAC it
expects (R111). -/
def CopyAccepted (r : Rdm) (c : Config) (b : Nat) (frame : List Byte) : Prop :=
  let ta := frameAddr frame
  let o := ta % c.spLen
  r.spValid = true ∧ ta = r.spTa.toNat ∧ byteAt frame 3 = r.spEs ∧
    ((c.bank b).authenticated = true →
      frame.drop 4 = r.expectedMac c b ta o ((byteAt frame 3 &&& 0x1F).toNat + 1 - o))

theorem copySp_accepted {r : Rdm} {c : Config} {b : Nat} {frame : List Byte} (hs : inSecret c (frameAddr frame) = false)
    (hb : frameBank c frame = some b) (h : CopyAccepted r c b frame) :
    let o := frameAddr frame % c.spLen
    r.copySp c frame = { r.store (c.bank b).writeOnce (frameAddr frame)
        (r.spRun c o ((byteAt frame 3 &&& 0x1F).toNat + 1 - o)) with spValid := false, mode := .alt } := by
  obtain ⟨hvalid, hta, hes, hmac⟩ := h
  unfold Rdm.copySp
  dsimp only
  rw [if_pos ⟨hvalid, hta, hes⟩, if_neg (by rw [hs]; decide), hb]
  exact if_neg fun hbad => hbad.2 (hmac hbad.1)

/-- A copy that is not accepted changes the device's mode alone. -/
theorem copySp_rejected {r : Rdm} {c : Config} {b : Nat} {frame : List Byte} (hs : inSecret c (frameAddr frame) = false)
    (hb : frameBank c frame = some b) (h : ¬ CopyAccepted r c b frame) : ∃ m, r.copySp c frame = { r with mode := m } := by
  unfold Rdm.copySp
  dsimp only
  split
  case isFalse => exact ⟨.busy, rfl⟩
  case isTrue hrun =>
    obtain ⟨hvalid, hta, hes⟩ := hrun
    rw [if_neg (by rw [hs]; decide), hb]
    refine ⟨.reject, if_pos ?_⟩
    by_contra hok
    exact h ⟨hvalid, hta, hes, fun hauth => by_contra fun hne => hok ⟨hauth, hne⟩⟩

@[simp] theorem Rdm.spRun_length (r : Rdm) (c : Config) (o n : Nat) : (r.spRun c o n).length = n := by
  simp [Rdm.spRun]

theorem Rdm.memRun_getElem (r : Rdm) (a n i : Nat) (h : i < (r.memRun a n).length) :
    (r.memRun a n)[i] = Memory.read 0xFF r.mem (a + i) := by
  simp [Rdm.memRun, Memory.readRun]

/-- Device memory after a store: the run takes the bytes, under what was there on a write-once bank (R102, R111). -/
theorem Rdm.read_store {r : Rdm} (hr : r.canonical = true) (once : Bool) (a : Nat) (d : List Byte) (x : Nat) :
    Memory.read 0xFF (r.store once a d).mem x =
      if a ≤ x ∧ x < a + d.length then
        if once then Memory.read 0xFF r.mem x &&& byteAt d (x - a) else byteAt d (x - a)
      else Memory.read 0xFF r.mem x := by
  have hrising : Memory.rising none r.mem = true := by
    obtain ⟨hmem, -⟩ := (Rdm.canonical_iff r).1 hr
    exact (Bool.and_eq_true_iff.1 hmem).1
  have hmem : (r.memRun a d.length).length = d.length := by simp [Rdm.memRun, Memory.readRun]
  unfold Rdm.store
  dsimp only
  rw [Memory.read_writeRun _ _ _ _ _ hrising]
  cases once with
  | false => rfl
  | true =>
    simp only [if_true, List.length_zipWith, hmem, Nat.min_self]
    split
    case isFalse => rfl
    case isTrue h =>
      have hlt : x - a < d.length := by omega
      rw [List.getD_eq_getElem _ _ (by simpa [hmem] using hlt), List.getElem_zipWith, Rdm.memRun_getElem,
        show a + (x - a) = x by omega, byteAt, List.getD_eq_getElem _ _ hlt]

/-- Settles O60: a copy is `Rdm.store` of the run or touches the mode alone, by `CopyAccepted`. -/
theorem rdmCopyIsAllOrNothing : Obligations.RdmCopyIsAllOrNothing := by
  intro r c frame b hr
  dsimp only
  intro hs hb
  refine ⟨fun h => ?_, fun h => ?_, fun honce a => ?_⟩
  · rw [copySp_accepted hs hb h]
    refine ⟨rfl, rfl, rfl, fun a => (Rdm.read_store hr _ _ _ a).trans ?_⟩
    rw [Rdm.spRun_length]
  · obtain ⟨m, hm⟩ := copySp_rejected hs hb h
    rw [hm]
    exact ⟨rfl, rfl, rfl⟩
  · by_cases h : CopyAccepted r c b frame
    · rw [copySp_accepted hs hb h]
      dsimp only
      rw [Rdm.read_store hr, honce]
      split
      case isTrue => rw [if_pos rfl, BitVec.and_comm, ← BitVec.and_assoc, BitVec.and_self]
      case isFalse => exact BitVec.and_self
    · obtain ⟨m, hm⟩ := copySp_rejected hs hb h
      rw [hm]
      exact BitVec.and_self

end Sys2Proof.Machine
end

section
/-! Proofs for the family 30_encoding.md: the decoder and the encoder are inverse (O1, O2), the decoder follows the opcode
table (O3), and the spec's example words (O4). -/

namespace Sys2Proof.Laws

open Sys2Proof Sys2Proof.Machine

/-! A word is its three fields (30_encoding.md R120). -/

@[simp] theorem fieldOpc_word (opc : Byte) (b : Nat) (imm : HWord) : fieldOpc (word opc b imm) = opc := by
  unfold fieldOpc word
  simp (disch := decide) only [BitVec.extractLsb'_append_eq_of_le]
  exact BitVec.extractLsb'_eq_self

@[simp] theorem fieldBank_word (opc : Byte) (b : Nat) (imm : HWord) :
    fieldBank (word opc b imm) = BitVec.ofNat 8 b := by
  unfold fieldBank word
  simp (disch := decide) only [BitVec.extractLsb'_append_eq_of_le, BitVec.extractLsb'_append_eq_of_add_le]
  exact BitVec.extractLsb'_eq_self

@[simp] theorem fieldImm_word (opc : Byte) (b : Nat) (imm : HWord) : fieldImm (word opc b imm) = imm := by
  unfold fieldImm word
  rw [BitVec.extractLsb'_append_eq_of_add_le (by decide), BitVec.extractLsb'_eq_self]

theorem word_fields (w : Word) : word (fieldOpc w) (fieldBank w).toNat (fieldImm w) = w := by
  unfold word fieldOpc fieldBank fieldImm
  rw [BitVec.ofNat_toNat, BitVec.setWidth_eq, BitVec.extractLsb'_append_extractLsb'_eq_extractLsb' (by decide),
    BitVec.extractLsb'_append_extractLsb'_eq_extractLsb' (by decide)]
  exact BitVec.extractLsb'_eq_self

theorem decode_word (opc bank : Byte) (imm : HWord) : decode (word opc bank.toNat imm) = decodeFields opc bank imm := by
  simp [decode]

/-! Operands and the bits they stand in (R121). -/

theorem bankFits_exists {b : Nat} (h : bankFits b = true) : ∃ bank : Byte, b = bank.toNat :=
  ⟨.ofNatLT b (of_decide_eq_true h), rfl⟩

theorem slotFits_exists {s : Nat} (h : slotFits s = true) : ∃ v : BitVec 3, s = v.toNat :=
  ⟨.ofNatLT s (of_decide_eq_true h), rfl⟩

theorem immByte_byteImm (v : Byte) : immByte (byteImm v) = v := by revert v; decide

theorem immSlot_slotImm (v : BitVec 3) : immSlot (slotImm v.toNat) = v.toNat := by revert v; decide

theorem immSlot_slotImm_af (v : BitVec 3) (af : Bool) : immSlot (slotImm v.toNat ||| flagImm af 3) = v.toNat := by
  revert v; cases af <;> decide

theorem immAf_slotImm_af (v : BitVec 3) (af : Bool) : immAf (slotImm v.toNat ||| flagImm af 3) = af := by
  revert v; cases af <;> decide

/-- An IMM whose bits from `k` up are 0 is its low `k` bits. -/
theorem imm_eq_low {imm : HWord} (k : Nat) (h : imm &&& ~~~(BitVec.allOnes k).setWidth 16 = 0) :
    ∃ v : BitVec k, imm = v.setWidth 16 := by
  refine ⟨imm.setWidth k, BitVec.eq_of_getLsbD_eq fun i hi => ?_⟩
  have hbit : (imm &&& ~~~(BitVec.allOnes k).setWidth 16).getLsbD i = false := by rw [h]; exact BitVec.getLsbD_zero
  rw [BitVec.getLsbD_and, BitVec.getLsbD_not, BitVec.getLsbD_setWidth, BitVec.getLsbD_allOnes] at hbit
  rw [BitVec.getLsbD_setWidth, BitVec.getLsbD_setWidth]
  by_cases hk : i < k
  · simp [hi, hk]
  · simpa [hi, hk] using hbit

theorem byteImm_immByte {imm : HWord} (h : imm &&& ~~~0x00FF = 0) : byteImm (immByte imm) = imm := by
  obtain ⟨v, rfl⟩ := imm_eq_low 8 h
  revert v; decide

theorem flag_immC {imm : HWord} (h : imm &&& ~~~0x0001 = 0) : flagImm (immC imm) 0 = imm := by
  obtain ⟨v, rfl⟩ := imm_eq_low 1 h
  revert v; decide

theorem flags_immC_immX {imm : HWord} (h : imm &&& ~~~0x0003 = 0) :
    flagImm (immC imm) 0 ||| flagImm (immX imm) 1 = imm := by
  obtain ⟨v, rfl⟩ := imm_eq_low 2 h
  revert v; decide

theorem slotImm_immSlot {imm : HWord} (h : imm &&& ~~~0x0007 = 0) : slotImm (immSlot imm) = imm := by
  obtain ⟨v, rfl⟩ := imm_eq_low 3 h
  revert v; decide

theorem slot_immSlot_immAf {imm : HWord} (h : imm &&& ~~~0x000F = 0) :
    slotImm (immSlot imm) ||| flagImm (immAf imm) 3 = imm := by
  obtain ⟨v, rfl⟩ := imm_eq_low 4 h
  revert v; decide

theorem zero_eq_imm {imm : HWord} (h : imm &&& ~~~0x0000 = 0) : 0 = imm :=
  h.symm.trans BitVec.and_allOnes

/-! A form takes its command when the bits it does not use are 0 (R123); the converse is `bankForm_ok`, `crcForm_ok`. -/

theorem bankForm_of_used {imm used : HWord} {i : Instr} (h : imm &&& ~~~used = 0) : bankForm imm used i = .ok i := if_pos h

theorem crcForm_of_used {bank : Byte} {imm used : HWord} {i : Instr} (hb : bank &&& 0xFF = 0) (h : imm &&& ~~~used = 0) :
    crcForm bank imm used i = .ok i := by
  obtain rfl : bank = 0 := BitVec.and_allOnes.symm.trans hb
  exact (if_pos rfl).trans (bankForm_of_used h)

/-! Decoding what was encoded (R123). -/

theorem decode_crcWord (opc : Byte) {imm used : HWord} {i j : Instr}
    (hform : decodeFields opc 0 imm = crcForm 0 imm used j) (hused : imm &&& ~~~used = 0) (hj : j = i) :
    decode (word opc 0 imm) = .ok i :=
  hj ▸ (decode_word opc 0 imm).trans (hform.trans (crcForm_of_used BitVec.zero_and hused))

theorem decode_bankWord (opc bank : Byte) {imm used : HWord} {i j : Instr}
    (hform : decodeFields opc bank imm = bankForm imm used j) (hused : imm &&& ~~~used = 0) (hj : j = i) :
    decode (word opc bank.toNat imm) = .ok i :=
  hj ▸ (decode_word opc bank imm).trans (hform.trans (bankForm_of_used hused))

/-- The IMM of a command carries its operands; the last group are the bank commands without any. -/
theorem decode_encode (i : Instr) (hwf : i.wf = true) : decode (encode i) = .ok i := by
  cases i
  case crc8Block | crc8Check | crc16Block | crc16Check => exact decode_crcWord _ rfl BitVec.zero_and rfl
  case crc16Seed v => exact decode_crcWord 0x05 rfl BitVec.and_zero rfl
  case crc8Seed v | crc8Byte v | crc16Byte v =>
    exact decode_crcWord _ rfl (byteImm_high v) (congrArg _ (immByte_byteImm v))
  case readPage b c x =>
    obtain ⟨bank, rfl⟩ := bankFits_exists hwf
    cases c <;> cases x <;> exact decode_bankWord 0x10 bank rfl rfl rfl
  case readBytes b c | readPagePacket b c =>
    obtain ⟨bank, rfl⟩ := bankFits_exists hwf
    cases c <;> exact decode_bankWord _ bank rfl rfl rfl
  case installSecret b s =>
    obtain ⟨hb, hs⟩ := Bool.and_eq_true_iff.1 hwf
    obtain ⟨bank, rfl⟩ := bankFits_exists hb
    obtain ⟨v, rfl⟩ := slotFits_exists hs
    exact decode_bankWord 0x40 bank rfl (slotImm_high3 v.toNat) (congrArg _ (immSlot_slotImm v))
  case bindSecret b s af =>
    obtain ⟨hb, hs⟩ := Bool.and_eq_true_iff.1 hwf
    obtain ⟨bank, rfl⟩ := bankFits_exists hb
    obtain ⟨v, rfl⟩ := slotFits_exists hs
    exact decode_bankWord 0x41 bank rfl (slotImm_high v.toNat af)
      (congrArg₂ _ (immSlot_slotImm_af v af) (immAf_slotImm_af v af))
  all_goals
    obtain ⟨bank, rfl⟩ := bankFits_exists hwf
    exact decode_bankWord _ bank rfl BitVec.zero_and rfl

/-- Settles O1: `decode_encode`. -/
theorem decodeOfEncodeIsTheCommand : Obligations.DecodeOfEncodeIsTheCommand := decode_encode

/-! Encoding what was decoded (R123, R124). -/

theorem encode_of_bankForm {opc bank : Byte} {imm used imm' : HWord} {i j : Instr} {n : Nat} (hopc : opc.toNat = n)
    (hj : encode j = word (BitVec.ofNat 8 n) bank.toNat imm') (himm : imm &&& ~~~used = 0 → imm' = imm)
    (h : bankForm imm used j = .ok i) : encode i = word opc bank.toNat imm := by
  obtain ⟨rfl, hused⟩ := bankForm_ok h
  rw [hj, himm hused, ← hopc, BitVec.ofNat_toNat, BitVec.setWidth_eq]

theorem encode_of_crcForm {opc bank : Byte} {imm used imm' : HWord} {i j : Instr} {n : Nat} (hopc : opc.toNat = n)
    (hj : encode j = word (BitVec.ofNat 8 n) 0 imm') (himm : imm &&& ~~~used = 0 → imm' = imm)
    (h : crcForm bank imm used j = .ok i) : encode i = word opc bank.toNat imm := by
  obtain ⟨rfl, rfl, hused⟩ := crcForm_ok h
  rw [hj, himm hused, ← hopc, BitVec.ofNat_toNat, BitVec.setWidth_eq]
  rfl

/-- A case per opcode, in the decoder's order and grouped by the operands its IMM carries. -/
theorem encode_of_decodeFields {opc bank : Byte} {imm : HWord} {i : Instr} (h : decodeFields opc bank imm = .ok i) :
    encode i = word opc bank.toNat imm := by
  unfold decodeFields at h
  split at h
  case h_1 | h_2 | h_6 => exact encode_of_crcForm ‹_› rfl byteImm_immByte h
  case h_5 => exact encode_of_crcForm ‹_› rfl (fun _ => rfl) h
  case h_3 | h_4 | h_7 | h_8 => exact encode_of_crcForm ‹_› rfl zero_eq_imm h
  case h_9 => exact encode_of_bankForm ‹_› rfl flags_immC_immX h
  case h_10 | h_12 => exact encode_of_bankForm ‹_› rfl flag_immC h
  case h_23 => exact encode_of_bankForm ‹_› rfl slotImm_immSlot h
  case h_24 => exact encode_of_bankForm ‹_› rfl slot_immSlot_immAf h
  case h_27 => cases h
  all_goals exact encode_of_bankForm ‹_› rfl zero_eq_imm h

theorem encode_decode {w : Word} {i : Instr} (h : decode w = .ok i) : encode i = w :=
  (encode_of_decodeFields h).trans (word_fields w)

/-- Settles O2: `decode_wf` and `encode_decode`. -/
theorem encodeOfDecodeIsTheWord : Obligations.EncodeOfDecodeIsTheWord := fun _ _ h => ⟨decode_wf h, encode_decode h⟩

/-! The rows of the opcode table (R124, R125). -/

/-- Every word of `row` decodes to a command of `row`'s mnemonic. -/
def RowDecodes (row : OpcodeRow) : Prop :=
  ∀ w : Word, w &&& row.mask = row.pattern → ∃ i, decode w = .ok i ∧ i.mnemonic = row.mnemonic

/-- A row is compared field by field, and its mask covers OPC. -/
theorem rowDecodes_of_fields {row : OpcodeRow} (hmask : fieldOpc row.mask = 0xFF)
    (h : ∀ bank imm, bank &&& fieldBank row.mask = fieldBank row.pattern →
      imm &&& fieldImm row.mask = fieldImm row.pattern →
      ∃ i, decodeFields (fieldOpc row.pattern) bank imm = .ok i ∧ i.mnemonic = row.mnemonic) : RowDecodes row := by
  intro w hw
  have hfield (k n : Nat) : w.extractLsb' k n &&& row.mask.extractLsb' k n = row.pattern.extractLsb' k n := by
    rw [← hw, BitVec.extractLsb'_and]
  have hopc : fieldOpc w = fieldOpc row.pattern := by
    have hmasked : fieldOpc w &&& fieldOpc row.mask = fieldOpc row.pattern := hfield 24 8
    rw [hmask] at hmasked
    exact BitVec.and_allOnes.symm.trans hmasked
  unfold decode
  rw [hopc]
  exact h _ _ (hfield 16 8) (hfield 0 16)

theorem opcodeTable_rowDecodes : ∀ row ∈ opcodeTable, RowDecodes row := by
  simp only [opcodeTable, List.forall_mem_append, List.forall_mem_cons,
    List.not_mem_nil, false_imp_iff, implies_true, and_true]
  refine ⟨⟨⟨⟨?crc, ?paged⟩, ?scratchpad⟩, ?otp⟩, ?auth⟩
  case crc =>
    and_intros <;>
      exact rowDecodes_of_fields rfl fun _ _ hbank himm => ⟨_, crcForm_of_used hbank himm, rfl⟩
  case paged | scratchpad | otp | auth =>
    and_intros <;>
      exact rowDecodes_of_fields rfl fun _ _ _ himm => ⟨_, bankForm_of_used himm, rfl⟩

theorem opcodeTable_row_ext {row row' : OpcodeRow} (h : row ∈ opcodeTable) (h' : row' ∈ opcodeTable)
    (hm : row.mnemonic = row'.mnemonic) : row = row' :=
  List.inj_on_of_nodup_map (f := OpcodeRow.mnemonic) (by decide) h h' hm

/-- The per-command lemmas, one per constructor. -/
theorem encodesItsRow (i : Instr) : EncodesItsRow.Statement i := by
  cases i
  exacts [EncodesItsRow.crc8Seed _, EncodesItsRow.crc8Byte _, EncodesItsRow.crc8Block, EncodesItsRow.crc8Check,
    EncodesItsRow.crc16Seed _, EncodesItsRow.crc16Byte _, EncodesItsRow.crc16Block, EncodesItsRow.crc16Check,
    EncodesItsRow.readPage .., EncodesItsRow.readBytes .., EncodesItsRow.write _, EncodesItsRow.readPagePacket ..,
    EncodesItsRow.writePagePacket _, EncodesItsRow.spStage _, EncodesItsRow.spConfirm _, EncodesItsRow.spCommit _,
    EncodesItsRow.lockPage _, EncodesItsRow.isPageLocked _, EncodesItsRow.redirectPage _,
    EncodesItsRow.getRedirectedPage _, EncodesItsRow.lockRedirectPage _, EncodesItsRow.isRedirectPageLocked _,
    EncodesItsRow.installSecret .., EncodesItsRow.bindSecret .., EncodesItsRow.computeNextSecret _,
    EncodesItsRow.authRead _]

/-- A word that decodes matches the row of its command, since the word is that command's encoding. -/
theorem decode_row {w : Word} {i : Instr} (h : decode w = .ok i) :
    ∃ row ∈ opcodeTable, row.mnemonic = i.mnemonic ∧ w &&& row.mask = row.pattern := by
  have hrow : EncodesItsRow.Statement i := encodesItsRow i
  rwa [EncodesItsRow.Statement, encode_decode h] at hrow

theorem row_matches_iff {row : OpcodeRow} (hrow : row ∈ opcodeTable) (w : Word) :
    w &&& row.mask = row.pattern ↔ ∃ i, decode w = .ok i ∧ i.mnemonic = row.mnemonic := by
  refine ⟨opcodeTable_rowDecodes row hrow w, fun ⟨i, hi, hm⟩ => ?_⟩
  obtain ⟨row', hrow', hm', hw⟩ := decode_row hi
  rwa [opcodeTable_row_ext hrow' hrow (hm'.trans hm)] at hw

/-- Settles O3: `row_matches_iff`; two rows of one word share its command's mnemonic, and a word that decodes has a row. -/
theorem decodeFollowsMatchAndMask : Obligations.DecodeFollowsMatchAndMask := by
  intro w
  refine ⟨fun row hrow => row_matches_iff hrow w, fun row hrow row' hrow' hw hw' => ?_, fun ⟨e, he⟩ row hrow hw => ?_, fun hnone => ?_⟩
  · obtain ⟨i, hi, hm⟩ := (row_matches_iff hrow w).1 hw
    obtain ⟨i', hi', hm'⟩ := (row_matches_iff hrow' w).1 hw'
    obtain rfl : i = i' := Except.ok.inj (hi.symm.trans hi')
    exact opcodeTable_row_ext hrow hrow' (hm.symm.trans hm')
  · obtain ⟨i, hi, -⟩ := (row_matches_iff hrow w).1 hw
    cases he.symm.trans hi
  · cases hw : decode w with
    | error e => exact ⟨e, rfl⟩
    | ok i =>
      obtain ⟨row, hrow, -, hmask⟩ := decode_row hw
      exact absurd hmask (hnone row hrow)

/-- Settles O4: each word evaluated. -/
theorem specExampleWordsDecode : Obligations.SpecExampleWordsDecode := ⟨rfl, rfl, rfl, rfl, rfl, rfl, rfl, rfl⟩

end Sys2Proof.Laws
end

section
/-! Proofs for the family 41_crc.md: sealed and corrupted sequences (O21), corrupted page frames (O57) and the eight CRC
commands (O18 to O20). -/

namespace Sys2Proof.Machine

/-! Seals (41_crc.md R145 to R147). -/

theorem crc8_append (seed : Byte) (s t : List Byte) : crc8 seed (s ++ t) = crc8 (crc8 seed s) t := List.foldl_append

theorem crc16_append (seed : HWord) (s t : List Byte) : crc16 seed (s ++ t) = crc16 (crc16 seed s) t := List.foldl_append

theorem crc8_seal8 (seed : Byte) (s : List Byte) : crc8 seed (s ++ seal8 seed s) = 0x00 := by
  rw [crc8_append]
  calc crc8Step (crc8 seed s) (crc8 seed s) = Nat.repeat crc8Bit 8 0#8 := by rw [crc8Step, BitVec.xor_self]
    _ = 0x00 := rfl

theorem hi_not (c : HWord) : hi (~~~ c) = ~~~ hi c := by
  refine BitVec.eq_of_getLsbD_eq fun i h => ?_
  simp [hi, h, show 8 + i < 16 by omega]

/-- Fed the complement of its low byte, an accumulator keeps its high byte above 0xFF. -/
theorem xor_lo_not (c : HWord) : c ^^^ (lo (~~~ c)).setWidth 16 = hi c ++ 0xFF#8 := by
  refine BitVec.eq_of_getLsbD_eq fun i h => ?_
  rw [BitVec.getLsbD_append, BitVec.getLsbD_xor, BitVec.getLsbD_setWidth]
  by_cases hlow : i < 8
  · have hones : (0xFF#8).getLsbD i = true := BitVec.getLsbD_allOnes.trans (decide_eq_true hlow)
    simp [lo, h, hlow, hones]
  · simp [lo, hi, hlow, show i - 8 < 8 by omega, show 8 + (i - 8) = i by omega]

/-- The bytes of its seal take any accumulator to the residual: after the first, only its high byte is left to tell. -/
theorem crc16Step_seal (c : HWord) : crc16Step (crc16Step c (lo (~~~ c))) (hi (~~~ c)) = 0xB001 := by
  have hhigh : ∀ h : Byte, crc16Step (Nat.repeat crc16Bit 8 (h ++ 0xFF#8)) (~~~ h) = 0xB001 := by decide +kernel
  calc crc16Step (crc16Step c (lo (~~~ c))) (hi (~~~ c))
      = crc16Step (Nat.repeat crc16Bit 8 (hi c ++ 0xFF#8)) (~~~ hi c) := by rw [← xor_lo_not, ← hi_not]; rfl
    _ = 0xB001 := hhigh (hi c)

theorem crc16_seal16 (seed : HWord) (s : List Byte) : crc16 seed (s ++ seal16 seed s) = 0xB001 := by
  rw [crc16_append]
  exact crc16Step_seal _

/-- Settles O21: the seals by their last steps, a flipped bit by the injectivity of every step. -/
theorem sealedFramesReachTheResidual : Obligations.SealedFramesReachTheResidual := by
  refine ⟨crc8_seal8, crc16_seal16, fun seed f i j hi hj => ?_, fun seed f i j hi hj => ?_⟩
  · have hne := crc8_flip f seed i j hi hj
    exact ⟨hne, fun hres => hres ▸ hne⟩
  · have hne := crc16_flip f seed i j hi hj
    exact ⟨hne, fun hres => hres ▸ hne⟩

/-! Corrupted page frames (42_paged_memory.md R181). -/

@[simp] theorem flipBit_length (f : List Byte) (i j : Nat) : (flipBit f i j).length = f.length := List.length_set

@[simp] theorem link_bank (s : State) (b : Nat) : s.link.bank b = s.bank b := rfl

/-- An exchange whose answer misses the residual. -/
theorem checkedExchange_rejected {α : Type} {s : State} {out ans : List Byte} {rest : Oracle} (k : Nat) (seed : HWord)
    (c : Cause) (f : List Byte → Proc α) (hq : s.quiet = true) (hd : s.dev = .oracle (answering [.exchange out ans] rest))
    (hlen : ans.length = out.length) (hbad : crcOk k seed ans = false) :
    ∃ t, (do let a ← tExchange out; ensure (crcOk k seed a) c; f a : Proc α) s = .error (.raised .bus c) t ∧
      Wired s [.exchange out ans] rest t := by
  obtain ⟨t, ht, hwired⟩ := exchange_served hq hd hlen
  exact ⟨t, (bind_ok ht).trans (bind_error (ensure_stop hbad)), hwired⟩

/-- A continuation frame, which is also the second frame of a bank with CRC after the address. -/
theorem contFrame_corrupted {s : State} {k : Bank} {f : List Byte} {i j : Nat} {rest : Oracle} (hi : i < f.length)
    (hj : j < 8) (hlen : f.length = pageFrameLength k) (hok : crcOk k.crcBytes 0 f = true) (hq : s.quiet = true)
    (hd : s.dev = .oracle (answering [.exchange (List.replicate (pageFrameLength k) 0xFF) (flipBit f i j)] rest)) :
    ∃ t, frameReadCrcCont k s = .error (.raised .bus .frame) t ∧
      Wired s [.exchange (List.replicate (pageFrameLength k) 0xFF) (flipBit f i j)] rest t :=
  checkedExchange_rejected _ _ _ _ hq hd (by simp [hlen]) (crcOk_flip _ _ f i j hi hj hok)

/-- The page read, in each of its three frame forms (42_paged_memory.md R163). -/
theorem pageRead_corrupted {s : State} {b p : Nat} {cok : Bool} {es : List Event} {rest : Oracle}
    (h : PageCorrupted s.link b p cok es) (hq : s.quiet = true) (hd : s.dev = .oracle (answering es rest)) :
    ∃ t, pageRead b p cok s = .error (.raised .bus .frame) t ∧ Wired s es rest t := by
  obtain ⟨f, i, j, hi, hj, h⟩ := h
  unfold pageRead
  rw [get_bind]
  split at h
  case isTrue hc =>
    obtain ⟨rfl, hlen, hok⟩ := h
    rw [if_pos hc]
    exact contFrame_corrupted hi hj hlen hok hq hd
  case isFalse hc =>
    simp only [if_neg hc]
    split at h
    case isTrue haa =>
      rw [link_bank] at haa
      obtain ⟨a, rfl, hhead, hheadOk, hlen, hok⟩ := h
      obtain ⟨t, u, ht, -, hu, hwired⟩ := selectExchange_served
        (rest := answering [.exchange _ (flipBit f i j)] rest) rfl hq hd (by simp [hhead])
      obtain ⟨v, hv, hcorrupt⟩ := contFrame_corrupted hi hj hlen hok (hwired.quiet hq) hwired.dev
      refine ⟨v, ?_, hwired.trans hcorrupt⟩
      rw [bind_ok ht, if_pos haa, frameReadCrcAa, frameHead_eq]
      exact (bind_ok hu).trans ((bind_ok (ensure_pass hheadOk)).trans hv)
    case isFalse haa =>
      rw [link_bank] at haa
      obtain ⟨rfl, hlen, hok⟩ := h
      have hsame : (flipBit f i j).length =
          (frameHead (s.bank b).opcReadCrc (pageAddr (s.bank b) p) ++ ff (pageFrameLength (s.bank b))).length := by
        simpa using hlen
      obtain ⟨t, ht, hselect⟩ := selectDevice_served (rest := answering [.exchange _ (flipBit f i j)] rest) rfl hq hd
      obtain ⟨u, hu, hcorrupt⟩ := checkedExchange_rejected (s.bank b).crcBytes (s.bank b).crcSeed .frame
        (fun a => pure (splitPage (s.bank b) 3 a)) (hselect.quiet hq) hselect.dev hsame (crcOk_flip _ _ f i j hi hj hok)
      refine ⟨u, ?_, hselect.trans hcorrupt⟩
      rw [bind_ok ht, if_neg haa, frameReadCrc, frameHead_eq]
      exact hu

theorem pageCorrupted_ne_nil {w : Link} {b p : Nat} {cok : Bool} {es : List Event} (h : PageCorrupted w b p cok es) :
    es ≠ [] := by
  obtain ⟨f, i, j, -, -, h⟩ := h
  split at h
  · obtain ⟨rfl, -⟩ := h; exact List.cons_ne_nil _ _
  · split at h
    · obtain ⟨a, rfl, -⟩ := h; exact List.cons_ne_nil _ _
    · obtain ⟨rfl, -⟩ := h; exact List.cons_ne_nil _ _

/-- The page read of READ_PAGE on a bank with device CRC (42_paged_memory.md R166). -/
theorem wholePage_corrupted {s : State} {b p : Nat} {c : Bool} {es : List Event} {rest : Oracle}
    (hcrc : (s.bank b).pageAutoCrc = true) (h : PageCorrupted s.link b p (wholePageContinues s b p c) es)
    (hq : s.quiet = true) (hd : s.dev = .oracle (answering es rest)) :
    ∃ t, readWholePage b p c s = .error (.raised .bus .frame) t ∧ Wired s es rest t := by
  obtain ⟨t, ht, hwired⟩ := pageRead_corrupted h hq hd
  refine ⟨t, ?_, hwired⟩
  unfold wholePageContinues pageReadKind at ht
  unfold readWholePage
  rw [get_bind]
  simp only [if_pos hcrc, contOk_eq] at ht ⊢
  exact bind_error ht

/-- Settles O57: a flipped bit makes the frame miss its residual (`crcOk_flip`), and READ_PAGE ends with its page read. -/
theorem corruptedPageFramesAreRejected : Obligations.CorruptedPageFramesAreRejected := by
  refine ⟨fun b p cok s es rest hq _ _ h hd => ?_, fun b c x s es rest hq _ ha hcrc h hd => ?_⟩
  · obtain ⟨t, ht, hwired⟩ := pageRead_corrupted h hq hd
    exact ⟨t, ht, hwired.toQuietFrame, hwired.trace⟩
  · obtain ⟨u, hu, hwired⟩ := wholePage_corrupted (s := start s) hcrc h hq hd
    refine ⟨_, exec_raises hq ha rfl (bind_error hu),
      failed_of hwired.toRan (pageCorrupted_ne_nil h) .frame (by decide) u.auth u.hostSecret u.sp,
      (completeError_sp ..).trans hwired.sp, (completeError_auth ..).trans hwired.auth,
      (completeError_hostSecret ..).trans hwired.hostSecret⟩

/-! The CRC commands (41_crc.md R148 to R155). -/

/-- Settles O18: the eight shifts of a byte one after the other, and each command run. -/
theorem crcSeedAndByteLoadTheAccumulator : Obligations.CrcSeedAndByteLoadTheAccumulator := by
  refine ⟨fun c d => repeat_fold crc8Bit 8 _, fun c d => repeat_fold crc16Bit 8 _, fun s hq => ⟨?_, ?_, ?_, ?_⟩⟩
  all_goals exact fun v => runCommand_quiet _ hq

/-- Settles O19: a block command that is allowed folds the region, and `bufferCheck` refuses any other. -/
theorem crcBlocksFoldTheRegion : Obligations.CrcBlocksFoldTheRegion := by
  intro s hq
  refine ⟨fun hin => ⟨?_, ?_⟩, fun hout i hi => ?_⟩
  · exact exec_completes (i := .crc8Block) hq hin rfl rfl
  · exact exec_completes (i := .crc16Block) hq hin rfl rfl
  · have hbuffer : firstFailing [bufferCheck s.x0 s.x1] = some .buffer :=
      if_neg fun hle => Nat.not_le.2 hout (of_decide_eq_true hle)
    have hfails : firstFailing (checksOf i s) = some .buffer := by rcases hi with rfl | rfl <;> exact hbuffer
    exact exec_refused hq hfails

theorem crc8_residual_iff (v : Byte) : v.setWidth 16 = crcResidual 1 ↔ v = 0x00 := by
  revert v; decide

/-- Settles O20: the residual of CRC-8 is 0x00 as a byte, that of CRC-16 is 0xB001. -/
theorem crcChecksTestTheResidual : Obligations.CrcChecksTestTheResidual := by
  intro s hq
  refine ⟨(runCommand_quiet _ hq).trans ?_, runCommand_quiet _ hq⟩
  simp only [← crc8_residual_iff]
  rfl

end Sys2Proof.Machine
end

section
/-! Proofs for the family 42_paged_memory.md: sealed packets and the chunks of a write (O22, O23), which commands open a read
stream (O29), the order of the checks (O32, O35), the session prologue (O36), and where the writes and the packet commands
complete, fail or meet a locked page (O42 to O44, O56). -/

namespace Sys2Proof.Machine

/-! Packets (42_paged_memory.md R176). -/

/-- A sealed sequence reaches the residual from the seed of its seal only (41_crc.md R146, R147). -/
theorem crc16_seal16_iff (p q : HWord) (body : List Byte) : crc16 q (body ++ seal16 p body) = 0xB001 ↔ q = p := by
  refine ⟨fun h => ?_, fun h => h ▸ crc16_seal16 p body⟩
  exact crc16_injective (body ++ seal16 p body) (h.trans (crc16_seal16 p body).symm)

/-- Settles O22: the packet's parts, and the one seed its seal fits. -/
theorem packetsAreBoundToTheirPage : Obligations.PacketsAreBoundToTheirPage := by
  intro p payload hlen
  refine ⟨packet_length p payload, ?_, ?_, fun q => crc16_seal16_iff _ q _⟩
  · calc (BitVec.ofNat 8 payload.length).toNat = payload.length % 256 := BitVec.toNat_ofNat ..
      _ = payload.length := Nat.mod_eq_of_lt hlen
  · simp [packet, slice]

/-! The chunks of a write (42_paged_memory.md R171). -/

theorem slice_append_drop (d : List Byte) {i j : Nat} (hij : i ≤ j) : slice d i j ++ d.drop j = d.drop i := by
  obtain ⟨m, rfl⟩ := Nat.exists_eq_add_of_le hij
  rw [slice, Nat.add_sub_cancel_left, ← List.drop_drop, List.take_append_drop]

/-- The chunks from byte `i` on are the bytes from `i` on, once the fuel is as much as the bytes left: each chunk takes one of
them at least. -/
theorem chunksFrom_flatten {c : Config} {k : Bank} (hsp : 1 ≤ c.spLen) (hpl : 1 ≤ k.pageLength) (r : Nat) (d : List Byte)
    (fuel : Nat) : ∀ i, d.length ≤ i + fuel →
      ((chunksFrom c k r d.length fuel i).map fun ch => slice d ch.i (ch.i + ch.m)).flatten = d.drop i := by
  induction fuel with
  | zero => exact fun i hi => (List.drop_of_length_le hi).symm
  | succ fuel ih =>
    intro i hi
    unfold chunksFrom
    split
    case isTrue hlt =>
      obtain ⟨hpos, -⟩ := chunkLength_bounds (c := c) hsp hpl (r + i) (d.length - i) (by omega)
      rw [List.map_cons, List.flatten_cons, ih _ (by omega)]
      exact slice_append_drop d (Nat.le_add_right _ _)
    case isFalse hge => exact (List.drop_of_length_le (by omega)).symm

/-- Settles O23: the cover by `chunksFrom_flatten`, the bounds of each chunk by `Chunk.Inside`. -/
theorem chunksCoverTheWrite : Obligations.ChunksCoverTheWrite := by
  intro c b r d hw hb
  obtain ⟨hpl, -⟩ := wf_bank hw hb
  have hsp : 1 ≤ c.spLen := by rcases wf_spLen hw with h | h | h <;> omega
  refine ⟨chunksFrom_flatten hsp hpl r d _ 0 (by omega), fun ch hch => ?_⟩
  have hin := chunksFrom_inside hsp hpl r d.length d.length 0 ch hch
  exact ⟨hin.pos, hin.stop, hin.full, hin.ta, hin.page, hin.fits, hin.group⟩

/-! The read stream (42_paged_memory.md R165). -/

/-- A stream open after transport procedures was open before them, and they issued no event. -/
theorem Rel.stream {α : Type} {v : State → α} {s t : State} (h : Rel v s t) (hopen : t.cont.valid = true) :
    t.cont = s.cont ∧ t.events = s.events := by
  have hclosed : ¬ t.cont.valid = false := by simp [hopen]
  refine ⟨h.cont.resolve_right hclosed, (h.events.eq_of_length_le ?_).symm⟩
  exact Nat.le_of_not_lt fun hlt => hclosed (h.contEvent hlt)

/-- Settles O29: only the last writes of a completed read set `cont`; an event ends any stream. -/
theorem onlyReadsOpenAStream : Obligations.OnlyReadsOpenAStream := by
  intro i s t hi hw hq h hopen
  cases quietCases_of hi hw hq h with
  | check c ht => subst ht; exact .inl ⟨rfl, rfl⟩
  | bus c u _ hbus ht =>
    subst ht
    rw [completeError_cont, hbus.1.contEvent hbus.2] at hopen
    cases hopen
  | ok u _ hwork ht =>
    obtain ⟨u', hrel, d, k, r, rfl, -, hk⟩ := hwork
    subst ht
    rcases hk with rfl | ⟨hreads, -, hbank⟩
    · exact .inl (hrel.stream hopen)
    · exact .inr ⟨hreads, rfl, hbank⟩
  | crc a b v _ ht => subst ht; exact .inl ⟨rfl, rfl⟩

/-! The checks (42_paged_memory.md R167, R175; 60_exceptions.md R308). -/

/-- Every bank command checks its bank first. -/
theorem checksOf_bank {i : Instr} {b : Nat} (hb : bankOf i = some b) (s : State) :
    ∃ rest, checksOf i s = bankChecks s b ++ rest := by
  cases i <;> cases hb <;> exact ⟨_, rfl⟩

/-- Settles O32: the first two checks of every bank command. -/
theorem absentAndControlBanksAreRefused : Obligations.AbsentAndControlBanksAreRefused := by
  intro i s b hq hb
  obtain ⟨rest, hchecks⟩ := checksOf_bank hb s
  refine ⟨fun habsent => exec_refused (c := .bank) hq ?_, fun hthere hcontrol => exec_refused (c := .control) hq ?_⟩
  · simp [hchecks, bankChecks, Nat.not_lt.2 habsent]
  · simp [hchecks, bankChecks, hthere, State.bank, hcontrol]

/-- The cause WRITE reports when it is not allowed (42_paged_memory.md R175). -/
def writeCause (s : State) (b : Nat) : Cause :=
  if s.cfg.nbanks ≤ b then .bank
  else if (s.cfg.bank b).generalPurpose = false then .control
  else if (s.cfg.bank b).readOnly = true then .readonly
  else if (s.cfg.bank b).pageCount * (s.cfg.bank b).pageLength < s.arg0.toNat + s.arg1.toNat then .range
  else if 256 < s.arg2.toNat + s.arg1.toNat then .buffer
  else if s.romValid = false then .rom
  else .nosecret

theorem firstFailing_write {s : State} {b : Nat} (h : ¬ Allowed (.write b) s) :
    firstFailing (checksOf (.write b) s) = some (writeCause s b) := by
  rw [allowed_iff] at h
  revert h
  simp only [checksOf, writeChecks, bankChecks, rangeCheck, bufferCheck, romCheck, commitAuthCheck, bufLen,
    List.cons_append, List.nil_append, firstFailing_cons, firstFailing_nil, decide_eq_true_eq, Bool.not_eq_true',
    State.bank, State.x0, State.x1, State.x2, writeCause, ← Nat.not_lt, ← Bool.not_eq_true, ite_not]
  split_ifs <;> simp

theorem writeCause_info (s : State) (b : Nat) : (writeCause s b).info =
    if s.cfg.nbanks ≤ b then 20
    else if (s.cfg.bank b).generalPurpose = false then 21
    else if (s.cfg.bank b).readOnly = true then 26
    else if (s.cfg.bank b).pageCount * (s.cfg.bank b).pageLength < s.arg0.toNat + s.arg1.toNat then 23
    else if 256 < s.arg2.toNat + s.arg1.toNat then 24
    else if s.romValid = false then 25
    else 32 := by
  simp only [writeCause, apply_ite Cause.info]
  rfl

/-- WRITE's last check alone is not of policy. -/
theorem writeCause_kind (s : State) (b : Nat) : (writeCause s b).kind =
    if s.cfg.nbanks ≤ b ∨ (s.cfg.bank b).generalPurpose = false ∨ (s.cfg.bank b).readOnly = true ∨
        (s.cfg.bank b).pageCount * (s.cfg.bank b).pageLength < s.arg0.toNat + s.arg1.toNat ∨
        256 < s.arg2.toNat + s.arg1.toNat ∨ s.romValid = false then .policy else .authentication := by
  simp only [writeCause, apply_ite Cause.kind, ite_or]
  rfl

/-- Settles O35: the model's checks are the spec's one by one (`specChecks_match`). -/
theorem commandsReportTheirFirstFailingCheck : Obligations.CommandsReportTheirFirstFailingCheck := by
  refine ⟨fun i s => ?_, fun i s before after holds kind number hq hchecks hbefore hfails => ?_, fun s b hq hnot => ?_⟩
  · rw [allowed_iff, firstFailing_none, forall_match (specChecks_match i s)]
  · obtain ⟨c, hc, rfl, rfl⟩ := firstFailing_match (specChecks_match i s) hchecks hbefore hfails
    exact exec_refused hq hc
  · dsimp only
    rw [← writeCause_kind, ← writeCause_info]
    exact exec_refused hq (firstFailing_write hnot)

/-! The session prologue (42_paged_memory.md R161), whatever the device answers. -/

theorem tReset_issues {s : State} (hq : s.quiet = true) : ∃ t, Issued s t [.reset] ∧ tReset s = .ok () t := by
  unfold tReset
  split <;> exact ⟨_, Issued.event _ _ _ _, event_quiet _ _ _ _ hq⟩

theorem tSelect_issues {s : State} (resume : Bool) (hq : s.quiet = true) :
    ∃ ok t, Issued s t [.select s.rom resume ok] ∧ tSelect resume s = .ok ok t := by
  refine ⟨(selectAnswer s).1, s.afterEvent (.select s.rom resume (selectAnswer s).1) (selectAnswer s).2.1
    (selectAnswer s).2.2, Issued.event _ _ _ _, ?_⟩
  unfold tSelect
  simp only [event_quiet _ _ _ _ hq]

/-- The prologue up to the check of the device's answer. -/
theorem selectDevice_issues {s : State} (hq : s.quiet = true) :
    ∃ ok t, Issued s t ((if s.speedVerified then [] else [.reset]) ++
        [.select s.rom (s.speedVerified && s.resumeEligible) ok]) ∧
      selectDevice s = (do
        ensure ok .select
        modify fun s => { s with speedVerified := true, resumeEligible := true } : Proc Unit) t := by
  unfold selectDevice
  rw [get_bind]
  cases hv : s.speedVerified with
  | true =>
    obtain ⟨ok, t, hissued, hrun⟩ := tSelect_issues (true && s.resumeEligible) hq
    exact ⟨ok, t, hissued, (bind_ok rfl).trans (bind_ok hrun)⟩
  | false =>
    obtain ⟨u, hreset, hrunReset⟩ := tReset_issues hq
    obtain ⟨ok, t, hissued, hrun⟩ := tSelect_issues (false && s.resumeEligible) (hreset.quiet hq)
    rw [hreset.rom] at hissued
    exact ⟨ok, t, hreset.trans hissued, (bind_ok hrunReset).trans (bind_ok hrun)⟩

theorem setSession_frame (s : State) (v r : Bool) : QuietFrame s { s with speedVerified := v, resumeEligible := r } :=
  ⟨⟨rfl, rfl, rfl, rfl, rfl, rfl, rfl, rfl, rfl, rfl, rfl, rfl, rfl, rfl, rfl, rfl, rfl, rfl, List.prefix_refl _⟩, rfl, rfl⟩

/-- Settles O36: the prologue's events, and then the device's answer. -/
theorem selectFollowsTheSessionPrologue : Obligations.SelectFollowsTheSessionPrologue := by
  intro s hq
  obtain ⟨ok, t, hissued, hrun⟩ := selectDevice_issues hq
  have htrace := hissued.exactly
  rw [← List.append_assoc] at htrace
  cases ok with
  | true =>
    exact ⟨true, { t with speedVerified := true, resumeEligible := true },
      hissued.toQuietFrame.trans (setSession_frame t true true), hissued.sp, hissued.cont, htrace,
      fun _ => ⟨hrun, rfl, rfl⟩, nofun⟩
  | false =>
    exact ⟨false, t, hissued.toQuietFrame, hissued.sp, hissued.cont, htrace, nofun,
      fun _ => ⟨hrun, hissued.speed, hissued.resume⟩⟩

/-! The packet read (42_paged_memory.md R177). -/

/-- READ_PAGE_PACKET after its page read. -/
theorem readPagePacket_begins {s : State} {b : Nat} {c : Bool} {pg : List Byte × List Byte} {es : List Event}
    {rest : Oracle} {n : Nat} (hq : s.quiet = true) (ha : Allowed (.readPagePacket b c) s)
    (hserved : WholePageServed s b s.arg0.toNat c pg es) (hd : s.dev = .oracle (answering es rest))
    (hn : (byteAt pg.1 0).toNat = n) :
    ∃ u, Wired (start s) es rest u ∧ exec (.readPagePacket b c) s = conclude ((do
      ensure (decide (n + 3 ≤ (s.bank b).pageLength)) .pktlenRead
      ensure (crc16 (BitVec.ofNat 16 s.x0) (slice pg.1 0 (n + 3)) == 0xB001) .pktcrc
      memWrite s.x1 (slice pg.1 1 (1 + n))
      setCont ⟨true, b, pageReadKind (s.bank b), (s.x0 + 1) * (s.bank b).pageLength⟩
      setResult (BitVec.ofNat 32 n) : Proc Unit) u) := by
  subst hn
  obtain ⟨u, hu, hwired⟩ := wholePage_served (s := start s) hserved hq hd
  exact ⟨u, hwired, (exec_allowed hq ha rfl).trans (congrArg conclude (bind_ok hu))⟩

/-- Settles O43: the page read, then the two checks of its packet. -/
theorem readPagePacketCompletes : Obligations.ReadPagePacketCompletes := by
  intro b c s pg es rest hq ha hserved hd
  dsimp only
  generalize hn : (byteAt pg.1 0).toNat = n
  obtain ⟨u, hwired, hexec⟩ := readPagePacket_begins hq ha hserved hd hn
  obtain ⟨hsel, hne⟩ := wholePage_selects hserved
  have hfails (cause : Cause) (hcause : cause ≠ .illegal) : ∃ t, t = completeError .bus cause u ∧
      Failed s t cause.kind cause.info es rest ∧ SameSecret s t ∧ t.sp = s.sp :=
    ⟨_, rfl, failed_of hwired.toRan hne cause hcause u.auth u.hostSecret u.sp,
      ⟨(completeError_auth ..).trans hwired.auth, (completeError_hostSecret ..).trans hwired.hostSecret⟩,
      (completeError_sp ..).trans hwired.sp⟩
  have hfits (hlen : n + 3 ≤ (s.bank b).pageLength) :=
    hexec.trans (congrArg conclude (bind_ok (ensure_pass (decide_eq_true hlen))))
  refine ⟨fun hlen hcrc => ?completes, fun hlong => ?tooLong, fun hlen hcrc => ?unsealed⟩
  case completes =>
    obtain ⟨hspeed, hresume⟩ := hwired.flags hsel
    refine ⟨completeOk { u.putData s.x1 (slice pg.1 1 (1 + n)) with
        cont := ⟨true, b, pageReadKind (s.bank b), (s.x0 + 1) * (s.bank b).pageLength⟩
        result := BitVec.ofNat 32 n },
      ?_, completed_of hwired.toRan _ _ _ u.auth u.hostSecret u.sp, ⟨hwired.auth, hwired.hostSecret⟩, hwired.sp,
      dataWritten_of hwired.data s.x1 _ rfl, rfl, rfl, hspeed, hresume⟩
    exact (hfits hlen).trans ((congrArg conclude (bind_ok (ensure_pass (beq_iff_eq.2 hcrc)))).trans rfl)
  case tooLong =>
    obtain ⟨t, rfl, ht⟩ := hfails .pktlenRead (by decide)
    exact ⟨_, hexec.trans (congrArg conclude (bind_error (ensure_stop (decide_eq_false (Nat.not_le.2 hlong))))), ht⟩
  case unsealed =>
    obtain ⟨t, rfl, ht⟩ := hfails .pktcrc (by decide)
    exact ⟨_, (hfits hlen).trans (congrArg conclude (bind_error (ensure_stop (beq_eq_false_iff_ne.2 hcrc)))), ht⟩

/-! The commands that write a range and report a length (42_paged_memory.md R174, R175, R178). -/

section Write

variable {i : Instr} {s : State} {b r : Nat} {d : List Byte} {v : Word} {es : List Event} {rest : Oracle}

/-- Past its checks, command `i` in state `s` writes `d` at byte `r` of bank `b` and reports `v`. -/
def Writes (i : Instr) (s : State) (b r : Nat) (d : List Byte) (v : Word) : Prop :=
  exec i s = conclude ((do writeRange b r d (s.wverify.getLsbD b); setResult v : Proc Unit) (start s))

theorem ofNat_x1 (s : State) : BitVec.ofNat 32 s.x1 = s.arg1 := by simp [State.x1]

theorem write_writes (hq : s.quiet = true) (ha : Allowed (.write b) s) (hn : 1 ≤ s.arg1.toNat) :
    Writes (.write b) s b s.arg0.toNat (dataRun s s.arg2.toNat s.arg1.toNat) s.arg1 := by
  obtain ⟨⟨hbank, -⟩, -⟩ := id ha
  unfold Writes
  rw [exec_allowed hq ha rfl, if_neg (show (start s).x1 ≠ 0 from Nat.ne_of_gt hn),
    writeVerify_eq (show b < (start s).cfg.nbanks from hbank), ofNat_x1]
  rfl

theorem writePagePacket_writes (hq : s.quiet = true) (ha : Allowed (.writePagePacket b) s) :
    Writes (.writePagePacket b) s b (s.arg0.toNat * (s.cfg.bank b).pageLength)
      (packet s.arg0.toNat (dataRun s s.arg2.toNat s.arg1.toNat)) s.arg1 := by
  obtain ⟨⟨hbank, -⟩, -⟩ := id ha
  unfold Writes
  rw [exec_allowed hq ha rfl, writeVerify_eq (show b < (start s).cfg.nbanks from hbank), ofNat_x1]
  rfl

theorem Writes.completes (hwrites : Writes i s b r d v) (hn : 1 ≤ d.length) (hq : s.quiet = true)
    (h : WriteServed s.link b r d (s.wverify.getLsbD b) es) (hd : s.dev = .oracle (answering es rest)) :
    ∃ t, exec i s = .next t ∧ Completed s t es rest ∧ SameSecret s t ∧ SameData s t ∧ t.selected ∧
      t.sp.phase = .idle ∧ t.result = v := by
  obtain ⟨u, hu, hran, hidle⟩ := writeRange_served (s := start s) hn rfl h hq hd
  exact ⟨completeOk { u with result := v }, hwrites.trans (congrArg conclude (bind_ok hu)),
    completed_of hran _ _ _ u.auth u.hostSecret u.sp, ⟨hran.auth, hran.hostSecret⟩, sameData_of hran.data,
    hran.selected (write_selects hn h), hidle, rfl⟩

theorem Writes.differs (hwrites : Writes i s b r d v) (hverify : s.wverify.getLsbD b = true) (hq : s.quiet = true)
    (h : WriteDiffers s.link b r d es) (hd : s.dev = .oracle (answering es rest)) :
    ∃ t, exec i s = .next t ∧ Failed s t .integrity 11 es rest ∧ SameSecret s t ∧ t.sp.phase = .idle := by
  unfold Writes at hwrites
  rw [hverify] at hwrites
  obtain ⟨u, hu, hran, hidle⟩ := writeRange_differs (s := start s) rfl h hq hd
  obtain ⟨hfailed, hsecret, hrecord⟩ := hran.failed (differs_selects h) .verify (by decide)
  exact ⟨_, hwrites.trans (congrArg conclude (bind_error hu)), hfailed, hsecret, hrecord ▸ hidle⟩

end Write

/-- Settles O42: no byte, or a range that is written. -/
theorem writeCompletes : Obligations.WriteCompletes := by
  intro b s hq ha
  refine ⟨fun hn => ?_, fun es rest hn hd => ?_⟩
  · exact exec_completes hq ha rfl (by rw [if_pos (show (start s).x1 = 0 from hn)]; rfl)
  · have hwrites := write_writes hq ha hn
    exact ⟨fun h => hwrites.completes (by rwa [dataRun_length]) hq h hd,
      fun h hverify => hwrites.differs hverify hq h hd⟩

/-- Settles O44: the packet is a range that is written. -/
theorem writePagePacketCompletes : Obligations.WritePagePacketCompletes := by
  intro b s es rest hq ha hd
  have hwrites := writePagePacket_writes hq ha
  exact ⟨fun h => hwrites.completes (by rw [packet_length]; omega) hq h hd,
    fun h hverify => hwrites.differs hverify hq h hd⟩

/-! Locked pages (42_paged_memory.md R170, R174). -/

/-- What a command that met a locked page before it moved anything leaves, `a` being what it makes of `auth_state`. -/
theorem RanSecret.locked {s u : State} {es : List Event} {rest : Oracle} (h : RanSecret (start s) es rest u)
    (hsel : es.any Event.selects = true) (hsp : u.sp = s.sp) (hsecret : u.hostSecret = s.hostSecret) (a : AuthState) :
    let t := completeError .bus .locked { u with auth := a }
    Failed s t .policy 27 es rest ∧ t.sp = s.sp ∧ t.hostSecret = s.hostSecret ∧ t.auth = a ∧ t.selected :=
  have hselected := Ran.selected h hsel
  ⟨failed_of h (ne_nil_of_selects hsel) .locked (by decide) a u.hostSecret u.sp, hsp, hsecret, rfl, hselected⟩

/-- The same of a command that leaves the secret state alone. -/
theorem Wired.locked {s u : State} {es : List Event} {rest : Oracle} (h : Wired (start s) es rest u)
    (hsel : es.any Event.selects = true) :
    let t := completeError .bus .locked u
    Failed s t .policy 27 es rest ∧ t.sp = s.sp ∧ t.hostSecret = s.hostSecret ∧ t.auth = s.auth ∧ t.selected := by
  have hran : RanSecret (start s) es rest u := Ran.ofSecret (a := s.auth) (v := s.hostSecret) h.toRan
  have hauth : { u with auth := s.auth } = u := by rw [← show u.auth = s.auth from h.auth]
  have hlocked := hran.locked hsel h.sp h.hostSecret s.auth
  rwa [hauth] at hlocked

theorem Writes.locked {i : Instr} {s : State} {b r : Nat} {d : List Byte} {v : Word} {es : List Event} {rest : Oracle}
    (hwrites : Writes i s b r d v) (hq : s.quiet = true)
    (h : LockFound s.link b (r / (s.bank b).pageLength) (pagesTouched (s.bank b) r d.length) es)
    (hd : s.dev = .oracle (answering es rest)) :
    ∃ t, exec i s = .next t ∧ Failed s t .policy 27 es rest ∧ t.sp = s.sp ∧ t.hostSecret = s.hostSecret ∧
      t.auth = s.auth ∧ t.selected := by
  obtain ⟨u, hu, hwired⟩ := writeRange_locked (s := start s) rfl h hq hd
  exact ⟨_, hwrites.trans (congrArg conclude (bind_error hu)), hwired.locked (lockFound_selects h)⟩

/-- A write into one page touches that page alone. -/
theorem lockFound_page {w : Link} {b p : Nat} {d : List Byte} {es : List Event} (h : LockFound w b p 1 es)
    (hpos : 1 ≤ d.length) (hfit : d.length ≤ (w.bank b).pageLength) :
    LockFound w b (p * (w.bank b).pageLength / (w.bank b).pageLength)
      (pagesTouched (w.bank b) (p * (w.bank b).pageLength) d.length) es := by
  obtain ⟨hpage, hone⟩ := pagesTouched_page (p := p) hpos hfit
  rwa [hpage, hone]

/-- One page is tested once. -/
theorem lockFound_one {w : Link} {b p : Nat} {es : List Event} (h : LockFound w b p 1 es) : LockTested w b p true es := by
  obtain ⟨j, e1, e2, hj, rfl, h1, h2⟩ := h
  obtain rfl : j = 0 := by omega
  obtain rfl : e1 = [] := h1
  exact h2

/-- INSTALL_SECRET ends at the page write of its first chunk. -/
theorem installBus_locked {s : State} {b slot p : Nat} {secret : List Byte} {es : List Event} {rest : Oracle}
    (hlen : 1 ≤ secret.length) (hpl : (s.bank b).pageLength = 32) (h : LockFound s.link b p 1 es) (hq : s.quiet = true)
    (hd : s.dev = .oracle (answering es rest)) :
    ∃ t, installBus b slot p secret s = .error (.raised .bus .locked) t ∧ Wired s es rest t := by
  obtain ⟨J, hJ⟩ : ∃ J, installCount secret.length = J + 1 := ⟨(secret.length - 1) / 47, by unfold installCount; omega⟩
  let S := secret ++ rep padByte (47 * (J + 1) - secret.length)
  have hchunk : (slice (slice S 0 47) 0 32).length = 32 := by
    simp [S, slice, rep]
    omega
  have hfound := lockFound_page h (d := slice (slice S 0 47) 0 32) (by omega) (by rw [hchunk, link_bank, hpl])
  obtain ⟨t, ht, hwired⟩ := writeRange_locked (check := writeVerify s b) rfl hfound hq hd
  rw [link_bank, hpl] at ht
  refine ⟨t, ?_, hwired⟩
  unfold installBus
  rw [get_bind, hJ]
  exact bind_error ((get_bind _ s).trans (bind_error ht))

theorem onBusError_raised {α : Type} {f : State → State} {p : Proc α} {s t : State} {c : Cause}
    (h : p s = .error (.raised .bus c) t) : onBusError f p s = .error (.raised .bus c) (f t) := by
  unfold onBusError; rw [h]

/-- Settles O56: each command at its first lock check that finds a locked page. -/
theorem lockedPagesAreNotWritten : Obligations.LockedPagesAreNotWritten := by
  intro b s es rest hq hd
  refine ⟨fun ha hn h => ?write, fun ha h => ?writePagePacket, fun ha h => ?spStage, fun slot ha hw h => ?installSecret,
    fun slot af ha hw h => ?bindSecret⟩
  case write => exact (write_writes hq ha hn).locked hq (by rwa [dataRun_length]) hd
  case writePagePacket =>
    obtain ⟨-, -, -, hfit, -⟩ := id ha
    have hlen := packet_length s.arg0.toNat (dataRun s s.arg2.toNat s.arg1.toNat)
    rw [dataRun_length] at hlen
    exact (writePagePacket_writes hq ha).locked hq (lockFound_page h (by omega) (hlen ▸ hfit)) hd
  case spStage =>
    obtain ⟨u, hu, hwired⟩ := lockCheck_served (s := start s) rfl (lockFound_one h) hq hd
    exact ⟨_, exec_raises hq ha rfl (bind_error hu), hwired.locked (lockFound_selects h)⟩
  case installSecret =>
    obtain ⟨⟨hbank, -⟩, hsha, -, -, hn, -⟩ := id ha
    obtain ⟨hpl, -⟩ := wf_sha hw hbank hsha
    obtain ⟨u, hu, hwired⟩ := installBus_locked (s := { start s with auth := .secretInstalling }) (slot := slot)
      (secret := dataRun s s.x2 s.x1) (by rwa [dataRun_length]) hpl h hq hd
    exact ⟨_, exec_raises hq ha rfl ((bind_ok (setAuth_run _ _)).trans (onBusError_raised hu)),
      RanSecret.locked (Ran.ofSecret (v := s.hostSecret) hwired.toRan) (lockFound_selects h) hwired.sp hwired.hostSecret
        .noSecret⟩
  case bindSecret =>
    obtain ⟨⟨hbank, -⟩, hsha, -⟩ := id ha
    obtain ⟨hpl, -⟩ := wf_sha hw hbank hsha
    have hfound := lockFound_page h (d := dataRun s s.x1 32) (by rw [dataRun_length]; decide)
      (by rw [dataRun_length]; exact hpl.ge)
    obtain ⟨u, hu, hwired⟩ := writeRange_locked (s := start s) (check := writeVerify s b) rfl hfound hq hd
    rw [show (s.link.bank b).pageLength = 32 from hpl] at hu
    exact ⟨_, exec_raises hq ha rfl (bind_error hu), hwired.locked (lockFound_selects h)⟩

end Sys2Proof.Machine
end

section
/-! Proofs for the family 43_scratchpad.md: what an error reports and what it leaves (O28), and where the completion poll ends
(O37). -/

namespace Sys2Proof.Machine

/-! The table of causes (60_exceptions.md R301, R305). -/

theorem cause_mem_causeTable (c : Cause) : (c, c.kind, c.info) ∈ causeTable := by
  cases c <;> decide

/-- Code 7 is reserved. -/
theorem ErrKind.code_ne_seven (k : ErrKind) : k.code ≠ 7 := by
  cases k <;> decide

/-- Of the causes a command may report only a PolicyError leaves the session verified (60_exceptions.md R304, step 5). -/
theorem Cause.unverifies_of_not_policy {c : Cause} (hlegal : c ≠ .illegal) (hkind : c.kind ≠ .policy) :
    c.kind.unverifies = true := by
  revert hlegal hkind
  cases c <;> decide

/-! What an error leaves, by its phase (60_exceptions.md R304). -/

/-- An error without an event is one of the check phase; any other error has ended the read stream. -/
theorem exec_error_phase {i : Instr} {s t : State} (hi : i.wf = true) (hw : s.cfg.wf = true) (hq : s.quiet = true)
    (h : exec i s = .next t) (herr : t.err ≠ .none) :
    (∃ c, t = completeError .check c (start s)) ∨ (bankOf i ≠ none ∧ t.cont.valid = false ∧ t.events ≠ s.events) := by
  cases quietCases_of hi hw hq h with
  | check c ht => exact .inl ⟨c, ht⟩
  | bus c u hbank hbus ht =>
    obtain ⟨hrel, hgrows⟩ := hbus
    subst ht
    rw [completeError_cont, completeError_events]
    exact .inr ⟨hbank, hrel.contEvent hgrows, fun hsame => hgrows.ne (congrArg List.length hsame.symm)⟩
  | ok u _ _ ht => subst ht; exact absurd rfl herr
  | crc a b v _ ht => subst ht; exact absurd rfl herr

/-- The session after an error of the bus phase. -/
theorem BusError.session {p0 : Scratch} {ph : Phase} {d : Cause} {u : State} (h : BusError p0 ph d u)
    (hkind : d.kind ≠ .policy) :
    (completeError ph d u).speedVerified = false ∧ (completeError ph d u).resumeEligible = false := by
  obtain ⟨rfl, ⟨hlegal, -⟩, -⟩ := h
  obtain ⟨hspeed, hresume⟩ := completeError_flags d u
  rw [hspeed, hresume, Cause.unverifies_of_not_policy hlegal hkind]
  exact ⟨rfl, rfl⟩

/-- A PolicyError of the bus phase is a lock check's (42_paged_memory.md R170, 44_otp.md R237). -/
theorem BusError.policy {p0 : Scratch} {ph : Phase} {d : Cause} {u : State} (h : BusError p0 ph d u)
    (hkind : d.kind = .policy) : d.info = 27 ∨ d.info = 28 := by
  obtain ⟨-, ⟨-, hlocks⟩, -⟩ := h
  rcases hlocks hkind with rfl | rfl
  · exact .inl rfl
  · exact .inr rfl

/-- The scratchpad record after an error of the bus phase (43_scratchpad.md R200). -/
theorem BusError.record {p0 : Scratch} {ph : Phase} {d : Cause} {u : State} (h : BusError p0 ph d u) :
    (u.sp = p0 ∨ u.sp.phase = .idle ∨ u.sp.phase = .unknown) ∧
      (d.info.toNat ∈ [4, 5, 6, 7, 8, 9, 10, 33] → u.sp.phase = .unknown) := by
  obtain ⟨-, -, hlost | ⟨hkept, -, hneutral⟩⟩ := h
  · exact ⟨.inr (.inr hlost), fun _ => hlost⟩
  · exact ⟨hkept.imp_right .inl, fun hin => absurd hin hneutral⟩

/-- Settles O28: a check's error by what `completeError` writes, a bus error by `exec_fails` and `exec_lost`. -/
theorem errorsReportTheirCauseAndFollowTheirPhase : Obligations.ErrorsReportTheirCauseAndFollowTheirPhase := by
  refine ⟨cause_mem_causeTable, fun i s t hi hw hq h herr => ?_⟩
  obtain ⟨c, -, hkind, hinfo⟩ := exec_cause i s t h herr
  refine ⟨⟨_, cause_mem_causeTable c, hkind, hinfo⟩, ErrKind.code_ne_seven _, fun hsame => ?check, fun hevents => ?bus⟩
  case check =>
    rcases exec_error_phase hi hw hq h herr with ⟨d, rfl⟩ | ⟨-, -, hevents⟩
    · rfl
    · exact absurd hsame hevents
  case bus =>
    rcases exec_error_phase hi hw hq h herr with ⟨d, rfl⟩ | ⟨hbank, hcont, -⟩
    · exact absurd rfl hevents
    · obtain ⟨ph, d, u, hbus, ht⟩ := exec_fails i s t hbank hq h herr hevents
      have hlost (b : Nat) (hproc : i = .spConfirm b ∨ i = .spStage b ∧ (s.cfg.bank b).lockBank = none ∨
          i = .spCommit b ∧ (s.cfg.bank b).authenticated = false) : t.sp.phase = .unknown := by
        obtain ⟨ph', d', u', ⟨-, -, hunknown⟩, rfl⟩ := exec_lost i b s t hproc hq h herr hevents
        rwa [completeError_sp]
      subst ht
      obtain ⟨hrecord, hinside⟩ := hbus.record
      rw [← completeError_sp ph d u] at hrecord hinside
      exact ⟨hcont, hbus.session, hbus.policy, hrecord, hinside, hlost⟩

/-! The completion poll (43_scratchpad.md R205). -/

/-- An oracle that answers byte reads holds their bytes in front of its own. -/
theorem answering_getBytes (l : List Byte) (rest : Oracle) :
    answering (l.map .getByte) rest = ⟨rest.selects, rest.exchanges, l ++ rest.gets⟩ := by
  induction l with
  | nil => rfl
  | cons v l ih => exact congrArg (Event.before (.getByte v)) ih

/-- The session adds nothing to byte reads. -/
theorem wire_getBytes (l : List Byte) (verified resumable : Bool) : wire verified resumable (l.map .getByte) = l.map .getByte := by
  induction l generalizing verified resumable with
  | nil => rfl
  | cons v l ih => exact congrArg (Event.getByte v :: ·) (ih _ _)

/-- Settles O37: the poll over its busy bytes, then at the byte that ends it, or at its limit. -/
theorem pollEndsAtTheFirstAnswer : Obligations.PollEndsAtTheFirstAnswer := by
  intro k N n v s rest hq
  refine ⟨fun hn hv hd => ?answered, fun hd => ?timedOut⟩
  case answered =>
    obtain ⟨t, hwired, hpoll⟩ := poll_last (k := k) (v := v) (rest := rest) hn hq
      (by rw [answering_getBytes, List.append_assoc]; exact hd)
    have hstops (haa : v ≠ 0xAA) (h55 : v ≠ 0x55) :
        poll k N s = .error (.raised .bus (if k.authenticated then .rejected else .commit)) t := by
      rw [hpoll, if_neg (by rw [isAlternating_iff]; exact not_or.2 ⟨haa, h55⟩), if_neg hv]
    refine ⟨t, hwired.toQuietFrame, hwired.dev, hwired.sp, ?_, fun hdone => ?_, fun haa h55 ha => ?_, fun haa h55 ha => ?_⟩
    · rw [hwired.trace, State.wire, wire_getBytes, List.map_append, List.map_replicate, ← List.append_assoc]
      rfl
    · rw [hpoll, if_pos ((isAlternating_iff v).2 hdone)]
    · rw [hstops haa h55, if_pos ha]
    · rw [hstops haa h55, if_neg (ne_true_of_eq_false ha)]
  case timedOut =>
    obtain ⟨t, hpoll, hwired⟩ := poll_busy (k := k) (N := 0) (rest := rest) N s hq (by rw [answering_getBytes]; exact hd)
    rw [Nat.zero_add] at hpoll
    refine ⟨t, hwired.toQuietFrame, hwired.dev, hwired.sp, ?_, hpoll⟩
    rw [hwired.trace, State.wire, wire_getBytes, List.map_replicate]

end Sys2Proof.Machine
end

section
/-! Proofs for the family 44_otp.md: the place of a bit of a control bank (O24), and where the lock and redirection commands
complete or fail (O48 to O51). -/

namespace Sys2Proof.Machine

/-! The bits of a control bank (44_otp.md R230, R232). -/

theorem byteIndex_eq (q : Nat) : byteIndex q = q / 8 := Nat.shiftRight_eq_div_pow q 3

/-- The mask of a bit is 1 at that bit alone. -/
theorem bitMask_getLsbD (q j : Nat) : (bitMask q).getLsbD j = decide (q % 8 = j) := by
  have hq : q % 8 < 8 := Nat.mod_lt q (by decide)
  have hbit : (bitMask q).getLsbD j = (decide (q % 8 < 8) && decide (q % 8 = j)) := BitVec.getLsbD_twoPow ..
  rw [hbit, decide_eq_true hq, Bool.true_and]

theorem mod_eq_of_bitMask_eq {q q' : Nat} (h : bitMask q = bitMask q') : q % 8 = q' % 8 := by
  have hset : (bitMask q).getLsbD (q' % 8) = true := by rw [h, bitMask_getLsbD, decide_eq_true rfl]
  exact of_decide_eq_true ((bitMask_getLsbD q _).symm.trans hset)

theorem lockByte_getLsbD (q : Nat) {j : Nat} (hj : j < 8) : (0xFF ^^^ bitMask q).getLsbD j = decide (j ≠ q % 8) := by
  have hones : (0xFF : Byte).getLsbD j = true := BitVec.getLsbD_allOnes.trans (decide_eq_true hj)
  rw [BitVec.getLsbD_xor, hones, bitMask_getLsbD, Bool.true_xor, decide_not, decide_eq_decide.2 eq_comm]

/-- The page of a bit and the byte in it make up its byte index. -/
theorem ctlPage_ctlByte (k : Bank) (q : Nat) : ctlPage k q * k.pageLength + ctlByte k q = q / 8 := by
  unfold ctlPage ctlByte
  rw [byteIndex_eq, Nat.div_add_mod']

/-- Settles O24: page and byte tell the bit's byte index, the mask its place in that byte. -/
theorem controlBitsHaveTheirOwnPlace : Obligations.ControlBitsHaveTheirOwnPlace := by
  refine ⟨fun k q q' _ hpage hbyte hmask => ?samePlace, fun k q hpl => ⟨?page, Nat.mod_lt _ hpl, ctlPage_ctlByte k q⟩,
    fun q j => lockByte_getLsbD q⟩
  case samePlace =>
    have hindex : q / 8 = q' / 8 := by rw [← ctlPage_ctlByte k q, hpage, hbyte, ctlPage_ctlByte]
    calc q = 8 * (q / 8) + q % 8 := (Nat.div_add_mod q 8).symm
      _ = 8 * (q' / 8) + q' % 8 := by rw [hindex, mod_eq_of_bitMask_eq hmask]
      _ = q' := Nat.div_add_mod q' 8
  case page =>
    unfold ctlPage
    rw [byteIndex_eq, Nat.div_div_eq_div_mul]

/-! The lock and redirection commands (44_otp.md R234 to R240). None writes DATA or moves a secret. -/

section Commands

variable {i : Instr} {s u : State} {l q : Nat} {es : List Event} {rest : Oracle}

/-- What a body that ran to its end and wrote RESULT last makes of the command. -/
theorem Ran.completes (h : Ran (start s) es rest u) (hsel : es.any Event.selects = true) (v : Word) :
    let t := completeOk { u with result := v }
    Completed s t es rest ∧ SameSecret s t ∧ SameData s t ∧ t.selected ∧ t.sp = u.sp ∧ t.result = v :=
  ⟨completed_of h _ _ v u.auth u.hostSecret u.sp, ⟨h.auth, h.hostSecret⟩, sameData_of h.data, h.selected hsel, rfl, rfl⟩

/-- Past its checks, command `i` in state `s` clears bit `q` of control bank `l` (44_otp.md R234, R239). -/
def ClearsBit (i : Instr) (s : State) (l q : Nat) : Prop :=
  exec i s = conclude ((do bitClear l q; setResult 1 : Proc Unit) (start s))

theorem ClearsBit.completes (hclears : ClearsBit i s l q) (hq : s.quiet = true) (h : BitClearSent s.link l q true es)
    (hd : s.dev = .oracle (answering es rest)) :
    ∃ t, exec i s = .next t ∧ Completed s t es rest ∧ SameSecret s t ∧ SameData s t ∧ t.selected ∧ t.sp.phase = .idle ∧
      t.result = 1 := by
  obtain ⟨u, hu, hran, hidle⟩ := bitClear_sent (s := start s) rfl h hq hd
  obtain ⟨hdone, hsecret, hdata, hselected, -, hresult⟩ := hran.completes (bitClear_selects h) 1
  exact ⟨_, hclears.trans (congrArg conclude (bind_ok hu)), hdone, hsecret, hdata, hselected, hidle, hresult⟩

theorem ClearsBit.fails (hclears : ClearsBit i s l q) (hq : s.quiet = true) (h : BitClearSent s.link l q false es)
    (hd : s.dev = .oracle (answering es rest)) :
    ∃ t, exec i s = .next t ∧ Failed s t .integrity 12 es rest ∧ SameSecret s t ∧ t.sp.phase = .idle := by
  obtain ⟨u, hu, hran, hidle⟩ := bitClear_sent (s := start s) rfl h hq hd
  obtain ⟨hfailed, hsecret, hrecord⟩ := hran.failed (bitClear_selects h) .lockbit (by decide)
  exact ⟨_, hclears.trans (congrArg conclude (bind_error hu)), hfailed, hsecret, hrecord ▸ hidle⟩

/-- Past its checks, command `i` in state `s` answers whether bit `q` of control bank `l` is cleared (44_otp.md R235, R240). -/
def TestsBit (i : Instr) (s : State) (l q : Nat) : Prop :=
  exec i s = conclude ((do let locked ← testBit l q; setResult (if locked then 1 else 0) : Proc Unit) (start s))

theorem TestsBit.completes {cleared : Bool} (htests : TestsBit i s l q) (hq : s.quiet = true)
    (h : BitRead s.link l q cleared es) (hd : s.dev = .oracle (answering es rest)) :
    ∃ t, exec i s = .next t ∧ Completed s t es rest ∧ SameSecret s t ∧ SameData s t ∧ t.sp = s.sp ∧ t.selected ∧
      t.result = if cleared then 1 else 0 := by
  obtain ⟨u, hu, hwired⟩ := testBit_served (s := start s) rfl h hq hd
  obtain ⟨hdone, hsecret, hdata, hselected, -, hresult⟩ := hwired.completes (bitRead_selects h) (if cleared then 1 else 0)
  exact ⟨_, htests.trans (congrArg conclude (bind_ok hu)), hdone, hsecret, hdata, hwired.sp, hselected, hresult⟩

end Commands

/-- A control page is the payload of its page (44_otp.md R231). -/
theorem readCtl_served {w : Link} {l cp : Nat} {pg : List Byte × List Byte} {es : List Event} {rest : Oracle} {s : State}
    (hw : s.link = w) (h : PageServed w l cp pg es) (hq : s.quiet = true) (hd : s.dev = .oracle (answering es rest)) :
    ∃ t, readCtl l cp s = .ok pg.1 t ∧ Wired s es rest t := by
  obtain ⟨t, ht, hwired⟩ := page_served hw h hq hd
  exact ⟨t, bind_ok ht, hwired⟩

/-- Settles O48: both commands are one `bitClear`. -/
theorem lockCommandsComplete : Obligations.LockCommandsComplete := by
  intro b l s es rest hq hd i q ha hi
  have hclears : ClearsBit i s l q := by
    rcases hi with ⟨rfl, hl, rfl⟩ | ⟨rfl, hl, rfl⟩
    all_goals
      obtain rfl : Option.getD _ 0 = l := congrArg (Option.getD · 0) hl
      exact exec_allowed hq ha rfl
  exact ⟨fun h => hclears.completes hq h hd, fun h => hclears.fails hq h hd⟩

/-- Settles O49: both queries are one `testBit`. -/
theorem lockQueriesComplete : Obligations.LockQueriesComplete := by
  intro b l s pg es rest hq hd i q ha hi hpage
  have htests : TestsBit i s l q := by
    rcases hi with ⟨rfl, hl, rfl⟩ | ⟨rfl, hl, rfl⟩
    all_goals
      obtain rfl : Option.getD _ 0 = l := congrArg (Option.getD · 0) hl
      exact exec_allowed hq ha rfl
  have hcompletes := htests.completes hq ⟨pg, hpage, rfl⟩ hd
  simp only [Bool.not_eq_true'] at hcompletes
  exact hcompletes

/-- Settles O50: the test of the redirect-lock bit, then one verified chunk. -/
theorem redirectPageCompletes : Obligations.RedirectPageCompletes := by
  intro b d s e1 e2 rest hq ha
  dsimp only
  intro hredir
  obtain rfl : Option.getD _ 0 = d := congrArg (Option.getD · 0) hredir
  refine ⟨fun hopen hchunk hd => ?redirects, fun hfrozen hd => ?frozen⟩
  case redirects =>
    rw [answering_append] at hd
    obtain ⟨t, ht, hwired⟩ := redirectLockCheck_served (s := start s) rfl hopen hq hd
    obtain ⟨u, hu, hran, hidle⟩ := writeChunk_served hwired.link hchunk (hwired.quiet hq) hwired.dev
    obtain ⟨hdone, hsecret, hdata, hselected, -, hresult⟩ := (hwired.toRan.trans hran).completes
      (by rw [List.any_append, chunk_selects hchunk, Bool.or_true]) (BitVec.ofNat 32 s.x1)
    exact ⟨_, exec_completes hq ha rfl ((bind_ok ht).trans ((bind_ok hu).trans rfl)), hdone, hsecret, hdata, hselected,
      hidle, hresult.trans (ofNat_x1 s)⟩
  case frozen =>
    obtain ⟨t, ht, hwired⟩ := redirectLockCheck_served (s := start s) rfl hfrozen hq hd
    have hsel := linkTested_selects hfrozen
    obtain ⟨hfailed, hsecret, hrecord⟩ := hwired.failed hsel .redirlocked (by decide)
    exact ⟨_, exec_raises hq ha rfl (bind_error ht), hfailed, hrecord.trans hwired.sp, hsecret, hwired.selected hsel⟩

/-- Settles O51: the page of the redirect byte, then `redirDec` of that byte. -/
theorem getRedirectedPageCompletes : Obligations.GetRedirectedPageCompletes := by
  intro b d s pg es rest hq ha hredir i hpage hd v
  obtain rfl : Option.getD _ 0 = d := congrArg (Option.getD · 0) hredir
  obtain ⟨u, hu, hwired⟩ := readCtl_served (s := start s) rfl hpage hq hd
  obtain ⟨hdone, hsecret, hdata, hselected, -, hresult⟩ := hwired.completes (page_selects hpage) (redirDec v)
  exact ⟨_, exec_completes hq ha rfl ((bind_ok hu).trans rfl), hdone, hsecret, hdata, hwired.sp, hselected, hresult⟩

end Sys2Proof.Machine
end

section
/-! Proofs for the family 45_auth.md: the secret state machine (O31). `SecretCases` tells how each of the three commands ends;
a bind or compute-next that fails is split at its device SHA step by the history since the command began. -/

namespace Sys2Proof.Machine

/-! How a secret command ends in a quiet state. -/

/-- No cause has the kind of a command that completed (60_exceptions.md R301). -/
theorem Cause.kind_ne_none (c : Cause) : c.kind ≠ .none := by
  cases c <;> decide

/-- Number 8 is the device SHA step's alone (60_exceptions.md R305). -/
theorem Cause.eq_sha_of_info {c : Cause} (h : c.info = 8) : c = .sha := by
  revert h
  cases c <;> decide

theorem slot_lt_of_fits {b slot : Nat} (h : (bankFits b && slotFits slot) = true) : slot < 8 :=
  of_decide_eq_true ((Bool.and_eq_true _ _).mp h).2

/-- The state of the secret after a command that completed. -/
theorem SecretCases.completed {s t : State} {keep : Bool} {done : AuthState} (h : SecretCases s keep done t)
    (hdone : t.done = true) (herr : t.err = .none) : t.auth = done := by
  cases h with
  | left u ht => subst ht; cases hdone
  | check d u _ _ _ ht => subst ht; exact absurd herr d.kind_ne_none
  | drop d u _ _ ht => subst ht; exact absurd herr d.kind_ne_none
  | keep d u _ _ _ _ ht => subst ht; exact absurd herr d.kind_ne_none
  | done u hauth _ ht => subst ht; exact hauth

/-- A command that fails has dropped the secret, but for a check's error, which has no event, and one that `keep` allows;
neither of these is the device SHA step's. -/
theorem SecretCases.failed {s t : State} {keep : Bool} {done : AuthState} (h : SecretCases s keep done t)
    (hq : s.quiet = true) (herr : t.err ≠ .none) :
    t.auth = .noSecret ∨ (t.result ≠ 8 ∧ (t.events = s.events ∨ keep = true)) := by
  have hnot {d : Cause} (hd : NotSha d) : d.info ≠ 8 := fun h8 => hd.2 (Cause.eq_sha_of_info h8)
  cases h with
  | left u ht => subst ht; exact absurd rfl herr
  | check d u _ hstart hd ht =>
    subst ht
    rw [hstart hq]
    exact .inr ⟨hnot hd, .inl rfl⟩
  | drop d u hauth _ ht => subst ht; exact .inl ((completeError_auth ..).trans hauth)
  | keep d u hkeep hd _ _ ht => subst ht; exact .inr ⟨hnot hd, .inr hkeep⟩
  | done u _ _ ht => subst ht; exact absurd rfl herr

/-- The three commands that move the secret: an install keeps it in no error of its bus phase. -/
theorem exec_secretCases {i : Instr} {s t : State} (hi : i.wf = true) (hw : s.cfg.wf = true) (h : exec i s = .next t)
    (hm : movesSecret i = true) :
    ((∃ b slot, i = .installSecret b slot) ∧ SecretCases s false .secretBound t) ∨
      ((∀ b slot, i ≠ .installSecret b slot) ∧ SecretCases s true .secretActive t) := by
  cases i with
  | installSecret b slot => exact .inl ⟨⟨b, slot, rfl⟩, installSecret_secret b slot s t hw (slot_lt_of_fits hi) h⟩
  | bindSecret b slot af =>
    exact .inr ⟨fun _ _ => Instr.noConfusion, bindSecret_secret b slot af s t hw (slot_lt_of_fits hi) h⟩
  | computeNextSecret b => exact .inr ⟨fun _ _ => Instr.noConfusion, computeNextSecret_secret b s t h⟩
  | _ => cases hm

/-! The split at the device SHA step (45_auth.md R260, R261). -/

/-- What `Frame_Sha` sends for page `p` of bank `k` (20_memory.md R92). -/
def shaFrame (k : Bank) (p : Nat) (fn : Byte) : List Byte := frameHead k.opcSha (pageAddr k p) ++ [fn]

/-- What it sends for page x[0] of bank `b` in a bind or compute-next (45_auth.md R266, R267). -/
def nextShaFrame (s : State) (b : Nat) : List Byte := shaFrame (s.bank b) s.x0 s.cfg.fnNextSecret

/-- Since `s` the device SHA step has not begun. -/
def BeforeSha (s : State) (b : Nat) (es : List Event) : Prop :=
  ∃ new, es = s.events ++ new ∧ ¬ SleptAfter (nextShaFrame s b) new

/-- The secret is the one `s` holds. -/
def HeldAs (s : State) (a : AuthState) (v : List Byte) : Prop := a = s.auth ∧ v = s.hostSecret

/-- A state of the command before its device SHA step. -/
abbrev Unbegun (s : State) (b : Nat) : State → Prop := Hist s.cfg (BeforeSha s b) (HeldAs s) fun _ => True

/-- How a bind or compute-next that began in `s` fails: with the secret kept before its device SHA step, dropped from there on. -/
def SplitAtSha (s : State) (b : Nat) (t : State) : Prop :=
  (BeforeSha s b t.events ∧ SameSecret s t) ∨
    (After (BeforeSha s b) (nextShaFrame s b) s.cfg.tShaMs t.events ∧ t.auth = .noSecret)

theorem not_sleptAfter_nil (out : List Byte) : ¬ SleptAfter out [] := by
  rintro ⟨before, after, a, ms, h⟩
  simp at h

theorem BeforeSha.not_began {s t : State} {b : Nat} (h : BeforeSha s b t.events) :
    ¬ ShaBegan s t b s.arg0.toNat s.cfg.fnNextSecret := by
  obtain ⟨new, hnew, hnot⟩ := h
  rintro ⟨before, after, a, hbegan⟩
  rw [hnew, List.append_assoc, List.append_assoc, List.append_cancel_left_eq] at hbegan
  exact hnot ⟨before, after, a, s.cfg.tShaMs, hbegan.trans (List.append_assoc ..).symm⟩

theorem After.began {s t : State} {b : Nat} (h : After (BeforeSha s b) (nextShaFrame s b) s.cfg.tShaMs t.events) :
    ShaBegan s t b s.arg0.toNat s.cfg.fnNextSecret := by
  obtain ⟨l, a, ⟨new, rfl, -⟩, after, hev⟩ := h
  exact ⟨new, after, a, hev.symm⟩

/-- What the split says of the secret. -/
theorem SplitAtSha.secret {s t : State} {b : Nat} (h : SplitAtSha s b t) :
    (ShaBegan s t b s.arg0.toNat s.cfg.fnNextSecret → t.auth = .noSecret) ∧
      (¬ ShaBegan s t b s.arg0.toNat s.cfg.fnNextSecret → SameSecret s t) := by
  rcases h with ⟨hbefore, hsame⟩ | ⟨hafter, hauth⟩
  · exact ⟨fun hbegan => absurd hbegan hbefore.not_began, fun _ => hsame⟩
  · exact ⟨fun _ => hauth, fun hnot => absurd hafter.began hnot⟩

/-- A quiet command that reports an error, by its body. -/
theorem SplitAtSha.of_run {s t : State} {b : Nat} {p : Proc Unit} (hq : s.quiet = true) (h : runCommand p s = .next t)
    (herr : t.err ≠ .none) (hp : Triple (· = start s) p (fun _ _ => True) fun _ _ => SplitAtSha s b) : SplitAtSha s b t := by
  rw [runCommand_quiet p hq] at h
  have hend := hp (start s) rfl
  cases hr : p (start s) with
  | ok x u => rw [hr] at h; cases h; exact absurd rfl herr
  | error e u =>
    rw [hr] at h hend
    cases e with
    | raised ph d =>
      cases h
      simpa only [SplitAtSha, SameSecret, completeError_events, completeError_auth, completeError_hostSecret] using hend
    | abandoned => cases h; exact absurd rfl herr
    | fault f => cases h
    | refused r => cases h

section Split

variable {α : Type} {s : State} {b : Nat} {P : State → Prop} {R : α → State → Prop} {X : List Event → Prop}
  {Y : AuthState → List Byte → Prop} {B : Nat → Prop} {c : Config}

theorem closed_beforeSha (s : State) (b : Nat) : Closed (nextShaFrame s b) (BeforeSha s b) :=
  closed_before (nextShaFrame s b) s.events

theorem unbegun_start (b : Nat) (hq : s.quiet = true) : Unbegun s b (start s) :=
  ⟨hq, rfl, ⟨[], (List.append_nil _).symm, not_sleptAfter_nil _⟩, ⟨rfl, rfl⟩, trivial⟩

/-- An error before the device SHA step. -/
theorem Triple.beforeSha {p : Proc α} (hp : Triple P p R (HistErr s.cfg (BeforeSha s b) (HeldAs s))) :
    Triple P p R fun _ _ => SplitAtSha s b :=
  hp.imp (fun _ h => h) (fun _ _ h => h) fun _ _ _ h => .inl ⟨h.2.events, h.2.sec⟩

/-- An error at or after the device SHA step, with the secret dropped. -/
theorem Triple.fromSha {p : Proc α}
    (hp : Triple P p R (HistErr s.cfg (After (BeforeSha s b) (nextShaFrame s b) s.cfg.tShaMs) Y)) :
    Triple P (onBusError Machine.dropSecret p) R fun _ _ => SplitAtSha s b := by
  intro u hu
  have hend := hp u hu
  cases hr : p u with
  | ok x t => rw [hr] at hend; rw [onBusError_ok hr]; exact hend
  | error e t =>
    rw [hr] at hend
    unfold onBusError
    rw [hr]
    cases e with
    | raised ph d =>
      obtain ⟨rfl, hist⟩ := hend
      exact .inr ⟨hist.events, rfl⟩
    | abandoned => trivial
    | fault f => trivial
    | refused r => trivial

/-- The start of a command: a check that fails leaves the state as it began. -/
theorem splits_checked {checks : State → List (Bool × Cause)} {f : State → Unit → Proc α} (hq : s.quiet = true)
    (hf : (∀ k ∈ checks (start s), k.1 = true) →
      Triple (Unbegun s b) (f (start s) ()) R fun _ _ => SplitAtSha s b) :
    Triple (· = start s) (get >>= fun s0 => require (checks s0) >>= f s0) R fun _ _ => SplitAtSha s b := by
  have hbegin := unbegun_start b hq
  rintro u rfl
  have hr := require_run (checks (start s)) (start s)
  rw [get_bind]
  cases hc : firstFailing (checks (start s)) with
  | some d => rw [hc] at hr; rw [bind_error hr]; exact .inl ⟨hbegin.events, hbegin.sec⟩
  | none => rw [hc] at hr; rw [bind_ok hr]; exact hf ((firstFailing_none _).1 hc) _ hbegin

/-- The device SHA step, however it ends. -/
theorem hist_shaStep (b p : Nat) (fn : Byte) :
    Triple (Hist c X Y B) (shaStep b p fn) (fun _ => Hist c (After X (shaFrame (c.bank b) p fn) c.tShaMs) Y B)
      (HistErr c (After X (shaFrame (c.bank b) p fn) c.tShaMs) Y) := by
  refine Triple.get_bind fun s0 => ?_
  rintro s ⟨hist, rfl⟩
  have hbank : s.bank b = c.bank b := congrArg (·.bank b) hist.cfg
  rw [hbank]
  exact Triple.bind (hist_frameSha _ _ _) (fun _ => Triple.hphase _) s hist

/-- A bind or compute-next from its staging on: `p` holds the device SHA step, and `q` raises nothing. -/
theorem splits_shaStage {sp15 : List Byte} {p q : Proc Unit}
    (hp : Triple (Hist s.cfg (BeforeSha s b) (fun _ _ => True) (· = b)) p (fun _ _ => True)
      (HistErr s.cfg (After (BeforeSha s b) (nextShaFrame s b) s.cfg.tShaMs) fun _ _ => True))
    (hlast : Triple (fun _ => True) q (fun _ _ => True) fun _ _ => SplitAtSha s b) :
    Triple (Unbegun s b) (do
      shaStage b s.x0 sp15
      onBusError dropSecret p
      q) (fun _ _ => True) fun _ _ => SplitAtSha s b :=
  Triple.bind (Triple.beforeSha (hist_shaStage (closed_beforeSha s b) b s.x0 sp15)) fun _ =>
    Triple.bind (Triple.fromSha (hp.imp (fun _ h => ⟨h.quiet, h.cfg, h.events, trivial, h.bank⟩) (fun _ _ h => h)
      fun _ _ _ h => h)) fun _ => hlast

end Split

/-- BIND_SECRET writes the page before it stages, and copies the secret into its slot after the device SHA step
(45_auth.md R266). -/
theorem bindSecret_splits {b slot : Nat} {af : Bool} {s t : State} (hw : s.cfg.wf = true) (hq : s.quiet = true)
    (h : exec (.bindSecret b slot af) s = .next t) (herr : t.err ≠ .none) : SplitAtSha s b t := by
  refine SplitAtSha.of_run hq h herr (splits_checked hq fun hpass => ?_)
  obtain ⟨hbank, -, -⟩ := bankChecks_pass hpass
  have hcopy := copySp_ne_sha hw hbank
  refine Triple.bind (Triple.beforeSha (hist_writeRange (closed_beforeSha s b) hcopy _ _ _)) fun _ =>
    splits_shaStage ?_ fun _ _ => trivial
  exact Triple.bind (hist_shaStep b s.x0 s.cfg.fnNextSecret) fun _ => Triple.bind (Triple.hsecret _ _ fun _ => trivial) fun _ =>
    (hist_slotCopy (closed_after (nextShaFrame s b) _ _ _) hcopy slot).imp (fun _ h => h) (fun _ _ _ => trivial)
      fun _ _ _ h => h

/-- COMPUTE_NEXT_SECRET reads the page before it stages (45_auth.md R267). -/
theorem computeNextSecret_splits {b : Nat} {s t : State} (hq : s.quiet = true)
    (h : exec (.computeNextSecret b) s = .next t) (herr : t.err ≠ .none) : SplitAtSha s b t := by
  refine SplitAtSha.of_run hq h herr (splits_checked hq fun _ => ?_)
  refine Triple.bind (Triple.beforeSha (hist_pageRead (closed_beforeSha s b) b s.x0 false)) fun _ =>
    splits_shaStage ?_ fun _ _ => trivial
  exact (hist_shaStep b s.x0 s.cfg.fnNextSecret).imp (fun _ h => h) (fun _ _ _ => trivial) fun _ _ _ h => h

/-- Settles O31: how a secret command ends is `SecretCases`, and where a bind or compute-next fails is `SplitAtSha`. -/
theorem secretStateMachine : Obligations.SecretStateMachine := by
  intro i s t hi hw hq h hm
  have hdone : t.done = true := (commandsLeaveTheHostRegisters i s t hi hw hq h).2.1
  have hcases := exec_secretCases hi hw h hm
  refine ⟨?installed, ?activated, ?refused, ?installFails, ?shaFails, ?split⟩
  case installed =>
    rintro herr b slot rfl
    rcases hcases with ⟨-, hsecret⟩ | ⟨hne, -⟩
    · exact hsecret.completed hdone herr
    · exact absurd rfl (hne b slot)
  case activated =>
    intro herr hne
    rcases hcases with ⟨⟨b, slot, rfl⟩, -⟩ | ⟨-, hsecret⟩
    · exact absurd rfl (hne b slot)
    · exact hsecret.completed hdone herr
  case refused =>
    intro herr hsame
    rcases exec_error_phase hi hw hq h herr with ⟨c, rfl⟩ | ⟨-, -, hevents⟩
    · exact ⟨completeError_auth .., completeError_hostSecret ..⟩
    · exact absurd hsame hevents
  case installFails =>
    rintro herr hevents b slot rfl
    rcases hcases with ⟨-, hsecret⟩ | ⟨hne, -⟩
    · rcases hsecret.failed hq herr with hauth | ⟨-, hsame | hkeep⟩
      · exact hauth
      · exact absurd hsame hevents
      · cases hkeep
    · exact absurd rfl (hne b slot)
  case shaFails =>
    intro herr h8
    have hfailed : t.auth = .noSecret ∨ t.result ≠ 8 := by
      rcases hcases with ⟨-, hsecret⟩ | ⟨-, hsecret⟩
      · exact (hsecret.failed hq herr).imp_right And.left
      · exact (hsecret.failed hq herr).imp_right And.left
    exact hfailed.resolve_right fun hne => hne h8
  case split =>
    rintro herr b (⟨slot, af, rfl⟩ | rfl)
    · exact (bindSecret_splits hw hq h herr).secret
    · exact (computeNextSecret_splits hq h herr).secret

end Sys2Proof.Machine
end

section
/-! Proofs for the family 60_exceptions.md: what a step with a command word runs (O5), how an illegal word ends (O6), that DATA
is written by a completed read alone (O27), and that a command that is not allowed is refused (O34). -/

namespace Sys2Proof.Machine

/-! Command words (60_exceptions.md R300, R310). -/

/-- An idle core starts the word written to CMD (10_state.md R33). -/
theorem regWrite_cmd {s : State} (hb : s.busy = false) (w : Word) : regWrite s 0x000 w = .start w s := by
  simp [regWrite, hb]

theorem step_commandWord {s : State} {w : Word} {early : Option Nat} {rest : List HostOp} (hw : s.cfg.wf = true)
    (hb : s.busy = false) (hs : s.host = ⟨.write 0x000 .b32 w, early⟩ :: rest) :
    step s = startWord w { s with host := rest } := by
  rw [step_access hw hs, hostPort_reg_write _ _ w (by decide) rfl, regWrite_cmd (s := { s with host := rest }) hb]
  rfl

theorem startWord_ok {w : Word} {i : Instr} (h : decode w = .ok i) (s : State) : startWord w s = exec i s := by
  simp [startWord, h]

theorem startWord_error {w : Word} {e : DecodeError} (h : decode w = .error e) (s : State) :
    startWord w s = execIllegal s := by
  simp [startWord, h]

/-- Settles O5: the port hands the word to `startWord`, and `withFetchWord` places a table word as it stands. -/
theorem stepRunsTheDecodedCommand : Obligations.StepRunsTheDecodedCommand := by
  refine ⟨fun s w early rest hw hb hs => ⟨fun i hi => ?_, fun e he => ?_⟩, fun s n i hw hn hi => ?_,
    fun s hw hs => step_noAccess hw hs⟩
  · rw [step_commandWord hw hb hs, startWord_ok hi]
  · rw [step_commandWord hw hb hs, startWord_error he]
  · have hplaced := withFetchWord_host s 32 n
    rw [leWord_tableWord n hn] at hplaced
    rw [step_commandWord (s := s.withFetchWord 32 n) hw rfl hplaced, startWord_ok hi]
    rfl

/-- Settles O6: ILLEGAL is one check that fails, so nothing but STATUS and RESULT changes. -/
theorem illegalWordCompletesAtOnce : Obligations.IllegalWordCompletesAtOnce := by
  intro s w e hq he
  rw [startWord_error he, execIllegal, runCommand_quiet _ hq]
  rfl

/-! What an error leaves (60_exceptions.md R304). -/

/-- Settles O27: only the last writes of a completed command that writes DATA change it. -/
theorem dataIsWrittenOnlyOnCompletion : Obligations.DataIsWrittenOnlyOnCompletion := by
  intro i s t hi hw hq h hnot
  refine sameData_of ?_
  cases quietCases_of hi hw hq h with
  | check c ht => subst ht; exact completeError_data ..
  | bus c u _ hbus ht => subst ht; rw [completeError_data]; exact hbus.1.data
  | ok u _ hwork ht =>
    obtain ⟨v, hrel, d, k, r, rfl, hd, -⟩ := hwork
    subst ht
    have hkept : d = v.data := hd.resolve_right fun ⟨hwrites, _⟩ =>
      hnot.elim (fun herr => herr rfl) fun hfalse => Bool.false_ne_true (hfalse.symm.trans hwrites)
    exact hkept.trans hrel.data
  | crc a b v _ ht => subst ht; rfl

/-- Settles O34: a command that is not allowed has a first check that fails, and all checks are of these two kinds. -/
theorem commandsNotAllowedAreRefusedByACheck : Obligations.CommandsNotAllowedAreRefusedByACheck := by
  intro i s hq hnot
  rw [allowed_iff] at hnot
  obtain ⟨c, hc⟩ := Option.ne_none_iff_exists'.1 hnot
  exact ⟨c, checksOf_kind i s _ (firstFailing_mem _ c hc), exec_refused hq hc⟩

end Sys2Proof.Machine
end

section
/-! Proofs for the family 70_reset_and_hazards.md: every command completes (O8). -/

namespace Sys2Proof.Machine

/-- Settles O8: only an illegal host access that lands while a command runs can stop it, and the host's list holds none. -/
theorem everyCommandAnswersNext : Obligations.EveryCommandAnswersNext := by
  intro i s hi hw hl
  obtain ⟨t, hnext, -⟩ := (exec_answers i s hi hw).next_of_legal hl
  exact ⟨t, hnext⟩

end Sys2Proof.Machine
end
